-- ==== Sys2Proof/Word.lean ====
section
/-! DEFINITION. The value types that every file uses: bytes, words and the numbers of the part's fixed tables. -/

namespace Sys2Proof

/-- One byte, of the trunk or of local memory. -/
abbrev Byte := BitVec 8

/-- A 16-bit value. -/
abbrev Half := BitVec 16

/-- A 32-bit value: an address, a counter or a node time. -/
abbrev Word := BitVec 32

/-- A channel number, 0 to 255. -/
abbrev Chan := Fin 256

/-- A receive pool, 0 to 3. -/
abbrev PoolId := Fin 4

/-- A transmit ring, which is also a transmit class, 0 to 3. -/
abbrev RingId := Fin 4

/-- A send slot, 0 to 63. -/
abbrev SlotId := Fin 64

/-- A context cache entry, 0 to 15. -/
abbrev EntryId := Fin 16

/-- A node number, 0 to 63. -/
abbrev Node := BitVec 6

/-- The 48 bytes of a cell as the trunk carries them (R1). -/
abbrev RawCell := Vector Byte 48

end Sys2Proof
end

