-- ==== Sys2Proof/Syntax.lean ====
section
/-! DEFINITION. The commands of the block: one constructor for each row of spec/opcode_table.json. -/

namespace Sys2Proof

/-- The result field of a bus response (R140). -/
inductive BusResult where
  | ok
  | error
  deriving DecidableEq, Repr

/-- The steps of the part, one constructor for each row of the opcode table.
An operand is what the step takes in from outside (straps, trunk bytes, a bus response) or the object the step is
about where several could be (a channel, a pool). The management commands have no operand: their arguments stand in
the command cell the agent holds (R152, R175). -/
inductive Instr where
  /-- RESET is asserted (R150). -/
  | resetAsserted
  /-- RESET is released with the straps NODE5 to NODE0 at this value (R169, R171). -/
  | resetReleased (straps : Node)
  /-- A tick of 100 microseconds (R170). -/
  | tick
  /-- The timeout scanner examines this channel (R53). -/
  | deadlineReached (channel : Chan)
  /-- The poll countdown has reached 0 (R113). -/
  | intervalPoll
  /-- The oldest LIVE request whose timer has run out expires (R145). -/
  | requestTimeout
  /-- A rising edge of ATTN (R203). -/
  | attnEdge
  /-- A trial cell start in HUNT: the eight inbound bytes from the trial offset on (R8). -/
  | huntTrial (header : Vector Byte 8)
  /-- The cell at the trial alignment in PRESYNC (R9). -/
  | presyncCell (cell : RawCell)
  /-- A cell arriving at the alignment in SYNC (R10). -/
  | syncCell (cell : RawCell)
  /-- An outbound position comes due (R14). -/
  | outboundPosition
  /-- The engine begins applying the oldest applicable held cell (R37). -/
  | applyCell
  /-- The pending abort of this channel is applied (R38). -/
  | applyPendingAbort (channel : Chan)
  /-- The Delivery Unit takes the reserve request at the head of this pool's requests (R100). -/
  | reserve (pool : PoolId)
  /-- The Delivery Unit takes the take request at the head of this pool's requests (R93). -/
  | take (pool : PoolId)
  /-- The Delivery Unit takes the completion request at the head of this pool's requests (R102). -/
  | completionWrite (pool : PoolId)
  /-- The port grants a waiting request (R142). -/
  | requestGrant
  /-- The bus accepts the granted request (R140). -/
  | busAccept
  /-- A response arrives from the bus (R140, R144). -/
  | memoryResponse (result : BusResult) (data : List Byte)
  /-- The work of this channel's unbind ends (R56). -/
  | channelUnbound (channel : Chan)
  /-- The Event Writer begins to serve the head event (R199). -/
  | eventServe
  /-- The agent takes the head of the command queue (R155). -/
  | commandTake
  /-- The response held in ANSWERING joins the response queue (R164). -/
  | responseHandover
  | ident
  | claim
  | release
  | manager
  | setLocalMap
  | setPool
  | setTxring
  | setSend
  | setEvents
  | setNode
  | writeCircuit
  | readCircuit
  | bindChannel
  | unbindChannel
  | readChannel
  | readContext
  | syncContexts
  | start
  | stop
  /-- Both drains of a STOP are complete (R167). -/
  | stopDrainComplete
  | nodeReset
  /-- The port is quiet in RESET_WAIT (R173). -/
  | nodeResetTakesEffect
  | readCounters
  deriving DecidableEq, Repr

end Sys2Proof
end

