-- ==== Sys2Proof/Decode.lean ====
section
/-! DEFINITION. The command a word spells by the opcode table's bits. -/

namespace Sys2Proof

/-- The opcode table gives no row any bits (every row's "fields" is empty and none has "fixed"), so no word spells a
command. Assumption 3. -/
def decodeTableWord (_nbits _w : Nat) : Option Instr := none

end Sys2Proof
end

