-- ==== Sys2Proof/Config.lean ====
section
/-! DEFINITION. What the manual leaves open and the machine goes on with: the free values. -/

namespace Sys2Proof

/-- The bytes of a READ that the bus answers OK with fewer bytes than were asked for.
R140 gives a READ answered OK exactly `length` bytes, and R144 says that a late answer to a request removed by a
reset is paired with another entry. The manual states no value for the bytes that are then missing.
The first argument is the count of such reads so far (`State.freeReads`), the second the byte's index.
Assumption 2. -/
opaque Config.freeByte : Nat → Nat → Byte

end Sys2Proof
end

