-- ==== Sys2Proof/Machine/State.lean ====
section
/-! DEFINITION. The state of the part as plain data, block by block, and its value right after power-on reset.
Default values are the power-on values that the blocks' chapters state. -/

namespace Sys2Proof.Machine

/-! ## Cells -/

/-- The kind of a cell, in the order of its codes 0 to 3 (R1). -/
inductive Kind where
  | empty | data | mgmtCmd | mgmtRsp
  deriving DecidableEq, Repr

/-- The position of a cell in its message, in the order of its codes 0 to 3 (R1). -/
inductive Position where
  | middle | first | last | only
  deriving DecidableEq, Repr

/-- The fields of a cell (R1). The header check is computed when the cell is sent (R2). -/
structure Cell where
  kind : Kind
  position : Position
  seq : BitVec 4
  dest : Node
  src : Node
  label : BitVec 11
  fill : BitVec 6
  hops : BitVec 4
  payload : Vector Byte 40
  deriving DecidableEq, Repr

/-! ## Cell Framer (CF) -/

/-- Delineation states (R7). -/
inductive Delineation where
  | hunt | presync | sync
  deriving DecidableEq, Repr

/-- What a departure position will carry (R14): nothing yet (it is free), a passing cell or a forwarded cell. -/
inductive Departure where
  | free
  | passed (cell : Cell)
  | forwarded (cell : Cell)
  deriving DecidableEq, Repr

/-- The framer's state (R7, R14 to R16). -/
structure Framer where
  delineation : Delineation := .hunt
  /-- The offset in the inbound stream at which the confirmed or trial alignment was found (R7, R8). -/
  alignment : Option Nat := none
  goodRun : Nat := 0
  badRun : Nat := 0
  /-- The model's count: the inbound offset of the next trial or cell start. Assumption 5. -/
  streamPos : Nat := 0
  /-- SYNC has been entered and no inbound position has been acted on yet (R16). -/
  changeover : Bool := false
  /-- The departure positions that are owed, oldest first (R14). -/
  transit : List Departure := []
  /-- The cell last sent on Trunk-Out. -/
  trunkOut : Option RawCell := none
  deriving DecidableEq, Repr

/-! ## Circuit Classifier (CC) -/

/-- Circuit actions, in the order of their codes 0 to 4 (R18). -/
inductive CircuitAction where
  | unused | terminate | forward | tap | block
  deriving DecidableEq, Repr

/-- A circuit entry (R18). -/
structure Circuit where
  action : CircuitAction := .unused
  channel : Chan := 0
  newDest : Node := 0
  newLabel : BitVec 11 := 0
  matched : Word := 0
  deriving DecidableEq, Repr

/-- The classifier's state (R18, R26). -/
structure Classifier where
  circuits : Vector Circuit 2048 := Vector.replicate 2048 {}
  rspChannel : Option Chan := none
  deriving DecidableEq, Repr

/-! ## Reassembly Engine (RE) -/

/-- Binding states, in the order of their codes 0 to 3 (R33, R189). -/
inductive Binding where
  | unbound | bound | unbinding | faulted
  deriving DecidableEq, Repr

/-- Where a channel's context is (R33). -/
inductive Residence where
  | stored
  | fetching
  | cached (entry : EntryId)
  | writeback
  deriving DecidableEq, Repr

/-- An abort that is due, in the order of its codes 0 to 2 (R33, R189). -/
inductive PendingAbort where
  | none | holdfull | timeout
  deriving DecidableEq, Repr

/-- Receive status codes 0 to 12, in order (R51). -/
inductive RxStatus where
  | ok | seq | crc | toolong | runt | nolast | peerabort | timeout | holdfull | unbound | stopped | nobuf | memerr
  deriving DecidableEq, Repr

/-- The answer to a memory request (R147). -/
inductive Answer where
  | ok | error | timeout
  deriving DecidableEq, Repr

/-- What made a close begin, and so what follows it (R50, R51, R38). -/
inductive CloseCause where
  /-- The handling of this cell, which ends with the close. -/
  | cell (c : Cell)
  /-- The handling of this cell, which resumes when the close is finished (R43, R52). -/
  | resume (c : Cell)
  /-- A pending abort, which becomes none when the close is finished (R38). -/
  | abort
  /-- The timeout scanner, an unbind or a stop. -/
  | owner
  deriving DecidableEq, Repr

/-- The memory operation of a channel that is outstanding (R34), with the cell under application. -/
inductive ChanOp where
  | reserve (cell : Cell)
  | take (cell : Cell) (first : Bool)
  /-- A payload write. Each half holds its answer once it is given (R148); an unsplit write's second half is OK. -/
  | write (cell : Cell) (half1 half2 : Option Answer)
  | close (status : RxStatus) (cause : CloseCause)
  deriving DecidableEq, Repr

/-- A channel table entry (R33). `waiting` is read from `op` (Flags: Channel.waiting). -/
structure Channel where
  binding : Binding := .unbound
  pool : PoolId := 0
  maxBody : Half := 0
  limit : Half := 0
  msgOpen : Bool := false
  deadline : Word := 0
  residence : Residence := .stored
  op : Option ChanOp := none
  pendingAbort : PendingAbort := .none
  fresh : Bool := false
  poolReset : Bool := false
  deriving DecidableEq, Repr

/-- An entry of the hold queue (R35). -/
structure HeldCell where
  channel : Chan
  cell : Cell
  deriving DecidableEq, Repr

/-- The engine's state: the channel table, the hold queue and the timeout scanner. -/
structure Reassembly where
  channels : Vector Channel 256 := Vector.replicate 256 {}
  hold : List HeldCell := []
  /-- A tick has come since which the scanner examines channels (R53). -/
  scanOpen : Bool := false
  /-- The channels examined since that tick. -/
  scanned : List Chan := []
  deriving DecidableEq, Repr

/-! ## Context Cache (XC) -/

/-- Reassembly states (R39). -/
inductive CtxState where
  | idle | assembling | discarding
  deriving DecidableEq, Repr

/-- An entry of a message's buffer list (R39). -/
structure Buffer where
  cookie : Word
  used : Half
  addr : Word
  deriving DecidableEq, Repr

/-- An on-chip context (R39). The buffer count is the length of the buffer list. -/
structure Context where
  state : CtxState := .idle
  expectedSeq : BitVec 4 := 0
  buffers : List Buffer := []
  bytesSoFar : Word := 0
  crc : Word := 0
  offset : Half := 0
  lastCode : Half := 0
  msgsOk : Word := 0
  msgsBad : Word := 0
  strayCells : Word := 0
  cellsAccepted : Word := 0
  deriving DecidableEq, Repr

/-- What a VALID cache entry holds (R63, R67, R84). -/
structure ValidEntry where
  channel : Chan
  ctx : Context
  dirty : Bool
  newlyFilled : Bool
  /-- A synchronising write of the entry is in flight. -/
  syncing : Bool := false
  /-- The engine has changed the context since that write was issued. -/
  changed : Bool := false
  deriving DecidableEq, Repr

/-- A cache entry (R63). -/
inductive CacheEntry where
  | free
  | filling (channel : Chan)
  | valid (v : ValidEntry)
  | writing (channel : Chan) (claimant : Option Chan) (note : Bool)
  deriving DecidableEq, Repr

/-- What a READ_CONTEXT under way awaits (R86). -/
inductive CtxReadStage where
  | fill | writeBack | store
  deriving DecidableEq, Repr

/-- A READ_CONTEXT under way (R86). -/
structure CtxRead where
  channel : Chan
  part : Fin 4
  stage : CtxReadStage
  deriving DecidableEq, Repr

/-- The cache's state (R63, R64, R72, R74, R84, R86). -/
structure Cache where
  entries : Vector CacheEntry 16 := Vector.replicate 16 .free
  /-- The VALID entries, least recently used first (R64). -/
  recency : List EntryId := []
  /-- The Fetch Wait List (R72). -/
  waitList : List Chan := []
  storeBase : Word := 0
  /-- The members of the sync set whose turn has not come (R84). -/
  syncSet : List (EntryId × Chan) := []
  ctxRead : Option CtxRead := none
  deriving DecidableEq, Repr

/-! ## Delivery Unit (DU) -/

/-- Pool states (R90). -/
inductive PoolState where
  | unconfigured | active | faulted
  deriving DecidableEq, Repr

/-- A request that waits for a pool (R91). A completion request carries the 64 bytes of its record (R97). -/
inductive DuRequest where
  | reserve (channel : Chan)
  | take (channel : Chan)
  | complete (channel : Chan) (record : List Byte)
  deriving DecidableEq, Repr

/-- The memory access of the request a pool has in progress (R91). -/
inductive DuAccess where
  | ownerRead (channel : Chan)
  | freeRead (channel : Chan) (examined : Nat)
  | freeTaken (channel : Chan) (cookie addr : Word)
  | freeRejected (channel : Chan) (examined : Nat) (detail : Nat)
  | recordWrite (channel : Chan)
  deriving DecidableEq, Repr

/-- A receive pool (R89, R90, R95, R99). -/
structure Pool where
  freeBase : Word := 0
  freeSize : Nat := 0
  complBase : Word := 0
  complSize : Nat := 0
  bufSize : Nat := 0
  notify : Bool := false
  state : PoolState := .unconfigured
  freePos : Nat := 0
  writePos : Nat := 0
  knownFree : Nat := 0
  reserved : Nat := 0
  requests : List DuRequest := []
  access : Option DuAccess := none
  deriving DecidableEq, Repr

/-! ## Segmentation Unit (SU) -/

/-- Transmit ring states (R111). -/
inductive RingState where
  | unconfigured | idle | waitSlot | sending | faulted
  deriving DecidableEq, Repr

/-- Transmit status codes 0 to 5, in order (R112). -/
inductive TxStatus where
  | done | badlen | badslot | slotoff | cut | memerr
  deriving DecidableEq, Repr

/-- What the part has read of a head descriptor (R112). -/
structure TxDesc where
  slot : Byte
  notifyThis : Bool
  length : Half
  addr : Word
  deriving DecidableEq, Repr

/-- The descriptor access of a ring that is in flight (R114, R116). -/
inductive TxAccess where
  | ownerRead
  | addrRead
  | tickWrite (status : TxStatus)
  | ownerWrite
  deriving DecidableEq, Repr

/-- The message a SENDING ring works on (R119 to R123). -/
structure TxMsg where
  slot : SlotId
  /-- The next cell whose body bytes are to be read, counted from 1. -/
  nextRead : Nat := 1
  /-- The next cell to be built, counted from 1. -/
  nextBuild : Nat := 1
  /-- The CRC-32 register over the body bytes taken in. -/
  crc : Word := 0xFFFFFFFF
  /-- The cells of the message that have left. -/
  sent : Nat := 0
  /-- The status of a message ended early (R123). -/
  ended : Option TxStatus := none
  deriving DecidableEq, Repr

/-- A transmit ring with its staging FIFO (R110, R111, R120). -/
structure TxRing where
  base : Word := 0
  size : Nat := 0
  weight : Nat := 0
  notify : Bool := false
  head : Nat := 0
  state : RingState := .unconfigured
  access : Option TxAccess := none
  desc : Option TxDesc := none
  msg : Option TxMsg := none
  fifo : List Cell := []
  /-- The model's count of messages started and ended early, by which an answer to a body read of an earlier message
  is told apart (R123). Assumption 17. -/
  gen : Nat := 0
  deriving DecidableEq, Repr

/-- The kind of a send slot, in the order of its codes (R117). -/
inductive SlotKind where
  | data | mgmt
  deriving DecidableEq, Repr

/-- A send slot (R117). -/
structure SendSlot where
  kind : SlotKind := .data
  dest : Node := 0
  label : BitVec 11 := 0
  hops : BitVec 4 := 0
  enabled : Bool := false
  nextSeq : BitVec 4 := 0
  holder : Option RingId := none
  lockQueue : List RingId := []
  deriving DecidableEq, Repr

/-- The Segmentation Unit's state (R110, R113, R117). -/
structure Segmentation where
  rings : Vector TxRing 4 := Vector.replicate 4 {}
  slots : Vector SendSlot 64 := Vector.replicate 64 {}
  txPoll : Byte := 0
  countdown : Byte := 0
  deriving DecidableEq, Repr

/-! ## Insertion Arbiter (IA) -/

/-- A management response waiting for a free position; `reset` marks the response to NODE_RESET (R134, R135). -/
structure QueuedResponse where
  cell : Cell
  reset : Bool
  deriving DecidableEq, Repr

/-- The arbiter's state (R131). -/
structure Arbiter where
  responses : List QueuedResponse := []
  pointer : Fin 4 := 0
  runCount : Nat := 0
  deriving DecidableEq, Repr

/-! ## Local Memory Port (LMP) -/

/-- The five requesters, in cycle order (R141, R142). -/
inductive Requester where
  | ctx | dlv | seg | evt | agt
  deriving DecidableEq, Repr

/-- The direction of a transaction (R140). -/
inductive Direction where
  | read | write
  deriving DecidableEq, Repr

/-- What a requester has made a request for, by which it knows the answer. Assumption 6. -/
inductive RequestTag where
  | fill (entry : EntryId) (channel : Chan)
  | writeBack (entry : EntryId) (channel : Chan)
  | syncWrite (entry : EntryId) (channel : Chan)
  /-- The access of this pool's request in progress. -/
  | pool (pool : PoolId)
  | payload (channel : Chan) (second : Bool)
  /-- The descriptor access of this ring. -/
  | descriptor (ring : RingId)
  | body (ring : RingId) (gen : Nat)
  | event
  | ctxRead
  deriving DecidableEq, Repr

/-- A request (R140). -/
structure Request where
  requester : Requester
  direction : Direction
  addr : Word
  length : Nat
  data : List Byte
  tag : RequestTag
  deriving DecidableEq, Repr

/-- An entry of the order list (R143). -/
structure OrderEntry where
  request : Request
  timer : Nat
  live : Bool
  deriving DecidableEq, Repr

/-- The port's state (R141 to R146). -/
structure Port where
  ctx : List Request := []
  dlv : List Request := []
  seg : List Request := []
  evt : List Request := []
  agt : List Request := []
  pointer : Requester := .agt
  /-- The request granted and offered to the bus, not yet accepted. -/
  offered : Option Request := none
  order : List OrderEntry := []
  memTimeout : Byte := 10
  deriving DecidableEq, Repr

/-! ## Management Agent (MA) -/

/-- Node states, in the order of their codes 0 to 3 (R166). -/
inductive NodeState where
  | unconfigured | stopped | running | stopping
  deriving DecidableEq, Repr

/-- The tag and the response payload last stored for a manager; the fill is the payload's length (R159). -/
structure StoredResponse where
  tag : Half
  payload : List Byte
  deriving DecidableEq, Repr

/-- A listed manager with its response memory (R158, R159). -/
structure Manager where
  node : Node
  memory : Option StoredResponse
  deriving DecidableEq, Repr

/-- A response the agent has built: the command it answers, the valid payload bytes, and whether the command was
executed (and not DENIED or repeated from the response memory). -/
structure Reply where
  cmd : Cell
  payload : List Byte
  executed : Bool
  deriving DecidableEq, Repr

/-- Agent states (R155). -/
inductive AgentState where
  | ready
  /-- A command is in hand; `long` says that its owner has taken it and works on it (R163). -/
  | working (cmd : Cell) (long : Bool)
  | answering (reply : Reply)
  | resetSent
  | resetWait
  deriving DecidableEq, Repr

/-- The agent's state (R154, R155, R158, R166, R169, R170). -/
structure Agent where
  queue : List Cell := []
  state : AgentState := .ready
  managers : List Manager := []
  nodeState : NodeState := .unconfigured
  nodeId : Node := 0
  nodeTime : Word := 0
  deriving DecidableEq, Repr

/-! ## Event Writer (EW) -/

/-- Event kinds, in the order of their codes 1 to 11 (R196). -/
inductive EventKind where
  | syncLost | syncGained | nobufStart | nocompl | holdOverflow | channelFault | poolFault | txringFault
  | freeRejected | nodeState | config
  deriving DecidableEq, Repr

/-- An event as it is handed to the writer (R195, R196). -/
structure Event where
  kind : EventKind
  subject : Half
  detail : Half
  tick : Word
  aux : Word
  deriving DecidableEq, Repr

/-- Writer states (R197). -/
inductive WriterState where
  | off | on | faulted
  deriving DecidableEq, Repr

/-- The writer's access in flight (R197); the Bool says that its ring has been replaced since (R181). -/
inductive EventAccess where
  | none
  | ownerRead (stale : Bool)
  | recordWrite (stale : Bool)
  deriving DecidableEq, Repr

/-- The Event Writer's state (R197, R202). Bit k of `enable` enables the kind with code k. -/
structure EventWriter where
  state : WriterState := .off
  base : Word := 0
  size : Nat := 0
  pos : Nat := 0
  queue : List Event := []
  lost : Nat := 0
  enable : Half := 0x0FFE
  access : EventAccess := .none
  lint : Bool := false
  deriving DecidableEq, Repr

/-! ## Node counters -/

/-- The 18 node counters (R194). -/
structure Counters where
  hdrErrors : Word := 0
  malformed : Word := 0
  returned : Word := 0
  hopExpired : Word := 0
  cellsPassed : Word := 0
  positionsInserted : Word := 0
  cellsForwarded : Word := 0
  unknownLabel : Word := 0
  mgmtRspDiscards : Word := 0
  datapathOff : Word := 0
  nochannel : Word := 0
  poolDiscards : Word := 0
  holdOverflow : Word := 0
  memFailures : Word := 0
  eventsLost : Word := 0
  mgmtQueueFull : Word := 0
  broadcastIgnored : Word := 0
  mgmtDenied : Word := 0
  deriving DecidableEq, Repr

/-! ## The part -/

/-- The state of the part, one component for each block, with the node counters together. -/
structure State where
  /-- RESET is asserted (R150, R171). -/
  inReset : Bool := false
  cf : Framer := {}
  cc : Classifier := {}
  re : Reassembly := {}
  xc : Cache := {}
  du : Vector Pool 4 := Vector.replicate 4 {}
  su : Segmentation := {}
  ia : Arbiter := {}
  lmp : Port := {}
  ma : Agent := {}
  ew : EventWriter := {}
  counters : Counters := {}
  /-- The model's own field: how many READs were answered OK with bytes missing (Config.freeByte). Assumption 2. -/
  freeReads : Nat := 0
  /-- The commands that wait, first in first out. -/
  pending : List Instr := []
  deriving DecidableEq, Repr

/-- The part right after power-on reset (R171 and each block's power-on values). The straps are taken to be 0, so the
node id is 0 (Assumption 1, DESIGN CHOICE); RESET_RELEASED samples any other value. -/
def State.reset : State := {}

/-- Reasons to stop with a fault. The manual leaves no command of this part without an effect, so no meaning faults
and there is no constructor (Assumption 4). -/
inductive Fault where
  deriving DecidableEq, Repr

/-- Reasons to refuse a command. -/
inductive Refusal where
  /-- Raised by an arm of exec whose command has no meaning yet; safe. No arm raises it. -/
  | notModelled (mnemonic : String)
  deriving DecidableEq, Repr

end Sys2Proof.Machine
end

