-- ==== Sys2Proof/Machine/Ops.lean ====
section
/-! DEFINITION. The named operations over the blocks, the tables, the counters and the bytes that every meaning is written with. -/

namespace Sys2Proof.Machine

/-! ## Tables -/

/-- Entry i of a fixed table. -/
def tget {α : Type} {n : Nat} (v : Vector α n) (i : Fin n) : α := v[i.val]

/-- The table with entry i replaced. -/
def tset {α : Type} {n : Nat} (v : Vector α n) (i : Fin n) (x : α) : Vector α n := v.set i.val x

/-- The table with f applied to entry i. -/
def tmod {α : Type} {n : Nat} (v : Vector α n) (i : Fin n) (f : α → α) : Vector α n := tset v i (f (tget v i))

/-! ## One update for each block -/

def State.onCf (s : State) (f : Framer → Framer) : State := { s with cf := f s.cf }
def State.onCc (s : State) (f : Classifier → Classifier) : State := { s with cc := f s.cc }
def State.onRe (s : State) (f : Reassembly → Reassembly) : State := { s with re := f s.re }
def State.onXc (s : State) (f : Cache → Cache) : State := { s with xc := f s.xc }
def State.onDu (s : State) (f : Vector Pool 4 → Vector Pool 4) : State := { s with du := f s.du }
def State.onSu (s : State) (f : Segmentation → Segmentation) : State := { s with su := f s.su }
def State.onIa (s : State) (f : Arbiter → Arbiter) : State := { s with ia := f s.ia }
def State.onLmp (s : State) (f : Port → Port) : State := { s with lmp := f s.lmp }
def State.onMa (s : State) (f : Agent → Agent) : State := { s with ma := f s.ma }
def State.onEw (s : State) (f : EventWriter → EventWriter) : State := { s with ew := f s.ew }
def State.onCounters (s : State) (f : Counters → Counters) : State := { s with counters := f s.counters }

/-- The channel table entry of c (R33). -/
def State.chan (s : State) (c : Chan) : Channel := tget s.re.channels c

/-- The state with f applied to the channel table entry of c. -/
def State.onChan (s : State) (c : Chan) (f : Channel → Channel) : State :=
  s.onRe fun re => { re with channels := tmod re.channels c f }

/-- The cache entry e (R63). -/
def State.entry (s : State) (e : EntryId) : CacheEntry := tget s.xc.entries e

/-- The state with cache entry e replaced. -/
def State.setEntry (s : State) (e : EntryId) (x : CacheEntry) : State :=
  s.onXc fun xc => { xc with entries := tset xc.entries e x }

/-- Pool p (R89). -/
def State.pool (s : State) (p : PoolId) : Pool := tget s.du p

/-- The state with f applied to pool p. -/
def State.onPool (s : State) (p : PoolId) (f : Pool → Pool) : State := s.onDu fun du => tmod du p f

/-- Transmit ring r (R110). -/
def State.ring (s : State) (r : RingId) : TxRing := tget s.su.rings r

/-- The state with f applied to transmit ring r. -/
def State.onRing (s : State) (r : RingId) (f : TxRing → TxRing) : State :=
  s.onSu fun su => { su with rings := tmod su.rings r f }

/-- Send slot k (R117). -/
def State.slot (s : State) (k : SlotId) : SendSlot := tget s.su.slots k

/-- The state with f applied to send slot k. -/
def State.onSlot (s : State) (k : SlotId) (f : SendSlot → SendSlot) : State :=
  s.onSu fun su => { su with slots := tmod su.slots k f }

/-- Every index of a fixed table, in rising order. -/
def allOf (n : Nat) : List (Fin n) := List.finRange n

/-- f applied for each index in turn, in rising order. -/
def forAll (n : Nat) (f : Fin n → State → State) (s : State) : State := (allOf n).foldl (fun s i => f i s) s

/-! ## Byte order: most significant byte first -/

/-- The two bytes of a 16-bit value. -/
def be16 (x : Half) : List Byte := [(x >>> 8).setWidth 8, x.setWidth 8]

/-- The four bytes of a 32-bit value. -/
def be32 (x : Word) : List Byte :=
  [(x >>> 24).setWidth 8, (x >>> 16).setWidth 8, (x >>> 8).setWidth 8, x.setWidth 8]

/-- Byte k of a list, zero beyond its end. -/
def byteAt (l : List Byte) (k : Nat) : Byte := l.getD k 0

/-- The 16-bit value at byte k. -/
def halfAt (l : List Byte) (k : Nat) : Half := byteAt l k ++ byteAt l (k + 1)

/-- The 32-bit value at byte k. -/
def wordAt (l : List Byte) (k : Nat) : Word := halfAt l k ++ halfAt l (k + 2)

/-- A list of bytes cut or filled with zeros to n bytes. -/
def padTo (n : Nat) (l : List Byte) : Vector Byte n :=
  ⟨⟨(l ++ List.replicate n 0).take n⟩, by simp⟩

/-- The address n bytes above a base. -/
def addrAt (base : Word) (n : Nat) : Word := base + BitVec.ofNat 32 n

/-- A region of n bytes at this base stays within the address space (R140). -/
def regionFits (base : Word) (n : Nat) : Bool := base.toNat + n ≤ 0x100000000

/-- The address is a multiple of n. -/
def aligned (n : Nat) (a : Word) : Bool := a.toNat % n == 0

/-! ## The check sequences -/

/-- One bit of a CRC register shift, most significant bit first. -/
def crcShift {w : Nat} (poly : BitVec w) (reg : BitVec w) : BitVec w :=
  if reg.msb then (reg <<< 1) ^^^ poly else reg <<< 1

/-- Eight bits of a CRC register shift. -/
def crcShift8 {w : Nat} (poly : BitVec w) (reg : BitVec w) : BitVec w :=
  crcShift poly (crcShift poly (crcShift poly (crcShift poly
    (crcShift poly (crcShift poly (crcShift poly (crcShift poly reg)))))))

/-- The CRC-8 register after one byte: polynomial x^8+x^5+x^4+1 (R2). -/
def crc8Byte (reg : Byte) (b : Byte) : Byte := crcShift8 0x31 (reg ^^^ b)

/-- The header check of header bytes 0 to 6: preset to all ones, no final inversion (R2). -/
def headerCheck (bytes : List Byte) : Byte := bytes.foldl crc8Byte 0xFF

/-- The CRC-32 register after one byte: polynomial 0x04C11DB7, most significant bit first (R4). -/
def crc32Byte (reg : Word) (b : Byte) : Word := crcShift8 0x04C11DB7 (reg ^^^ (b.setWidth 32 <<< 24))

/-- The CRC-32 register after some bytes (R4). -/
def crc32 (reg : Word) (bytes : List Byte) : Word := bytes.foldl crc32Byte reg

/-- The CRC-32 register at the start of a stream (R4). -/
def crcPreset : Word := 0xFFFFFFFF

/-- The CRC-32 register over a whole stream with a correct check (R49). -/
def crcResidue : Word := 0xC704DD7B

/-! ## Events and counters -/

/-- The code of an event kind (R196). -/
def EventKind.code : EventKind → Nat
  | .syncLost => 1
  | .syncGained => 2
  | .nobufStart => 3
  | .nocompl => 4
  | .holdOverflow => 5
  | .channelFault => 6
  | .poolFault => 7
  | .txringFault => 8
  | .freeRejected => 9
  | .nodeState => 10
  | .config => 11

/-- The lost count increased by 1, saturating at 65,535 (R198). -/
def lostSucc (n : Nat) : Nat := if n < 65535 then n + 1 else n

/-- An event is lost: the lost count and events_lost increase (R198, R199). -/
def State.loseEvent (s : State) : State :=
  (s.onEw fun ew => { ew with lost := lostSucc ew.lost }).onCounters fun k =>
    { k with eventsLost := k.eventsLost + 1 }

/-- An event is raised to the Event Writer in this step (R195, R198). During the wait of a node reset it is dropped
uncounted (R205). -/
def State.raise (s : State) (kind : EventKind) (subject detail : Nat) (aux : Word) : State :=
  if s.ma.state = .resetWait then s
  else if s.ew.enable.getLsbD kind.code = false then s
  else if s.ew.state ≠ .on then s
  else if 8 ≤ s.ew.queue.length then s.loseEvent
  else s.onEw fun ew => { ew with queue := ew.queue ++
    [{ kind, subject := BitVec.ofNat 16 subject, detail := BitVec.ofNat 16 detail, tick := s.ma.nodeTime, aux }] }

/-- LINT is asserted (R202). -/
def State.assertLint (s : State) : State := s.onEw fun ew => { ew with lint := true }

/-! ## Requests to the port -/

/-- The line of waiting requests of a requester (R141). -/
def Port.line (p : Port) : Requester → List Request
  | .ctx => p.ctx
  | .dlv => p.dlv
  | .seg => p.seg
  | .evt => p.evt
  | .agt => p.agt

/-- The port with the line of a requester replaced. -/
def Port.setLine (p : Port) (q : Requester) (l : List Request) : Port :=
  match q with
  | .ctx => { p with ctx := l }
  | .dlv => { p with dlv := l }
  | .seg => { p with seg := l }
  | .evt => { p with evt := l }
  | .agt => { p with agt := l }

/-- A request joins the tail of its requester's line (R141). -/
def State.request (s : State) (r : Request) : State :=
  s.onLmp fun p => p.setLine r.requester (p.line r.requester ++ [r])

/-- A read is requested. -/
def State.requestRead (s : State) (q : Requester) (addr : Word) (length : Nat) (tag : RequestTag) : State :=
  s.request { requester := q, direction := .read, addr, length, data := [], tag }

/-- A write is requested. -/
def State.requestWrite (s : State) (q : Requester) (addr : Word) (data : List Byte) (tag : RequestTag) : State :=
  s.request { requester := q, direction := .write, addr, length := data.length, data, tag }

/-- The value of aux that tells a failure's cause: 0 for ERROR, 1 for TIMEOUT (R145). -/
def Answer.aux : Answer → Word
  | .timeout => 1
  | .error => 0
  | .ok => 0

/-! ## Outcomes of a step -/

/-- A step of the part: nothing comes about while RESET is asserted (R171). -/
def State.live (s : State) (f : State → State) : Host.Outcome State Fault Refusal :=
  .next (if s.inReset then s else f s)

end Sys2Proof.Machine
end

