-- ==== Sys2Proof/Machine/Operands.lean ====
section
/-! DEFINITION. The operand forms: cells, management payloads, context images and the records shared with the host. -/

namespace Sys2Proof.Machine

/-! ## Cells (R1 to R3) -/

def Kind.code : Kind → BitVec 2
  | .empty => 0 | .data => 1 | .mgmtCmd => 2 | .mgmtRsp => 3

def Kind.ofCode (b : BitVec 2) : Kind :=
  if b = 0 then .empty else if b = 1 then .data else if b = 2 then .mgmtCmd else .mgmtRsp

def Position.code : Position → BitVec 2
  | .middle => 0 | .first => 1 | .last => 2 | .only => 3

def Position.ofCode (b : BitVec 2) : Position :=
  if b = 0 then .middle else if b = 1 then .first else if b = 2 then .last else .only

/-- Header bytes 0 to 6 of a cell, every must-be-zero bit zero (R1). -/
def Cell.header (c : Cell) : List Byte :=
  let label : Half := c.label.setWidth 16
  [c.kind.code ++ c.position.code ++ c.seq, c.dest.setWidth 8, c.src.setWidth 8,
    (label >>> 8).setWidth 8, label.setWidth 8, c.fill.setWidth 8, c.hops.setWidth 8]

/-- The 48 bytes of a cell with its header check (R1, R2). -/
def Cell.bytes (c : Cell) : RawCell := padTo 48 (c.header ++ [headerCheck c.header] ++ c.payload.toList)

/-- The check of these header bytes, over bytes 0 to 6, equals byte 7 (R2). -/
def goodHeader (bytes : List Byte) : Bool := headerCheck (bytes.take 7) == byteAt bytes 7

/-- The fields read from the bytes of a cell (R1). -/
def Cell.ofBytes (raw : RawCell) : Cell :=
  let l := raw.toList
  let b0 := byteAt l 0
  { kind := Kind.ofCode (b0.extractLsb' 6 2)
    position := Position.ofCode (b0.extractLsb' 4 2)
    seq := b0.extractLsb' 0 4
    dest := (byteAt l 1).setWidth 6
    src := (byteAt l 2).setWidth 6
    label := (halfAt l 3).setWidth 11
    fill := (byteAt l 5).setWidth 6
    hops := (byteAt l 6).setWidth 4
    payload := padTo 40 (l.drop 8) }

/-- A must-be-zero bit is set (R1, R3). -/
def reservedBitSet (l : List Byte) : Bool :=
  !(byteAt l 1 >>> 6 == 0 && byteAt l 2 >>> 6 == 0 && byteAt l 3 >>> 3 == 0 && byteAt l 5 >>> 6 == 0
    && byteAt l 6 >>> 4 == 0)

/-- A cell with a good header is malformed (R3). The test of position and fill is not put to an EMPTY cell: the EMPTY
cell that R2 gives is MIDDLE with fill 0, and R3 says that the part never sends a malformed cell. DEDUCED, log entry 7. -/
def malformed (raw : RawCell) : Bool :=
  let l := raw.toList
  let c := Cell.ofBytes raw
  reservedBitSet l
  || 40 < c.fill.toNat
  || (c.kind != .empty && (c.position == .first || c.position == .middle) && c.fill != 40)
  || (c.kind == .data && c.dest == 63)
  || (c.kind == .empty && (l.take 7).any (· != 0))
  || ((c.kind == .mgmtCmd || c.kind == .mgmtRsp) && c.position != .only)

/-- The EMPTY cell that the part sends (R2). -/
def emptyCell : Cell :=
  { kind := .empty, position := .middle, seq := 0, dest := 0, src := 0, label := 0, fill := 0, hops := 0,
    payload := padTo 40 [] }

/-- The valid payload bytes of a cell: the first `fill` of them (R1). -/
def Cell.valid (c : Cell) : List Byte := c.payload.toList.take c.fill.toNat

/-- A cell built by the part: these valid bytes, the rest of the payload zero (R1). -/
def Cell.build (kind : Kind) (position : Position) (seq : BitVec 4) (dest src : Node) (label : BitVec 11)
    (hops : BitVec 4) (valid : List Byte) : Cell :=
  { kind, position, seq, dest, src, label, hops, fill := BitVec.ofNat 6 valid.length, payload := padTo 40 valid }

/-- A cell resent with one hop less (R13, R24). -/
def Cell.hop (c : Cell) : Cell := { c with hops := c.hops - 1 }

/-- A FIRST cell, or an ONLY cell with bytes: it starts a message (R40). -/
def Cell.starts (c : Cell) : Bool := c.position == .first || (c.position == .only && c.fill != 0)

/-- A LAST or ONLY cell: it is the last of its message (R49, R122). -/
def Cell.ends (c : Cell) : Bool := c.position == .last || c.position == .only

/-! ## Management payloads (R152) -/

/-- Payload byte k of a command, zero at or beyond fill (R152). -/
def Cell.arg8 (c : Cell) (k : Nat) : Byte := byteAt c.valid k

/-- The 16-bit argument at payload byte k (R152, R175). -/
def Cell.arg16 (c : Cell) (k : Nat) : Half := halfAt c.valid k

/-- The 32-bit argument at payload byte k (R152, R175). -/
def Cell.arg32 (c : Cell) (k : Nat) : Word := wordAt c.valid k

/-- The tag of a command (R152). -/
def Cell.tag (c : Cell) : Half := c.arg16 0

/-- The command code (R152). -/
def Cell.code (c : Cell) : Byte := c.arg8 2

/-- The object an 8-bit argument numbers among n, if it is in range. -/
def Cell.index (c : Cell) (k n : Nat) : Option (Fin n) :=
  if h : (c.arg8 k).toNat < n then some ⟨(c.arg8 k).toNat, h⟩ else none

/-- The channel argument at payload byte k: one byte, so always in range (R175). -/
def Cell.chanArg (c : Cell) (k : Nat) : Chan := (c.arg8 k).toFin

/-- The status codes of a response (R153). -/
inductive MgmtStatus where
  | ok | denied | badcmd | badarg | badalign | busy | notconf | memerr
  deriving DecidableEq, Repr

/-- The code of a response status (R153). -/
def MgmtStatus.code : MgmtStatus → Byte
  | .ok => 0 | .denied => 1 | .badcmd => 2 | .badarg => 3 | .badalign => 4 | .busy => 5 | .notconf => 6 | .memerr => 7

/-- The valid payload of a response: tag echo, code echo, status and result (R153). -/
def replyPayload (cmd : Cell) (st : MgmtStatus) (result : List Byte) : List Byte :=
  be16 cmd.tag ++ [cmd.code, st.code] ++ result

/-- The response cell that carries a payload to the sender of a command (R153). -/
def responseCell (nodeId : Node) (cmd : Cell) (payload : List Byte) : Cell :=
  Cell.build .mgmtRsp .only 0 cmd.src nodeId 0 15 payload

/-! ## The command codes (chapter Management Commands) -/

def codeIdent : Byte := 0x01
def codeClaim : Byte := 0x02
def codeRelease : Byte := 0x03
def codeManager : Byte := 0x04
def codeSetLocalMap : Byte := 0x10
def codeSetPool : Byte := 0x11
def codeSetTxring : Byte := 0x12
def codeSetSend : Byte := 0x13
def codeSetEvents : Byte := 0x14
def codeSetNode : Byte := 0x15
def codeWriteCircuit : Byte := 0x20
def codeReadCircuit : Byte := 0x21
def codeBindChannel : Byte := 0x30
def codeUnbindChannel : Byte := 0x31
def codeReadChannel : Byte := 0x32
def codeReadContext : Byte := 0x33
def codeSyncContexts : Byte := 0x34
def codeStart : Byte := 0x40
def codeStop : Byte := 0x41
def codeNodeReset : Byte := 0x42
def codeReadCounters : Byte := 0x50

/-- The twenty-one known command codes. -/
def knownCodes : List Byte :=
  [codeIdent, codeClaim, codeRelease, codeManager, codeSetLocalMap, codeSetPool, codeSetTxring, codeSetSend,
    codeSetEvents, codeSetNode, codeWriteCircuit, codeReadCircuit, codeBindChannel, codeUnbindChannel,
    codeReadChannel, codeReadContext, codeSyncContexts, codeStart, codeStop, codeNodeReset, codeReadCounters]

/-- The detail of the CONFIG event of a command, for the commands that raise one (R176). -/
def configDetail (cmd : Cell) : Option Nat :=
  let k := cmd.code
  if k = codeClaim ∨ k = codeRelease then some cmd.src.toNat
  else if k = codeManager then some (cmd.arg8 4).toNat
  else if k = codeSetPool ∨ k = codeSetTxring ∨ k = codeSetSend ∨ k = codeBindChannel ∨ k = codeUnbindChannel then
    some (cmd.arg8 3).toNat
  else if k = codeWriteCircuit then some (cmd.arg16 3).toNat
  else if k = codeSetLocalMap ∨ k = codeSetEvents ∨ k = codeSetNode then some 0
  else none

/-! ## Codes of the tables -/

/-- Circuit action codes (R18). -/
def CircuitAction.code : CircuitAction → Byte
  | .unused => 0 | .terminate => 1 | .forward => 2 | .tap => 3 | .block => 4

def CircuitAction.ofCode (b : Byte) : Option CircuitAction :=
  if b = 0 then some .unused
  else if b = 1 then some .terminate
  else if b = 2 then some .forward
  else if b = 3 then some .tap
  else if b = 4 then some .block
  else none

/-- Binding codes (R189). -/
def Binding.code : Binding → Byte
  | .unbound => 0 | .bound => 1 | .unbinding => 2 | .faulted => 3

/-- Pending abort codes (R189). -/
def PendingAbort.code : PendingAbort → Byte
  | .none => 0 | .holdfull => 1 | .timeout => 2

/-- Residence codes (R189). -/
def Residence.code : Residence → Byte
  | .stored => 0 | .fetching => 1 | .cached _ => 2 | .writeback => 3

/-- The entry byte of READ_CHANNEL: the cache entry when CACHED, 0 otherwise (R189). -/
def Residence.entryByte : Residence → Byte
  | .cached e => BitVec.ofNat 8 e.val
  | .stored => 0 | .fetching => 0 | .writeback => 0

/-- Receive status codes (R51). -/
def RxStatus.code : RxStatus → Nat
  | .ok => 0 | .seq => 1 | .crc => 2 | .toolong => 3 | .runt => 4 | .nolast => 5 | .peerabort => 6 | .timeout => 7
  | .holdfull => 8 | .unbound => 9 | .stopped => 10 | .nobuf => 11 | .memerr => 12

/-- Transmit status codes (R112). -/
def TxStatus.code : TxStatus → Byte
  | .done => 0 | .badlen => 1 | .badslot => 2 | .slotoff => 3 | .cut => 4 | .memerr => 5

/-- Node state codes (R166). -/
def NodeState.code : NodeState → Nat
  | .unconfigured => 0 | .stopped => 1 | .running => 2 | .stopping => 3

/-! ## The context image (R75 to R77) -/

/-- The fields of an image as they stand in its bytes. -/
structure Image where
  discard : Bool
  expectedSeq : Byte
  count : Half
  bytesSoFar : Word
  crc : Word
  offset : Half
  lastCode : Half
  msgsOk : Word
  msgsBad : Word
  strayCells : Word
  cellsAccepted : Word
  /-- List entries 0 to 7. -/
  buffers : List Buffer
  deriving DecidableEq, Repr

/-- Buffer list entry i of an image: cookie and used length at 32 + 6i, address at 80 + 4i (R75). -/
def imageBuffer (l : List Byte) (i : Nat) : Buffer :=
  { cookie := wordAt l (32 + 6 * i), used := halfAt l (36 + 6 * i), addr := wordAt l (80 + 4 * i) }

/-- The fields of an image's bytes 0 to 111 (R75). -/
def Image.ofBytes (l : List Byte) : Image :=
  { discard := (byteAt l 0).getLsbD 0
    expectedSeq := byteAt l 1
    count := halfAt l 2
    bytesSoFar := wordAt l 4
    crc := wordAt l 8
    offset := halfAt l 12
    lastCode := halfAt l 14
    msgsOk := wordAt l 16
    msgsBad := wordAt l 20
    strayCells := wordAt l 24
    cellsAccepted := wordAt l 28
    buffers := (List.range 8).map (imageBuffer l) }

/-- The open-message state of an image dropped before the check (R59, R69). -/
def Image.dropMessage (i : Image) : Image :=
  { i with discard := false, count := 0, bytesSoFar := 0, offset := 0, crc := crcPreset }

/-- The reassembly state rebuilt from an image: the first of these that holds (R76). -/
def Image.state (i : Image) : CtxState :=
  if i.discard then .discarding else if i.count = 0 then .idle else .assembling

/-- The on-chip context rebuilt from an image (R76). -/
def Image.context (i : Image) : Context :=
  { state := i.state
    expectedSeq := i.expectedSeq.setWidth 4
    buffers := i.buffers.take i.count.toNat
    bytesSoFar := i.bytesSoFar
    crc := i.crc
    offset := i.offset
    lastCode := i.lastCode
    msgsOk := i.msgsOk
    msgsBad := i.msgsBad
    strayCells := i.strayCells
    cellsAccepted := i.cellsAccepted }

/-- The number of the first test of the consistency check that fails, none when the image passes (R77). -/
def Image.failedTest (i : Image) (msgOpen : Bool) (bufSize : Nat) : Option Nat :=
  if 8 < i.count.toNat then some 1
  else if i.discard && i.count != 0 then some 2
  else if i.bytesSoFar != 0 && i.count == 0 then some 3
  else if bufSize < i.offset.toNat then some 4
  else if 15 < i.expectedSeq.toNat then some 5
  else if i.state == .assembling && !msgOpen then some 6
  else if i.state != .assembling && msgOpen then some 7
  else none

/-- A list of buffers filled to eight entries with zeros (R75, R97). -/
def eightBuffers (bs : List Buffer) : List Buffer :=
  (bs ++ List.replicate 8 (Buffer.mk 0 0 0)).take 8

/-- The buffer entries of an image or a completion record: cookie then used length, eight of six bytes (R75, R97). -/
def bufferEntries (bs : List Buffer) : List Byte :=
  (eightBuffers bs).flatMap fun b => be32 b.cookie ++ be16 b.used

/-- The buffer addresses of an image, eight of four bytes (R75). -/
def bufferAddrs (bs : List Buffer) : List Byte := (eightBuffers bs).flatMap fun b => be32 b.addr

/-- Bytes 0 to 111 of the image of a context (R75). -/
def Context.image (x : Context) : List Byte :=
  [if x.state = .discarding then 1 else 0, x.expectedSeq.setWidth 8]
  ++ be16 (BitVec.ofNat 16 x.buffers.length) ++ be32 x.bytesSoFar ++ be32 x.crc ++ be16 x.offset ++ be16 x.lastCode
  ++ be32 x.msgsOk ++ be32 x.msgsBad ++ be32 x.strayCells ++ be32 x.cellsAccepted
  ++ bufferEntries x.buffers ++ bufferAddrs x.buffers

/-- The address of channel c's image (R74). -/
def imageAddr (storeBase : Word) (c : Chan) : Word := addrAt storeBase (128 * c.val)

/-- The first byte of a READ_CONTEXT part (R86). -/
def partStart (part : Fin 4) : Nat := 36 * part.val

/-- The length of a READ_CONTEXT part: 36 bytes, or 4 for part 3 (R86). -/
def partLength (part : Fin 4) : Nat := if part = 3 then 4 else 36

/-! ## Records shared with the host -/

/-- A completion record (R97): owner, status, channel, buffer count, length, cells, pad, tick stamp, buffer entries. The
cells field holds the low 16 bits of a count that an altered image has made greater. DESIGN CHOICE, log entry 53. -/
def completionRecord (status : RxStatus) (c : Chan) (buffers : List Buffer) (length cells : Nat) (tick : Word) :
    List Byte :=
  [0, BitVec.ofNat 8 status.code, BitVec.ofNat 8 c.val, BitVec.ofNat 8 buffers.length]
  ++ be32 (BitVec.ofNat 32 length) ++ be16 (BitVec.ofNat 16 cells) ++ [0, 0] ++ be32 tick ++ bufferEntries buffers

/-- An event record with owner HOST and this lost-before (R195). -/
def eventRecord (e : Event) (lost : Nat) : List Byte :=
  [0, BitVec.ofNat 8 e.kind.code] ++ be16 (BitVec.ofNat 16 lost) ++ be16 e.subject ++ be16 e.detail ++ be32 e.tick
  ++ be32 e.aux

end Sys2Proof.Machine
end

