-- ==== Sys2Proof/Machine/Flags.lean ====
section
/-! DEFINITION. The status conditions that the rules test: time, readiness, eligibility, authorization, drains. -/

namespace Sys2Proof.Machine

/-! ## Time and the node reset's wait -/

/-- A deadline is reached: node time minus the deadline, as a signed 32-bit value, is zero or positive (R170). -/
def reached (now deadline : Word) : Bool := !(now - deadline).msb

/-- The agent is in RESET_WAIT: every block takes no new work (R172). -/
def State.halted (s : State) : Bool := s.ma.state == .resetWait

/-! ## Channels (R34) -/

/-- A memory operation of the channel is outstanding (R33, R34). -/
def Channel.waiting (ch : Channel) : Bool := ch.op.isSome

/-- The binding is BOUND or UNBINDING: the channel uses its pool (R90) and its fetch requests are taken (R66). -/
def Channel.uses (ch : Channel) : Bool := ch.binding == .bound || ch.binding == .unbinding

/-- The residence is CACHED. -/
def Channel.isCached (ch : Channel) : Bool :=
  match ch.residence with
  | .cached _ => true
  | .stored => false
  | .fetching => false
  | .writeback => false

/-- The channel is ready: BOUND, CACHED, not waiting, its pool ACTIVE (R34). -/
def State.ready (s : State) (c : Chan) : Bool :=
  let ch := s.chan c
  ch.binding == .bound && ch.isCached && !ch.waiting && (s.pool ch.pool).state == .active

/-- A held cell of channel c is in the hold queue. -/
def State.holds (s : State) (c : Chan) : Bool := s.re.hold.any (·.channel == c)

/-- The channel's open message has reached its deadline (R38, R53). -/
def State.expired (s : State) (c : Chan) : Bool :=
  let ch := s.chan c
  ch.msgOpen && ch.limit != 0 && reached s.ma.nodeTime ch.deadline

/-- The channel owes a close to an unbind (R56) or to a stop (R58). -/
def State.closeOwed (s : State) (c : Chan) : Bool :=
  let ch := s.chan c
  ch.msgOpen && (ch.binding == .unbinding || (ch.binding == .bound && s.ma.nodeState == .stopping))

/-- The engine has work for the channel: a pending abort, a held cell or a close owed (R67). -/
def State.hasWork (s : State) (c : Chan) : Bool :=
  (s.chan c).pendingAbort != .none || s.holds c || s.closeOwed c

/-! ## The context cache -/

/-- A VALID entry may be chosen as victim: its channel is not waiting, no synchronising write of it is in flight, and
it is not newly filled (R67). -/
def State.eligible (s : State) (e : EntryId) : Bool :=
  match s.entry e with
  | .valid v => !(s.chan v.channel).waiting && !v.syncing && !v.newlyFilled
  | .free => false
  | .filling _ => false
  | .writing _ _ _ => false

/-- The entry is FREE. -/
def State.isFree (s : State) (e : EntryId) : Bool := s.entry e == .free

/-- The entry can be chosen for a fetch (R67). -/
def State.available (s : State) (e : EntryId) : Bool := s.isFree e || s.eligible e

/-- The entry is VALID and its channel has no cell in the hold queue (R67). -/
def State.unheldEntry (s : State) (e : EntryId) : Bool :=
  match s.entry e with
  | .valid v => !s.holds v.channel
  | .free => false
  | .filling _ => false
  | .writing _ _ _ => false

/-- The entry chosen for a fetch: the lowest FREE entry; else the least recently used eligible entry with no held
cell; else the least recently used eligible entry (R67). -/
def State.chooseEntry (s : State) : Option EntryId :=
  ((allOf 16).find? s.isFree)
  <|> (s.xc.recency.find? fun e => s.eligible e && s.unheldEntry e)
  <|> (s.xc.recency.find? s.eligible)

/-- A READ_CONTEXT awaits this channel's context (R73, R86). -/
def State.readAwaits (s : State) (c : Chan) : Bool :=
  match s.xc.ctxRead with
  | some r => r.channel == c && r.stage == .fill
  | none => false

/-- The channel needs its context (R73). -/
def State.needsContext (s : State) (c : Chan) : Bool :=
  let ch := s.chan c
  ch.uses && (s.holds c || ch.pendingAbort != .none || ch.msgOpen || s.readAwaits c)

/-- The on-chip context of channel c, if it is CACHED. -/
def State.context (s : State) (c : Chan) : Option Context :=
  match (s.chan c).residence with
  | .cached e =>
    match s.entry e with
    | .valid v => if v.channel = c then some v.ctx else none
    | .free => none
    | .filling _ => none
    | .writing _ _ _ => none
  | .stored => none
  | .fetching => none
  | .writeback => none

/-! ## The node -/

/-- The sender is in the manager list (R157). -/
def State.listed (s : State) (n : Node) : Bool := s.ma.managers.any (·.node == n)

/-- The response stored for a manager (R159). -/
def State.memoryOf (s : State) (n : Node) : Option StoredResponse :=
  (s.ma.managers.find? (·.node == n)).bind (·.memory)

/-- The command is a duplicate: its tag is nonzero and is the sender's stored tag (R160). -/
def State.duplicateOf (s : State) (cmd : Cell) : Option StoredResponse :=
  if cmd.tag = 0 then none else (s.memoryOf cmd.src).filter (·.tag == cmd.tag)

/-- The node has an identity, and this is its id (R169). -/
def State.isOwn (s : State) (n : Node) : Bool := s.ma.nodeId != 63 && n == s.ma.nodeId

/-- The port is quiet: the order list holds no LIVE entry (R151). -/
def State.quiet (s : State) : Bool := !s.lmp.order.any (·.live)

/-- The receive side's part of a drain is complete (R58, R87, R167). -/
def State.receiveDrained (s : State) : Bool :=
  (allOf 256).all (fun c => !(s.chan c).msgOpen) && (allOf 16).all s.isFree && s.xc.waitList.isEmpty

/-- The transmit side's part of a drain is complete (R129, R167). -/
def State.transmitDrained (s : State) : Bool :=
  (allOf 4).all fun r => (s.ring r).state != .sending && (s.ring r).access.isNone

/-- No channel has an open message, and none of a BOUND channel's cells is under application: the engine reports it
to the Context Cache, which then frees every entry (R58, R87). Assumption 12. -/
def State.messagesClosed (s : State) : Bool :=
  (allOf 256).all fun c => !(s.chan c).msgOpen && !((s.chan c).binding == .bound && (s.chan c).waiting)

end Sys2Proof.Machine
end

