-- ==== Sys2Proof/Machine/Events.lean ====
section
/-! DEFINITION. The Event Writer (EW): serving the pending queue and the answers to its accesses. -/

namespace Sys2Proof.Machine

/-- The address of the slot event_pos (R195). -/
def EventWriter.slotAddr (ew : EventWriter) : Word := addrAt ew.base (16 * ew.pos)

/-- EVENT_SERVE: the owner read of slot event_pos is issued for the head event (R199, R205). -/
def execEventServe (s : State) : Host.Outcome State Fault Refusal :=
  s.live fun s =>
    if s.halted then s
    else if s.ew.state = .on ∧ s.ew.access = .none ∧ s.ew.queue ≠ [] then
      (s.onEw fun ew => { ew with access := .ownerRead false }).requestRead .evt s.ew.slotAddr 1 .event
    else s

/-- An access to the event ring has failed (R201). -/
def State.writerFault (s : State) : State :=
  s.onEw fun ew => { ew with state := .faulted, queue := [], lost := 0 }

/-- The owner byte of slot event_pos has been read: the head event is lost, or its record is written with the lost
count, which becomes 0 (R199, R200). -/
def State.ownerKnown (s : State) (owner : Byte) : State :=
  match s.ew.queue with
  | [] => s
  | e :: rest =>
    if owner = 1 then
      (s.onEw fun ew => { ew with access := .recordWrite false, lost := 0 }).requestWrite .evt s.ew.slotAddr
        (eventRecord e s.ew.lost) .event
    else (s.onEw fun ew => { ew with queue := rest }).loseEvent

/-- A record has been written: the event leaves the queue, event_pos advances and LINT is asserted (R199, R202). -/
def State.recordKept (s : State) : State :=
  (s.onEw fun ew => { ew with queue := ew.queue.tail, pos := (ew.pos + 1) % ew.size }).assertLint

/-- The access to the event ring is answered. An access to a ring that has been replaced is acted on no further
(R181, R199, R201). -/
def State.eventAnswered (s : State) (a : Answer) (bytes : List Byte) : State :=
  let s' := s.onEw fun ew => { ew with access := .none }
  match s.ew.access with
  | .ownerRead stale => if stale then s' else if a = .ok then s'.ownerKnown (byteAt bytes 0) else s'.writerFault
  | .recordWrite stale => if stale then s' else if a = .ok then s'.recordKept else s'.writerFault
  | .none => s

end Sys2Proof.Machine
end

