-- ==== Sys2Proof/Machine/Agent.lean ====
section
/-! DEFINITION. The Management Agent (MA): the command queue, screening, authorization, tags, long commands and the handover of responses. -/

namespace Sys2Proof.Machine

/-- The agent's state is replaced (R155). -/
def State.agentTo (s : State) (a : AgentState) : State := s.onMa fun ma => { ma with state := a }

/-- The work of a command is finished: its response is built and held in ANSWERING (R155, R164). -/
def State.answer (s : State) (cmd : Cell) (st : MgmtStatus) (result : List Byte) : State :=
  s.agentTo (.answering { cmd, payload := replyPayload cmd st result, executed := true })

/-- The command handed to its owner and not yet taken by it, if its code is this one (R162). -/
def State.handed (s : State) (code : Byte) : Option Cell :=
  match s.ma.state with
  | .working cmd false => if cmd.code = code then some cmd else none
  | .working _ true => none
  | .ready => none
  | .answering _ => none
  | .resetSent => none
  | .resetWait => none

/-- The owner of a command takes it as a request (R162). -/
def State.command (s : State) (code : Byte) (f : Cell → State → State) : State :=
  match s.handed code with
  | some cmd => f cmd s
  | none => s

/-- The long command in hand, if its code is this one (R163). -/
def State.longInHand (s : State) (code : Byte) : Option Cell :=
  match s.ma.state with
  | .working cmd true => if cmd.code = code then some cmd else none
  | .working _ false => none
  | .ready => none
  | .answering _ => none
  | .resetSent => none
  | .resetWait => none

/-- The owner's work for a long command is done. A command abandoned meanwhile is given no response (R165). -/
def State.finishLong (s : State) (code : Byte) (st : MgmtStatus) (result : List Byte) : State :=
  match s.longInHand code with
  | some cmd => s.answer cmd st result
  | none => s

/-- NODE_RESET is executed: its response is built with status OK and no result (R172). -/
def State.executeNodeReset (s : State) (cmd : Cell) : State := s.answer cmd .ok []

/-- A queued cell is a NODE_RESET that is taken out of turn: addressed to this node, from a listed manager, and no
duplicate of the stored tag (R165). -/
def State.outOfTurn (s : State) (cmd : Cell) : Bool :=
  cmd.code == codeNodeReset && s.isOwn cmd.dest && s.listed cmd.src && (s.duplicateOf cmd).isNone

/-- The agent, WORKING on a long command, examines the command queue: the oldest qualifying NODE_RESET leaves it and
is executed, and the long command is abandoned (R165). -/
def State.examineQueue (s : State) : State :=
  match s.ma.state with
  | .working _ true =>
    match s.ma.queue.find? s.outOfTurn with
    | some nr => (s.onMa fun ma => { ma with queue := ma.queue.eraseP s.outOfTurn }).executeNodeReset nr
    | none => s
  | .working _ false => s
  | .ready => s
  | .answering _ => s
  | .resetSent => s
  | .resetWait => s

/-- The command in hand has become a long one, and the queue is examined (R163, R165). -/
def State.goLong (s : State) (cmd : Cell) : State := (s.agentTo (.working cmd true)).examineQueue

/-- A command cell is handed to the agent (R154). -/
def State.joinCommands (s : State) (cmd : Cell) : State :=
  if s.ma.queue.length < 4 then (s.onMa fun ma => { ma with queue := ma.queue ++ [cmd] }).examineQueue
  else s.onCounters fun k => { k with mgmtQueueFull := k.mgmtQueueFull + 1 }

/-- An authorized command that is no duplicate: an unknown code is answered BADCMD, a known one is handed to its
owner (R162). -/
def State.executeCommand (s : State) (cmd : Cell) : State :=
  if knownCodes.contains cmd.code then s.agentTo (.working cmd false) else s.answer cmd .badcmd []

/-- Authorization against the manager list (R157) and the tag test (R160). -/
def State.authorize (s : State) (cmd : Cell) : State :=
  if s.listed cmd.src then
    match s.duplicateOf cmd with
    | some m => s.agentTo (.answering { cmd, payload := m.payload, executed := false })
    | none => s.executeCommand cmd
  else if cmd.code = codeIdent ∨ (cmd.code = codeClaim ∧ s.ma.managers = []) then s.executeCommand cmd
  else (s.onCounters fun k => { k with mgmtDenied := k.mgmtDenied + 1 }).agentTo
    (.answering { cmd, payload := replyPayload cmd .denied [], executed := false })

/-- Screening (R156), then authorization. -/
def State.screen (s : State) (cmd : Cell) : State :=
  if cmd.src = 63 then s.onCounters fun k => { k with mgmtDenied := k.mgmtDenied + 1 }
  else if cmd.dest = 63 ∧ cmd.code ≠ codeIdent then
    s.onCounters fun k => { k with broadcastIgnored := k.broadcastIgnored + 1 }
  else s.authorize cmd

/-- In READY the head of the command queue is taken (R155). In RESET_SENT nothing is taken, a repeated NODE_RESET
neither (R155, R172), although R193 has that one answered from memory. DEDUCED, log entry 39. -/
def State.takeCommand (s : State) : State :=
  if s.ma.state = .ready then
    match s.ma.queue with
    | [] => s
    | cmd :: rest => (s.onMa fun ma => { ma with queue := rest }).screen cmd
  else s

/-- COMMAND_TAKE (R155 to R157, R160, R162). -/
def execCommandTake (s : State) : Host.Outcome State Fault Refusal := s.live State.takeCommand

/-- The manager list with a response stored for a node (R161). -/
def storeFor (ms : List Manager) (n : Node) (m : StoredResponse) : List Manager :=
  ms.map fun x => if x.node = n then { x with memory := some m } else x

/-- The response is one that R161 stores, if its sender is listed: of a command that was executed with a tag, and no
RELEASE. The refusal of a CLAIM is one: R178 leaves the memory unchanged in the CLAIM's own step, and R161 stores the
refusal as its response is handed over. DEDUCED, log entry 38. -/
def Reply.isStored (r : Reply) : Bool := r.executed && r.cmd.tag != 0 && r.cmd.code != codeRelease

/-- The response of a completing command is stored in the sender's memory (R161). -/
def State.storeResponse (s : State) (r : Reply) : State :=
  if r.isStored = true ∧ s.listed r.cmd.src = true then
    s.onMa fun ma => { ma with managers := storeFor ma.managers r.cmd.src { tag := r.cmd.tag, payload := r.payload } }
  else s

/-- CONFIG is raised for a configuration command that completes OK (R164, R176). -/
def State.raiseConfig (s : State) (r : Reply) : State :=
  if r.executed ∧ byteAt r.payload 3 = MgmtStatus.ok.code then
    match configDetail r.cmd with
    | some detail => s.raise .config r.cmd.code.toNat detail (r.cmd.src.setWidth 32)
    | none => s
  else s

/-- The reply is the response of a NODE_RESET that was executed (R164, R172). -/
def Reply.isReset (r : Reply) : Bool := r.executed && r.cmd.code == codeNodeReset

/-- The response joins the management response queue and the command completes (R134, R164). -/
def State.handOver (s : State) (r : Reply) : State :=
  let cell := responseCell s.ma.nodeId r.cmd r.payload
  let s := s.onIa fun ia => { ia with responses := ia.responses ++ [{ cell, reset := r.isReset }] }
  ((s.storeResponse r).raiseConfig r).agentTo (if r.isReset then .resetSent else .ready)

/-- RESPONSE_HANDOVER (R164): in ANSWERING, when the response queue holds fewer than 8 cells. -/
def execResponseHandover (s : State) : Host.Outcome State Fault Refusal :=
  s.live fun s =>
    match s.ma.state with
    | .answering r => if s.ia.responses.length < 8 then s.handOver r else s
    | .ready => s
    | .working _ _ => s
    | .resetSent => s
    | .resetWait => s

end Sys2Proof.Machine
end

