-- ==== Sys2Proof/Machine/Cache.lean ====
section
/-! DEFINITION. The Context Cache (XC): entries, choice and use of an entry, fills, write-backs, channel faults, synchronisation, the Fetch Wait List; and the release of a reservation. -/

namespace Sys2Proof.Machine

/-! ## What the cache asks of its neighbours -/

/-- The reservation of channel c is released, in this step and without memory access. For a pool that is FAULTED or
has reserved 0 nothing changes (R101). -/
def State.release (s : State) (c : Chan) : State :=
  s.onPool (s.chan c).pool fun p =>
    if p.state = .faulted ∨ p.reserved = 0 then p else { p with reserved := p.reserved - 1 }

/-- The held cells of the channels that satisfy f leave the hold queue, the others keep their order (R35). -/
def State.dropHeld (s : State) (f : Chan → Bool) : State :=
  s.onRe fun re => { re with hold := re.hold.filter fun h => !f h.channel }

/-- How many held cells belong to channels that satisfy f. -/
def State.heldCount (s : State) (f : Chan → Bool) : Word :=
  BitVec.ofNat 32 (s.re.hold.countP fun h => f h.channel)

/-! ## READ_CONTEXT (R86) -/

/-- The bytes of one part of an image (R86). -/
def imagePart (image : List Byte) (part : Fin 4) : List Byte := (image.drop (partStart part)).take (partLength part)

/-- A READ_CONTEXT is served from the store: one read as requester AGT (R86, R190). -/
def State.readStore (s : State) (c : Chan) (part : Fin 4) : State :=
  (s.onXc fun xc => { xc with ctxRead := some { channel := c, part, stage := .store } }).requestRead .agt
    (addrAt (imageAddr s.xc.storeBase c) (partStart part)) (partLength part) .ctxRead

/-- A READ_CONTEXT that awaited this stage of channel c is found (R86). -/
def State.awaiting (s : State) (c : Chan) (stage : CtxReadStage) : Option (Fin 4) :=
  match s.xc.ctxRead with
  | some r => if r.channel = c ∧ r.stage = stage then some r.part else none
  | none => none

/-- The context of channel c has come on chip: a READ_CONTEXT that awaits it is answered from it (R86). -/
def State.contextArrived (s : State) (c : Chan) (x : Context) : State :=
  match s.awaiting c .fill with
  | some part => (s.onXc fun xc => { xc with ctxRead := none }).finishLong codeReadContext .ok (imagePart x.image part)
  | none => s

/-- A fill or a write that a READ_CONTEXT of channel c awaited has ended with the channel STORED (R86). -/
def State.contextStored (s : State) (c : Chan) (stage : CtxReadStage) : State :=
  match s.awaiting c stage with
  | some part => s.readStore c part
  | none => s

/-! ## Entries -/

/-- Entry e leaves the recency order (R64). -/
def State.leaveRecency (s : State) (e : EntryId) : State :=
  s.onXc fun xc => { xc with recency := xc.recency.filter (· != e) }

/-- The residence of channel c is set (R65). -/
def State.reside (s : State) (c : Chan) (r : Residence) : State := s.onChan c fun ch => { ch with residence := r }

/-- Entry e becomes VALID with a context of channel c: it joins the recency order as most recent, and it is newly
filled while the engine has work for the channel (R67, R69, R70). -/
def State.install (s : State) (e : EntryId) (c : Chan) (x : Context) (dirty : Bool) : State :=
  let s := s.setEntry e (.valid { channel := c, ctx := x, dirty, newlyFilled := s.hasWork c })
  let s := s.onXc fun xc => { xc with recency := xc.recency.filter (· != e) ++ [e] }
  (s.reside c (.cached e)).contextArrived c x

/-- A fresh context is built in entry e, with every field 0 and nothing read (R70). -/
def State.installFresh (s : State) (e : EntryId) (c : Chan) : State :=
  (s.onChan c fun ch => { ch with fresh := false, poolReset := false }).install e c {} true

/-- The chosen entry is given to channel c: a fresh context is built, or the fill begins (R68 to R70). -/
def State.startFill (s : State) (e : EntryId) (c : Chan) : State :=
  if (s.chan c).fresh then s.installFresh e c
  else (s.setEntry e (.filling c)).requestRead .ctx (imageAddr s.xc.storeBase c) 112 (.fill e c)

/-- The entry becomes WRITING for channel v and the write of the image is requested (R68, R80). -/
def State.startWriteBack (s : State) (e : EntryId) (c : Chan) (x : Context) (claimant : Option Chan) : State :=
  (((s.setEntry e (.writing c claimant false)).leaveRecency e).reside c .writeback).requestWrite .ctx
    (imageAddr s.xc.storeBase c) x.image (.writeBack e c)

/-- A clean entry is taken from its channel (R68, R80). -/
def State.evictClean (s : State) (e : EntryId) (c : Chan) : State :=
  ((s.setEntry e .free).leaveRecency e).reside c .stored

/-- The entry chosen for channel c is used according to its state (R68). -/
def State.useEntry (s : State) (e : EntryId) (c : Chan) : State :=
  let s := s.reside c .fetching
  match s.entry e with
  | .free => s.startFill e c
  | .valid v =>
    if v.dirty then s.startWriteBack e v.channel v.ctx (some c)
    else (s.evictClean e v.channel).startFill e c
  | .filling _ => s
  | .writing _ _ _ => s

/-- The fetch note of the entry that channel c is being written from is set (R63, R66). -/
def State.noteFetch (s : State) (c : Chan) : State :=
  s.onXc fun xc => { xc with entries := xc.entries.map fun x =>
    match x with
    | .writing d claimant note => .writing d claimant (note || d == c)
    | .free => .free
    | .filling d => .filling d
    | .valid v => .valid v }

/-- A channel joins the tail of the Fetch Wait List (R72). -/
def State.joinWaitList (s : State) (c : Chan) : State := s.onXc fun xc => { xc with waitList := xc.waitList ++ [c] }

/-- A fetch request for channel c (R66). -/
def State.fetchRequest (s : State) (c : Chan) : State :=
  if (s.chan c).uses then
    match (s.chan c).residence with
    | .fetching => s
    | .cached _ => s
    | .writeback => s.noteFetch c
    | .stored =>
      if s.xc.waitList.contains c then s
      else if !s.xc.waitList.isEmpty then s.joinWaitList c
      else
        match s.chooseEntry with
        | some e => s.useEntry e c
        | none => s.joinWaitList c
  else s

/-- A VALID entry is freed by an unbind or a stop (R80). -/
def State.freeEntry (s : State) (e : EntryId) : State :=
  match s.entry e with
  | .valid v => if v.dirty then s.startWriteBack e v.channel v.ctx none else s.evictClean e v.channel
  | .free => s
  | .filling _ => s
  | .writing _ _ _ => s

/-! ## Channel faults -/

/-- Channel c becomes FAULTED: its reservation is released and msg_open cleared, CHANNEL_FAULT is raised, and the
engine removes its held cells (R61, R78, R81 to R83, R85). A channel in UNBINDING goes at once to UNBOUND and its
UNBIND_CHANNEL completes OK (R57). -/
def State.channelFault (s : State) (c : Chan) (detail : Nat) (aux : Word) : State :=
  let ch := s.chan c
  let s := if ch.msgOpen then s.release c else s
  let s := s.onCounters fun k => { k with nochannel := k.nochannel + s.heldCount (· == c) }
  let s := s.dropHeld (· == c)
  let s := s.onXc fun xc => { xc with waitList := xc.waitList.filter (· != c) }
  let s := s.onChan c fun ch => { ch with residence := .stored, msgOpen := false, pendingAbort := .none }
  let s := s.onChan c fun ch =>
    if ch.binding = .unbinding then { ch with binding := .unbound, fresh := false, poolReset := false }
    else { ch with binding := .faulted }
  let s := s.raise .channelFault c.val detail aux
  let s := s.contextStored c .fill
  if ch.binding = .unbinding then s.finishLong codeUnbindChannel .ok [] else s

/-! ## Answers to the cache's requests -/

/-- The read of a fill is answered (R69, R78, R81). -/
def State.fillAnswered (s : State) (e : EntryId) (c : Chan) (a : Answer) (bytes : List Byte) : State :=
  if s.entry e = .filling c then
    if a = .ok then
      let ch := s.chan c
      let image := Image.ofBytes bytes
      let image := if ch.poolReset then image.dropMessage else image
      let s := s.onChan c fun ch => { ch with poolReset := false }
      match image.failedTest ch.msgOpen (s.pool ch.pool).bufSize with
      | some n => (s.setEntry e .free).channelFault c 3 (BitVec.ofNat 32 n)
      | none => s.install e c image.context ch.poolReset
    else (s.setEntry e .free).channelFault c 1 a.aux
  else s

/-- The entry that was written is used for its claimant, or becomes FREE (R68, R71, R82). -/
def State.passToClaimant (s : State) (e : EntryId) (claimant : Option Chan) : State :=
  match claimant with
  | some d => s.startFill e d
  | none => s.setEntry e .free

/-- A fetch request is taken for the channel that was written, and the entry is used for its claimant (R71). By R71's
"then" the choice for the channel comes before the entry's use, so it never falls on that entry; but where the claimant
is filled by a read, that read joins the CTX line first, as in the manual's worked sequence (channel 40, steps 4 to 6),
and the choice is the same. DEDUCED, log entry 44. -/
def State.refetchAndPass (s : State) (e : EntryId) (c : Chan) (claimant : Option Chan) : State :=
  match claimant with
  | some d =>
    if (s.chan d).fresh then (s.fetchRequest c).startFill e d else (s.startFill e d).fetchRequest c
  | none => (s.fetchRequest c).setEntry e .free

/-- The write of a victim or of a freed entry is answered (R71, R82). -/
def State.writeBackAnswered (s : State) (e : EntryId) (c : Chan) (a : Answer) : State :=
  match s.entry e with
  | .writing d claimant note =>
    if d = c then
      if a = .ok then
        let s := (s.reside c .stored).contextStored c .writeBack
        if s.holds c || note then s.refetchAndPass e c claimant else s.passToClaimant e claimant
      else ((s.channelFault c 2 a.aux).contextStored c .writeBack).passToClaimant e claimant
    else s
  | .free => s
  | .filling _ => s
  | .valid _ => s

/-- The sync set is worked through in its order, one synchronising write in flight at a time. When every member is
done the command completes (R84). -/
def State.syncNext (s : State) : List (EntryId × Chan) → State
  | [] => (s.onXc fun xc => { xc with syncSet := [] }).finishLong codeSyncContexts .ok []
  | (e, c) :: rest =>
    match s.entry e with
    | .valid v =>
      if v.channel = c ∧ v.dirty = true then
        ((s.onXc fun xc => { xc with syncSet := rest }).setEntry e
          (.valid { v with syncing := true, changed := false })).requestWrite .ctx (imageAddr s.xc.storeBase c)
          v.ctx.image (.syncWrite e c)
      else s.syncNext rest
    | .free => s.syncNext rest
    | .filling _ => s.syncNext rest
    | .writing _ _ _ => s.syncNext rest

/-- A synchronising write is answered, and the next member's turn comes (R84, R85). Its write joins the CTX line before
a request for the head of the Fetch Wait List, which is served at the end of the step (R73). DESIGN CHOICE, log
entry 45. -/
def State.syncAnswered (s : State) (e : EntryId) (c : Chan) (a : Answer) : State :=
  match s.entry e with
  | .valid v =>
    if v.channel = c ∧ v.syncing = true then
      let s :=
        if a = .ok then s.setEntry e (.valid { v with syncing := false, changed := false, dirty := v.changed })
        else ((s.setEntry e .free).leaveRecency e).channelFault c 2 a.aux
      s.syncNext s.xc.syncSet
    else s
  | .free => s
  | .filling _ => s
  | .writing _ _ _ => s

/-- The read of a READ_CONTEXT is answered (R86, R190). -/
def State.ctxReadAnswered (s : State) (a : Answer) (bytes : List Byte) : State :=
  let s := s.onXc fun xc => { xc with ctxRead := none }
  if a = .ok then s.finishLong codeReadContext .ok bytes else s.finishLong codeReadContext .memerr []

/-! ## The Fetch Wait List -/

/-- The head of the Fetch Wait List leaves it. -/
def State.popWaitList (s : State) : State := s.onXc fun xc => { xc with waitList := xc.waitList.tail }

/-- The Fetch Wait List is served, at most n heads, as long as an entry can be chosen: the head is given that entry, or
passed over if it no longer needs its context. While none can be chosen the head keeps its place, whatever its need
(R73). -/
def State.serveWaitList (s : State) : Nat → State
  | 0 => s
  | n + 1 =>
    match s.xc.waitList with
    | [] => s
    | c :: _ =>
      match s.chooseEntry with
      | some e =>
        if s.needsContext c then (s.popWaitList.useEntry e c).serveWaitList n else s.popWaitList.serveWaitList n
      | none => s

/-- Every entry whose channel has come to have no work stops being newly filled (R67). -/
def State.endNewlyFilled (s : State) : State :=
  s.onXc fun xc => { xc with entries := xc.entries.map fun x =>
    match x with
    | .valid v => .valid { v with newlyFilled := v.newlyFilled && s.hasWork v.channel }
    | .free => .free
    | .filling d => .filling d
    | .writing d claimant note => .writing d claimant note }

/-! ## What the engine does to a cached context -/

/-- The engine changes the context of channel c. Any change makes the entry dirty (R39, R79). -/
def State.modContext (s : State) (c : Chan) (f : Context → Context) : State :=
  match (s.chan c).residence with
  | .cached e =>
    match s.entry e with
    | .valid v =>
      if v.channel = c then
        s.setEntry e (.valid { v with
          ctx := f v.ctx, dirty := v.dirty || f v.ctx != v.ctx, changed := v.changed || f v.ctx != v.ctx })
      else s
    | .free => s
    | .filling _ => s
    | .writing _ _ _ => s
  | .stored => s
  | .fetching => s
  | .writeback => s

/-- The engine begins work on channel c: its entry becomes most recent and is no longer newly filled (R64, R67). -/
def State.touch (s : State) (c : Chan) : State :=
  match (s.chan c).residence with
  | .cached e =>
    match s.entry e with
    | .valid v =>
      (s.setEntry e (.valid { v with newlyFilled := false })).onXc fun xc =>
        { xc with recency := xc.recency.filter (· != e) ++ [e] }
    | .free => s
    | .filling _ => s
    | .writing _ _ _ => s
  | .stored => s
  | .fetching => s
  | .writeback => s

/-- The open-message state dropped from a context (R59). -/
def Context.dropMessage (x : Context) : Context :=
  { x with state := .idle, buffers := [], bytesSoFar := 0, offset := 0, crc := crcPreset }

/-- A pool-reset drop while the context is cached: the message state is dropped, poolreset becomes no, and the entry
becomes dirty (R59, R79). -/
def State.dropMessage (s : State) (c : Chan) : State :=
  let s := s.onChan c fun ch => { ch with poolReset := false }
  match (s.chan c).residence with
  | .cached e =>
    match s.entry e with
    | .valid v => s.setEntry e (.valid { v with ctx := v.ctx.dropMessage, dirty := true, changed := true })
    | .free => s
    | .filling _ => s
    | .writing _ _ _ => s
  | .stored => s
  | .fetching => s
  | .writeback => s

/-- The drop is made at once when it is due, the context is cached and no memory operation is outstanding (R59). -/
def State.dropIfDue (s : State) (c : Chan) : State :=
  let ch := s.chan c
  if ch.poolReset && ch.isCached && !ch.waiting then s.dropMessage c else s

end Sys2Proof.Machine
end

