-- ==== Sys2Proof/Machine/Reassembly.lean ====
section
/-! DEFINITION. The Reassembly Engine (RE): the hold queue, the application of cells, closes, timeouts, owed work; and the end of every step. -/

namespace Sys2Proof.Machine

/-! ## Requests to the Delivery Unit, and the end of an operation -/

/-- A request of channel c joins the requests of its pool (R91). -/
def State.askPool (s : State) (c : Chan) (r : DuRequest) : State :=
  s.onPool (s.chan c).pool fun p => { p with requests := p.requests ++ [r] }

/-- The outstanding operation of channel c is replaced (R34). -/
def State.setOp (s : State) (c : Chan) (op : Option ChanOp) : State := s.onChan c fun ch => { ch with op }

/-- The cell under application that an operation carries. -/
def ChanOp.cell? : ChanOp → Option Cell
  | .reserve cell => some cell
  | .take cell _ => some cell
  | .write cell _ _ => some cell
  | .close _ (.cell cell) => some cell
  | .close _ (.resume cell) => some cell
  | .close _ .abort => none
  | .close _ .owner => none

/-- Whether an operation is there and carries a cell. -/
def opHasCell (op : Option ChanOp) : Bool :=
  match op with
  | some o => o.cell?.isSome
  | none => false

/-- The operation of a channel that is FAULTED or UNBOUND by now is undone: its cell is discarded and counted in
nochannel (R61). -/
def State.undo (s : State) (c : Chan) : State :=
  (s.onCounters fun k => { k with nochannel := k.nochannel + if opHasCell (s.chan c).op then 1 else 0 }).setOp c none

/-- A request of channel c is answered with a pool fault: the cell under application is discarded and counted in
pool_discards, and the open-message state is dropped (R51, R59, R106). For a channel faulted by then R61 applies. -/
def State.poolFaultAnswered (s : State) (c : Chan) : State :=
  if (s.chan c).uses then
    ((s.onCounters fun k => { k with poolDiscards := k.poolDiscards + if opHasCell (s.chan c).op then 1 else 0 }).setOp
      c none).dropIfDue c
  else s.undo c

/-! ## Closing a message (R50) -/

/-- The length a completion record carries (R50). -/
def closeLength (x : Context) (status : RxStatus) (cause : CloseCause) : Nat :=
  let other := if status = .ok then x.bytesSoFar.toNat - 4 else x.bytesSoFar.toNat
  match cause with
  | .cell cell => if cell.kind = .mgmtRsp then cell.fill.toNat else other
  | .resume _ => other
  | .abort => other
  | .owner => other

/-- The cell count a completion record carries (R50). -/
def closeCells (x : Context) (cause : CloseCause) : Nat :=
  let other := (x.bytesSoFar.toNat + 39) / 40
  match cause with
  | .cell cell => if cell.kind = .mgmtRsp ∧ cell.fill = 0 then 1 else other
  | .resume _ => other
  | .abort => other
  | .owner => other

/-- A close begins: the completion record is requested, and the channel is waiting (R50). -/
def State.beginClose (s : State) (c : Chan) (status : RxStatus) (cause : CloseCause) : State :=
  match s.context c with
  | some x =>
    (s.askPool c (.complete c (completionRecord status c x.buffers (closeLength x status cause) (closeCells x cause)
      s.ma.nodeTime))).setOp c (some (.close status cause))
  | none => s

/-- The context after a close with this status (R50). -/
def Context.closed (x : Context) (status : RxStatus) : Context :=
  { x with
    lastCode := BitVec.ofNat 16 status.code
    msgsOk := if status = .ok then x.msgsOk + 1 else x.msgsOk
    msgsBad := if status = .ok then x.msgsBad else x.msgsBad + 1
    buffers := []
    bytesSoFar := 0
    offset := 0
    state := if status = .seq ∨ status = .toolong then .discarding else .idle }

/-! ## Starting a message (R40, R41, R52) -/

/-- A completion slot is asked for (R40 step 2). -/
def State.askReserve (s : State) (c : Chan) (cell : Cell) : State :=
  (s.askPool c (.reserve c)).setOp c (some (.reserve cell))

/-- The length limit of a channel's stream: max_body + 4 (R40, R44). -/
def Channel.maxStream (ch : Channel) : Nat := ch.maxBody.toNat + 4

/-- A DATA cell starts a message: the length test, then the reservation (R40). -/
def State.startData (s : State) (c : Chan) (cell : Cell) : State :=
  if (s.chan c).maxStream < cell.fill.toNat then
    s.modContext c fun x =>
      { x with lastCode := BitVec.ofNat 16 RxStatus.toolong.code, msgsBad := x.msgsBad + 1, state := .discarding }
  else s.askReserve c cell

/-- A cell starts: a DATA cell under R40, a response cell under R52. -/
def State.startCell (s : State) (c : Chan) (cell : Cell) : State :=
  if cell.kind = .mgmtRsp then s.askReserve c cell else s.startData c cell

/-- The work on a cell that could not start ends: a data channel goes to DISCARDING, a response leaves the state as
it is (R41, R52). -/
def State.startRefused (s : State) (c : Chan) (cell : Cell) : State :=
  (if cell.kind = .mgmtRsp then s else s.modContext c fun x => { x with state := .discarding }).setOp c none

/-- A reserve is answered granted (R40 step 2), or released at once for a channel faulted by then (R61, R100). -/
def State.reserveGranted (s : State) (c : Chan) : State :=
  match (s.chan c).op with
  | some (.reserve cell) =>
    if (s.chan c).uses then
      ((s.onChan c fun ch => { ch with
        msgOpen := true, deadline := s.ma.nodeTime + ch.limit.setWidth 32 }).askPool c (.take c)).setOp c
        (some (.take cell true))
    else (s.release c).undo c
  | some (.take _ _) => s
  | some (.write _ _ _) => s
  | some (.close _ _) => s
  | none => s

/-- A reserve is refused: NOCOMPL is raised and the cell is discarded (R41, R52). -/
def State.reserveRefused (s : State) (c : Chan) : State :=
  match (s.chan c).op with
  | some (.reserve cell) =>
    if (s.chan c).uses then (s.raise .nocompl c.val (s.chan c).pool.val 0).startRefused c cell else s.undo c
  | some (.take _ _) => s
  | some (.write _ _ _) => s
  | some (.close _ _) => s
  | none => s

/-! ## Writing a cell (R46 to R48) -/

/-- The context after the write of a cell's fill bytes is issued (R48): `grow` updates the buffer list. -/
def Context.written (x : Context) (bytes : List Byte) (offset : Nat) (grow : List Buffer → List Buffer) : Context :=
  { x with
    buffers := grow x.buffers
    bytesSoFar := x.bytesSoFar + BitVec.ofNat 32 bytes.length
    offset := BitVec.ofNat 16 offset
    crc := crc32 x.crc bytes
    cellsAccepted := x.cellsAccepted + 1 }

/-- The used length of the last buffer of a list grows by n. -/
def growLast (n : Nat) (bs : List Buffer) : List Buffer :=
  match bs.reverse with
  | [] => []
  | b :: rest => (({ b with used := b.used + BitVec.ofNat 16 n } : Buffer) :: rest).reverse

/-- expected_seq as a written cell leaves it: increased by a MIDDLE or LAST (R44), set at the start by a FIRST or
ONLY (R40), unchanged by a response (R52). -/
def Context.advanceSeq (x : Context) (cell : Cell) : Context :=
  if cell.kind = .data ∧ (cell.position = .middle ∨ cell.position = .last) then
    { x with expectedSeq := x.expectedSeq + 1 }
  else x

/-- The address of the next byte of the last buffer, modulo 2^32. An address rebuilt from an image is not tested (R77), so
one of an altered image may lead past the top, where R140 says that no request goes. DESIGN CHOICE, log entry 50. -/
def Context.tailAddr (x : Context) : Word :=
  match x.buffers.getLast? with
  | some b => addrAt b.addr x.offset.toNat
  | none => 0

/-- The fill bytes of a cell are written in the last buffer as one request (R48). -/
def State.writeCell (s : State) (c : Chan) (cell : Cell) : State :=
  match s.context c with
  | some x =>
    ((s.modContext c fun x =>
      (x.written cell.valid (x.offset.toNat + cell.valid.length) (growLast cell.valid.length)).advanceSeq cell).requestWrite
      .dlv x.tailAddr cell.valid (.payload c false)).setOp c (some (.write cell none (some .ok)))
  | none => s

/-- The fill bytes of a cell are written at the end of the last buffer, as far as they fit, and at the start of a
further buffer (R47, R48, R148). A last buffer that is exactly full takes no byte, and the write is one request. The
old buffer's used length grows by the bytes it takes (R48), which makes it the buffer size (R47) unless an altered image
had it differ from the offset. DESIGN CHOICE, log entry 52. -/
def State.writeFurther (s : State) (c : Chan) (cell : Cell) (b : Buffer) : State :=
  match s.context c with
  | some x =>
    let n := (s.pool (s.chan c).pool).bufSize - x.offset.toNat
    let head := cell.valid.take n
    let rest := cell.valid.drop n
    let s' := s.modContext c fun x =>
      (x.written cell.valid rest.length fun bs =>
        growLast n bs ++ [{ b with used := BitVec.ofNat 16 rest.length }]).advanceSeq cell
    if n = 0 then
      (s'.requestWrite .dlv b.addr rest (.payload c false)).setOp c (some (.write cell none (some .ok)))
    else
      ((s'.requestWrite .dlv x.tailAddr head (.payload c false)).requestWrite .dlv b.addr rest (.payload c true)).setOp
        c (some (.write cell none none))
  | none => s

/-- A message's first buffer is given: its context begins (R40 step 3). A response leaves expected_seq (R52). -/
def Context.begun (x : Context) (cell : Cell) (b : Buffer) : Context :=
  { x with
    buffers := [b], bytesSoFar := 0, offset := 0, crc := crcPreset, state := .assembling
    expectedSeq := if cell.kind = .mgmtRsp then x.expectedSeq else cell.seq + 1 }

/-- A take is answered with a buffer (R40, R46, R47), which a channel faulted by then loses (R61, R96). -/
def State.takeGiven (s : State) (c : Chan) (cookie addr : Word) : State :=
  match (s.chan c).op with
  | some (.take cell first) =>
    if (s.chan c).uses then
      let b : Buffer := { cookie, used := 0, addr }
      if first then
        let s := s.modContext c fun x => x.begun cell b
        if cell.fill = 0 then s.beginClose c .ok (.cell cell) else s.writeCell c cell
      else s.writeFurther c cell b
    else s.undo c
  | some (.reserve _) => s
  | some (.write _ _ _) => s
  | some (.close _ _) => s
  | none => s

/-- A take is answered with none: NOBUF_START at a start, a close with NOBUF during a message (R41, R46). -/
def State.takeNone (s : State) (c : Chan) : State :=
  match (s.chan c).op with
  | some (.take cell first) =>
    if (s.chan c).uses then
      if first then
        (((s.release c).onChan c fun ch => { ch with msgOpen := false }).raise .nobufStart c.val (s.chan c).pool.val
          0).startRefused c cell
      else s.beginClose c .nobuf (.cell cell)
    else s.undo c
  | some (.reserve _) => s
  | some (.write _ _ _) => s
  | some (.close _ _) => s
  | none => s

/-! ## Applying a cell (R40 to R46) -/

/-- A MIDDLE or LAST cell in ASSEMBLING goes through the sequence, abort, length, space and write tests (R44, R45). -/
def State.continueCell (s : State) (c : Chan) (cell : Cell) (x : Context) : State :=
  let ch := s.chan c
  if cell.seq ≠ x.expectedSeq then s.beginClose c .seq (.cell cell)
  else if cell.position = .last ∧ cell.fill = 0 then s.beginClose c .peerabort (.cell cell)
  else if ch.maxStream < x.bytesSoFar.toNat + cell.fill.toNat then s.beginClose c .toolong (.cell cell)
  else if (s.pool ch.pool).bufSize - x.offset.toNat < cell.fill.toNat then
    if x.buffers.length = 8 then s.beginClose c .toolong (.cell cell)
    else (s.askPool c (.take c)).setOp c (some (.take cell false))
  else s.writeCell c cell

/-- A DATA cell is applied in ASSEMBLING (R43, R44). -/
def State.applyOpen (s : State) (c : Chan) (cell : Cell) (x : Context) : State :=
  if cell.starts then s.beginClose c .nolast (.resume cell)
  else if cell.position = .only then s.beginClose c .peerabort (.cell cell)
  else s.continueCell c cell x

/-- A DATA cell is applied in IDLE or DISCARDING (R40, R42). -/
def State.applyClosed (s : State) (c : Chan) (cell : Cell) : State :=
  if cell.starts then s.startData c cell
  else s.modContext c fun x => { x with strayCells := x.strayCells + 1 }

/-- A cell is applied to its channel's context (R40 to R46, R52). -/
def State.applyTo (s : State) (c : Chan) (cell : Cell) : State :=
  match s.context c with
  | some x =>
    if cell.kind = .mgmtRsp then
      if (s.chan c).msgOpen then s.beginClose c .nolast (.resume cell) else s.startCell c cell
    else if x.state = .assembling then s.applyOpen c cell x
    else s.applyClosed c cell
  | none => s

/-- A held cell can be applied: its channel is ready and has no pending abort (R37). -/
def State.applicable (s : State) (h : HeldCell) : Bool :=
  s.ready h.channel && (s.chan h.channel).pendingAbort == .none

/-- A ready channel has a pending abort, which is applied before any cell (R37, R38). -/
def State.abortDue (s : State) : Bool := (allOf 256).any fun c => (s.chan c).pendingAbort != .none && s.ready c

/-- The oldest applicable held cell leaves the queue and its application begins (R37). -/
def State.applyHeld (s : State) : State :=
  if s.halted || s.abortDue then s
  else
    match s.re.hold.find? s.applicable with
    | some h =>
      ((s.onRe fun re => { re with hold := re.hold.eraseP s.applicable }).touch h.channel).applyTo h.channel h.cell
    | none => s

/-- A pending abort is applied to its ready channel (R38). -/
def State.applyAbort (s : State) (c : Chan) : State :=
  if s.halted || !s.ready c then s
  else
    match (s.chan c).pendingAbort with
    | .none => s
    | .holdfull =>
      let s := s.touch c
      if (s.chan c).msgOpen then s.beginClose c .holdfull .abort
      else s.onChan c fun ch => { ch with pendingAbort := .none }
    | .timeout =>
      let s := s.touch c
      if s.expired c then s.beginClose c .timeout .abort
      else s.onChan c fun ch => { ch with pendingAbort := .none }

/-! ## Answers (R48 to R51) -/

/-- The status of a finished message, decided from the stream as written (R49). -/
def finishStatus (x : Context) : RxStatus :=
  if x.bytesSoFar.toNat < 4 then .runt else if x.crc ≠ crcResidue then .crc else .ok

/-- A payload write is answered as a whole (R48, R49, R52, R59, R61). -/
def State.writeAnswered (s : State) (c : Chan) (cell : Cell) (a : Answer) : State :=
  if (s.chan c).uses then
    if (s.chan c).poolReset then (s.setOp c none).dropIfDue c
    else if a = .ok then
      match s.context c with
      | some x =>
        if cell.kind = .mgmtRsp then s.beginClose c .ok (.cell cell)
        else if cell.ends then s.beginClose c (finishStatus x) (.cell cell)
        else s.setOp c none
      | none => s
    else s.beginClose c .memerr (.cell cell)
  else s.undo c

/-- The one answer for a pair of halves: OK, or the answer of the first half that failed (R148). -/
def combined (a b : Answer) : Answer := if a = .ok then b else a

/-- A payload request is answered; a split write is answered when both halves are (R148). -/
def State.payloadAnswered (s : State) (c : Chan) (second : Bool) (a : Answer) : State :=
  match (s.chan c).op with
  | some (.write cell h1 h2) =>
    let h1 := if second then h1 else some a
    let h2 := if second then some a else h2
    match h1, h2 with
    | some a1, some a2 => s.writeAnswered c cell (combined a1 a2)
    | some _, none => s.setOp c (some (.write cell h1 h2))
    | none, _ => s.setOp c (some (.write cell h1 h2))
  | some (.reserve _) => s
  | some (.take _ _) => s
  | some (.close _ _) => s
  | none => s

/-- A completion record is written: the message is closed, and a cell that caused the close by its start resumes
(R50, R38, R43, R52). -/
def State.closeFinished (s : State) (c : Chan) : State :=
  match (s.chan c).op with
  | some (.close status cause) =>
    if (s.chan c).uses then
      let s := s.onChan c fun ch => { ch with msgOpen := false, op := none }
      let s := s.modContext c fun x => x.closed status
      match cause with
      | .cell _ => s
      | .resume cell => s.startCell c cell
      | .abort => s.onChan c fun ch => { ch with pendingAbort := .none }
      | .owner => s
    else s.undo c
  | some (.reserve _) => s
  | some (.take _ _) => s
  | some (.write _ _ _) => s
  | none => s

/-! ## The hold queue (R35, R36) -/

/-- A cell is handed to the engine for channel c (R35, R36). -/
def State.holdCell (s : State) (c : Chan) (cell : Cell) : State :=
  if s.re.hold.length < 64 then
    let s := s.onRe fun re => { re with hold := re.hold ++ [{ channel := c, cell }] }
    if (s.chan c).residence = .stored then s.fetchRequest c else s
  else
    let s := s.onCounters fun k => { k with holdOverflow := k.holdOverflow + 1 }
    if (s.chan c).pendingAbort = .none then
      (s.onChan c fun ch => { ch with pendingAbort := .holdfull }).raise .holdOverflow c.val 0 s.counters.holdOverflow
    else s

/-! ## Timeouts (R53) -/

/-- The scanner finds an expired channel (R53). -/
def State.deadlineFound (s : State) (c : Chan) : State :=
  let ch := s.chan c
  if s.ready c then
    if ch.pendingAbort = .none then s.beginClose c .timeout .owner else s
  else
    let s := if ch.pendingAbort = .none then s.onChan c fun ch => { ch with pendingAbort := .timeout } else s
    if ch.residence = .stored then s.fetchRequest c else s

/-- The scanner examines channel c, once in a tick, while the node is RUNNING (R53). -/
def State.scanChannel (s : State) (c : Chan) : State :=
  if s.halted || !s.re.scanOpen || s.re.scanned.contains c || s.ma.nodeState != .running then s
  else
    let s := s.onRe fun re => { re with scanned := c :: re.scanned }
    if (s.chan c).binding = .bound ∧ s.expired c = true then s.deadlineFound c else s

/-! ## Pool faults (R59) -/

/-- Channel c is BOUND or UNBINDING to pool p. -/
def State.usesPool (s : State) (p : PoolId) (c : Chan) : Bool := (s.chan c).uses && (s.chan c).pool == p

/-- The engine is told that pool p has become FAULTED (R59). -/
def State.poolFaultChannels (s : State) (p : PoolId) : State :=
  let n := s.heldCount (s.usesPool p)
  let s := s.onCounters fun k => { k with poolDiscards := k.poolDiscards + n }
  let s := s.dropHeld (s.usesPool p)
  let s := s.onRe fun re => { re with channels := re.channels.map fun ch =>
    if ch.uses && ch.pool == p then { ch with msgOpen := false, poolReset := true, pendingAbort := .none } else ch }
  forAll 256 (fun c s => s.dropIfDue c) s

/-! ## The end of a step -/

/-- The work a channel owes to an unbind or a stop goes on as far as it can: its close begins, its context is
fetched, or its entry is freed, a dirty one by a write-back (R56, R58, R80). -/
def State.owedWork (s : State) (c : Chan) : State :=
  let ch := s.chan c
  if ch.waiting then s
  else if s.closeOwed c then
    match ch.residence with
    | .cached _ =>
      if (s.pool ch.pool).state = .active then
        (s.touch c).beginClose c (if ch.binding = .unbinding then .unbound else .stopped) .owner
      else s
    | .stored => s.fetchRequest c
    | .fetching => s
    | .writeback => s
  else if ch.binding = .unbinding then
    match ch.residence with
    | .cached e => s.freeEntry e
    | .stored => s
    | .fetching => s
    | .writeback => s
  else s

/-- During a stop every entry is freed once no message is open (R58, R87). -/
def State.freeAll (s : State) : State :=
  if s.ma.nodeState = .stopping ∧ s.messagesClosed = true then forAll 16 (fun e s => s.freeEntry e) s else s

/-- The Fetch Wait List is served when an entry has become FREE or eligible in the step (R73). -/
def State.serveIfFreed (s before : State) : State :=
  if (allOf 16).any fun e => s.available e && !before.available e then s.serveWaitList s.xc.waitList.length else s

/-- What every step of the engine and the cache ends with, in that step: entries stop being newly filled, owed work
goes on, and the Fetch Wait List is served (R56, R58, R67, R73, R87). Nothing begins in the wait of a node reset
(R62, R88). An UNBINDING channel that stops waiting has its entry freed (R80) before the list is served (R73), whose
head that entry could serve by either rule. DESIGN CHOICE, log entry 46. A channel that stops waiting with its message
open has the close it owes to an unbind or a stop begun (R56, R58) before the list is served, though its entry could
serve the head. DESIGN CHOICE, log entry 49. A pending abort of a channel that has become ready is applied (R38) by a
later command, so the list is served first and may take the channel's entry. DESIGN CHOICE, log entry 51. -/
def State.settle (s before : State) : State :=
  if s.halted then s
  else ((forAll 256 (fun c s => s.owedWork c) s.endNewlyFilled).freeAll).serveIfFreed before

/-- A step of the part that may move the engine or the cache on. -/
def State.liveSettled (s : State) (f : State → State) : Host.Outcome State Fault Refusal :=
  s.live fun s => (f s).settle s

/-! ## The engine's commands -/

/-- APPLY_CELL (R37). -/
def execApplyCell (s : State) : Host.Outcome State Fault Refusal := s.liveSettled State.applyHeld

/-- APPLY_PENDING_ABORT (R38). -/
def execApplyPendingAbort (c : Chan) (s : State) : Host.Outcome State Fault Refusal :=
  s.liveSettled fun s => s.applyAbort c

/-- DEADLINE_REACHED (R53). -/
def execDeadlineReached (c : Chan) (s : State) : Host.Outcome State Fault Refusal :=
  s.liveSettled fun s => s.scanChannel c

/-- The work of the unbind of channel c is over but for its last step: no message is open, no operation is
outstanding, and the context is STORED (R56). -/
def State.unbindReady (s : State) (c : Chan) : Bool :=
  let ch := s.chan c
  ch.binding == .unbinding && !ch.msgOpen && !ch.waiting && ch.residence == .stored

/-- A binding becomes UNBOUND: poolreset and fresh become no (R57), and the channel leaves the Fetch Wait List
(R72). -/
def State.becomeUnbound (s : State) (c : Chan) : State :=
  (s.onChan c fun ch => { ch with binding := .unbound, fresh := false, poolReset := false }).onXc fun xc =>
    { xc with waitList := xc.waitList.filter (· != c) }

/-- CHANNEL_UNBOUND: the binding becomes UNBOUND and UNBIND_CHANNEL completes OK (R56 step 5). -/
def execChannelUnbound (c : Chan) (s : State) : Host.Outcome State Fault Refusal :=
  s.liveSettled fun s =>
    if s.halted || !s.unbindReady c then s
    else (s.becomeUnbound c).finishLong codeUnbindChannel .ok []

end Sys2Proof.Machine
end

