-- ==== Sys2Proof/Machine/Pools.lean ====
section
/-! DEFINITION. The Delivery Unit (DU): reserves, takes, completion writes and pool faults. -/

namespace Sys2Proof.Machine

/-- The access of a pool's request in progress is set (R91). -/
def State.setAccess (s : State) (p : PoolId) (a : Option DuAccess) : State := s.onPool p fun x => { x with access := a }

/-- The head of a pool's requests leaves them. -/
def State.popRequest (s : State) (p : PoolId) : State := s.onPool p fun x => { x with requests := x.requests.tail }

/-- The request at the head of pool p's requests, when the pool has none in progress and DU takes requests
(R91, R109). -/
def State.headRequest (s : State) (p : PoolId) : Option DuRequest :=
  if s.halted || (s.pool p).access.isSome then none else (s.pool p).requests.head?

/-- The position n places after pos in a ring of this size (R89). -/
def ringPos (size pos n : Nat) : Nat := (pos + n) % size

/-- The read of bytes 0 to 11 of the free descriptor at free_pos (R92, R93). -/
def State.readFree (s : State) (p : PoolId) (c : Chan) (examined : Nat) : State :=
  (s.setAccess p (some (.freeRead c examined))).requestRead .dlv
    (addrAt (s.pool p).freeBase (16 * (s.pool p).freePos)) 12 (.pool p)

/-- The write of owner 0 and a status to the free descriptor at free_pos (R92 to R94). -/
def State.writeFree (s : State) (p : PoolId) (status : Byte) (a : DuAccess) : State :=
  (s.setAccess p (some a)).requestWrite .dlv (addrAt (s.pool p).freeBase (16 * (s.pool p).freePos)) [0, status]
    (.pool p)

/-- A reserve is granted in DU: reserved increases by 1, and known_free by n (R100). -/
def State.grantReserve (s : State) (p : PoolId) (n : Nat) (c : Chan) : State :=
  (s.onPool p fun x => { x with knownFree := x.knownFree + n, reserved := x.reserved + 1 }).reserveGranted c

/-- A reserve is taken (R100, R106). -/
def State.takeReserve (s : State) (p : PoolId) (c : Chan) : State :=
  let x := s.pool p
  if x.state ≠ .active then s.poolFaultAnswered c
  else if x.reserved < x.knownFree then s.grantReserve p 0 c
  else if x.knownFree = x.complSize then s.reserveRefused c
  else (s.setAccess p (some (.ownerRead c))).requestRead .dlv
    (addrAt x.complBase (64 * ringPos x.complSize x.writePos x.knownFree)) 1 (.pool p)

/-- A take is taken (R93, R106). -/
def State.takeTake (s : State) (p : PoolId) (c : Chan) : State :=
  if (s.pool p).state ≠ .active then s.poolFaultAnswered c else s.readFree p c 0

/-- A completion request is taken: the record is written at write_pos (R102, R106). The request of a channel faulted
meanwhile, whose message is dropped, is undone without a write (Assumption 10). -/
def State.takeComplete (s : State) (p : PoolId) (c : Chan) (record : List Byte) : State :=
  let x := s.pool p
  if x.state ≠ .active then s.poolFaultAnswered c
  else if (s.chan c).uses then
    (s.setAccess p (some (.recordWrite c))).requestWrite .dlv (addrAt x.complBase (64 * x.writePos)) record (.pool p)
  else s.undo c

/-- RESERVE (R91, R100). -/
def execReserve (p : PoolId) (s : State) : Host.Outcome State Fault Refusal :=
  s.liveSettled fun s =>
    match s.headRequest p with
    | some (.reserve c) => (s.popRequest p).takeReserve p c
    | some (.take _) => s
    | some (.complete _ _) => s
    | none => s

/-- TAKE (R91, R93). -/
def execTake (p : PoolId) (s : State) : Host.Outcome State Fault Refusal :=
  s.liveSettled fun s =>
    match s.headRequest p with
    | some (.take c) => (s.popRequest p).takeTake p c
    | some (.reserve _) => s
    | some (.complete _ _) => s
    | none => s

/-- COMPLETION_WRITE (R91, R102). -/
def execCompletionWrite (p : PoolId) (s : State) : Host.Outcome State Fault Refusal :=
  s.liveSettled fun s =>
    match s.headRequest p with
    | some (.complete c record) => (s.popRequest p).takeComplete p c record
    | some (.reserve _) => s
    | some (.take _) => s
    | none => s

/-! ## Pool faults (R105, R106) -/

/-- The channel a request came from. -/
def DuRequest.channel : DuRequest → Chan
  | .reserve c => c
  | .take c => c
  | .complete c _ => c

/-- Pool p faults on an access made for channel c: the positions become 0, the engine treats the pool's channels, the
event is raised, and the request in progress and the waiting ones are answered with the fault in their order
(R59, R105, R106). That the waiting ones are answered in this very step is a DESIGN CHOICE, log entry 36. -/
def State.poolFault (s : State) (p : PoolId) (c : Chan) (detail : Nat) (a : Answer) : State :=
  let waiting := (s.pool p).requests
  let s := s.onPool p fun x => { x with
    state := .faulted, freePos := 0, writePos := 0, knownFree := 0, reserved := 0, requests := [] }
  let s := (s.poolFaultChannels p).raise .poolFault p.val detail a.aux
  waiting.foldl (fun s r => s.poolFaultAnswered r.channel) (s.poolFaultAnswered c)

/-! ## Answers to a pool's accesses -/

/-- The free descriptor's address and cookie are examined (R93, R94). -/
def State.examineFree (s : State) (p : PoolId) (c : Chan) (examined : Nat) (bytes : List Byte) : State :=
  let addr := wordAt bytes 4
  if byteAt bytes 0 ≠ 1 then s.takeNone c
  else if aligned 64 addr = false then s.writeFree p 1 (.freeRejected c (examined + 1) 1)
  else if regionFits addr (s.pool p).bufSize = false then s.writeFree p 1 (.freeRejected c (examined + 1) 2)
  else s.writeFree p 0 (.freeTaken c (wordAt bytes 8) addr)

/-- free_pos advances by one position (R93, R94). -/
def State.advanceFree (s : State) (p : PoolId) : State :=
  s.onPool p fun x => { x with freePos := ringPos x.freeSize x.freePos 1 }

/-- A rejected descriptor has been written: the take goes on at the new free_pos, or ends when it has examined as
many descriptors as the ring holds (R94, R95). FREE_REJECTED reaches the Event Writer before what the end of the take
raises. DESIGN CHOICE, log entry 43. -/
def State.rejected (s : State) (p : PoolId) (c : Chan) (examined detail : Nat) : State :=
  let pos := (s.pool p).freePos
  let s := (s.advanceFree p).raise .freeRejected p.val detail (BitVec.ofNat 32 pos)
  if (s.pool p).freeSize ≤ examined then s.takeNone c else s.readFree p c examined

/-- The reservations left when a record has been written. That of a channel faulted meanwhile has been released
already, and the ones left are covered by the slots left, as R99 has it (Assumption 10). -/
def Pool.reservedAfter (x : Pool) (uses : Bool) : Nat :=
  if uses then x.reserved - 1 else min x.reserved (x.knownFree - 1)

/-- A completion record has been written (R102, R104). -/
def State.recordWritten (s : State) (p : PoolId) (c : Chan) : State :=
  let uses := (s.chan c).uses
  let s := s.onPool p fun x => { x with
    writePos := ringPos x.complSize x.writePos 1, knownFree := x.knownFree - 1, reserved := x.reservedAfter uses }
  let s := if (s.pool p).notify then s.assertLint else s
  s.closeFinished c

/-- The access of pool p is answered (R93, R94, R100, R102, R105). -/
def State.poolAnswered (s : State) (p : PoolId) (a : Answer) (bytes : List Byte) : State :=
  let s' := s.setAccess p none
  match (s.pool p).access with
  | some (.ownerRead c) =>
    if a ≠ .ok then s'.poolFault p c 3 a
    else if byteAt bytes 0 = 1 then s'.grantReserve p 1 c
    else s'.reserveRefused c
  | some (.freeRead c examined) => if a ≠ .ok then s'.poolFault p c 1 a else s'.examineFree p c examined bytes
  | some (.freeTaken c cookie addr) =>
    if a ≠ .ok then s'.poolFault p c 2 a else (s'.advanceFree p).takeGiven c cookie addr
  | some (.freeRejected c examined detail) =>
    if a ≠ .ok then s'.poolFault p c 2 a else s'.rejected p c examined detail
  | some (.recordWrite c) => if a ≠ .ok then s'.poolFault p c 4 a else s'.recordWritten p c
  | none => s

end Sys2Proof.Machine
end

