-- ==== Sys2Proof/Machine/Transmit.lean ====
section
/-! DEFINITION. The Segmentation Unit (SU): polls, descriptors, slot locks, segmentation, write-backs and early ends. -/

namespace Sys2Proof.Machine

/-! ## Sizes of a message (R119, R121) -/

/-- The cells of a message that carry body bytes. -/
def bodyCells (length : Nat) : Nat := (length + 39) / 40

/-- The cells of a message: a data message carries the body and 4 check bytes, a management command is one cell. -/
def messageCells (kind : SlotKind) (length : Nat) : Nat :=
  match kind with
  | .data => (length + 43) / 40
  | .mgmt => 1

/-- The position of cell k of n (R119). -/
def cellPosition (k n : Nat) : Position :=
  if n = 1 then .only else if k = 1 then .first else if k = n then .last else .middle

/-! ## Descriptor accesses (R112) -/

/-- The address of byte k of a ring's head descriptor (R110). -/
def TxRing.headAddr (x : TxRing) (k : Nat) : Word := addrAt x.base (32 * x.head + k)

/-- The descriptor access of ring r is set. -/
def State.setTxAccess (s : State) (r : RingId) (a : Option TxAccess) : State := s.onRing r fun x => { x with access := a }

/-- The write-back of ring r's descriptor begins: bytes 16 to 21, the completion tick and the cells sent (R116). -/
def State.beginWriteBack (s : State) (r : RingId) (status : TxStatus) (cells : Nat) : State :=
  (s.setTxAccess r (some (.tickWrite status))).requestWrite .seg ((s.ring r).headAddr 16)
    (be32 s.ma.nodeTime ++ be16 (BitVec.ofNat 16 cells)) (.descriptor r)

/-- A poll reaches ring r: an IDLE ring with no descriptor access in flight reads bytes 0 to 5 of its head, while the
node is RUNNING (R113, R114). -/
def State.poll (s : State) (r : RingId) : State :=
  if s.halted || s.ma.nodeState != .running then s
  else if (s.ring r).state = .idle ∧ (s.ring r).access = none then
    (s.setTxAccess r (some .ownerRead)).requestRead .seg ((s.ring r).headAddr 0) 6 (.descriptor r)
  else s

/-- Every ring is polled (R113). -/
def State.pollAll (s : State) : State := forAll 4 (fun r s => s.poll r) s

/-! ## Reading the body and building cells (R119 to R121) -/

/-- Body reads of ring r are requested, at most n, while its staged cells and its cells with a read outstanding are
fewer than 4 (R120). -/
def State.issueReads (s : State) (r : RingId) : Nat → State
  | 0 => s
  | n + 1 =>
    match (s.ring r).msg, (s.ring r).desc with
    | some m, some d =>
      if m.ended = none ∧ m.nextRead ≤ bodyCells d.length.toNat
          ∧ (s.ring r).fifo.length + (m.nextRead - m.nextBuild) < 4 then
        let start := 40 * (m.nextRead - 1)
        ((s.onRing r fun x => { x with msg := some { m with nextRead := m.nextRead + 1 } }).requestRead .seg
          (addrAt d.addr start) (min 40 (d.length.toNat - start)) (.body r (s.ring r).gen)).issueReads r n
      else s
    | some _, none => s
    | none, _ => s

/-- A DATA cell of ring r's message on slot k is built with the slot's header and next_seq, which increases, and
joins the staging FIFO (R119). -/
def State.stageData (s : State) (r : RingId) (k : SlotId) (position : Position) (bytes : List Byte) : State :=
  let x := s.slot k
  let cell := Cell.build .data position x.nextSeq x.dest s.ma.nodeId x.label x.hops bytes
  (s.onSlot k fun x => { x with nextSeq := x.nextSeq + 1 }).onRing r fun x => { x with fifo := x.fifo ++ [cell] }

/-- The four check bytes of a body with this CRC-32 register (R4). -/
def trailer (crc : Word) : List Byte := be32 (~~~crc)

/-- The last cell of a message that carries only trailer bytes is built when its turn comes and the FIFO holds fewer
than 4 cells (R120). -/
def State.stageTrailer (s : State) (r : RingId) : State :=
  match (s.ring r).msg, (s.ring r).desc with
  | some m, some d =>
    let L := d.length.toNat
    if (s.slot m.slot).kind = .data ∧ m.ended = none ∧ m.nextBuild = bodyCells L + 1
        ∧ messageCells .data L = bodyCells L + 1 ∧ (s.ring r).fifo.length < 4 then
      (s.stageData r m.slot .last ((trailer m.crc).drop (40 * bodyCells L - L))).onRing r fun x =>
        { x with msg := some { m with nextBuild := m.nextBuild + 1 } }
    else s
  | some _, none => s
  | none, _ => s

/-- The next cell of ring r's message is built from the bytes of its read (R119, R121). -/
def State.buildCell (s : State) (r : RingId) (m : TxMsg) (d : TxDesc) (bytes : List Byte) : State :=
  let L := d.length.toNat
  let x := s.slot m.slot
  match x.kind with
  | .mgmt =>
    let cell := Cell.build .mgmtCmd .only 0 x.dest s.ma.nodeId 0 x.hops bytes
    s.onRing r fun y => { y with fifo := y.fifo ++ [cell], msg := some { m with nextBuild := m.nextBuild + 1 } }
  | .data =>
    let crc := crc32 m.crc bytes
    let valid := if m.nextBuild = bodyCells L then (bytes ++ trailer crc).take 40 else bytes
    (s.stageData r m.slot (cellPosition m.nextBuild (messageCells .data L)) valid).onRing r fun y =>
      { y with msg := some { m with nextBuild := m.nextBuild + 1, crc } }

/-- The message of ring r is ended early with this status (R123). A message whose write-back has begun, or that has
been ended before, goes on as it is (R122; Assumption 16). -/
def State.endEarly (s : State) (r : RingId) (status : TxStatus) : State :=
  match (s.ring r).msg with
  | some m =>
    if m.ended = none ∧ (s.ring r).access = none then
      let data := (s.slot m.slot).kind = .data
      let dropped := if data then (s.ring r).fifo.length else 0
      let s := s.onSlot m.slot fun x => { x with nextSeq := x.nextSeq - BitVec.ofNat 4 dropped }
      let s := s.onRing r fun x =>
        { x with fifo := [], gen := x.gen + 1, msg := some { m with ended := some status } }
      if data ∧ 0 < m.sent then s.stageData r m.slot .last [] else s.beginWriteBack r status m.sent
    else s
  | none => s

/-- A body read of ring r is answered (R120, R121, R124). An answer for an earlier message or after an early end is
ignored (R123). -/
def State.bodyAnswered (s : State) (r : RingId) (gen : Nat) (a : Answer) (bytes : List Byte) : State :=
  if (s.ring r).gen = gen then
    match (s.ring r).msg, (s.ring r).desc with
    | some m, some d =>
      if a = .ok then ((s.buildCell r m d bytes).stageTrailer r).issueReads r 4 else s.endEarly r .memerr
    | some _, none => s
    | none, _ => s
  else s

/-! ## Slot locks (R118) -/

/-- Ring r holds the lock of slot k and begins its message (R111, R118, R120). -/
def State.startMessage (s : State) (r : RingId) (k : SlotId) : State :=
  (s.onRing r fun x => { x with state := .sending, msg := some { slot := k }, gen := x.gen + 1 }).issueReads r 4

/-- Ring r requests the lock of slot k (R118). -/
def State.requestLock (s : State) (r : RingId) (k : SlotId) : State :=
  if (s.slot k).holder = none ∧ (s.slot k).lockQueue = [] then
    (s.onSlot k fun x => { x with holder := some r }).startMessage r k
  else (s.onSlot k fun x => { x with lockQueue := x.lockQueue ++ [r] }).onRing r fun x => { x with state := .waitSlot }

/-- Ring r releases the lock it holds, and the next waiting ring is granted it (R118). -/
def State.releaseLock (s : State) (r : RingId) : State :=
  match (s.ring r).msg with
  | some m =>
    if (s.slot m.slot).holder = some r then
      match (s.slot m.slot).lockQueue with
      | [] => s.onSlot m.slot fun x => { x with holder := none }
      | q :: rest =>
        (s.onSlot m.slot fun x => { x with holder := some q, lockQueue := rest }).startMessage q m.slot
    else s
  | none => s

/-! ## Validation (R115) -/

/-- The address of a body of this length stays within the address space (R115 test 5). -/
def bodyFits (addr : Word) (length : Nat) : Bool := regionFits addr length

/-- The outcome of the five tests of a DEVICE-owned head descriptor: a status, or the slot of a valid one (R115). -/
def State.validate (s : State) (d : TxDesc) : TxStatus ⊕ SlotId :=
  if d.length.toNat = 0 ∨ 16000 < d.length.toNat then .inl .badlen
  else
    if h : d.slot.toNat < 64 then
      let k : SlotId := ⟨d.slot.toNat, h⟩
      if (s.slot k).enabled = false then .inl .slotoff
      else if (s.slot k).kind = .mgmt ∧ 40 < d.length.toNat then .inl .badlen
      else if bodyFits d.addr d.length.toNat = false then .inl .badlen
      else .inr k
    else .inl .badslot

/-- The ring acts on the outcome of the validation in the same step (R114, R115, R118). -/
def State.validated (s : State) (r : RingId) (d : TxDesc) : State :=
  let s := s.onRing r fun x => { x with desc := some d }
  match s.validate d with
  | .inl status => s.beginWriteBack r status 0
  | .inr k => s.requestLock r k

/-! ## Faults and write-backs (R116, R125) -/

/-- The ring gives up its descriptor and its message. -/
def TxRing.rest (x : TxRing) (state : RingState) : TxRing :=
  { x with state, access := none, desc := none, msg := none, fifo := [] }

/-- The lock of a SENDING ring is released, and the ring takes another state (R116, R118, R125). -/
def State.ringRests (s : State) (r : RingId) (state : RingState) : State :=
  (if (s.ring r).state = .sending then s.releaseLock r else s).onRing r fun x => x.rest state

/-- A descriptor access of ring r has failed: detail 1 for a read, 2 for a write-back (R125). -/
def State.ringFault (s : State) (r : RingId) (detail : Nat) (a : Answer) : State :=
  (s.ringRests r .faulted).raise .txringFault r.val detail a.aux

/-- The notify-this flag of the descriptor a ring holds (R112). -/
def TxRing.notifyThis (x : TxRing) : Bool :=
  match x.desc with
  | some d => d.notifyThis
  | none => false

/-- The second write of a write-back is answered OK: the head advances, the lock is released, LINT may be asked for
and the ring is polled (R116). The body reads of the ring that is granted the lock (R118, R120) join the SEG line before
the poll's read (R113). DESIGN CHOICE, log entry 47. -/
def State.writeBackDone (s : State) (r : RingId) : State :=
  let old := s.ring r
  let s := (s.ringRests r .idle).onRing r fun x => { x with head := ringPos x.size x.head 1 }
  let s := if old.notify || old.notifyThis then s.assertLint else s
  s.poll r

/-- The descriptor access of ring r is answered (R114, R116, R125, R129). -/
def State.descriptorAnswered (s : State) (r : RingId) (a : Answer) (bytes : List Byte) : State :=
  match (s.ring r).access with
  | some .ownerRead =>
    if a ≠ .ok then s.ringFault r 1 a
    else if byteAt bytes 0 = 1 ∧ s.ma.nodeState = .running then
      let d : TxDesc := { slot := byteAt bytes 2, notifyThis := (byteAt bytes 3).getLsbD 0, length := halfAt bytes 4,
                          addr := 0 }
      (s.onRing r fun x => { x with desc := some d, access := some .addrRead }).requestRead .seg
        ((s.ring r).headAddr 8) 4 (.descriptor r)
    else s.onRing r fun x => { x with access := none }
  | some .addrRead =>
    if a ≠ .ok then s.ringFault r 1 a
    else
      match (s.ring r).desc with
      | some d =>
        if s.ma.nodeState = .running then
          (s.setTxAccess r none).validated r { d with addr := wordAt bytes 0 }
        else s.onRing r fun x => { x with access := none, desc := none }
      | none => s.setTxAccess r none
  | some (.tickWrite status) =>
    if a ≠ .ok then s.ringFault r 2 a
    else (s.setTxAccess r (some .ownerWrite)).requestWrite .seg ((s.ring r).headAddr 0) [0, status.code] (.descriptor r)
  | some .ownerWrite => if a ≠ .ok then s.ringFault r 2 a else s.writeBackDone r
  | none => s

/-! ## Departures (R122, R135) -/

/-- A cell of ring r has left: the last cell of a message begins the write-back, another makes room in the FIFO
(R120, R122, R123). -/
def State.departed (s : State) (r : RingId) (cell : Cell) : State :=
  match (s.ring r).msg with
  | some m =>
    let s := s.onRing r fun x => { x with msg := some { m with sent := m.sent + 1 } }
    if cell.ends then s.beginWriteBack r (m.ended.getD .done) (m.sent + 1)
    else (s.stageTrailer r).issueReads r 4
  | none => s

/-! ## Disabling a slot, stopping and polling -/

/-- A ring in the lock queue of a disabled slot writes its head descriptor back with SLOTOFF (R127). -/
def State.slotOff (s : State) (r : RingId) : State :=
  (s.onRing r fun x => { x with state := .idle }).beginWriteBack r .slotoff 0

/-- Slot k turns from enabled to disabled: its waiting rings are written back SLOTOFF and its holder's message is cut
(R127). The rings begin in the order of the lock queue. DESIGN CHOICE, log entry 37. -/
def State.disableSlot (s : State) (k : SlotId) : State :=
  let queue := (s.slot k).lockQueue
  let s := queue.foldl State.slotOff (s.onSlot k fun x => { x with lockQueue := [] })
  match (s.slot k).holder with
  | some r => s.endEarly r .cut
  | none => s

/-- STOP is taken: every ring in WAIT_SLOT leaves its lock queue and becomes IDLE (R129). -/
def State.leaveLockQueues (s : State) : State :=
  s.onSu fun su => { su with
    rings := su.rings.map fun x => if x.state = .waitSlot then { x with state := .idle, desc := none } else x
    slots := su.slots.map fun x => { x with lockQueue := [] } }

/-- INTERVAL_POLL: the countdown has reached 0 while the node is RUNNING; every ring is polled and the countdown is
loaded with tx_poll again (R113). -/
def execIntervalPoll (s : State) : Host.Outcome State Fault Refusal :=
  s.live fun s =>
    if s.halted || s.ma.nodeState != .running || s.su.txPoll == 0 || s.su.countdown != 0 then s
    else s.pollAll.onSu fun su => { su with countdown := su.txPoll }

/-- ATTN_EDGE: LINT is deasserted and every ring is polled (R203). -/
def execAttnEdge (s : State) : Host.Outcome State Fault Refusal :=
  s.live fun s => (s.onEw fun ew => { ew with lint := false }).pollAll

end Sys2Proof.Machine
end

