-- ==== Sys2Proof/Machine/Insertion.lean ====
section
/-! DEFINITION. The Insertion Arbiter (IA) and the outbound positions: OUTBOUND_POSITION. -/

namespace Sys2Proof.Machine

/-- Trunk-Out carries this cell in the position, with its header check (R2, R14). -/
def State.send (s : State) (c : Cell) : State := s.onCf fun cf => { cf with trunkOut := some c.bytes }

/-- A cell placed by the arbiter leaves and is counted in positions_inserted (R132). -/
def State.place (s : State) (c : Cell) : State :=
  (s.send c).onCounters fun k => { k with positionsInserted := k.positionsInserted + 1 }

/-- The NODE_RESET response has left: the agent is in RESET_WAIT, the port drops what is not issued and withdraws
what is offered, and every staged cell is dropped (R130, R151, R172). -/
def State.enterResetWait (s : State) : State :=
  ((s.agentTo .resetWait).onLmp fun p =>
    { p with ctx := [], dlv := [], seg := [], evt := [], agt := [], offered := none }).onSu fun su =>
    { su with rings := su.rings.map fun x => { x with fifo := [] } }

/-- The staging FIFO of class r holds a cell. -/
def State.staged (s : State) (r : RingId) : Bool := !(s.ring r).fifo.isEmpty

/-- The class chosen by the weighted round robin, with the pointer and the run count after the choice (R133). -/
def State.chooseClass (s : State) : Option (RingId × Nat) :=
  let p := s.ia.pointer
  if s.staged p && s.ia.runCount < (s.ring p).weight then some (p, s.ia.runCount + 1)
  else
    match [p + 1, p + 2, p + 3, p].find? s.staged with
    | some q => some (q, 1)
    | none => none

/-- A staged cell of class r is placed (R132, R135). -/
def State.placeStaged (s : State) (r : RingId) (run : Nat) : State :=
  match (s.ring r).fifo with
  | [] => s
  | cell :: rest =>
    (((s.onIa fun ia => { ia with pointer := r, runCount := run }).onRing r fun x => { x with fifo := rest }).place
      cell).departed r cell

/-- A free position is filled: the head management response, else a staged cell, else an EMPTY cell (R132). -/
def State.fillFree (s : State) : State :=
  match s.ia.responses with
  | q :: rest =>
    let s := (s.onIa fun ia => { ia with responses := rest }).place q.cell
    if q.reset ∧ s.ma.state = .resetSent then s.enterResetWait else s
  | [] =>
    match s.chooseClass with
    | some (r, run) => s.placeStaged r run
    | none => s.send emptyCell

/-- An outbound position is due. In SYNC each inbound position acted on gives exactly one, three positions later;
before the first of them, and in HUNT and PRESYNC, positions are timed from REFCLK (R14 to R16). -/
def Framer.positionDue (cf : Framer) : Bool :=
  cf.delineation != .sync || cf.changeover || 3 < cf.transit.length

/-- The outbound position carries what it owes, or is filled as a free position (R14, R24). -/
def State.outbound (s : State) : State :=
  if s.cf.positionDue then
    match s.cf.transit with
    | [] => s.fillFree
    | d :: rest =>
      let s := s.onCf fun cf => { cf with transit := rest }
      match d with
      | .free => s.fillFree
      | .passed c => (s.send c).onCounters fun k => { k with cellsPassed := k.cellsPassed + 1 }
      | .forwarded c => (s.send c).onCounters fun k => { k with cellsForwarded := k.cellsForwarded + 1 }
  else s

/-- OUTBOUND_POSITION (R14, R132). -/
def execOutboundPosition (s : State) : Host.Outcome State Fault Refusal := s.live State.outbound

end Sys2Proof.Machine
end

