-- ==== Sys2Proof/Machine/Trunk.lean ====
section
/-! DEFINITION. The Cell Framer (CF) and the Circuit Classifier (CC): delineation, disposition, lookup and routing. -/

namespace Sys2Proof.Machine

/-! ## Delineation (R7 to R10) -/

/-- The framer returns to HUNT: both run counts are cleared and the alignment is dropped. The hunt starts with the
byte after the first byte of the bad header (R9, R10). -/
def Framer.lost (cf : Framer) : Framer :=
  { cf with delineation := .hunt, alignment := none, goodRun := 0, badRun := 0, streamPos := cf.streamPos + 1,
            changeover := false }

/-- HUNT_TRIAL (R8). -/
def execHuntTrial (header : Vector Byte 8) (s : State) : Host.Outcome State Fault Refusal :=
  s.live fun s =>
    if s.cf.delineation = .hunt then
      s.onCf fun cf =>
        if goodHeader header.toList then
          { cf with delineation := .presync, alignment := some cf.streamPos, goodRun := 1,
                    streamPos := cf.streamPos + 48 }
        else { cf with streamPos := cf.streamPos + 1 }
    else s

/-- PRESYNC_CELL (R9, R16). -/
def execPresyncCell (raw : RawCell) (s : State) : Host.Outcome State Fault Refusal :=
  s.live fun s =>
    if s.cf.delineation = .presync then
      if goodHeader raw.toList then
        let s := s.onCf fun cf => { cf with goodRun := cf.goodRun + 1, streamPos := cf.streamPos + 48 }
        if s.cf.goodRun = 8 then
          (s.onCf fun cf => { cf with delineation := .sync, badRun := 0, changeover := true }).raise .syncGained 0 0 0
        else s
      else s.onCf Framer.lost
    else s

/-! ## Departure positions (R13, R14, R24) -/

/-- The departure position of the arriving cell is settled (R14). -/
def State.depart (s : State) (d : Departure) : State := s.onCf fun cf => { cf with transit := cf.transit ++ [d] }

/-- A part of a cell that arrives with hops 0 is discarded and its position freed (R13, R25). -/
def State.hopExpire (s : State) : State :=
  (s.onCounters fun k => { k with hopExpired := k.hopExpired + 1 }).depart .free

/-- A cell passes (R13). -/
def State.pass (s : State) (c : Cell) : State := if c.hops = 0 then s.hopExpire else s.depart (.passed c.hop)

/-- The forward part of a cell (R24, R25). -/
def State.forward (s : State) (x : Circuit) (c : Cell) : State :=
  if c.hops = 0 then s.hopExpire else s.depart (.forwarded { c.hop with dest := x.newDest, label := x.newLabel })

/-! ## Lookup (R19 to R27) -/

/-- The circuit entry of a label (R18). -/
def State.circuit (s : State) (label : BitVec 11) : Circuit := tget s.cc.circuits label.toFin

/-- The local part of a cell for channel c (R21, R32). -/
def State.deliver (s : State) (c : Chan) (cell : Cell) : State :=
  if s.halted || s.ma.nodeState != .running then
    s.onCounters fun k => { k with datapathOff := k.datapathOff + 1 }
  else if (s.chan c).binding ≠ .bound then s.onCounters fun k => { k with nochannel := k.nochannel + 1 }
  else if (s.pool (s.chan c).pool).state = .faulted then
    s.onCounters fun k => { k with poolDiscards := k.poolDiscards + 1 }
  else s.holdCell c cell

/-- A lookup on an entry is counted in its matched counter (R20). -/
def State.countMatched (s : State) (label : BitVec 11) : State :=
  s.onCc fun cc => { cc with circuits := tmod cc.circuits label.toFin fun x => { x with matched := x.matched + 1 } }

/-- A DATA cell for this node is looked up on its label's entry (R19, R20). -/
def State.lookup (s : State) (c : Cell) : State :=
  let x := s.circuit c.label
  match x.action with
  | .unused => (s.onCounters fun k => { k with unknownLabel := k.unknownLabel + 1 }).depart .free
  | .block => (s.countMatched c.label).depart .free
  | .terminate => ((s.countMatched c.label).deliver x.channel c).depart .free
  | .forward => (s.countMatched c.label).forward x c
  | .tap => ((s.countMatched c.label).deliver x.channel c).forward x c

/-- A management response is discarded at routing (R27). -/
def State.discardResponse (s : State) : State :=
  s.onCounters fun k => { k with mgmtRspDiscards := k.mgmtRspDiscards + 1 }

/-- A MGMT_RSP for this node is routed to the response channel (R27, R32). -/
def State.routeResponse (s : State) (cell : Cell) : State :=
  match s.cc.rspChannel with
  | none => s.discardResponse
  | some c =>
    if s.halted || s.ma.nodeState != .running then s.discardResponse
    else if (s.chan c).binding ≠ .bound then s.discardResponse
    else if (s.pool (s.chan c).pool).state = .faulted then s.discardResponse
    else s.holdCell c cell

/-! ## Disposition (R10 to R12) -/

/-- A well-formed cell addressed to this node is handed on (R11 test 2). -/
def State.handOn (s : State) (c : Cell) : State :=
  match c.kind with
  | .empty => s.depart .free
  | .data => s.lookup c
  | .mgmtCmd => (s.joinCommands c).depart .free
  | .mgmtRsp => (s.routeResponse c).depart .free

/-- The disposition of a well-formed cell: the first test of R11 that it meets. -/
def State.dispose (s : State) (c : Cell) : State :=
  if c.kind = .empty then s.depart .free
  else if s.isOwn c.dest then s.handOn c
  else if c.dest = 63 ∧ c.kind = .mgmtCmd ∧ s.ma.nodeId ≠ 63 ∧ s.isOwn c.src = false then (s.joinCommands c).pass c
  else if s.isOwn c.src then (s.onCounters fun k => { k with returned := k.returned + 1 }).depart .free
  else s.pass c

/-- The first inbound position acted on in SYNC: three free departure positions come before its own (R14, R16). -/
def Framer.firstInSync (cf : Framer) : Framer :=
  if cf.changeover then { cf with changeover := false, transit := cf.transit ++ [.free, .free, .free] } else cf

/-- A cell with a header error is discarded and counted; the fifth of a run ends SYNC (R10). -/
def State.headerError (s : State) : State :=
  let s := (s.onCounters fun k => { k with hdrErrors := k.hdrErrors + 1 }).depart .free
  if s.cf.badRun + 1 = 5 then (s.onCf Framer.lost).raise .syncLost 0 0 s.counters.hdrErrors
  else s.onCf fun cf => { cf with badRun := cf.badRun + 1, streamPos := cf.streamPos + 48 }

/-- A cell that arrives in SYNC is acted on (R10). -/
def State.syncArrival (s : State) (raw : RawCell) : State :=
  let s := s.onCf Framer.firstInSync
  if goodHeader raw.toList then
    let s := s.onCf fun cf => { cf with badRun := 0, streamPos := cf.streamPos + 48 }
    if malformed raw then (s.onCounters fun k => { k with malformed := k.malformed + 1 }).depart .free
    else s.dispose (Cell.ofBytes raw)
  else s.headerError

/-- SYNC_CELL (R10, R11). -/
def execSyncCell (raw : RawCell) (s : State) : Host.Outcome State Fault Refusal :=
  s.liveSettled fun s => if s.cf.delineation = .sync then s.syncArrival raw else s

end Sys2Proof.Machine
end

