-- ==== Sys2Proof/Machine/Port.lean ====
section
/-! DEFINITION. The Local Memory Port (LMP): arbitration, the order list, responses, timers; and the tick. -/

namespace Sys2Proof.Machine

/-! ## Grant and issue (R140, R142, R143) -/

/-- The requester after this one in cycle order (R142). -/
def Requester.succ : Requester → Requester
  | .ctx => .dlv | .dlv => .seg | .seg => .evt | .evt => .agt | .agt => .ctx

/-- The five requesters in cycle order from the one after this one (R142). -/
def Requester.cycle (q : Requester) : List Requester :=
  [q.succ, q.succ.succ, q.succ.succ.succ, q.succ.succ.succ.succ, q]

/-- The LIVE entries of the order list: the outstanding requests (R143). -/
def Port.live (p : Port) : Nat := p.order.countP (·.live)

/-- A grant may be made (R142). -/
def State.mayGrant (s : State) : Bool :=
  s.lmp.offered.isNone && s.lmp.live < 16 && s.lmp.order.length < 32 && !s.halted

/-- The first requester after the pointer whose line is not empty (R142). -/
def Port.nextRequester (p : Port) : Option Requester := p.pointer.cycle.find? fun q => !(p.line q).isEmpty

/-- The oldest request of a requester is offered to the bus, and the pointer moves (R142). -/
def Port.grant (p : Port) (q : Requester) : Port :=
  { p.setLine q (p.line q).tail with offered := (p.line q).head?, pointer := q }

/-- REQUEST_GRANT (R142). -/
def execRequestGrant (s : State) : Host.Outcome State Fault Refusal :=
  s.live fun s =>
    if s.mayGrant then
      match s.lmp.nextRequester with
      | some q => s.onLmp fun p => p.grant q
      | none => s
    else s

/-- BUS_ACCEPT: the granted request is issued and joins the order list as LIVE, its timer loaded (R140, R143,
R145). -/
def execBusAccept (s : State) : Host.Outcome State Fault Refusal :=
  s.live fun s =>
    match s.lmp.offered with
    | some r => s.onLmp fun p =>
        { p with offered := none, order := p.order ++ [{ request := r, timer := p.memTimeout.toNat, live := true }] }
    | none => s

/-! ## Answers (R144, R145, R147) -/

/-- The answer of a request is given to its requester, which acts on it in the step (R144, R147). During the wait of a
node reset it is acted on no further (R151), and the requester's own state goes on showing the access as in flight.
DESIGN CHOICE, log entry 55. -/
def State.give (s : State) (tag : RequestTag) (a : Answer) (bytes : List Byte) : State :=
  if s.halted then s
  else
    match tag with
    | .fill e c => s.fillAnswered e c a bytes
    | .writeBack e c => s.writeBackAnswered e c a
    | .syncWrite e c => s.syncAnswered e c a
    | .pool p => s.poolAnswered p a bytes
    | .payload c second => s.payloadAnswered c second a
    | .descriptor r => s.descriptorAnswered r a bytes
    | .body r gen => s.bodyAnswered r gen a bytes
    | .event => s.eventAnswered a bytes
    | .ctxRead => s.ctxReadAnswered a bytes

/-- A request has failed: mem_failures increases (R146). -/
def State.countFailure (s : State) : State := s.onCounters fun k => { k with memFailures := k.memFailures + 1 }

/-- The bytes a READ answered OK gives its requester: byte i of the response, or a free value where the response has
no byte i (R140, R144; Assumption 2). -/
def readBytes (n : Nat) (data : List Byte) (serial : Nat) : List Byte :=
  (List.range n).map fun i => data.getD i (Config.freeByte serial i)

/-- The response to a LIVE request is its answer (R144). -/
def State.respond (s : State) (r : Request) (result : BusResult) (data : List Byte) : State :=
  match result with
  | .error => s.countFailure.give r.tag .error []
  | .ok =>
    match r.direction with
    | .write => s.give r.tag .ok []
    | .read =>
      let bytes := readBytes r.length data s.freeReads
      let s := if data.length < r.length then { s with freeReads := s.freeReads + 1 } else s
      s.give r.tag .ok bytes

/-- A response is paired with the head of the order list (R144). -/
def State.paired (s : State) (result : BusResult) (data : List Byte) : State :=
  match s.lmp.order with
  | [] => s
  | e :: rest =>
    let s := s.onLmp fun p => { p with order := rest }
    if e.live then s.respond e.request result data else s

/-- MEMORY_RESPONSE (R144). -/
def execMemoryResponse (result : BusResult) (data : List Byte) (s : State) : Host.Outcome State Fault Refusal :=
  s.liveSettled fun s => s.paired result data

/-- The entry is LIVE and its timer has run out (R145). -/
def OrderEntry.due (e : OrderEntry) : Bool := e.live && e.timer == 0

/-- The first due entry of an order list becomes EXPIRED and keeps its place (R145). -/
def expireFirst : List OrderEntry → List OrderEntry
  | [] => []
  | e :: rest => if e.due then { e with live := false } :: rest else e :: expireFirst rest

/-- The oldest due entry expires: its requester is given TIMEOUT and mem_failures increases (R145, R146). -/
def State.expireRequest (s : State) : State :=
  match s.lmp.order.find? OrderEntry.due with
  | some e => ((s.onLmp fun p => { p with order := expireFirst p.order }).countFailure).give e.request.tag .timeout []
  | none => s

/-- REQUEST_TIMEOUT (R145). -/
def execRequestTimeout (s : State) : Host.Outcome State Fault Refusal := s.liveSettled State.expireRequest

/-! ## The tick (R145, R170, R113, R53) -/

/-- The timer of a LIVE entry decreases by 1 (R145). -/
def OrderEntry.tick (e : OrderEntry) : OrderEntry := if e.live then { e with timer := e.timer - 1 } else e

/-- The poll countdown at a tick: it moves while the node is RUNNING and tx_poll is not 0, down to 0 (R113). -/
def State.countdownAfter (s : State) : Byte :=
  if s.ma.nodeState = .running ∧ s.su.txPoll ≠ 0 ∧ s.su.countdown ≠ 0 then s.su.countdown - 1 else s.su.countdown

/-- What a tick does: node time, the poll countdown, the request timers, and the opening of the scan (R170). -/
def State.ticked (s : State) : State :=
  let countdown := s.countdownAfter
  let s := s.onMa fun ma => { ma with nodeTime := ma.nodeTime + 1 }
  let s := s.onSu fun su => { su with countdown := countdown }
  let s := s.onLmp fun p => { p with order := p.order.map OrderEntry.tick }
  s.onRe fun re => { re with scanOpen := s.ma.nodeState == .running, scanned := [] }

/-- TICK (R170). -/
def execTick (s : State) : Host.Outcome State Fault Refusal := s.live State.ticked

end Sys2Proof.Machine
end

