-- ==== Sys2Proof/Machine/Manage.lean ====
section
/-! DEFINITION. The management commands: each taken by its owner from the agent's hand, tested and answered. -/

namespace Sys2Proof.Machine

/-! ## Identity and managers -/

/-- The number of nodes in the manager list, as one byte (R177, R178). -/
def State.managerCount (s : State) : Byte := BitVec.ofNat 8 s.ma.managers.length

/-- The result of IDENT (R177). -/
def State.identResult (s : State) : List Byte :=
  [s.ma.nodeId.setWidth 8, 0x25, 0x60, 1, BitVec.ofNat 8 s.ma.nodeState.code, s.managerCount] ++ be32 s.ma.nodeTime

/-- A node joins the end of the manager list with an empty response memory (R158, R159). -/
def State.addManager (s : State) (n : Node) : State :=
  s.onMa fun ma => { ma with managers := ma.managers ++ [{ node := n, memory := none }] }

/-- A node leaves the manager list with its response memory (R158). -/
def State.removeManager (s : State) (n : Node) : State :=
  s.onMa fun ma => { ma with managers := ma.managers.filter (·.node != n) }

/-- The command completes OK with the manager count as result (R178, R179). -/
def State.answerCount (s : State) (cmd : Cell) : State := s.answer cmd .ok [s.managerCount]

/-- IDENT (R177). -/
def execIdent (s : State) : Host.Outcome State Fault Refusal :=
  s.live fun s => s.command codeIdent fun cmd s => s.answer cmd .ok s.identResult

/-- CLAIM (R178). -/
def execClaim (s : State) : Host.Outcome State Fault Refusal :=
  s.live fun s => s.command codeClaim fun cmd s =>
    if s.listed cmd.src then s.answer cmd .badarg [] else (s.addManager cmd.src).answerCount cmd

/-- RELEASE (R178). -/
def execRelease (s : State) : Host.Outcome State Fault Refusal :=
  s.live fun s => s.command codeRelease fun cmd s => (s.removeManager cmd.src).answerCount cmd

/-- MANAGER (R179): op at payload byte 3, node at byte 4. -/
def execManager (s : State) : Host.Outcome State Fault Refusal :=
  s.live fun s => s.command codeManager fun cmd s =>
    let op := cmd.arg8 3
    let node : Node := (cmd.arg8 4).setWidth 6
    if 1 < op.toNat ∨ 62 < (cmd.arg8 4).toNat then s.answer cmd .badarg []
    else if op = 0 then
      if s.listed node = true ∨ 4 ≤ s.ma.managers.length then s.answer cmd .badarg []
      else (s.addManager node).answerCount cmd
    else if s.listed node then (s.removeManager node).answerCount cmd
    else s.answer cmd .badarg []

/-! ## Local map and node settings -/

/-- An event access in flight belongs to a ring that is replaced (R181). -/
def EventAccess.staled : EventAccess → EventAccess
  | .none => .none
  | .ownerRead _ => .ownerRead true
  | .recordWrite _ => .recordWrite true

/-- The Event Writer is handed an event ring (R181, R197). With size 0 the base, which R180 does not test then, is kept as
it is given, 16-aligned or not. DESIGN CHOICE, log entry 54. -/
def State.handRing (s : State) (base : Word) (size : Nat) : State :=
  s.onEw fun ew => { ew with
    base, size, pos := 0, lost := 0, access := ew.access.staled
    state := if size = 0 then .off else .on
    queue := if size = 0 then [] else ew.queue }

/-- The node state changes and NODE_STATE is raised (R166). -/
def State.nodeTo (s : State) (n : NodeState) : State :=
  (s.onMa fun ma => { ma with nodeState := n }).raise .nodeState 0 n.code (BitVec.ofNat 32 s.ma.nodeState.code)

/-- The tests of SET_LOCAL_MAP (R180): store base, event ring base and size, mem_timeout. -/
def State.localMapRefusal (s : State) (store ring : Word) (size : Nat) (timeout : Byte) : Option MgmtStatus :=
  if (size ≠ 0 ∧ (size < 16 ∨ 4096 < size)) ∨ timeout = 0 then some .badarg
  else if s.ma.nodeState = .running ∨ s.ma.nodeState = .stopping then some .busy
  else if aligned 128 store = false ∨ (size ≠ 0 ∧ aligned 16 ring = false) then some .badalign
  else if 0xFFFF8000 < store.toNat ∨ (size ≠ 0 ∧ regionFits ring (16 * size) = false) then some .badarg
  else none

/-- SET_LOCAL_MAP (R180, R181). -/
def execSetLocalMap (s : State) : Host.Outcome State Fault Refusal :=
  s.live fun s => s.command codeSetLocalMap fun cmd s =>
    let store := cmd.arg32 3
    let ring := cmd.arg32 7
    let size := (cmd.arg16 11).toNat
    let timeout := cmd.arg8 13
    match s.localMapRefusal store ring size timeout with
    | some st => s.answer cmd st []
    | none =>
      let s := s.onXc fun xc => { xc with storeBase := store }
      let s := s.onLmp fun p => { p with memTimeout := timeout }
      let s := s.handRing ring size
      let s := if s.ma.nodeState = .unconfigured then s.nodeTo .stopped else s
      s.answer cmd .ok []

/-- SET_EVENTS (R184): bits 1 to 11 of the argument. -/
def execSetEvents (s : State) : Host.Outcome State Fault Refusal :=
  s.live fun s => s.command codeSetEvents fun cmd s =>
    (s.onEw fun ew => { ew with enable := cmd.arg16 3 &&& 0x0FFE }).answer cmd .ok []

/-- SET_NODE (R185): tx_poll at payload byte 3, response channel at bytes 4 and 5. -/
def execSetNode (s : State) : Host.Outcome State Fault Refusal :=
  s.live fun s => s.command codeSetNode fun cmd s =>
    let rsp := cmd.arg16 4
    if 255 < rsp.toNat ∧ rsp ≠ 0xFFFF then s.answer cmd .badarg []
    else
      let s := s.onSu fun su => { su with txPoll := cmd.arg8 3, countdown := cmd.arg8 3 }
      let s := s.onCc fun cc => { cc with rspChannel := if rsp = 0xFFFF then none else some (cmd.chanArg 5) }
      s.answer cmd .ok []

/-! ## Pools -/

/-- A channel's binding names pool p and is BOUND or UNBINDING (R90, R107). -/
def State.poolUsed (s : State) (p : PoolId) : Bool := (allOf 256).any fun c => s.usesPool p c

/-- The tests of SET_POOL after the pool number and notify have been tested (R107 tests 2 to 8). -/
def State.poolRefusal (s : State) (p : PoolId) (freeBase : Word) (freeSize : Nat) (complBase : Word)
    (complSize bufSize : Nat) : Option MgmtStatus :=
  let x := s.pool p
  if s.ma.nodeState = .unconfigured then some .notconf
  else if (freeSize = 0) ≠ (complSize = 0) then some .badarg
  else if freeSize = 0 then
    if s.poolUsed p = true ∨ x.access ≠ none then some .busy else none
  else if x.state ≠ .faulted ∧ (s.poolUsed p = true ∨ x.access ≠ none) then some .busy
  else if freeSize < 8 ∨ 4096 < freeSize ∨ complSize < 8 ∨ 4096 < complSize ∨ bufSize < 512 ∨ 16384 < bufSize
      ∨ bufSize % 64 ≠ 0 then some .badarg
  else if aligned 16 freeBase = false ∨ aligned 64 complBase = false then some .badalign
  else if regionFits freeBase (16 * freeSize) = false ∨ regionFits complBase (64 * complSize) = false then
    some .badarg
  else none

/-- SET_POOL (R107, R108). With both ring sizes 0 notify is not tested, as the text of R107 says against test 1 of its
table. DEDUCED, log entry 41. -/
def execSetPool (s : State) : Host.Outcome State Fault Refusal :=
  s.liveSettled fun s => s.command codeSetPool fun cmd s =>
    match cmd.index 3 4 with
    | none => s.answer cmd .badarg []
    | some p =>
      let freeSize := (cmd.arg16 8).toNat
      let complSize := (cmd.arg16 14).toNat
      let bufSize := (cmd.arg16 16).toNat
      if (freeSize ≠ 0 ∨ complSize ≠ 0) ∧ 1 < (cmd.arg8 18).toNat then s.answer cmd .badarg []
      else
        match s.poolRefusal p (cmd.arg32 4) freeSize (cmd.arg32 10) complSize bufSize with
        | some st => s.answer cmd st []
        | none =>
          let s := s.onPool p fun x =>
            if freeSize = 0 then { requests := x.requests, access := x.access }
            else { freeBase := cmd.arg32 4, freeSize, complBase := cmd.arg32 10, complSize, bufSize,
                   notify := cmd.arg8 18 == 1, state := .active, requests := x.requests, access := x.access }
          s.answer cmd .ok []

/-! ## Rings and slots -/

/-- The tests of SET_TXRING after the ring number has been tested (R128). -/
def State.ringRefusal (s : State) (r : RingId) (base : Word) (size weight : Nat) (notify : Byte) :
    Option MgmtStatus :=
  let x := s.ring r
  if 1 < notify.toNat ∨ (size ≠ 0 ∧ (size < 8 ∨ 1024 < size)) ∨ (size ≠ 0 ∧ (weight < 1 ∨ 15 < weight)) then
    some .badarg
  else if x.state = .waitSlot ∨ x.state = .sending ∨ x.access ≠ none then some .busy
  else if size ≠ 0 ∧ aligned 32 base = false then some .badalign
  else if size ≠ 0 ∧ regionFits base (32 * size) = false then some .badarg
  else none

/-- SET_TXRING (R128). With size 0 the head becomes 0 with the configuration, although R128 says so of a nonzero size
only. DESIGN CHOICE, log entry 48. -/
def execSetTxring (s : State) : Host.Outcome State Fault Refusal :=
  s.live fun s => s.command codeSetTxring fun cmd s =>
    match cmd.index 3 4 with
    | none => s.answer cmd .badarg []
    | some r =>
      let size := (cmd.arg16 8).toNat
      let weight := (cmd.arg8 10).toNat
      match s.ringRefusal r (cmd.arg32 4) size weight (cmd.arg8 11) with
      | some st => s.answer cmd st []
      | none =>
        let s := s.onRing r fun x =>
          if size = 0 then { gen := x.gen }
          else { base := cmd.arg32 4, size, weight, notify := cmd.arg8 11 == 1, state := .idle, gen := x.gen }
        s.answer cmd .ok []

/-- The tests of SET_SEND after the slot number has been tested (R126, R183). -/
def sendRefusal (x : SendSlot) (cmd : Cell) : Option MgmtStatus :=
  let kind := cmd.arg8 4
  let dest := cmd.arg8 5
  let label := cmd.arg16 6
  let hops := cmd.arg8 8
  let enabled := cmd.arg8 9
  let resetSeq := cmd.arg8 10
  if 1 < kind.toNat ∨ 63 < dest.toNat ∨ 2047 < label.toNat ∨ 1 < enabled.toNat ∨ 1 < resetSeq.toNat
      ∨ 15 < hops.toNat then some .badarg
  else if (enabled = 1 ∧ hops = 0) ∨ (dest = 63 ∧ kind = 0) then some .badarg
  else if x.holder ≠ none ∧ ((x.kind = .mgmt) ≠ (kind = 1) ∨ x.dest ≠ dest.setWidth 6 ∨ x.label ≠ label.setWidth 11
      ∨ x.hops ≠ hops.setWidth 4) then some .busy
  else if x.holder ≠ none ∧ resetSeq = 1 then some .busy
  else none

/-- The slot that an accepted SET_SEND writes (R126). -/
def SendSlot.configured (x : SendSlot) (cmd : Cell) : SendSlot :=
  { x with
    kind := if cmd.arg8 4 = 1 then .mgmt else .data
    dest := (cmd.arg8 5).setWidth 6
    label := (cmd.arg16 6).setWidth 11
    hops := (cmd.arg8 8).setWidth 4
    enabled := cmd.arg8 9 == 1
    nextSeq := if cmd.arg8 10 = 1 then 0 else x.nextSeq }

/-- SET_SEND (R126, R127). -/
def execSetSend (s : State) : Host.Outcome State Fault Refusal :=
  s.live fun s => s.command codeSetSend fun cmd s =>
    match cmd.index 3 64 with
    | none => s.answer cmd .badarg []
    | some k =>
      match sendRefusal (s.slot k) cmd with
      | some st => s.answer cmd st []
      | none =>
        let was := (s.slot k).enabled
        let s := s.onSlot k fun x => x.configured cmd
        let s := if was && !(s.slot k).enabled then s.disableSlot k else s
        s.answer cmd .ok []

/-! ## Circuits -/

/-- WRITE_CIRCUIT (R28, R186). -/
def execWriteCircuit (s : State) : Host.Outcome State Fault Refusal :=
  s.live fun s => s.command codeWriteCircuit fun cmd s =>
    let label := cmd.arg16 3
    let newLabel := cmd.arg16 8
    match CircuitAction.ofCode (cmd.arg8 5) with
    | none => s.answer cmd .badarg []
    | some action =>
      if 2047 < label.toNat ∨ 62 < (cmd.arg8 7).toNat ∨ 2047 < newLabel.toNat ∨ 1 < (cmd.arg8 10).toNat then
        s.answer cmd .badarg []
      else
        let s := s.onCc fun cc => { cc with circuits := tmod cc.circuits (label.setWidth 11).toFin fun x =>
          { action, channel := cmd.chanArg 6, newDest := (cmd.arg8 7).setWidth 6, newLabel := newLabel.setWidth 11,
            matched := if cmd.arg8 10 = 1 then 0 else x.matched } }
        s.answer cmd .ok []

/-- The result of READ_CIRCUIT (R30). -/
def circuitResult (label : Half) (x : Circuit) : List Byte :=
  be16 label ++ [x.action.code, BitVec.ofNat 8 x.channel.val, x.newDest.setWidth 8] ++ be16 (x.newLabel.setWidth 16)
  ++ be32 x.matched

/-- READ_CIRCUIT (R30, R186). -/
def execReadCircuit (s : State) : Host.Outcome State Fault Refusal :=
  s.live fun s => s.command codeReadCircuit fun cmd s =>
    let label := cmd.arg16 3
    if 2047 < label.toNat then s.answer cmd .badarg []
    else s.answer cmd .ok (circuitResult label (s.circuit (label.setWidth 11)))

/-! ## Channels and contexts -/

/-- BIND_CHANNEL (R55, R187). -/
def execBindChannel (s : State) : Host.Outcome State Fault Refusal :=
  s.live fun s => s.command codeBindChannel fun cmd s =>
    let c := cmd.chanArg 3
    match cmd.index 4 4 with
    | none => s.answer cmd .badarg []
    | some p =>
      if 16000 < (cmd.arg16 5).toNat then s.answer cmd .badarg []
      else if (s.chan c).binding ≠ .unbound ∨ (s.chan c).waiting = true then s.answer cmd .busy []
      else if (s.pool p).state ≠ .active then s.answer cmd .notconf []
      else
        (s.onChan c fun ch => { ch with
          binding := .bound, pool := p, maxBody := cmd.arg16 5, limit := cmd.arg16 7, msgOpen := false, op := none
          pendingAbort := .none, poolReset := false, fresh := true }).answer cmd .ok []

/-- A BOUND channel's unbind begins: the binding becomes UNBINDING and its held cells are removed (R56 step 1). -/
def State.beginUnbind (s : State) (c : Chan) : State :=
  let n := s.heldCount (· == c)
  ((s.onChan c fun ch => { ch with binding := .unbinding, pendingAbort := .none }).dropHeld (· == c)).onCounters
    fun k => { k with nochannel := k.nochannel + n }

/-- UNBIND_CHANNEL (R56, R57, R188). -/
def execUnbindChannel (s : State) : Host.Outcome State Fault Refusal :=
  s.liveSettled fun s => s.command codeUnbindChannel fun cmd s =>
    let c := cmd.chanArg 3
    match (s.chan c).binding with
    | .unbound => s.answer cmd .notconf []
    | .bound => (s.beginUnbind c).goLong cmd
    | .unbinding => s.goLong cmd
    | .faulted => (s.becomeUnbound c).answer cmd .ok []

/-- One bit of a flags byte. -/
def flagBit (b : Bool) (k : Nat) : Byte := if b then 1 <<< k else 0

/-- The result of READ_CHANNEL (R189). -/
def channelResult (c : Chan) (ch : Channel) : List Byte :=
  [BitVec.ofNat 8 c.val, ch.binding.code, BitVec.ofNat 8 ch.pool.val] ++ be16 ch.maxBody ++ be16 ch.limit
  ++ [flagBit ch.msgOpen 0 ||| flagBit ch.waiting 1 ||| flagBit ch.fresh 2 ||| flagBit ch.poolReset 3,
      ch.pendingAbort.code, ch.residence.code, ch.residence.entryByte]
  ++ be32 ch.deadline

/-- READ_CHANNEL (R189). -/
def execReadChannel (s : State) : Host.Outcome State Fault Refusal :=
  s.live fun s => s.command codeReadChannel fun cmd s =>
    s.answer cmd .ok (channelResult (cmd.chanArg 3) (s.chan (cmd.chanArg 3)))

/-- A READ_CONTEXT waits for this stage of channel c (R86). -/
def State.awaitContext (s : State) (c : Chan) (part : Fin 4) (stage : CtxReadStage) : State :=
  s.onXc fun xc => { xc with ctxRead := some { channel := c, part, stage } }

/-- READ_CONTEXT is served by the channel's residence and flags (R86). That of a fresh channel which is given an entry
at once is done in this step, before the queue is examined for a NODE_RESET (R165). DEDUCED, log entry 42. -/
def State.serveContextRead (s : State) (cmd : Cell) (c : Chan) (part : Fin 4) : State :=
  match (s.chan c).residence with
  | .cached _ =>
    match s.context c with
    | some x => s.answer cmd .ok (imagePart x.image part)
    | none => s
  | .fetching => (s.awaitContext c part .fill).goLong cmd
  | .writeback => (s.awaitContext c part .writeBack).goLong cmd
  | .stored =>
    if (s.chan c).binding = .bound ∧ (s.chan c).fresh = true then
      ((((s.agentTo (.working cmd true)).awaitContext c part .fill).fetchRequest c)).examineQueue
    else (s.readStore c part).goLong cmd

/-- READ_CONTEXT (R86, R190). -/
def execReadContext (s : State) : Host.Outcome State Fault Refusal :=
  s.liveSettled fun s => s.command codeReadContext fun cmd s =>
    match cmd.index 4 4 with
    | none => s.answer cmd .badarg []
    | some part =>
      if s.ma.nodeState = .unconfigured then s.answer cmd .notconf []
      else s.serveContextRead cmd (cmd.chanArg 3) part

/-- The sync set: the VALID and dirty entries with their channels, in entry order (R84). -/
def State.dirtyEntries (s : State) : List (EntryId × Chan) :=
  (allOf 16).filterMap fun e =>
    match s.entry e with
    | .valid v => if v.dirty then some (e, v.channel) else none
    | .free => none
    | .filling _ => none
    | .writing _ _ _ => none

/-- SYNC_CONTEXTS (R84, R191). With an empty sync set it is done in this step, before the queue is examined for a
NODE_RESET (R165). DEDUCED, log entry 42. -/
def execSyncContexts (s : State) : Host.Outcome State Fault Refusal :=
  s.liveSettled fun s => s.command codeSyncContexts fun cmd s =>
    if s.ma.nodeState ≠ .running then s.answer cmd .notconf []
    else ((s.agentTo (.working cmd true)).syncNext s.dirtyEntries).examineQueue

/-! ## Node state commands -/

/-- START (R168, R192). -/
def execStart (s : State) : Host.Outcome State Fault Refusal :=
  s.live fun s => s.command codeStart fun cmd s =>
    if s.ma.nodeState ≠ .stopped then s.answer cmd .busy []
    else (s.nodeTo .running).pollAll.answer cmd .ok []

/-- The hold queue is emptied into datapath_off, every pending abort becomes none and the scanner stops (R58 step 2).
An entry whose channel has no work left stops being newly filled in that moment (R67). -/
def State.stopHolding (s : State) : State :=
  let n := s.heldCount fun _ => true
  let s := (s.onCounters fun k => { k with datapathOff := k.datapathOff + n }).dropHeld fun _ => true
  let s := s.onRe fun re => { re with
    channels := re.channels.map fun ch => { ch with pendingAbort := .none }, scanOpen := false, scanned := [] }
  s.endNewlyFilled

/-- The receive side's first steps of a stop: the held cells are discarded, and a fetch is requested for every channel
with an open message (R58 steps 2 and 3). The closes of the channels that are ready begin after all these requests, at
the end of the step (State.owedWork): R58 leaves the order open. DESIGN CHOICE, log entry 35. -/
def State.stopReceive (s : State) : State :=
  forAll 256 (fun c s => if (s.chan c).msgOpen then s.fetchRequest c else s) s.stopHolding

/-- STOP (R58, R129, R167, R192). -/
def execStop (s : State) : Host.Outcome State Fault Refusal :=
  s.liveSettled fun s => s.command codeStop fun cmd s =>
    if s.ma.nodeState ≠ .running then s.answer cmd .busy []
    else ((s.onMa fun ma => { ma with nodeState := .stopping }).leaveLockQueues.stopReceive).goLong cmd

/-- STOP_DRAIN_COMPLETE: both parts of the drain of a STOP that is not abandoned are complete (R167). -/
def execStopDrainComplete (s : State) : Host.Outcome State Fault Refusal :=
  s.live fun s =>
    match s.longInHand codeStop with
    | some cmd =>
      if s.ma.nodeState = .stopping ∧ s.receiveDrained = true ∧ s.transmitDrained = true then
        (s.nodeTo .stopped).answer cmd .ok []
      else s
    | none => s

/-- NODE_RESET (R172, R193). -/
def execNodeReset (s : State) : Host.Outcome State Fault Refusal :=
  s.live fun s => s.command codeNodeReset fun cmd s => s.executeNodeReset cmd

/-! ## Counters (R194) -/

/-- The nine counters of group 0 or 1, in order (R194). -/
def Counters.group (k : Counters) (g : Byte) : List Word :=
  if g = 0 then
    [k.hdrErrors, k.malformed, k.returned, k.hopExpired, k.cellsPassed, k.positionsInserted, k.cellsForwarded,
      k.unknownLabel, k.mgmtRspDiscards]
  else
    [k.datapathOff, k.nochannel, k.poolDiscards, k.holdOverflow, k.memFailures, k.eventsLost, k.mgmtQueueFull,
      k.broadcastIgnored, k.mgmtDenied]

/-- The counters with a group set to 0 (R194). -/
def Counters.clearGroup (k : Counters) (g : Byte) : Counters :=
  if g = 0 then
    { k with hdrErrors := 0, malformed := 0, returned := 0, hopExpired := 0, cellsPassed := 0, positionsInserted := 0,
             cellsForwarded := 0, unknownLabel := 0, mgmtRspDiscards := 0 }
  else
    { k with datapathOff := 0, nochannel := 0, poolDiscards := 0, holdOverflow := 0, memFailures := 0, eventsLost := 0,
             mgmtQueueFull := 0, broadcastIgnored := 0, mgmtDenied := 0 }

/-- READ_COUNTERS (R194): clear at payload byte 3, group at byte 4. -/
def execReadCounters (s : State) : Host.Outcome State Fault Refusal :=
  s.live fun s => s.command codeReadCounters fun cmd s =>
    if 1 < (cmd.arg8 3).toNat ∨ 1 < (cmd.arg8 4).toNat then s.answer cmd .badarg []
    else
      let result := (s.counters.group (cmd.arg8 4)).flatMap be32
      let s := if cmd.arg8 3 = 1 then s.onCounters fun k => k.clearGroup (cmd.arg8 4) else s
      s.answer cmd .ok result

end Sys2Proof.Machine
end

