-- ==== Sys2Proof/Machine/Reset.lean ====
section
/-! DEFINITION. Power-on reset and the end of a node reset. -/

namespace Sys2Proof.Machine

/-- RESET_ASSERTED: the port stops at once, and what it holds is abandoned; the part does nothing until RESET is
released (R150, R171). LINT keeps its level until then. DESIGN CHOICE, log entry 40. -/
def execResetAsserted (s : State) : Host.Outcome State Fault Refusal :=
  .next ({ s with inReset := true }.onLmp fun p =>
    { p with ctx := [], dlv := [], seg := [], evt := [], agt := [], offered := none, order := [] })

/-- RESET_RELEASED: the straps are sampled, node time becomes 0, and every block holds its power-on values (R169 to
R171). It follows an assertion of RESET. -/
def execResetReleased (straps : Node) (s : State) : Host.Outcome State Fault Refusal :=
  .next (if s.inReset then
    { ma := { nodeId := straps }, freeReads := s.freeReads, pending := s.pending : State }
  else s)

/-- The state after a node reset: the power-on values, but for the framer's delineation and outbound timing, the node
id and node time (R138, R173, R205). -/
def State.afterNodeReset (s : State) : State :=
  { cf := s.cf, ma := { nodeId := s.ma.nodeId, nodeTime := s.ma.nodeTime }, freeReads := s.freeReads,
    pending := s.pending }

/-- NODE_RESET_TAKES_EFFECT: in RESET_WAIT, once the port is quiet (R151, R173). -/
def execNodeResetTakesEffect (s : State) : Host.Outcome State Fault Refusal :=
  s.live fun s => if s.halted && s.quiet then s.afterNodeReset else s

end Sys2Proof.Machine
end

