-- ==== Sys2Proof/Machine/Dispatch.lean ====
section
/-! DEFINITION. exec: the meaning of each command, one arm for each. -/

namespace Sys2Proof.Machine

def exec (i : Instr) (s : State) : Host.Outcome State Fault Refusal :=
  match i with
  | .resetAsserted => Sys2Proof.Machine.execResetAsserted s
  | .resetReleased straps => Sys2Proof.Machine.execResetReleased straps s
  | .tick => Sys2Proof.Machine.execTick s
  | .deadlineReached channel => Sys2Proof.Machine.execDeadlineReached channel s
  | .intervalPoll => Sys2Proof.Machine.execIntervalPoll s
  | .requestTimeout => Sys2Proof.Machine.execRequestTimeout s
  | .attnEdge => Sys2Proof.Machine.execAttnEdge s
  | .huntTrial header => Sys2Proof.Machine.execHuntTrial header s
  | .presyncCell cell => Sys2Proof.Machine.execPresyncCell cell s
  | .syncCell cell => Sys2Proof.Machine.execSyncCell cell s
  | .outboundPosition => Sys2Proof.Machine.execOutboundPosition s
  | .applyCell => Sys2Proof.Machine.execApplyCell s
  | .applyPendingAbort channel => Sys2Proof.Machine.execApplyPendingAbort channel s
  | .reserve pool => Sys2Proof.Machine.execReserve pool s
  | .take pool => Sys2Proof.Machine.execTake pool s
  | .completionWrite pool => Sys2Proof.Machine.execCompletionWrite pool s
  | .requestGrant => Sys2Proof.Machine.execRequestGrant s
  | .busAccept => Sys2Proof.Machine.execBusAccept s
  | .memoryResponse result data => Sys2Proof.Machine.execMemoryResponse result data s
  | .channelUnbound channel => Sys2Proof.Machine.execChannelUnbound channel s
  | .eventServe => Sys2Proof.Machine.execEventServe s
  | .commandTake => Sys2Proof.Machine.execCommandTake s
  | .responseHandover => Sys2Proof.Machine.execResponseHandover s
  | .ident => Sys2Proof.Machine.execIdent s
  | .claim => Sys2Proof.Machine.execClaim s
  | .release => Sys2Proof.Machine.execRelease s
  | .manager => Sys2Proof.Machine.execManager s
  | .setLocalMap => Sys2Proof.Machine.execSetLocalMap s
  | .setPool => Sys2Proof.Machine.execSetPool s
  | .setTxring => Sys2Proof.Machine.execSetTxring s
  | .setSend => Sys2Proof.Machine.execSetSend s
  | .setEvents => Sys2Proof.Machine.execSetEvents s
  | .setNode => Sys2Proof.Machine.execSetNode s
  | .writeCircuit => Sys2Proof.Machine.execWriteCircuit s
  | .readCircuit => Sys2Proof.Machine.execReadCircuit s
  | .bindChannel => Sys2Proof.Machine.execBindChannel s
  | .unbindChannel => Sys2Proof.Machine.execUnbindChannel s
  | .readChannel => Sys2Proof.Machine.execReadChannel s
  | .readContext => Sys2Proof.Machine.execReadContext s
  | .syncContexts => Sys2Proof.Machine.execSyncContexts s
  | .start => Sys2Proof.Machine.execStart s
  | .stop => Sys2Proof.Machine.execStop s
  | .stopDrainComplete => Sys2Proof.Machine.execStopDrainComplete s
  | .nodeReset => Sys2Proof.Machine.execNodeReset s
  | .nodeResetTakesEffect => Sys2Proof.Machine.execNodeResetTakesEffect s
  | .readCounters => Sys2Proof.Machine.execReadCounters s

end Sys2Proof.Machine
end

