-- ==== Sys2Proof/Safety.lean ====
section
/-! DEFINITION. What the claims speak of: the command in hand, the settings of the part, the legal ranges of its queues and tables, and the rest of the datapath. -/

namespace Sys2Proof.Machine

/-! ## The command in hand -/

/-- RESET is released, and the agent is WORKING on this command, which its owner has not taken yet (R155, R162). -/
abbrev State.InHand (s : State) (code : Byte) (cmd : Cell) : Prop :=
  s.inReset = false ∧ s.ma.state = .working cmd false ∧ cmd.code = code

/-- The state in which the agent holds the response of this command in ANSWERING: tag and code echoed, a status and a
result (R153, R155). -/
def State.answering (s : State) (cmd : Cell) (status : Byte) (result : List Byte) : State :=
  { s with ma := { s.ma with
    state := .answering { cmd, payload := be16 cmd.tag ++ [cmd.code, status] ++ result, executed := true } } }

/-- A cell is a NODE_RESET that a long command gives way to: addressed to this node, from a listed manager, its tag 0 or
not the one stored for that manager (R165). -/
def State.OutOfTurn (s : State) (q : Cell) : Prop :=
  q.code = 0x42 ∧ s.ma.nodeId ≠ 63 ∧ q.dest = s.ma.nodeId ∧ (∃ m ∈ s.ma.managers, m.node = q.src) ∧
    (q.tag = 0 ∨ ∀ m, s.memoryOf q.src = some m → m.tag ≠ q.tag)

/-- The command queue holds no such cell. -/
def State.NoneOutOfTurn (s : State) : Prop := ∀ q ∈ s.ma.queue, ¬ s.OutOfTurn q

/-- The oldest such cell in the command queue is q, and the queue without it is rest (R165). -/
def State.GivesWay (s : State) (q : Cell) (rest : List Cell) : Prop :=
  ∃ pre post, s.ma.queue = pre ++ q :: post ∧ rest = pre ++ post ∧ s.OutOfTurn q ∧ ∀ x ∈ pre, ¬ s.OutOfTurn x

/-- The channel uses its pool: it is BOUND or UNBINDING (R90). -/
abbrev Channel.InUse (ch : Channel) : Prop := ch.binding = .bound ∨ ch.binding = .unbinding

/-! ## An arrival and a poll -/

/-- The framer after a cell with a good header has been acted on in SYNC, its departure position still open (R10, R14,
R16). -/
def Framer.acted (cf : Framer) : Framer :=
  { cf with
    changeover := false
    transit := if cf.changeover then cf.transit ++ [.free, .free, .free] else cf.transit
    badRun := 0
    streamPos := cf.streamPos + 48 }

/-- The framer after such a cell, with what its departure position will carry (R14). -/
def Framer.arrived (cf : Framer) (d : Departure) : Framer := { cf.acted with transit := cf.acted.transit ++ [d] }

/-- A poll reaches this ring and is not without effect (R113). -/
def TxRing.polls (x : TxRing) : Bool := x.state == .idle && x.access == none

/-- The state after a poll of every ring of a RUNNING node: each IDLE ring with no descriptor access in flight reads
bytes 0 to 5 of its head descriptor, the rings in rising order (R113, R114). -/
def State.polled (s : State) : State :=
  { s with
    su := { s.su with rings := s.su.rings.map fun x => if x.polls then { x with access := some .ownerRead } else x }
    lmp := { s.lmp with seg := s.lmp.seg ++ ((allOf 4).filter fun r => (s.ring r).polls).map fun r =>
      { requester := .seg, direction := .read, addr := (s.ring r).base + BitVec.ofNat 32 (32 * (s.ring r).head)
        length := 6, data := [], tag := .descriptor r } } }

/-! ## The settings of the part -/

/-- What a circuit entry is loaded with: action, channel, new destination and new label (R18). -/
def Circuit.setting (x : Circuit) : CircuitAction × Chan × Node × BitVec 11 :=
  (x.action, x.channel, x.newDest, x.newLabel)

/-- The configuration of a pool: free base and size, completion base and size, buffer size and notify (R89). -/
def Pool.setting (x : Pool) : Word × Nat × Word × Nat × Nat × Bool :=
  (x.freeBase, x.freeSize, x.complBase, x.complSize, x.bufSize, x.notify)

/-- The configuration of a transmit ring: base, size, weight and notify (R110). -/
def TxRing.setting (x : TxRing) : Word × Nat × Nat × Bool := (x.base, x.size, x.weight, x.notify)

/-- The header a send slot gives its cells, and its enable (R117). -/
def SendSlot.setting (x : SendSlot) : SlotKind × Node × BitVec 11 × BitVec 4 × Bool :=
  (x.kind, x.dest, x.label, x.hops, x.enabled)

/-- What a channel is bound with: pool, max_body and limit (R33). -/
def Channel.setting (x : Channel) : PoolId × Half × Half := (x.pool, x.maxBody, x.limit)

/-- Every setting that a management command writes, the manager list among them, and the node id. -/
structure Settings where
  circuit : BitVec 11 → CircuitAction × Chan × Node × BitVec 11
  rspChannel : Option Chan
  channel : Chan → PoolId × Half × Half
  storeBase : Word
  pool : PoolId → Word × Nat × Word × Nat × Nat × Bool
  ring : RingId → Word × Nat × Nat × Bool
  slot : SlotId → SlotKind × Node × BitVec 11 × BitVec 4 × Bool
  txPoll : Byte
  memTimeout : Byte
  managers : List Node
  nodeId : Node
  eventBase : Word
  eventSize : Nat
  enable : Half

/-- The settings as they stand in a state. -/
def State.settings (s : State) : Settings where
  circuit l := (s.circuit l).setting
  rspChannel := s.cc.rspChannel
  channel c := (s.chan c).setting
  storeBase := s.xc.storeBase
  pool p := (s.pool p).setting
  ring r := (s.ring r).setting
  slot k := (s.slot k).setting
  txPoll := s.su.txPoll
  memTimeout := s.lmp.memTimeout
  managers := s.ma.managers.map (·.node)
  nodeId := s.ma.nodeId
  eventBase := s.ew.base
  eventSize := s.ew.size
  enable := s.ew.enable

/-- The commands that may change a setting: the configuration commands of the code table (R176) and the resets. -/
def Instr.configures : Instr → Bool
  | .resetReleased _ | .nodeResetTakesEffect | .claim | .release | .manager | .setLocalMap | .setPool | .setTxring
  | .setSend | .setEvents | .setNode | .writeCircuit | .bindChannel => true
  | .resetAsserted | .tick | .deadlineReached _ | .intervalPoll | .requestTimeout | .attnEdge | .huntTrial _
  | .presyncCell _ | .syncCell _ | .outboundPosition | .applyCell | .applyPendingAbort _ | .reserve _ | .take _
  | .completionWrite _ | .requestGrant | .busAccept | .memoryResponse _ _ | .channelUnbound _ | .eventServe
  | .commandTake | .responseHandover | .ident | .readCircuit | .unbindChannel | .readChannel | .readContext
  | .syncContexts | .start | .stop | .stopDrainComplete | .nodeReset | .readCounters => false

/-! ## Legal ranges -/

/-- The framer's run counts and alignment agree with its delineation state (R7 to R10). -/
def Framer.Legal (cf : Framer) : Prop :=
  match cf.delineation with
  | .hunt => cf.alignment = none ∧ cf.goodRun = 0 ∧ cf.badRun = 0
  | .presync => cf.alignment.isSome = true ∧ 1 ≤ cf.goodRun ∧ cf.goodRun < 8 ∧ cf.badRun = 0
  | .sync => cf.alignment.isSome = true ∧ cf.goodRun = 8 ∧ cf.badRun < 5

/-- The port's limits: at most 16 outstanding requests and 32 entries, the request offered to the bus counted with
them (R142, R143). -/
def Port.Legal (p : Port) : Prop :=
  p.live + (if p.offered.isSome then 1 else 0) ≤ 16 ∧ p.order.length + (if p.offered.isSome then 1 else 0) ≤ 32

/-- The manager list holds at most 4 nodes and no node twice (R158); a CLAIM in hand comes from a listed node or finds
the list empty (R157). -/
def Agent.Legal (ma : Agent) : Prop :=
  ma.queue.length ≤ 4 ∧ ma.managers.length ≤ 4 ∧ (ma.managers.map (·.node)).Nodup ∧
    ∀ cmd, ma.state = .working cmd false → cmd.code = codeClaim →
      cmd.src ∈ ma.managers.map (·.node) ∨ ma.managers = []

/-- The event writer's limits: 8 pending events, a lost count that saturates at 65,535 (R197). -/
def EventWriter.Legal (ew : EventWriter) : Prop := ew.queue.length ≤ 8 ∧ ew.lost ≤ 65535

/-- The arbiter's limits: 8 responses, and a run no longer than the greatest weight (R131). -/
def Arbiter.Legal (ia : Arbiter) : Prop := ia.responses.length ≤ 8 ∧ ia.runCount ≤ 15

/-- The recency order lists exactly the VALID entries, each once, and a channel has at most one place on the Fetch
Wait List (R64, R72). -/
def Cache.Legal (xc : Cache) : Prop :=
  xc.recency.Nodup ∧ (∀ e, e ∈ xc.recency ↔ ∃ v, tget xc.entries e = .valid v) ∧ xc.waitList.Nodup

/-- A pool's positions stand below its ring sizes, reserved ≤ known_free ≤ completion size, an owner byte is read only
while a slot is not known free, and a pool that is not ACTIVE has nothing reserved, no slot known free and no access in
flight (R95, R99, R100, R105). -/
structure Pool.Legal (x : Pool) : Prop where
  free_pos : 0 < x.freeSize → x.freePos < x.freeSize
  write_pos : 0 < x.complSize → x.writePos < x.complSize
  reserved_le : x.reserved ≤ x.knownFree
  known_le : x.knownFree ≤ x.complSize
  reading : ∀ c, x.access = some (.ownerRead c) → x.knownFree < x.complSize
  inactive : x.state ≠ .active → x.reserved = 0 ∧ x.knownFree = 0 ∧ x.access = none

/-- A ring's weight is at most 15, and its head stands below its size (R110). It stages at most 4 cells, and holds staged
cells and a message only while SENDING (R111, R120). Its head is read only while it is IDLE, and no descriptor access is
in flight while it waits for a lock (R114, R118). -/
structure TxRing.Legal (x : TxRing) : Prop where
  weight_le : x.weight ≤ 15
  head_lt : 0 < x.size → x.head < x.size
  staged_le : x.fifo.length ≤ 4
  resting : x.state ≠ .sending → x.fifo = [] ∧ x.msg = none
  reading : x.access = some .ownerRead ∨ x.access = some .addrRead → x.state = .idle
  waiting : x.state = .waitSlot → x.access = none

/-- The requests that stand at the port: in the lines, offered to the bus, or issued and LIVE (R141 to R143). -/
def Port.standing (p : Port) : List Request :=
  p.ctx ++ p.dlv ++ p.seg ++ p.evt ++ p.agt ++ p.offered.toList ++ (p.order.filter (·.live)).map (·.request)

/-- How many body reads of ring r's message number g stand at the port. -/
def Port.bodyReads (p : Port) (r : RingId) (g : Nat) : Nat := p.standing.countP fun q => q.tag == .body r g

/-- A ring of whose message number g this many body reads stand at the port. None is of a message to come. Of a message
under way there is at most one for each cell that has been asked for and not been built, and the staged cells and these
cells together are at most 4 (R120); of a message ended early there is none (R123). The cells asked for are body cells,
and none is built before it is asked for but the cell of check bytes alone (R120). -/
structure TxRing.StagedWith (x : TxRing) (reads : Nat → Nat) : Prop where
  none_to_come : ∀ g, x.gen < g → reads g = 0
  under_way : ∀ m, x.msg = some m → m.ended = none →
    reads x.gen ≤ m.nextRead - m.nextBuild ∧ x.fifo.length + (m.nextRead - m.nextBuild) ≤ 4
  ended : ∀ m, x.msg = some m → m.ended ≠ none → reads x.gen = 0
  in_order : ∀ m d, x.msg = some m → x.desc = some d → m.ended = none →
    m.nextRead ≤ bodyCells d.length.toNat + 1 ∧ (m.nextRead ≤ bodyCells d.length.toNat → m.nextBuild ≤ m.nextRead)

/-- A lock queue holds no ring twice, and its rings are in WAIT_SLOT and wait for no other slot. The holder of a slot is
SENDING a message on it, and a slot that rings wait for has a holder (R111, R118). -/
structure State.LocksLegal (s : State) : Prop where
  nodup : ∀ k, (s.slot k).lockQueue.Nodup
  waiting : ∀ k r, r ∈ (s.slot k).lockQueue → (s.ring r).state = .waitSlot
  once : ∀ j k r, r ∈ (s.slot j).lockQueue → r ∈ (s.slot k).lockQueue → j = k
  holding : ∀ k r, (s.slot k).holder = some r → (s.ring r).state = .sending ∧ ∃ m, (s.ring r).msg = some m ∧ m.slot = k
  held : ∀ k, (s.slot k).lockQueue ≠ [] → (s.slot k).holder ≠ none

/-- The channels that cache entry e names in this state, each with the residence that the table of R63 gives it. -/
def CacheEntry.names (e : EntryId) : CacheEntry → List (Chan × Residence)
  | .free => []
  | .filling c => [(c, .fetching)]
  | .valid v => [(v.channel, .cached e)]
  | .writing c claimant _ => (c, .writeback) :: claimant.toList.map fun d => (d, .fetching)

/-- The residence of a channel is the one that the entry naming it gives, at most one entry names a channel, and a channel
that none names is STORED (R63). Channels on the Fetch Wait List, and those that are UNBOUND or FAULTED, are STORED
(R65). -/
structure State.EntriesAgree (s : State) : Prop where
  named : ∀ e c r, (c, r) ∈ (s.entry e).names e → (s.chan c).residence = r
  naming : ∀ c, (s.chan c).residence ≠ .stored → ∃ e, (c, (s.chan c).residence) ∈ (s.entry e).names e
  once : ∀ c d e r q, (c, r) ∈ (s.entry d).names d → (c, q) ∈ (s.entry e).names e → d = e
  listed : ∀ c ∈ s.xc.waitList, (s.chan c).residence = .stored
  unused : ∀ c, ¬ (s.chan c).InUse → (s.chan c).residence = .stored

/-- Every queue, list and count of the part is within the range its chapter gives, the residences of the channels agree
with the cache entries, and the transmit rings with the slots and the port. -/
structure State.Legal (s : State) : Prop where
  framer : s.cf.Legal
  hold : s.re.hold.length ≤ 64
  cache : s.xc.Legal
  entries : s.EntriesAgree
  pools : ∀ p, (s.pool p).Legal
  rings : ∀ r, (s.ring r).Legal
  staged : ∀ r, (s.ring r).StagedWith (s.lmp.bodyReads r)
  locks : s.LocksLegal
  arbiter : s.ia.Legal
  port : s.lmp.Legal
  agent : s.ma.Legal
  writer : s.ew.Legal

/-! ## The datapath at rest -/

/-- No work of an unbind, a stop or a waiting fetch is owed, and no entry is newly filled: a step has then nothing to
add to its own effect (R56, R58, R67, R73). -/
structure State.AtRest (s : State) : Prop where
  not_stopping : s.ma.nodeState ≠ .stopping
  not_unbinding : ∀ c, (s.chan c).binding ≠ .unbinding
  list_empty : s.xc.waitList = []
  not_newly_filled : ∀ e v, s.entry e = .valid v → v.newlyFilled = false

end Sys2Proof.Machine
end

