-- ==== Sys2Proof/Certificates/Slice0/Obligations.lean ====
section
/-! DEFINITION. The statements for the provers. -/

open Sys2Proof Sys2Proof.Machine

/-! ## The step and the resets -/

/-- A step runs the command at the front of the queue on the queue's rest. On an empty queue the block idles, which is
the model's choice (log entry 3). -/
def Obligations.StepRunsTheFrontCommand : Prop :=
  (∀ c rest s, s.pending = c :: rest → step s = exec c { s with pending := rest }) ∧
  (∀ s, s.pending = [] → step s = .next s)

/-- No command faults or is refused in any state, and none touches the queue of waiting commands. That a command which
comes outside its condition changes nothing, in place of a fault, is the model's choice (log entry 4), and so is the
queue itself (log entry 3). -/
def Obligations.EveryCommandAnswersNext : Prop :=
  ∀ c s, ∃ t, exec c s = .next t ∧ t.pending = s.pending

/-- The values that the chapters give for power-on reset (R7, R18, R26, R33, R63, R74, R89, R110, R117, R131, R146,
R171, R194, R197, R202). The node id 0 and the released RESET are the model's choice (log entry 1). -/
def Obligations.ResetHoldsPowerOnValues : Prop :=
  let s := State.reset
  (s.cf.delineation = .hunt ∧ s.cf.alignment = none ∧ s.cf.goodRun = 0 ∧ s.cf.badRun = 0 ∧ s.cf.transit = []) ∧
  (∀ l, s.circuit l = { action := .unused, channel := 0, newDest := 0, newLabel := 0, matched := 0 }) ∧
  s.cc.rspChannel = none ∧
  (∀ c, s.chan c = { binding := .unbound, pool := 0, maxBody := 0, limit := 0, msgOpen := false, deadline := 0,
                     residence := .stored, op := none, pendingAbort := .none, fresh := false, poolReset := false }) ∧
  s.re.hold = [] ∧
  (∀ e, s.entry e = .free) ∧ s.xc.recency = [] ∧ s.xc.waitList = [] ∧ s.xc.storeBase = 0 ∧
  (∀ p, s.pool p = { freeBase := 0, freeSize := 0, complBase := 0, complSize := 0, bufSize := 0, notify := false,
                     state := .unconfigured, freePos := 0, writePos := 0, knownFree := 0, reserved := 0,
                     requests := [], access := none }) ∧
  (∀ r, (s.ring r).setting = (0, 0, 0, false) ∧ (s.ring r).head = 0 ∧ (s.ring r).state = .unconfigured ∧
    (s.ring r).fifo = []) ∧
  (∀ k, s.slot k = { kind := .data, dest := 0, label := 0, hops := 0, enabled := false, nextSeq := 0, holder := none,
                     lockQueue := [] }) ∧
  (s.su.txPoll = 0 ∧ s.su.countdown = 0) ∧
  (s.ia.responses = [] ∧ s.ia.pointer = 0 ∧ s.ia.runCount = 0) ∧
  ((∀ q, s.lmp.line q = []) ∧ s.lmp.order = [] ∧ s.lmp.pointer = .agt ∧ s.lmp.memTimeout = 10) ∧
  (s.ma.queue = [] ∧ s.ma.state = .ready ∧ s.ma.managers = [] ∧ s.ma.nodeState = .unconfigured ∧ s.ma.nodeTime = 0) ∧
  (s.ew.state = .off ∧ s.ew.base = 0 ∧ s.ew.size = 0 ∧ s.ew.pos = 0 ∧ s.ew.queue = [] ∧ s.ew.lost = 0 ∧
    s.ew.access = .none ∧ s.ew.lint = false ∧ ∀ k : EventKind, s.ew.enable.getLsbD k.code = true) ∧
  s.counters = { hdrErrors := 0, malformed := 0, returned := 0, hopExpired := 0, cellsPassed := 0
                 positionsInserted := 0, cellsForwarded := 0, unknownLabel := 0, mgmtRspDiscards := 0
                 datapathOff := 0, nochannel := 0, poolDiscards := 0, holdOverflow := 0, memFailures := 0
                 eventsLost := 0, mgmtQueueFull := 0, broadcastIgnored := 0, mgmtDenied := 0 }

/-- RESET_ASSERTED stops the port at once, and RESET_RELEASED samples the straps and gives every block its power-on
values; while RESET is asserted nothing but its release comes about (R150, R169, R171). That LINT keeps its level while
RESET is asserted, until the release gives it the power-on one, is the model's choice: no rule gives that level (log
entry 40). -/
def Obligations.PowerOnResetStopsAndRestartsThePart : Prop :=
  ((∀ s, exec .resetAsserted s = .next { s with
        inReset := true
        lmp := { s.lmp with ctx := [], dlv := [], seg := [], evt := [], agt := [], offered := none, order := [] } }) ∧
    (∀ n s, s.inReset = true → exec (.resetReleased n) s = .next { State.reset with
        ma := { State.reset.ma with nodeId := n }, freeReads := s.freeReads, pending := s.pending })) ∧
  (∀ c s, s.inReset = true → c ≠ .resetAsserted → (∀ n, c ≠ .resetReleased n) → exec c s = .next s)

/-- In RESET_WAIT the reset takes effect once no entry of the order list is LIVE: every block takes its power-on values
but for the framer, the node id and node time. Until then the part waits (R151, R173). -/
def Obligations.NodeResetTakesEffectWhenQuiet : Prop :=
  ∀ s, s.inReset = false → s.ma.state = .resetWait →
    ((∀ e ∈ s.lmp.order, e.live = false) → exec .nodeResetTakesEffect s = .next { State.reset with
      cf := s.cf, ma := { State.reset.ma with nodeId := s.ma.nodeId, nodeTime := s.ma.nodeTime },
      freeReads := s.freeReads, pending := s.pending }) ∧
    ((∃ e ∈ s.lmp.order, e.live = true) → exec .nodeResetTakesEffect s = .next s)

/-! ## Time -/

/-- A tick advances node time, the poll countdown of a RUNNING node and the timers of the LIVE entries, and opens the
scan of a RUNNING node (R53, R113, R145, R170). That a countdown or a timer at 0 stays there until another command acts
on it, and that scanOpen and scanned hold the scan that is due, is the model's choice (log entry 9). -/
def Obligations.TickAdvancesTimeAndTimers : Prop :=
  ∀ s, s.inReset = false → exec .tick s = .next { s with
    ma := { s.ma with nodeTime := s.ma.nodeTime + 1 }
    su := { s.su with countdown :=
      if s.ma.nodeState = .running ∧ s.su.txPoll ≠ 0 ∧ s.su.countdown ≠ 0 then s.su.countdown - 1 else s.su.countdown }
    lmp := { s.lmp with order := s.lmp.order.map fun e => if e.live then { e with timer := e.timer - 1 } else e }
    re := { s.re with scanOpen := s.ma.nodeState == .running, scanned := [] } }

/-- Node time moves at ticks and at the release of RESET alone, and the node id is sampled at that release alone: no
other command, a node reset included, changes either (R169, R170). -/
def Obligations.NodeTimeAndIdMoveOnlyAsStated : Prop :=
  ∀ c s t, exec c s = .next t →
    ((∀ n, c ≠ .resetReleased n) → t.ma.nodeId = s.ma.nodeId) ∧
    ((∀ n, c ≠ .resetReleased n) → c ≠ .tick → t.ma.nodeTime = s.ma.nodeTime) ∧
    (c = .tick → t.ma.nodeTime = if s.inReset then s.ma.nodeTime else s.ma.nodeTime + 1)

/-! ## The port -/

/-- A grant goes to the first requester after the pointer, in cycle order, whose line is not empty. None is made while
a granted request waits, 16 entries are live, 32 stand in the list, a node reset waits, or no line holds a request
(R142). The accepted request joins the tail of the order list as LIVE with its timer loaded (R140, R143, R145). -/
def Obligations.RequestIsGrantedInCycleOrderAndIssued : Prop :=
  ((∀ s k q r rest, s.inReset = false → s.ma.state ≠ .resetWait → s.lmp.offered = none → s.lmp.live < 16 →
      s.lmp.order.length < 32 → k < 5 → q = Nat.repeat Requester.succ (k + 1) s.lmp.pointer →
      (∀ j, j < k → s.lmp.line (Nat.repeat Requester.succ (j + 1) s.lmp.pointer) = []) → s.lmp.line q = r :: rest →
      exec .requestGrant s = .next { s with lmp := { s.lmp.setLine q rest with offered := some r, pointer := q } }) ∧
    (∀ s, s.inReset = false → (s.ma.state = .resetWait ∨ s.lmp.offered ≠ none ∨ 16 ≤ s.lmp.live ∨
        32 ≤ s.lmp.order.length ∨ ∀ q, s.lmp.line q = []) → exec .requestGrant s = .next s)) ∧
  (∀ s r, s.inReset = false → s.lmp.offered = some r → exec .busAccept s = .next { s with lmp := { s.lmp with
      offered := none
      order := s.lmp.order ++ [{ request := r, timer := s.lmp.memTimeout.toNat, live := true }] } })

/-- A response is paired with the head of the order list alone: LIVE, its answer is given to the requester, and an
ERROR is counted in mem_failures; EXPIRED, or with the list empty, it is discarded (R144, R146). A READ answered OK
with all its bytes gives exactly those bytes. In the wait of a node reset an answer, OK or not, is taken and acted on
no further by any block (R62, R88, R109, R130, R151, R205). That the block's own state keeps the access as in flight
until the reset takes effect is the model's choice (log entry 55). -/
def Obligations.ResponseIsPairedWithTheHead : Prop :=
  (∀ s res d, s.inReset = false → s.lmp.order = [] → exec (.memoryResponse res d) s = .next (s.settle s)) ∧
  (∀ s res d e rest, s.inReset = false → s.lmp.order = e :: rest → e.live = false →
    exec (.memoryResponse res d) s = .next (State.settle { s with lmp := { s.lmp with order := rest } } s)) ∧
  (∀ s d e rest, s.inReset = false → s.lmp.order = e :: rest → e.live = true →
    exec (.memoryResponse .error d) s = .next (State.settle
      (State.give { s with lmp := { s.lmp with order := rest }
                           counters := { s.counters with memFailures := s.counters.memFailures + 1 } }
        e.request.tag .error []) s)) ∧
  (∀ s d e rest, s.inReset = false → s.lmp.order = e :: rest → e.live = true → e.request.direction = .write →
    exec (.memoryResponse .ok d) s = .next (State.settle
      (State.give { s with lmp := { s.lmp with order := rest } } e.request.tag .ok []) s)) ∧
  (∀ s d e rest, s.inReset = false → s.lmp.order = e :: rest → e.live = true → e.request.direction = .read →
    d.length = e.request.length →
    exec (.memoryResponse .ok d) s = .next (State.settle
      (State.give { s with lmp := { s.lmp with order := rest } } e.request.tag .ok d) s)) ∧
  (∀ (s : State) tag a bytes, s.ma.state = .resetWait → s.give tag a bytes = s)

/-- The oldest LIVE entry whose timer has run out becomes EXPIRED in its place, its requester is given TIMEOUT, and
mem_failures counts it; with no such entry nothing expires (R145, R146). -/
def Obligations.OldestExpiredRequestTimesOut : Prop :=
  (∀ s pre e post, s.inReset = false → s.lmp.order = pre ++ e :: post → e.live = true → e.timer = 0 →
    (∀ x ∈ pre, x.live = false ∨ x.timer ≠ 0) →
    exec .requestTimeout s = .next (State.settle
      (State.give { s with lmp := { s.lmp with order := pre ++ { e with live := false } :: post }
                           counters := { s.counters with memFailures := s.counters.memFailures + 1 } }
        e.request.tag .timeout []) s)) ∧
  (∀ s, s.inReset = false → (∀ x ∈ s.lmp.order, x.live = false ∨ x.timer ≠ 0) →
    exec .requestTimeout s = .next (s.settle s))

/-! ## The end of a step -/

/-- With no unbind, stop or waiting fetch under way and no newly filled entry, the end of a step adds nothing to it
(R56, R58, R67, R73). -/
def Obligations.SettleAtRestAddsNothing : Prop := ∀ s b : State, s.AtRest → s.settle b = s

/-- What the end of a step leaves alone in every state: the trunk, the classifier, the transmit side, the events, the
counters, the held cells, the order list, the node's own data, each channel's binding, message flag, deadline and
pending abort, and each pool's counts. And what it does: in the wait of a node reset nothing (R62, R88); else an entry
whose channel has no work left is no longer newly filled, the work owed to an unbind or a stop goes on for every
channel, every entry is freed when a stop has closed the messages, and the Fetch Wait List is served if an entry has
come to be FREE or eligible since the step began (R56, R58, R67, R73, R80, R87). That the channels come in rising order
is log entry 22, that an UNBINDING channel's entry is freed before the list is served log entry 46, that a close owed
to an unbind or a stop begins before it log entry 49, and that a pending abort is applied after it log entry 51: the
model's choices. -/
def Obligations.SettleLeavesTheRestAlone : Prop :=
  ∀ s b : State, let t := s.settle b
    (t.inReset = s.inReset ∧ t.cf = s.cf ∧ t.cc = s.cc ∧ t.su = s.su ∧ t.ia = s.ia ∧ t.ew = s.ew ∧
      t.counters = s.counters ∧ t.freeReads = s.freeReads ∧ t.pending = s.pending) ∧
    (t.re.hold = s.re.hold ∧ t.re.scanOpen = s.re.scanOpen ∧ t.re.scanned = s.re.scanned) ∧
    (t.lmp.order = s.lmp.order ∧ t.lmp.offered = s.lmp.offered ∧ t.lmp.pointer = s.lmp.pointer ∧
      t.lmp.memTimeout = s.lmp.memTimeout) ∧
    (t.ma.queue = s.ma.queue ∧ t.ma.managers = s.ma.managers ∧ t.ma.nodeState = s.ma.nodeState ∧
      t.ma.nodeId = s.ma.nodeId ∧ t.ma.nodeTime = s.ma.nodeTime) ∧
    (∀ c, (t.chan c).binding = (s.chan c).binding ∧ (t.chan c).setting = (s.chan c).setting ∧
      (t.chan c).msgOpen = (s.chan c).msgOpen ∧ (t.chan c).deadline = (s.chan c).deadline ∧
      (t.chan c).pendingAbort = (s.chan c).pendingAbort) ∧
    (∀ p, { t.pool p with requests := [] } = { s.pool p with requests := [] }) ∧
    (s.ma.state = .resetWait → t = s) ∧
    (s.ma.state ≠ .resetWait →
      let work : Chan → Bool := fun c => (s.chan c).pendingAbort != .none || s.re.hold.any (fun h => h.channel == c) ||
        ((s.chan c).msgOpen && ((s.chan c).binding == .unbinding ||
          ((s.chan c).binding == .bound && s.ma.nodeState == .stopping)))
      let unmarked : State := { s with xc := { s.xc with entries := s.xc.entries.map fun x =>
        match x with
        | .valid v => .valid { v with newlyFilled := v.newlyFilled && work v.channel }
        | .free => .free
        | .filling d => .filling d
        | .writing d claimant note => .writing d claimant note } }
      t = (((List.finRange 256).foldl (fun u c => u.owedWork c) unmarked).freeAll).serveIfFreed b)

/-! ## Events -/

/-- A raised event joins the pending queue, stamped with node time; with the queue full it is lost and counted; with
its kind disabled, the writer not ON, or in the wait of a node reset it leaves no trace (R195, R198, R205). -/
def Obligations.RaisedEventJoinsTheQueueOrIsLost : Prop :=
  ∀ (s : State) (k : EventKind) (subject detail : Nat) (aux : Word),
    ((s.ma.state = .resetWait ∨ s.ew.enable.getLsbD k.code = false ∨ s.ew.state ≠ .on) →
      s.raise k subject detail aux = s) ∧
    (s.ma.state ≠ .resetWait → s.ew.enable.getLsbD k.code = true → s.ew.state = .on →
      (s.ew.queue.length < 8 → s.raise k subject detail aux = { s with ew := { s.ew with queue := s.ew.queue ++
        [{ kind := k, subject := BitVec.ofNat 16 subject, detail := BitVec.ofNat 16 detail, tick := s.ma.nodeTime
           aux := aux }] } }) ∧
      (8 ≤ s.ew.queue.length → s.raise k subject detail aux = { s with
        ew := { s.ew with lost := if s.ew.lost < 65535 then s.ew.lost + 1 else s.ew.lost }
        counters := { s.counters with eventsLost := s.counters.eventsLost + 1 } }))

/-- EVENT_SERVE reads the owner byte of slot event_pos. A DEVICE-owned slot takes the head event's record with the lost
count, which becomes 0; another owner loses the head event. A written record moves event_pos on and asserts LINT. A
failed access makes the writer FAULTED, its queue empty. An access to a replaced ring is acted on no further (R181,
R199 to R202). That the lost count and the event are taken for the record as its write is requested, before the bus
accepts it, is the model's choice (log entry 8). -/
def Obligations.HeadEventIsServedAtTheRing : Prop :=
  (∀ s, s.inReset = false → s.ma.state ≠ .resetWait → s.ew.state = .on → s.ew.access = .none → s.ew.queue ≠ [] →
    exec .eventServe s = .next (State.requestRead { s with ew := { s.ew with access := .ownerRead false } } .evt
      (s.ew.base + BitVec.ofNat 32 (16 * s.ew.pos)) 1 .event)) ∧
  (∀ (s : State) e rest, s.ma.state ≠ .resetWait → s.ew.access = .ownerRead false → s.ew.queue = e :: rest →
    s.give .event .ok [1] = State.requestWrite { s with ew := { s.ew with access := .recordWrite false, lost := 0 } }
      .evt (s.ew.base + BitVec.ofNat 32 (16 * s.ew.pos))
      ([0, BitVec.ofNat 8 e.kind.code] ++ be16 (BitVec.ofNat 16 s.ew.lost) ++ be16 e.subject ++ be16 e.detail
        ++ be32 e.tick ++ be32 e.aux) .event) ∧
  (∀ (s : State) e rest b, s.ma.state ≠ .resetWait → s.ew.access = .ownerRead false → s.ew.queue = e :: rest → b ≠ 1 →
    s.give .event .ok [b] = { s with
      ew := { s.ew with access := .none, queue := rest, lost := if s.ew.lost < 65535 then s.ew.lost + 1 else s.ew.lost }
      counters := { s.counters with eventsLost := s.counters.eventsLost + 1 } }) ∧
  (∀ (s : State) e rest bytes, s.ma.state ≠ .resetWait → s.ew.access = .recordWrite false → s.ew.queue = e :: rest →
    s.give .event .ok bytes = { s with ew := { s.ew with
      access := .none, queue := rest, pos := (s.ew.pos + 1) % s.ew.size, lint := true } }) ∧
  (∀ (s : State) (a : Answer) bytes, s.ma.state ≠ .resetWait →
    (s.ew.access = .ownerRead false ∨ s.ew.access = .recordWrite false) → a ≠ .ok →
    s.give .event a bytes = { s with ew := { s.ew with access := .none, state := .faulted, queue := [], lost := 0 } }) ∧
  (∀ (s : State) (a : Answer) bytes, s.ma.state ≠ .resetWait →
    (s.ew.access = .ownerRead true ∨ s.ew.access = .recordWrite true) →
    s.give .event a bytes = { s with ew := { s.ew with access := .none } })

/-! ## The inbound trunk -/

/-- In HUNT a good trial header gives PRESYNC at its offset, and a bad one moves the trial on by one byte. In PRESYNC
the eighth good header in a row gives SYNC and raises SYNC_GAINED, an earlier one only counts, and a bad one returns to
HUNT. In SYNC a header error frees the position and is counted; the fifth in a row returns to HUNT and raises SYNC_LOST
with the count of header errors (R8 to R10). The stream offsets are the model's count (log entry 5). -/
def Obligations.DelineationIsFoundConfirmedAndLost : Prop :=
  ((∀ s h, s.inReset = false → s.cf.delineation = .hunt →
      (headerCheck (h.toList.take 7) = h[7] → exec (.huntTrial h) s = .next { s with cf := { s.cf with
        delineation := .presync, alignment := some s.cf.streamPos, goodRun := 1, streamPos := s.cf.streamPos + 48 } }) ∧
      (headerCheck (h.toList.take 7) ≠ h[7] → exec (.huntTrial h) s = .next { s with cf := { s.cf with
        streamPos := s.cf.streamPos + 1 } })) ∧
    (∀ s raw, s.inReset = false → s.cf.delineation = .presync → goodHeader raw.toList = true → s.cf.goodRun ≠ 7 →
      exec (.presyncCell raw) s = .next { s with cf :=
        { s.cf with goodRun := s.cf.goodRun + 1, streamPos := s.cf.streamPos + 48 } }) ∧
    (∀ s raw, s.inReset = false → s.cf.delineation = .presync → goodHeader raw.toList = true → s.cf.goodRun = 7 →
      exec (.presyncCell raw) s = .next (State.raise { s with cf := { s.cf with
        delineation := .sync, goodRun := 8, badRun := 0, changeover := true, streamPos := s.cf.streamPos + 48 } }
        .syncGained 0 0 0)) ∧
    (∀ s raw, s.inReset = false → s.cf.delineation = .presync → goodHeader raw.toList = false →
      exec (.presyncCell raw) s = .next { s with cf := { s.cf with
        delineation := .hunt, alignment := none, goodRun := 0, badRun := 0, changeover := false
        streamPos := s.cf.streamPos + 1 } })) ∧
  (∀ s raw, s.inReset = false → s.cf.delineation = .sync → goodHeader raw.toList = false →
      let counters := { s.counters with hdrErrors := s.counters.hdrErrors + 1 }
      (s.cf.badRun ≠ 4 → exec (.syncCell raw) s = .next (State.settle { s with
        cf := { s.cf.arrived .free with badRun := s.cf.badRun + 1 }, counters } s)) ∧
      (s.cf.badRun = 4 → exec (.syncCell raw) s = .next (State.settle (State.raise { s with
        cf := { s.cf.arrived .free with
          delineation := .hunt, alignment := none, goodRun := 0, badRun := 0, streamPos := s.cf.streamPos + 1 }
        counters } .syncLost 0 0 (s.counters.hdrErrors + 1)) s)))

/-- A cell with a good header, not for this node, is disposed of by the first test it meets: malformed and EMPTY cells
free their positions, a broadcast command is copied to the agent and passes, a cell from this node is stripped, and any
other passes with one hop less, or is discarded with hops 0 (R10, R11, R13). That a passing cell is not counted here
but as it leaves is the model's choice (log entry 14). -/
def Obligations.CellNotForThisNodeIsDisposedOf : Prop :=
  ∀ s raw, s.inReset = false → s.cf.delineation = .sync → goodHeader raw.toList = true →
    let c := Cell.ofBytes raw
    let free := { s with cf := s.cf.arrived .free }
    let broadcast := c.dest = 63 ∧ c.kind = .mgmtCmd ∧ s.ma.nodeId ≠ 63
    (malformed raw = true → exec (.syncCell raw) s = .next (State.settle
      { free with counters := { s.counters with malformed := s.counters.malformed + 1 } } s)) ∧
    (malformed raw = false → c.kind = .empty → exec (.syncCell raw) s = .next (free.settle s)) ∧
    (malformed raw = false → c.kind ≠ .empty → (s.ma.nodeId = 63 ∨ c.dest ≠ s.ma.nodeId) →
      (s.ma.nodeId ≠ 63 → c.src = s.ma.nodeId → exec (.syncCell raw) s = .next (State.settle
        { free with counters := { s.counters with returned := s.counters.returned + 1 } } s)) ∧
      ((s.ma.nodeId = 63 ∨ c.src ≠ s.ma.nodeId) → ¬ broadcast →
        (c.hops ≠ 0 → exec (.syncCell raw) s = .next (State.settle
          { s with cf := s.cf.arrived (.passed { c with hops := c.hops - 1 }) } s)) ∧
        (c.hops = 0 → exec (.syncCell raw) s = .next (State.settle
          { free with counters := { s.counters with hopExpired := s.counters.hopExpired + 1 } } s))) ∧
      (c.src ≠ s.ma.nodeId → broadcast → exec (.syncCell raw) s = .next (State.settle
        ((State.joinCommands { s with cf := s.cf.acted } c).pass c) s)))

/-- A DATA cell for this node is looked up on its label's entry, and each action has its effect: UNUSED and BLOCK
discard it, TERMINATE gives its local part, FORWARD sends it on rewritten with one hop less (or discards it with hops
0), and TAP does both (R19 to R21, R24, R25). -/
def Obligations.DataCellIsLookedUpOnItsLabel : Prop :=
  ∀ s raw, s.inReset = false → s.cf.delineation = .sync → goodHeader raw.toList = true → malformed raw = false →
    s.ma.nodeId ≠ 63 → (Cell.ofBytes raw).kind = .data → (Cell.ofBytes raw).dest = s.ma.nodeId →
    let c := Cell.ofBytes raw
    let x := s.circuit c.label
    let counted := { s with
      cf := s.cf.acted
      cc := { s.cc with circuits := tmod s.cc.circuits c.label.toFin fun x => { x with matched := x.matched + 1 } } }
    let sent : State → State := fun t =>
      if c.hops = 0 then { t with
        cf := { t.cf with transit := t.cf.transit ++ [.free] }
        counters := { t.counters with hopExpired := t.counters.hopExpired + 1 } }
      else { t with cf := { t.cf with transit := t.cf.transit ++
        [.forwarded { c with hops := c.hops - 1, dest := x.newDest, label := x.newLabel }] } }
    let free : State → State := fun t => { t with cf := { t.cf with transit := t.cf.transit ++ [.free] } }
    exec (.syncCell raw) s = .next (State.settle (match x.action with
      | .unused => { s with cf := s.cf.arrived .free
                            counters := { s.counters with unknownLabel := s.counters.unknownLabel + 1 } }
      | .block => free counted
      | .terminate => free (counted.deliver x.channel c)
      | .forward => sent counted
      | .tap => sent (counted.deliver x.channel c)) s)

/-- A local part of a DATA cell reaches the hold queue if the node is RUNNING, its channel BOUND and its pool not
FAULTED, and is counted in the counter of the first test it fails otherwise (R21); a MGMT_RSP that arrives for this
node frees its position and takes the same tests on the response channel with one counter (R11, R14, R27). A held cell
joins the tail of the queue, with a fetch request if its channel is STORED. With 64 cells held it is lost and counted,
and a first loss makes the pending abort HOLDFULL and raises HOLD_OVERFLOW (R35, R36). In the wait of a node reset
every local part and every MGMT_RSP is discarded and counted in datapath_off and mgmt_rsp_discards (R32). -/
def Obligations.LocalPartIsHeldForItsChannel : Prop :=
  (∀ (s : State) (c : Chan) (cell : Cell), s.ma.state ≠ .resetWait →
      let discard := { s with counters := { s.counters with mgmtRspDiscards := s.counters.mgmtRspDiscards + 1 } }
      (s.ma.nodeState ≠ .running →
        s.deliver c cell = { s with counters := { s.counters with datapathOff := s.counters.datapathOff + 1 } }) ∧
      (s.ma.nodeState = .running → (s.chan c).binding ≠ .bound →
        s.deliver c cell = { s with counters := { s.counters with nochannel := s.counters.nochannel + 1 } }) ∧
      (s.ma.nodeState = .running → (s.chan c).binding = .bound → (s.pool (s.chan c).pool).state = .faulted →
        s.deliver c cell = { s with counters := { s.counters with poolDiscards := s.counters.poolDiscards + 1 } }) ∧
      (s.ma.nodeState = .running → (s.chan c).binding = .bound → (s.pool (s.chan c).pool).state ≠ .faulted →
        s.deliver c cell = s.holdCell c cell) ∧
      (s.cc.rspChannel = none → s.routeResponse cell = discard) ∧
      (s.cc.rspChannel = some c → s.routeResponse cell =
        if s.ma.nodeState = .running ∧ (s.chan c).binding = .bound ∧ (s.pool (s.chan c).pool).state ≠ .faulted then
          s.holdCell c cell
        else discard)) ∧
  (∀ (s : State) (c : Chan) (cell : Cell),
      let joined := { s with re := { s.re with hold := s.re.hold ++ [{ channel := c, cell := cell }] } }
      let lost := { s with counters := { s.counters with holdOverflow := s.counters.holdOverflow + 1 } }
      (s.re.hold.length < 64 → s.holdCell c cell =
        if (s.chan c).residence = .stored then joined.fetchRequest c else joined) ∧
      (64 ≤ s.re.hold.length → (s.chan c).pendingAbort ≠ .none → s.holdCell c cell = lost) ∧
      (64 ≤ s.re.hold.length → (s.chan c).pendingAbort = .none → s.holdCell c cell =
        State.raise (lost.onChan c fun ch => { ch with pendingAbort := .holdfull }) .holdOverflow c.val 0
          (s.counters.holdOverflow + 1))) ∧
  (∀ (s : State) (c : Chan) (cell : Cell), s.ma.state = .resetWait →
      s.deliver c cell = { s with counters := { s.counters with datapathOff := s.counters.datapathOff + 1 } } ∧
      s.routeResponse cell = { s with counters :=
        { s.counters with mgmtRspDiscards := s.counters.mgmtRspDiscards + 1 } }) ∧
  (∀ s raw, s.inReset = false → s.cf.delineation = .sync → goodHeader raw.toList = true → malformed raw = false →
    s.ma.nodeId ≠ 63 → (Cell.ofBytes raw).kind = .mgmtRsp → (Cell.ofBytes raw).dest = s.ma.nodeId →
      let routed := State.routeResponse { s with cf := s.cf.acted } (Cell.ofBytes raw)
      exec (.syncCell raw) s = .next (State.settle
        { routed with cf := { routed.cf with transit := routed.cf.transit ++ [.free] } } s))

/-- A command cell for this node joins the command queue, whatever the agent is doing, and with 4 cells queued it is
discarded and counted (R154). An agent WORKING on a long command takes the oldest queued NODE_RESET that is addressed
to this node, comes from a listed manager and has no stored tag out of turn, the cells around it keeping their order:
the long command is abandoned and NODE_RESET is executed with status OK. Any other cell waits its turn (R165, R172).
The queue is examined so when a command becomes a long one as well, in the step in which its owner takes it (R165).
That NODE_RESET is executed in the step of the examination is the model's reading (log entry 15). -/
def Obligations.CommandCellJoinsTheQueueOrResetsTheNode : Prop :=
  (∀ s raw, s.inReset = false → s.cf.delineation = .sync → goodHeader raw.toList = true → malformed raw = false →
    s.ma.nodeId ≠ 63 → (Cell.ofBytes raw).kind = .mgmtCmd → (Cell.ofBytes raw).dest = s.ma.nodeId →
    (exec (.syncCell raw) s = .next (State.settle
      (State.joinCommands { s with cf := s.cf.arrived .free } (Cell.ofBytes raw)) s)) ∧
    (s.ma.queue.length < 4 → (∀ cmd, s.ma.state ≠ .working cmd true) →
      exec (.syncCell raw) s = .next (State.settle { s with
        cf := s.cf.arrived .free, ma := { s.ma with queue := s.ma.queue ++ [Cell.ofBytes raw] } } s)) ∧
    (4 ≤ s.ma.queue.length → exec (.syncCell raw) s = .next (State.settle { s with
        cf := s.cf.arrived .free, counters := { s.counters with mgmtQueueFull := s.counters.mgmtQueueFull + 1 } } s))) ∧
  (∀ (s : State) cmd (c : Cell), s.ma.queue.length < 4 → s.ma.state = .working cmd true →
    (∀ pre q post, s.ma.queue ++ [c] = pre ++ q :: post → s.OutOfTurn q → (∀ x ∈ pre, ¬ s.OutOfTurn x) →
      s.joinCommands c = State.answering { s with ma := { s.ma with queue := pre ++ post } } q 0 []) ∧
    ((∀ x ∈ s.ma.queue ++ [c], ¬ s.OutOfTurn x) →
      s.joinCommands c = { s with ma := { s.ma with queue := s.ma.queue ++ [c] } })) ∧
  (∀ (s : State) cmd,
    (∀ q rest, s.GivesWay q rest → s.goLong cmd = State.answering { s with ma := { s.ma with queue := rest } } q 0 []) ∧
    (s.NoneOutOfTurn → s.goLong cmd = { s with ma := { s.ma with state := .working cmd true } })) ∧
  (∀ (s : State) (q : Cell), s.OutOfTurn q ↔ q.code = 0x42 ∧ s.ma.nodeId ≠ 63 ∧ q.dest = s.ma.nodeId ∧
    (∃ m ∈ s.ma.managers, m.node = q.src) ∧ (q.tag = 0 ∨ ∀ m, s.memoryOf q.src = some m → m.tag ≠ q.tag))

/-! ## The outbound trunk -/

/-- An outbound position that a passing or forwarded cell departs in carries that cell, which is counted as it leaves
(R13, R14, R24). A free position carries the head management response, else the head staged cell of the class chosen,
else an EMPTY cell (R132). The departure of a NODE_RESET response begins the wait: the port drops what is not issued
and the staged cells are dropped (R130, R151, R172). That cells_passed counts a cell as it leaves, against the last
sentence of R17, is the model's choice (log entry 14), and so is that the reset itself waits for a command of its own
even when the port is quiet by then (log entry 11). A position is due out of SYNC, in the changeover before the first
cell acted on, and in SYNC with more than three departure positions owed (R14 to R16); how many fall due elsewhere is
the sender's business (log entry 13), and one that is not due changes nothing (log entry 4): the model's choices. -/
def Obligations.OutboundPositionCarriesWhatItOwesOrIsFilled : Prop :=
  (∀ s c rest, s.inReset = false → s.cf.positionDue = true →
      (s.cf.transit = .passed c :: rest → exec .outboundPosition s = .next { s with
        cf := { s.cf with transit := rest, trunkOut := some c.bytes }
        counters := { s.counters with cellsPassed := s.counters.cellsPassed + 1 } }) ∧
      (s.cf.transit = .forwarded c :: rest → exec .outboundPosition s = .next { s with
        cf := { s.cf with transit := rest, trunkOut := some c.bytes }
        counters := { s.counters with cellsForwarded := s.counters.cellsForwarded + 1 } })) ∧
  (∀ s, s.inReset = false → s.cf.positionDue = true → (s.cf.transit.head? = none ∨ s.cf.transit.head? = some .free) →
      let inserted := { s.counters with positionsInserted := s.counters.positionsInserted + 1 }
      let cf : Cell → Framer := fun c => { s.cf with transit := s.cf.transit.tail, trunkOut := some c.bytes }
      (∀ q rest, s.ia.responses = q :: rest → ¬ (q.reset = true ∧ s.ma.state = .resetSent) →
        exec .outboundPosition s = .next { s with
          cf := cf q.cell, ia := { s.ia with responses := rest }, counters := inserted }) ∧
      (∀ q rest, s.ia.responses = q :: rest → q.reset = true → s.ma.state = .resetSent →
        exec .outboundPosition s = .next { s with
          cf := cf q.cell, ia := { s.ia with responses := rest }, counters := inserted
          ma := { s.ma with state := .resetWait }
          lmp := { s.lmp with ctx := [], dlv := [], seg := [], evt := [], agt := [], offered := none }
          su := { s.su with rings := s.su.rings.map fun x => { x with fifo := [] } } }) ∧
      (∀ r n c rest, s.ia.responses = [] → s.chooseClass = some (r, n) → (s.ring r).fifo = c :: rest →
        exec .outboundPosition s = .next (State.departed { s with
          cf := cf c, ia := { s.ia with pointer := r, runCount := n }, counters := inserted
          su := { s.su with rings := tmod s.su.rings r fun x => { x with fifo := rest } } } r c)) ∧
      (s.ia.responses = [] → (∀ r, (s.ring r).fifo = []) →
        exec .outboundPosition s = .next { s with cf := cf emptyCell })) ∧
  (∀ cf : Framer, cf.positionDue = true ↔ cf.delineation ≠ .sync ∨ cf.changeover = true ∨ 3 < cf.transit.length) ∧
  (∀ s, s.inReset = false → s.cf.positionDue = false → exec .outboundPosition s = .next s)

/-- The weighted round robin: the run goes on, or it ends and the next class in order with a staged cell is chosen; a
position that a response, an EMPTY cell, a passing or a forwarded cell fills leaves the pointer and the run count
(R133). -/
def Obligations.RoundRobinRunsByWeight : Prop :=
  ∀ s, s.inReset = false → s.cf.positionDue = true → ∃ t, exec .outboundPosition s = .next t ∧
    ((s.cf.transit.head? = none ∨ s.cf.transit.head? = some .free) → s.ia.responses = [] →
      (∀ c rest, (s.ring s.ia.pointer).fifo = c :: rest → s.ia.runCount < (s.ring s.ia.pointer).weight →
        t.ia.pointer = s.ia.pointer ∧ t.ia.runCount = s.ia.runCount + 1 ∧ t.cf.trunkOut = some c.bytes) ∧
      (∀ k q c rest, ((s.ring s.ia.pointer).fifo = [] ∨ (s.ring s.ia.pointer).weight ≤ s.ia.runCount) →
        k ∈ [1, 2, 3, 4] → q = s.ia.pointer + Fin.ofNat 4 k →
        (∀ j, 1 ≤ j → j < k → (s.ring (s.ia.pointer + Fin.ofNat 4 j)).fifo = []) → (s.ring q).fifo = c :: rest →
        t.ia.pointer = q ∧ t.ia.runCount = 1 ∧ t.cf.trunkOut = some c.bytes)) ∧
    ((s.ia.responses ≠ [] ∨ (∀ r, (s.ring r).fifo = []) ∨
        (∃ c, s.cf.transit.head? = some (.passed c) ∨ s.cf.transit.head? = some (.forwarded c))) →
      t.ia.pointer = s.ia.pointer ∧ t.ia.runCount = s.ia.runCount)

/-! ## The engine -/

/-- APPLY_CELL takes the oldest held cell whose channel is ready and has no pending abort; its channel's entry becomes
most recent and is no longer newly filled, and the cell is applied (R37, R64, R67). While a ready channel has a pending
abort, that abort comes first and no cell is applied (R37, R38). A channel is ready when it is BOUND and CACHED, has no
operation outstanding, and its pool is ACTIVE (R34). -/
def Obligations.OldestApplicableCellIsApplied : Prop :=
  (∀ s, s.inReset = false → s.ma.state ≠ .resetWait →
    ((∀ c, (s.chan c).pendingAbort ≠ .none → s.ready c = false) →
      (∀ pre h post e v, s.re.hold = pre ++ h :: post → s.applicable h = true → (∀ x ∈ pre, s.applicable x = false) →
        (s.chan h.channel).residence = .cached e → s.entry e = .valid v →
        exec .applyCell s = .next (State.settle (State.applyTo { s with
          re := { s.re with hold := pre ++ post }
          xc := { s.xc with entries := tset s.xc.entries e (.valid { v with newlyFilled := false })
                            recency := s.xc.recency.filter (· != e) ++ [e] } } h.channel h.cell) s)) ∧
      ((∀ x ∈ s.re.hold, s.applicable x = false) → exec .applyCell s = .next (s.settle s))) ∧
    ((∃ c, (s.chan c).pendingAbort ≠ .none ∧ s.ready c = true) → exec .applyCell s = .next (s.settle s))) ∧
  (∀ (s : State) c, s.ready c = true ↔ (s.chan c).binding = .bound ∧ (∃ e, (s.chan c).residence = .cached e) ∧
    (s.chan c).op = none ∧ (s.pool (s.chan c).pool).state = .active) ∧
  (∀ (s : State) h, s.applicable h = true ↔ s.ready h.channel = true ∧ (s.chan h.channel).pendingAbort = .none)

/-- A DATA cell of position MIDDLE or LAST, or ONLY with fill 0, applied in IDLE or DISCARDING is discarded and counted
in stray_cells; the state is not changed (R42). -/
def Obligations.StrayCellIsCounted : Prop :=
  ∀ s pre h post e v, s.inReset = false → s.ma.state ≠ .resetWait →
    (∀ c, (s.chan c).pendingAbort ≠ .none → s.ready c = false) →
    s.re.hold = pre ++ h :: post → s.applicable h = true → (∀ x ∈ pre, s.applicable x = false) →
    (s.chan h.channel).residence = .cached e → s.entry e = .valid v → v.channel = h.channel →
    (v.ctx.state = .idle ∨ v.ctx.state = .discarding) → h.cell.kind = .data →
    (h.cell.position = .middle ∨ h.cell.position = .last ∨ (h.cell.position = .only ∧ h.cell.fill = 0)) →
    exec .applyCell s = .next (State.settle { s with
      re := { s.re with hold := pre ++ post }
      xc := { s.xc with
        entries := tset s.xc.entries e (.valid { v with
          ctx := { v.ctx with strayCells := v.ctx.strayCells + 1 }, dirty := true, changed := true
          newlyFilled := false })
        recency := s.xc.recency.filter (· != e) ++ [e] } } s)

/-- A DATA cell that starts a message of a closed channel is refused if it is longer than max_body + 4, with last_code
TOOLONG and msgs_bad counted, and asks for a completion slot otherwise. A granted slot opens the message, sets its
deadline and asks for a buffer; the buffer given begins the context in ASSEMBLING, and the cell is written (R40). A
start that is refused a slot or a first buffer leaves its state DISCARDING and raises NOCOMPL or NOBUF_START; a refused
buffer gives the reservation back and closes the message (R41, R101). A response cell first closes an open message with
NOLAST; it then takes a slot and a buffer in the same way, whatever its length, with expected_seq left; a fill of 0 is
closed OK without a write, and a refused slot or buffer leaves the context as it is (R52). All this holds of a channel
in UNBINDING as well (R56). For one that is FAULTED by then a granted reservation is released and a given buffer lost,
and its cell is discarded into nochannel as the answer comes (R61), which is the model's reading (log entry 21). -/
def Obligations.StartOfAMessageOpensItOrDiscardsIt : Prop :=
  ((∀ (s : State) c cell x, s.context c = some x → x.state ≠ .assembling → cell.kind = .data →
      (cell.position = .first ∨ (cell.position = .only ∧ cell.fill ≠ 0)) → s.applyTo c cell = s.startCell c cell) ∧
    (∀ (s : State) c cell, cell.kind = .data →
      ((s.chan c).maxBody.toNat + 4 < cell.fill.toNat → s.startCell c cell = s.modContext c fun x =>
        { x with lastCode := 3, msgsBad := x.msgsBad + 1, state := .discarding }) ∧
      (cell.fill.toNat ≤ (s.chan c).maxBody.toNat + 4 → s.startCell c cell =
        (s.onPool (s.chan c).pool fun p => { p with requests := p.requests ++ [.reserve c] }).onChan c fun ch =>
          { ch with op := some (.reserve cell) })) ∧
    (∀ (s : State) c cell, (s.chan c).op = some (.reserve cell) → (s.chan c).InUse →
      s.reserveGranted c =
        (s.onPool (s.chan c).pool fun p => { p with requests := p.requests ++ [.take c] }).onChan c fun ch =>
          { ch with op := some (.take cell true), msgOpen := true
                    deadline := s.ma.nodeTime + ch.limit.setWidth 32 }) ∧
    (∀ (s : State) c cell cookie addr, (s.chan c).op = some (.take cell true) → (s.chan c).InUse →
      cell.kind = .data → cell.fill ≠ 0 →
      s.takeGiven c cookie addr = State.writeCell (s.modContext c fun x =>
        { x with buffers := [{ cookie, used := 0, addr }], bytesSoFar := 0, offset := 0, crc := 0xFFFFFFFF
                 state := .assembling, expectedSeq := cell.seq + 1 }) c cell)) ∧
  ((∀ (s : State) c cell, (s.chan c).op = some (.reserve cell) → (s.chan c).InUse → cell.kind = .data →
      s.reserveRefused c = ((s.raise .nocompl c.val (s.chan c).pool.val 0).modContext c fun x =>
        { x with state := .discarding }).onChan c fun ch => { ch with op := none }) ∧
    (∀ (s : State) c cell, (s.chan c).op = some (.take cell true) → (s.chan c).InUse → cell.kind = .data →
      (s.pool (s.chan c).pool).state = .active → (s.pool (s.chan c).pool).reserved ≠ 0 →
      s.takeNone c = (State.modContext (State.raise
        ((s.onPool (s.chan c).pool fun p => { p with reserved := p.reserved - 1 }).onChan c fun ch =>
          { ch with msgOpen := false }) .nobufStart c.val (s.chan c).pool.val 0) c fun x =>
        { x with state := .discarding }).onChan c fun ch => { ch with op := none })) ∧
  ((∀ (s : State) c cell x, s.context c = some x → cell.kind = .mgmtRsp →
      s.applyTo c cell = if (s.chan c).msgOpen then s.beginClose c .nolast (.resume cell) else s.startCell c cell) ∧
    (∀ (s : State) c cell, cell.kind = .mgmtRsp → s.startCell c cell =
      (s.onPool (s.chan c).pool fun p => { p with requests := p.requests ++ [.reserve c] }).onChan c fun ch =>
        { ch with op := some (.reserve cell) }) ∧
    (∀ (s : State) c cell cookie addr, (s.chan c).op = some (.take cell true) → (s.chan c).InUse →
      cell.kind = .mgmtRsp →
      let begun := s.modContext c fun x =>
        { x with buffers := [{ cookie, used := 0, addr }], bytesSoFar := 0, offset := 0, crc := 0xFFFFFFFF
                 state := .assembling }
      (cell.fill ≠ 0 → s.takeGiven c cookie addr = begun.writeCell c cell) ∧
      (cell.fill = 0 → s.takeGiven c cookie addr = begun.beginClose c .ok (.cell cell))) ∧
    (∀ (s : State) c cell, (s.chan c).op = some (.reserve cell) → (s.chan c).InUse →
      cell.kind = .mgmtRsp →
      s.reserveRefused c = (s.raise .nocompl c.val (s.chan c).pool.val 0).onChan c fun ch => { ch with op := none }) ∧
    (∀ (s : State) c cell, (s.chan c).op = some (.take cell true) → (s.chan c).InUse →
      cell.kind = .mgmtRsp → (s.pool (s.chan c).pool).state = .active → (s.pool (s.chan c).pool).reserved ≠ 0 →
      s.takeNone c = (State.raise
        ((s.onPool (s.chan c).pool fun p => { p with reserved := p.reserved - 1 }).onChan c fun ch =>
          { ch with msgOpen := false }) .nobufStart c.val (s.chan c).pool.val 0).onChan c fun ch =>
        { ch with op := none })) ∧
  (∀ (s : State) c cell first, ¬ (s.chan c).InUse →
    let undone : State → State := fun t => State.onChan
      { t with counters := { t.counters with nochannel := t.counters.nochannel + 1 } } c fun ch =>
      { ch with op := none }
    let released := s.onPool (s.chan c).pool fun p =>
      if p.state = .faulted ∨ p.reserved = 0 then p else { p with reserved := p.reserved - 1 }
    ((s.chan c).op = some (.reserve cell) →
      s.reserveGranted c = undone released ∧ s.reserveRefused c = undone s) ∧
    ((s.chan c).op = some (.take cell first) →
      (∀ cookie addr, s.takeGiven c cookie addr = undone s) ∧ s.takeNone c = undone s))

/-- In ASSEMBLING a DATA cell is tested in order: a new start closes with NOLAST and then starts, an abort cell closes
with PEERABORT, a wrong seq with SEQ, a stream beyond max_body + 4 with TOOLONG; a cell that does not fit takes a
further buffer, or closes with TOOLONG at the eighth; any other is written (R43 to R46). When no further buffer is
left, the take is answered with none and the message closes with NOBUF (R46). -/
def Obligations.CellOfAnOpenMessageIsTestedInOrder : Prop :=
  (∀ (s : State) c cell x, s.context c = some x → x.state = .assembling → cell.kind = .data →
    let start := cell.position = .first ∨ (cell.position = .only ∧ cell.fill ≠ 0)
    let more := cell.position = .middle ∨ cell.position = .last
    let abort := cell.position = .last ∧ cell.fill = 0
    let long := (s.chan c).maxBody.toNat + 4 < x.bytesSoFar.toNat + cell.fill.toNat
    let full := (s.pool (s.chan c).pool).bufSize - x.offset.toNat < cell.fill.toNat
    (start → s.applyTo c cell = s.beginClose c .nolast (.resume cell)) ∧
    (cell.position = .only → cell.fill = 0 → s.applyTo c cell = s.beginClose c .peerabort (.cell cell)) ∧
    (more → cell.seq ≠ x.expectedSeq → s.applyTo c cell = s.beginClose c .seq (.cell cell)) ∧
    (more → cell.seq = x.expectedSeq → abort → s.applyTo c cell = s.beginClose c .peerabort (.cell cell)) ∧
    (more → cell.seq = x.expectedSeq → ¬ abort → (long ∨ (full ∧ x.buffers.length = 8)) →
      s.applyTo c cell = s.beginClose c .toolong (.cell cell)) ∧
    (more → cell.seq = x.expectedSeq → ¬ abort → ¬ long → full → x.buffers.length ≠ 8 → s.applyTo c cell =
      (s.onPool (s.chan c).pool fun p => { p with requests := p.requests ++ [.take c] }).onChan c fun ch =>
        { ch with op := some (.take cell false) }) ∧
    (more → cell.seq = x.expectedSeq → ¬ abort → ¬ long → ¬ full → s.applyTo c cell = s.writeCell c cell)) ∧
  (∀ (s : State) c cell, (s.chan c).op = some (.take cell false) → (s.chan c).InUse →
    s.takeNone c = s.beginClose c .nobuf (.cell cell))

/-- A cell's fill bytes are written at the offset in the last buffer as one request, and the context counts them: used
length, bytes_so_far, offset, the running CRC and cells_accepted, and expected_seq for a DATA cell of position MIDDLE
or LAST (R48). A response cell is written in the same way with expected_seq left (R52). A cell that needed a further
buffer fills the last buffer up to its end with what fits and puts the rest at the start of the new one, as two
requests; a last buffer that was exactly full takes no byte, and the write is one request (R46, R47, R148). The first
half that is answered waits for the other (R148). That an exactly full last buffer has no request of its own is the
model's reading (log entry 28), and so is that an address rebuilt from an altered image goes out as it is, modulo 2^32,
whatever lies beyond the top (log entry 50), and that the old buffer's used length grows by the bytes it takes, also
where an altered image had it differ from the offset (R47, R48, log entry 52). -/
def Obligations.CellIsWrittenInTheLastBuffer : Prop :=
  (∀ (s : State) c (cell : Cell) e v bs b, (s.chan c).residence = .cached e → s.entry e = .valid v → v.channel = c →
    v.ctx.buffers = bs ++ [b] → (cell.kind = .data ∨ cell.kind = .mgmtRsp) → cell.valid ≠ [] →
    let n := cell.valid.length
    s.writeCell c cell = State.onChan (State.requestWrite (s.setEntry e (.valid { v with
      dirty := true, changed := true
      ctx := { v.ctx with
        buffers := bs ++ [{ b with used := b.used + BitVec.ofNat 16 n }]
        bytesSoFar := v.ctx.bytesSoFar + BitVec.ofNat 32 n
        offset := BitVec.ofNat 16 (v.ctx.offset.toNat + n)
        crc := crc32 v.ctx.crc cell.valid
        cellsAccepted := v.ctx.cellsAccepted + 1
        expectedSeq := if cell.kind = .data ∧ (cell.position = .middle ∨ cell.position = .last) then
          v.ctx.expectedSeq + 1 else v.ctx.expectedSeq } }))
      .dlv (b.addr + BitVec.ofNat 32 v.ctx.offset.toNat) cell.valid (.payload c false)) c fun ch =>
        { ch with op := some (.write cell none (some .ok)) }) ∧
  (∀ (s : State) c (cell : Cell) e v bs b cookie addr, (s.chan c).residence = .cached e → s.entry e = .valid v →
    v.channel = c → v.ctx.buffers = bs ++ [b] → cell.kind = .data → (cell.position = .middle ∨ cell.position = .last) →
    (s.chan c).op = some (.take cell false) → (s.chan c).InUse →
    let n := (s.pool (s.chan c).pool).bufSize - v.ctx.offset.toNat
    n < cell.valid.length →
    let rest := cell.valid.length - n
    let t := s.setEntry e (.valid { v with
      dirty := true, changed := true
      ctx := { v.ctx with
        buffers := bs ++ [{ b with used := b.used + BitVec.ofNat 16 n },
          { cookie, used := BitVec.ofNat 16 rest, addr }]
        bytesSoFar := v.ctx.bytesSoFar + BitVec.ofNat 32 cell.valid.length
        offset := BitVec.ofNat 16 rest
        crc := crc32 v.ctx.crc cell.valid
        cellsAccepted := v.ctx.cellsAccepted + 1
        expectedSeq := v.ctx.expectedSeq + 1 } })
    (n = 0 → s.takeGiven c cookie addr = (t.requestWrite .dlv addr cell.valid (.payload c false)).onChan c fun ch =>
      { ch with op := some (.write cell none (some .ok)) }) ∧
    (n ≠ 0 → s.takeGiven c cookie addr = ((t.requestWrite .dlv (b.addr + BitVec.ofNat 32 v.ctx.offset.toNat)
      (cell.valid.take n) (.payload c false)).requestWrite .dlv addr (cell.valid.drop n) (.payload c true)).onChan c
        fun ch => { ch with op := some (.write cell none none) })) ∧
  (∀ (s : State) c cell a, (s.chan c).op = some (.write cell none none) →
    s.payloadAnswered c false a = s.onChan c (fun ch => { ch with op := some (.write cell (some a) none) }) ∧
    s.payloadAnswered c true a = s.onChan c (fun ch => { ch with op := some (.write cell none (some a)) }))

/-- A write answered OK, both halves of a split one, leaves a message open after FIRST or MIDDLE, and closes it after
LAST or ONLY with RUNT, CRC or OK by the stream's length and residue, and after a response cell with OK; a write of
which a half failed closes it with MEMERR (R48, R49, R52, R148). A write outstanding when the pool faulted is ignored,
and the message state is then dropped (R59). All this holds of a channel in UNBINDING as well (R56). The write of a
channel that is FAULTED by then is ignored and its cell discarded into nochannel (R61), as the answer comes: the
model's reading (log entry 21). -/
def Obligations.AnsweredWriteGoesOnOrFinishes : Prop :=
  (∀ (s : State) c cell x second other,
    (s.chan c).op = some (if second then .write cell (some other) none else .write cell none (some other)) →
    (s.chan c).InUse → s.context c = some x →
    let last := cell.position = .last ∨ cell.position = .only
    ((s.chan c).poolReset = false → other = .ok → cell.kind = .data →
      (¬ last → s.payloadAnswered c second .ok = s.onChan c fun ch => { ch with op := none }) ∧
      (last → x.bytesSoFar.toNat < 4 → s.payloadAnswered c second .ok = s.beginClose c .runt (.cell cell)) ∧
      (last → 4 ≤ x.bytesSoFar.toNat → x.crc ≠ 0xC704DD7B →
        s.payloadAnswered c second .ok = s.beginClose c .crc (.cell cell)) ∧
      (last → 4 ≤ x.bytesSoFar.toNat → x.crc = 0xC704DD7B →
        s.payloadAnswered c second .ok = s.beginClose c .ok (.cell cell))) ∧
    ((s.chan c).poolReset = false → other = .ok → cell.kind = .mgmtRsp →
      s.payloadAnswered c second .ok = s.beginClose c .ok (.cell cell)) ∧
    (∀ a, (s.chan c).poolReset = false → (a ≠ .ok ∨ other ≠ .ok) →
      s.payloadAnswered c second a = s.beginClose c .memerr (.cell cell)) ∧
    (∀ a e v, (s.chan c).poolReset = true → (s.chan c).residence = .cached e → s.entry e = .valid v →
      s.payloadAnswered c second a = (s.onChan c fun ch => { ch with op := none, poolReset := false }).setEntry e
        (.valid { v with
          dirty := true, changed := true
          ctx := { v.ctx with state := .idle, buffers := [], bytesSoFar := 0, offset := 0, crc := 0xFFFFFFFF } }))) ∧
  (∀ (s : State) c cell second other a,
    (s.chan c).op = some (if second then .write cell (some other) none else .write cell none (some other)) →
    ¬ (s.chan c).InUse → s.payloadAnswered c second a = State.onChan
      { s with counters := { s.counters with nochannel := s.counters.nochannel + 1 } } c fun ch =>
      { ch with op := none })

/-- Over a body followed by its four check bytes the CRC-32 register holds the residue that the receiver expects, and
with any other four bytes in their place it does not, so the test of R49 passes the streams with a correct check and no
other (R4, R49). -/
def Obligations.CheckBytesLeaveTheResidue : Prop :=
  ∀ body check : List Byte, check.length = 4 →
    (crc32 crcPreset (body ++ check) = crcResidue ↔ check = trailer (crc32 crcPreset body))

/-- A close asks the Delivery Unit to write the completion record of the message: status, channel, buffer count, length
(of the body without its check bytes when OK; of a response cell its fill), cells (1 for a response cell of fill 0),
tick stamp and buffer entries (R50, R52, R97). Once it is written the message is closed: last_code, one of the two
message counters, an empty buffer list, and DISCARDING after SEQ or TOOLONG or IDLE after any other status (R50). A
pending abort that caused it becomes none, and a cell whose start caused it is then started (R38, R43, R50). All this
holds of a channel in UNBINDING as well (R56). The close of a channel that is FAULTED by then is undone, with its cell
discarded into nochannel (R61), as the answer comes: the model's reading (log entries 10, 21); that the cells field
keeps the low 16 bits of a count beyond 65,535 is its choice (log entry 53). -/
def Obligations.CloseWritesACompletionAndEmptiesTheContext : Prop :=
  (∀ (s : State) c x status cause, s.context c = some x →
    let record : Nat → Nat → List Byte := fun length cells =>
      [0, BitVec.ofNat 8 status.code, BitVec.ofNat 8 c.val, BitVec.ofNat 8 x.buffers.length]
        ++ be32 (BitVec.ofNat 32 length) ++ be16 (BitVec.ofNat 16 cells)
        ++ [0, 0] ++ be32 s.ma.nodeTime ++ bufferEntries x.buffers
    let asked : Nat → Nat → State := fun length cells => (s.onPool (s.chan c).pool fun p => { p with
      requests := p.requests ++ [.complete c (record length cells)] }).onChan c fun ch =>
        { ch with op := some (.close status cause) }
    let cells := (x.bytesSoFar.toNat + 39) / 40
    ((∀ cell, cause = .cell cell → cell.kind ≠ .mgmtRsp) → s.beginClose c status cause =
      asked (if status = .ok then x.bytesSoFar.toNat - 4 else x.bytesSoFar.toNat) cells) ∧
    (∀ cell, cause = .cell cell → cell.kind = .mgmtRsp → s.beginClose c status cause =
      asked cell.fill.toNat (if cell.fill = 0 then 1 else cells))) ∧
  (∀ (s : State) c status cause, (s.chan c).op = some (.close status cause) → (s.chan c).InUse →
    let t := (s.onChan c fun ch => { ch with msgOpen := false, op := none }).modContext c fun x =>
      { x with
        lastCode := BitVec.ofNat 16 status.code
        msgsOk := if status = .ok then x.msgsOk + 1 else x.msgsOk
        msgsBad := if status = .ok then x.msgsBad else x.msgsBad + 1
        buffers := [], bytesSoFar := 0, offset := 0
        state := if status = .seq ∨ status = .toolong then .discarding else .idle }
    ((∃ cell, cause = .cell cell) ∨ cause = .owner → s.closeFinished c = t) ∧
    (cause = .abort → s.closeFinished c = t.onChan c fun ch => { ch with pendingAbort := .none }) ∧
    (∀ cell, cause = .resume cell → s.closeFinished c = t.startCell c cell)) ∧
  (∀ (s : State) c status cause, (s.chan c).op = some (.close status cause) → ¬ (s.chan c).InUse →
    let carried : Word := match cause with
      | .cell _ => 1
      | .resume _ => 1
      | .abort => 0
      | .owner => 0
    s.closeFinished c = State.onChan
      { s with counters := { s.counters with nochannel := s.counters.nochannel + carried } } c fun ch =>
      { ch with op := none })

/-- A ready channel's pending abort closes its open message, a TIMEOUT only while the deadline stands reached, and
becomes none at once when there is nothing to close (R38). -/
def Obligations.PendingAbortIsApplied : Prop :=
  ∀ s c e v, s.inReset = false → s.ma.state ≠ .resetWait → s.ready c = true → (s.chan c).residence = .cached e →
    s.entry e = .valid v →
    let t : State := { s with xc := { s.xc with
      entries := tset s.xc.entries e (.valid { v with newlyFilled := false })
      recency := s.xc.recency.filter (· != e) ++ [e] } }
    let cleared := t.onChan c fun ch => { ch with pendingAbort := .none }
    let due := (s.chan c).msgOpen = true ∧ (s.chan c).limit ≠ 0 ∧ (s.ma.nodeTime - (s.chan c).deadline).msb = false
    ((s.chan c).pendingAbort = .holdfull → exec (.applyPendingAbort c) s = .next (State.settle
      (if (s.chan c).msgOpen then t.beginClose c .holdfull .abort else cleared) s)) ∧
    ((s.chan c).pendingAbort = .timeout → due →
      exec (.applyPendingAbort c) s = .next (State.settle (t.beginClose c .timeout .abort) s)) ∧
    ((s.chan c).pendingAbort = .timeout → ¬ due →
      exec (.applyPendingAbort c) s = .next (State.settle cleared s))

/-- Once in a tick, while the node is RUNNING, the scanner examines a channel: an expired BOUND channel that is ready
is closed with TIMEOUT, and one that is not gets the pending abort TIMEOUT unless one is due already, with a fetch
request if it is STORED, an abort due already or not (R53). That a channel is examined at a command of its own, once
while scanOpen stands, is the model's choice (log entry 9), and so is that this close leaves the recency order alone
(log entry 18). -/
def Obligations.ExpiredMessageTimesOut : Prop :=
  ∀ s c, s.inReset = false → s.ma.state ≠ .resetWait → s.ma.nodeState = .running → s.re.scanOpen = true →
    c ∉ s.re.scanned →
    let t : State := { s with re := { s.re with scanned := c :: s.re.scanned } }
    let due := (s.chan c).binding = .bound ∧ (s.chan c).msgOpen = true ∧ (s.chan c).limit ≠ 0 ∧
      (s.ma.nodeTime - (s.chan c).deadline).msb = false
    (¬ due → exec (.deadlineReached c) s = .next (t.settle s)) ∧
    (due → s.ready c = true → (s.chan c).pendingAbort = .none →
      exec (.deadlineReached c) s = .next (State.settle (t.beginClose c .timeout .owner) s)) ∧
    (due → s.ready c = false → (s.chan c).pendingAbort = .none → (s.chan c).residence ≠ .stored →
      exec (.deadlineReached c) s = .next (State.settle (t.onChan c fun ch => { ch with pendingAbort := .timeout }) s)) ∧
    (due → s.ready c = false → (s.chan c).pendingAbort = .none → (s.chan c).residence = .stored →
      exec (.deadlineReached c) s = .next (State.settle
        ((t.onChan c fun ch => { ch with pendingAbort := .timeout }).fetchRequest c) s)) ∧
    (due → (s.chan c).pendingAbort ≠ .none → (s.chan c).residence ≠ .stored →
      exec (.deadlineReached c) s = .next (t.settle s)) ∧
    (due → (s.chan c).pendingAbort ≠ .none → (s.chan c).residence = .stored →
      exec (.deadlineReached c) s = .next (State.settle (t.fetchRequest c) s))

/-- The work of an unbind: an open message is closed with UNBOUND from the cached context, with a fetch request if it
is STORED (R56); after that a clean entry is FREE at once and the channel STORED, and a dirty one is written back
(R80). An unbind whose work is over makes the binding UNBOUND with poolreset and fresh no, and UNBIND_CHANNEL completes
OK, or is given no response and leaves the agent as it is where it was abandoned (R165); with the context not yet
STORED, CHANNEL_UNBOUND adds nothing to the step (R56, R57). -/
def Obligations.FinishedUnbindMakesTheChannelUnbound : Prop :=
  (∀ s c, s.inReset = false → s.ma.state ≠ .resetWait →
    (s.chan c).binding = .unbinding → (s.chan c).msgOpen = false → (s.chan c).op = none →
    let unbound := State.onChan { s with xc := { s.xc with waitList := s.xc.waitList.filter (· != c) } } c fun ch =>
      { ch with binding := .unbound, fresh := false, poolReset := false }
    (∀ cmd, (s.chan c).residence = .stored → s.ma.state = .working cmd true → cmd.code = 0x31 →
      exec (.channelUnbound c) s = .next (State.settle (unbound.answering cmd 0 []) s)) ∧
    ((s.chan c).residence = .stored → (∀ cmd, s.ma.state = .working cmd true → cmd.code ≠ 0x31) →
      exec (.channelUnbound c) s = .next (unbound.settle s)) ∧
    ((s.chan c).residence ≠ .stored → exec (.channelUnbound c) s = .next (s.settle s))) ∧
  (∀ (s : State) c, (s.chan c).binding = .unbinding → (s.chan c).op = none →
    ((s.chan c).msgOpen = true →
      ((s.chan c).residence = .stored → s.owedWork c = s.fetchRequest c) ∧
      (∀ e v, (s.chan c).residence = .cached e → s.entry e = .valid v →
        ((s.pool (s.chan c).pool).state = .active → s.owedWork c = State.beginClose { s with xc := { s.xc with
          entries := tset s.xc.entries e (.valid { v with newlyFilled := false })
          recency := s.xc.recency.filter (· != e) ++ [e] } } c .unbound .owner) ∧
        ((s.pool (s.chan c).pool).state ≠ .active → s.owedWork c = s))) ∧
    ((s.chan c).msgOpen = false → ∀ e v, (s.chan c).residence = .cached e → s.entry e = .valid v → v.channel = c →
      let left : CacheEntry → Residence → State := fun x r => State.onChan { s with xc := { s.xc with
        entries := tset s.xc.entries e x, recency := s.xc.recency.filter (· != e) } } c fun ch =>
        { ch with residence := r }
      (v.dirty = false → s.owedWork c = left .free .stored) ∧
      (v.dirty = true → s.owedWork c = (left (.writing c none false) .writeback).requestWrite .ctx
        (s.xc.storeBase + BitVec.ofNat 32 (128 * c.val)) v.ctx.image (.writeBack e c))))

/-! ## The Delivery Unit -/

/-- RESERVE: with a known free slot that is not reserved the reserve is granted, with every slot known free it is
refused, and otherwise the owner byte of the slot known_free places after write_pos is read, whose value 1 grants it
with one slot more known free (R100). A FAULTED pool answers with the pool fault (R106), and an UNCONFIGURED one
likewise, which is the model's choice (log entry 33). -/
def Obligations.ReserveCountsCompletionSlots : Prop :=
  ∀ (s : State) p c rest, s.inReset = false → s.ma.state ≠ .resetWait → (s.pool p).access = none →
    (s.pool p).requests = .reserve c :: rest →
    let x := s.pool p
    let t := s.onPool p fun x => { x with requests := rest }
    (x.state = .active → x.reserved < x.knownFree → exec (.reserve p) s = .next (State.settle
      ((t.onPool p fun x => { x with reserved := x.reserved + 1 }).reserveGranted c) s)) ∧
    (x.state = .active → x.knownFree ≤ x.reserved → x.knownFree = x.complSize → exec (.reserve p) s = .next
      (State.settle (t.reserveRefused c) s)) ∧
    (x.state = .active → x.knownFree ≤ x.reserved → x.knownFree ≠ x.complSize → exec (.reserve p) s = .next
      (State.settle ((t.onPool p fun x => { x with access := some (.ownerRead c) }).requestRead .dlv
        (x.complBase + BitVec.ofNat 32 (64 * ((x.writePos + x.knownFree) % x.complSize))) 1 (.pool p)) s)) ∧
    (x.state ≠ .active → exec (.reserve p) s = .next (State.settle (t.poolFaultAnswered c) s)) ∧
    (∀ (u : State) bytes, u.ma.state ≠ .resetWait → (u.pool p).access = some (.ownerRead c) → byteAt bytes 0 = 1 →
      u.give (.pool p) .ok bytes = (u.onPool p fun x =>
        { x with access := none, knownFree := x.knownFree + 1, reserved := x.reserved + 1 }).reserveGranted c) ∧
    (∀ (u : State) bytes, u.ma.state ≠ .resetWait → (u.pool p).access = some (.ownerRead c) → byteAt bytes 0 ≠ 1 →
      u.give (.pool p) .ok bytes = (u.onPool p fun x => { x with access := none }).reserveRefused c)

/-- TAKE reads bytes 0 to 11 of the free descriptor at free_pos. A HOST-owned descriptor gives none; a DEVICE-owned one
with a buffer of its size, 64-aligned, is written back taken, and the write moves free_pos on and gives the buffer; a
bad address is written back rejected (R93, R94, R96). Its write answered OK moves free_pos on and raises FREE_REJECTED
with the detail and the old position; the next descriptor is then examined, or none is given once as many as the ring
holds have been (R94, R95). FREE_REJECTED comes before what the end of the take raises, which is the model's choice
(log entry 43). A FAULTED pool answers with the pool fault (R106), and an UNCONFIGURED one likewise (log entry 33). -/
def Obligations.TakeReadsTheFreeDescriptor : Prop :=
  (∀ (s : State) p c rest, s.inReset = false → s.ma.state ≠ .resetWait → (s.pool p).access = none →
    (s.pool p).requests = .take c :: rest →
    ((s.pool p).state = .active → exec (.take p) s = .next (State.settle ((s.onPool p fun x =>
      { x with requests := rest, access := some (.freeRead c 0) }).requestRead .dlv
      ((s.pool p).freeBase + BitVec.ofNat 32 (16 * (s.pool p).freePos)) 12 (.pool p)) s)) ∧
    ((s.pool p).state ≠ .active → exec (.take p) s = .next (State.settle
      ((s.onPool p fun x => { x with requests := rest }).poolFaultAnswered c) s))) ∧
  (∀ (s : State) p c n bytes, s.ma.state ≠ .resetWait → (s.pool p).access = some (.freeRead c n) →
    let x := s.pool p
    let addr := wordAt bytes 4
    let written : Byte → DuAccess → State := fun status a =>
      (s.onPool p fun x => { x with access := some a }).requestWrite .dlv
        (x.freeBase + BitVec.ofNat 32 (16 * x.freePos)) [0, status] (.pool p)
    (byteAt bytes 0 ≠ 1 → s.give (.pool p) .ok bytes = (s.onPool p fun x => { x with access := none }).takeNone c) ∧
    (byteAt bytes 0 = 1 → addr.toNat % 64 ≠ 0 → s.give (.pool p) .ok bytes = written 1 (.freeRejected c (n + 1) 1)) ∧
    (byteAt bytes 0 = 1 → addr.toNat % 64 = 0 → 0x100000000 < addr.toNat + x.bufSize →
      s.give (.pool p) .ok bytes = written 1 (.freeRejected c (n + 1) 2)) ∧
    (byteAt bytes 0 = 1 → addr.toNat % 64 = 0 → addr.toNat + x.bufSize ≤ 0x100000000 →
      s.give (.pool p) .ok bytes = written 0 (.freeTaken c (wordAt bytes 8) addr))) ∧
  (∀ (s : State) p c cookie addr, s.ma.state ≠ .resetWait → (s.pool p).access = some (.freeTaken c cookie addr) →
    s.give (.pool p) .ok [] = (s.onPool p fun x =>
      { x with access := none, freePos := (x.freePos + 1) % x.freeSize }).takeGiven c cookie addr) ∧
  (∀ (s : State) p c n detail, s.ma.state ≠ .resetWait → (s.pool p).access = some (.freeRejected c n detail) →
    let x := s.pool p
    let next := (x.freePos + 1) % x.freeSize
    let raised : Option DuAccess → State := fun a => State.raise
      (s.onPool p fun x => { x with access := a, freePos := next }) .freeRejected p.val detail
      (BitVec.ofNat 32 x.freePos)
    (n < x.freeSize → s.give (.pool p) .ok [] = (raised (some (.freeRead c n))).requestRead .dlv
      (x.freeBase + BitVec.ofNat 32 (16 * next)) 12 (.pool p)) ∧
    (x.freeSize ≤ n → s.give (.pool p) .ok [] = (raised none).takeNone c))

/-- COMPLETION_WRITE writes the record at write_pos. The write answered OK moves write_pos on, uses up a known free
slot and its reservation, asserts LINT if the pool notifies, and closes the message (R102, R104). A FAULTED pool
answers the request with the pool fault (R106), and an UNCONFIGURED one likewise, which is the model's choice (log
entry 33). Of a channel that is FAULTED by then, a request not yet taken is undone without a write, with its cell
discarded into nochannel, and a record in flight still uses up its slot, while its reservation is released already
(R61, R99): the model's readings (log entries 10, 21). -/
def Obligations.CompletionIsWrittenAtWritePos : Prop :=
  (∀ (s : State) p c record rest, s.inReset = false → s.ma.state ≠ .resetWait → (s.pool p).access = none →
    (s.pool p).requests = .complete c record :: rest →
    let t := s.onPool p fun x => { x with requests := rest }
    ((s.pool p).state = .active → (s.chan c).InUse → exec (.completionWrite p) s = .next (State.settle
      ((t.onPool p fun x => { x with access := some (.recordWrite c) }).requestWrite .dlv
        ((s.pool p).complBase + BitVec.ofNat 32 (64 * (s.pool p).writePos)) record (.pool p)) s)) ∧
    ((s.pool p).state ≠ .active → exec (.completionWrite p) s = .next (State.settle (t.poolFaultAnswered c) s)) ∧
    (∀ status cause, (s.pool p).state = .active → ¬ (s.chan c).InUse → (s.chan c).op = some (.close status cause) →
      let carried : Word := match cause with
        | .cell _ => 1
        | .resume _ => 1
        | .abort => 0
        | .owner => 0
      exec (.completionWrite p) s = .next (State.settle (State.onChan
        { t with counters := { s.counters with nochannel := s.counters.nochannel + carried } } c fun ch =>
        { ch with op := none }) s))) ∧
  (∀ (s : State) p c, s.ma.state ≠ .resetWait → (s.pool p).access = some (.recordWrite c) →
    let written : Nat → State := fun reserved => State.closeFinished (State.onPool
      { s with ew := { s.ew with lint := s.ew.lint || (s.pool p).notify } } p fun x =>
      { x with access := none, writePos := (x.writePos + 1) % x.complSize, knownFree := x.knownFree - 1
               reserved := reserved }) c
    ((s.chan c).InUse → s.give (.pool p) .ok [] = written ((s.pool p).reserved - 1)) ∧
    (¬ (s.chan c).InUse →
      s.give (.pool p) .ok [] = written (min (s.pool p).reserved ((s.pool p).knownFree - 1))))

/-- A failed access of a pool makes it FAULTED with its positions and counts 0: POOL_FAULT is raised with the access
that failed, and its waiting requests are answered with the fault in their order (R105, R106), in this very step, which
is the model's choice (log entry 36). Every channel that uses the pool has no open message and no pending abort from
then on, and its held cells are gone into pool_discards; its message state is dropped at once where its context is
cached with nothing outstanding, and poolreset is yes otherwise (R59). A request answered with the fault leaves nothing
outstanding, its cell is discarded into pool_discards, or into nochannel for a channel FAULTED by then, and the drop is
made if it is due (R51, R59, R61). -/
def Obligations.FailedPoolAccessFaultsThePool : Prop :=
  (∀ (s : State) p c a bytes detail, s.ma.state ≠ .resetWait → a ≠ .ok →
    ((∃ n, (s.pool p).access = some (.freeRead c n) ∧ detail = 1) ∨
      (∃ k addr, (s.pool p).access = some (.freeTaken c k addr) ∧ detail = 2) ∨
      (∃ n d, (s.pool p).access = some (.freeRejected c n d) ∧ detail = 2) ∨
      ((s.pool p).access = some (.ownerRead c) ∧ detail = 3) ∨
      ((s.pool p).access = some (.recordWrite c) ∧ detail = 4)) →
    s.give (.pool p) a bytes =
      (s.pool p).requests.foldl (fun t r => t.poolFaultAnswered r.channel)
        (State.poolFaultAnswered (State.raise (State.poolFaultChannels (s.onPool p fun x => { x with
          state := .faulted, freePos := 0, writePos := 0, knownFree := 0, reserved := 0, requests := []
          access := none }) p) .poolFault p.val detail (if a = .timeout then 1 else 0)) c)) ∧
  (∀ (s : State) p,
    let t := s.poolFaultChannels p
    let hit : Chan → Bool := fun c =>
      ((s.chan c).binding == .bound || (s.chan c).binding == .unbinding) && (s.chan c).pool == p
    let now : Chan → Prop := fun c => (s.chan c).op = none ∧ ∃ e, (s.chan c).residence = .cached e
    t.re.hold = s.re.hold.filter (fun h => !hit h.channel) ∧
    t.counters = { s.counters with poolDiscards :=
      s.counters.poolDiscards + BitVec.ofNat 32 (s.re.hold.countP fun h => hit h.channel) } ∧
    (∀ c, hit c = true → ¬ now c →
      t.chan c = { s.chan c with msgOpen := false, pendingAbort := .none, poolReset := true }) ∧
    (∀ c, hit c = true → now c →
      t.chan c = { s.chan c with msgOpen := false, pendingAbort := .none, poolReset := false }) ∧
    (∀ c e v, hit c = true → (s.chan c).op = none → (s.chan c).residence = .cached e → s.entry e = .valid v →
      t.entry e = .valid { v with
        dirty := true, changed := true
        ctx := { v.ctx with state := .idle, buffers := [], bytesSoFar := 0, offset := 0, crc := 0xFFFFFFFF } }) ∧
    (∀ c, hit c = false → (s.chan c).poolReset = false → t.chan c = s.chan c)) ∧
  (∀ (s : State) c op, (s.chan c).op = some op →
    let carried : Word := match op with
      | .reserve _ => 1
      | .take _ _ => 1
      | .write _ _ _ => 1
      | .close _ (.cell _) => 1
      | .close _ (.resume _) => 1
      | .close _ .abort => 0
      | .close _ .owner => 0
    let discarded := { s with counters := { s.counters with poolDiscards := s.counters.poolDiscards + carried } }
    let uses := (s.chan c).binding = .bound ∨ (s.chan c).binding = .unbinding
    (uses → ((s.chan c).poolReset = false ∨ ∀ e, (s.chan c).residence ≠ .cached e) →
      s.poolFaultAnswered c = discarded.onChan c fun ch => { ch with op := none }) ∧
    (∀ e v, uses → (s.chan c).poolReset = true → (s.chan c).residence = .cached e → s.entry e = .valid v →
      s.poolFaultAnswered c = (discarded.onChan c fun ch => { ch with op := none, poolReset := false }).setEntry e
        (.valid { v with
          dirty := true, changed := true
          ctx := { v.ctx with state := .idle, buffers := [], bytesSoFar := 0, offset := 0, crc := 0xFFFFFFFF } })) ∧
    (¬ uses → s.poolFaultAnswered c = State.onChan
      { s with counters := { s.counters with nochannel := s.counters.nochannel + carried } } c fun ch =>
      { ch with op := none }))

/-! ## The Context Cache -/

/-- The entry chosen for a fetch is the lowest FREE entry; with none, the least recently used eligible entry whose
channel has no held cell; with none, the least recently used eligible entry. A VALID entry is eligible when its channel
is not waiting, no synchronising write of it is in flight and it is not newly filled (R67). -/
def Obligations.VictimIsChosenInOrder : Prop :=
  (∀ (s : State) e, s.chooseEntry = some e ↔
    (s.entry e = .free ∧ ∀ j, j < e → s.entry j ≠ .free) ∨
    ((∀ j, s.entry j ≠ .free) ∧ ∃ pre post, s.xc.recency = pre ++ e :: post ∧ s.eligible e = true ∧
      s.unheldEntry e = true ∧ ∀ j ∈ pre, ¬ (s.eligible j = true ∧ s.unheldEntry j = true)) ∨
    ((∀ j, s.entry j ≠ .free) ∧ (∀ j ∈ s.xc.recency, ¬ (s.eligible j = true ∧ s.unheldEntry j = true)) ∧
      ∃ pre post, s.xc.recency = pre ++ e :: post ∧ s.eligible e = true ∧ ∀ j ∈ pre, s.eligible j = false)) ∧
  (∀ (s : State) e,
    (s.eligible e = true ↔ ∃ v, s.entry e = .valid v ∧ (s.chan v.channel).op = none ∧ v.syncing = false ∧
      v.newlyFilled = false) ∧
    (s.unheldEntry e = true ↔ ∃ v, s.entry e = .valid v ∧ ∀ h ∈ s.re.hold, h.channel ≠ v.channel))

/-- A fetch request is taken by the channel's residence: nothing for a channel on its way or on chip, a note during its
write-back, its one place on the Fetch Wait List, the tail of a list that holds others, or else an entry (R66, R72).
The chosen entry is used by its state: a FREE entry is filled from the channel's image, or built fresh; a clean victim
gives its entry up; a dirty victim is written first, with the channel as claimant (R68 to R70). The list is served from
its head when an entry has become FREE or eligible: as long as one can be chosen, the head is given it, or is passed
over if it no longer needs its context; when none can be chosen the head keeps its place (R73). -/
def Obligations.ChosenEntryIsUsedByItsState : Prop :=
  (∀ (s : State) e c,
    let fetching := s.onChan c fun ch => { ch with residence := .fetching }
    let filled : State → State := fun t => (t.setEntry e (.filling c)).requestRead .ctx
      (s.xc.storeBase + BitVec.ofNat 32 (128 * c.val)) 112 (.fill e c)
    let evicted : Chan → State := fun d => State.onChan
      { fetching with xc := { s.xc with entries := tset s.xc.entries e .free
                                        recency := s.xc.recency.filter (· != e) } } d fun ch =>
      { ch with residence := .stored }
    (s.entry e = .free → (s.chan c).fresh = false → s.useEntry e c = filled fetching) ∧
    (s.entry e = .free → (s.chan c).fresh = true → s.useEntry e c = fetching.installFresh e c) ∧
    (∀ v, s.entry e = .valid v → v.dirty = false → v.channel ≠ c →
      ((s.chan c).fresh = false → s.useEntry e c = filled (evicted v.channel)) ∧
      ((s.chan c).fresh = true → s.useEntry e c = (evicted v.channel).installFresh e c)) ∧
    (∀ v, s.entry e = .valid v → v.dirty = true → v.channel ≠ c → s.useEntry e c =
      (State.onChan { fetching with xc := { s.xc with
          entries := tset s.xc.entries e (.writing v.channel (some c) false)
          recency := s.xc.recency.filter (· != e) } } v.channel fun ch =>
        { ch with residence := .writeback }).requestWrite .ctx
        (s.xc.storeBase + BitVec.ofNat 32 (128 * v.channel.val)) v.ctx.image (.writeBack e v.channel))) ∧
  (∀ (s : State) c,
    let uses := (s.chan c).binding = .bound ∨ (s.chan c).binding = .unbinding
    let r := (s.chan c).residence
    let joined := { s with xc := { s.xc with waitList := s.xc.waitList ++ [c] } }
    (¬ uses ∨ r = .fetching ∨ (∃ e, r = .cached e) ∨ (r = .stored ∧ c ∈ s.xc.waitList) → s.fetchRequest c = s) ∧
    (uses → r = .writeback → s.fetchRequest c = { s with xc := { s.xc with
      entries := s.xc.entries.map fun x => match x with
        | .writing d claimant note => .writing d claimant (note || d == c)
        | .free => .free
        | .filling d => .filling d
        | .valid v => .valid v } }) ∧
    (uses → r = .stored → c ∉ s.xc.waitList → s.xc.waitList ≠ [] → s.fetchRequest c = joined) ∧
    (uses → r = .stored → s.xc.waitList = [] →
      (∀ e, s.chooseEntry = some e → s.fetchRequest c = s.useEntry e c) ∧
      (s.chooseEntry = none → s.fetchRequest c = joined))) ∧
  (∀ (s : State) n,
    (s.xc.waitList = [] → s.serveWaitList n = s) ∧
    (∀ c rest, s.xc.waitList = c :: rest →
      let popped := { s with xc := { s.xc with waitList := rest } }
      let needs := ((s.chan c).binding = .bound ∨ (s.chan c).binding = .unbinding) ∧
        ((∃ h ∈ s.re.hold, h.channel = c) ∨ (s.chan c).pendingAbort ≠ .none ∨ (s.chan c).msgOpen = true ∨
          ∃ r, s.xc.ctxRead = some r ∧ r.channel = c ∧ r.stage = .fill)
      (s.chooseEntry = none → s.serveWaitList (n + 1) = s) ∧
      (∀ e, ¬ needs → s.chooseEntry = some e → s.serveWaitList (n + 1) = popped.serveWaitList n) ∧
      (∀ e, needs → s.chooseEntry = some e → s.serveWaitList (n + 1) = (popped.useEntry e c).serveWaitList n))) ∧
  (∀ s before : State,
    let free : State → EntryId → Prop := fun t e => t.entry e = .free ∨ t.eligible e = true
    ((∃ e, free s e ∧ ¬ free before e) → s.serveIfFreed before = s.serveWaitList s.xc.waitList.length) ∧
    ((∀ e, free s e → free before e) → s.serveIfFreed before = s))

/-- A fill answered OK has the open-message state of its image dropped if poolreset is yes; the image is then checked.
One that passes makes the entry VALID with the context rebuilt from it, dirty after a drop, most recent, newly filled
while the engine has work for the channel, and answers a READ_CONTEXT that awaits it, or ends the wait of an abandoned
one with no response (R165); one that fails frees the entry and makes the channel FAULTED with the number of the test;
a failed read does so with its cause (R59, R67, R69, R76 to R78, R81, R86). A fresh context has every field 0 (R70). A
write-back answered OK leaves its channel STORED, with a fetch request if it has a held cell or the note is set; a
failed one makes it FAULTED; a READ_CONTEXT that awaited it reads the store. The entry is then filled, or built fresh,
for its claimant, or becomes FREE (R68, R71, R82). That a fresh context takes poolreset with it (log entry 20), and
that the READ_CONTEXT reads the store even if the channel's next fetch begins in the same step (log entry 25), are the
model's readings, and so is that the claimant's read comes on the CTX line before the written channel's own fetch (log
entry 44). -/
def Obligations.FilledImageIsCheckedAndInstalled : Prop :=
  (∀ (s : State) e c a bytes, s.ma.state ≠ .resetWait → s.entry e = .filling c →
    let image := Image.ofBytes bytes
    let seen := if (s.chan c).poolReset then
      { image with discard := false, count := 0, bytesSoFar := 0, offset := 0, crc := 0xFFFFFFFF } else image
    let t := s.onChan c fun ch => { ch with poolReset := false }
    let state : CtxState := if seen.discard = true then .discarding else if seen.count ≠ 0 then .assembling else .idle
    let test : Option Nat :=
      if 8 < seen.count.toNat then some 1
      else if seen.discard = true ∧ seen.count ≠ 0 then some 2
      else if seen.bytesSoFar ≠ 0 ∧ seen.count = 0 then some 3
      else if (s.pool (s.chan c).pool).bufSize < seen.offset.toNat then some 4
      else if 15 < seen.expectedSeq.toNat then some 5
      else if state = .assembling ∧ (s.chan c).msgOpen = false then some 6
      else if state ≠ .assembling ∧ (s.chan c).msgOpen = true then some 7
      else none
    (a = .ok → test = none → s.give (.fill e c) a bytes = t.install e c seen.context (s.chan c).poolReset) ∧
    (∀ n, a = .ok → test = some n → s.give (.fill e c) a bytes =
      (t.setEntry e .free).channelFault c 3 (BitVec.ofNat 32 n)) ∧
    (a ≠ .ok → s.give (.fill e c) a bytes =
      (s.setEntry e .free).channelFault c 1 (if a = .timeout then 1 else 0))) ∧
  (∀ (s : State) e c x dirty,
    let work := (s.chan c).pendingAbort ≠ .none ∨ (∃ h ∈ s.re.hold, h.channel = c) ∨ ((s.chan c).msgOpen = true ∧
      ((s.chan c).binding = .unbinding ∨ ((s.chan c).binding = .bound ∧ s.ma.nodeState = .stopping)))
    ∃ newlyFilled : Bool, (newlyFilled = true ↔ work) ∧
      let t := State.onChan { s with xc := { s.xc with
        entries := tset s.xc.entries e (.valid { channel := c, ctx := x, dirty, newlyFilled })
        recency := s.xc.recency.filter (· != e) ++ [e] } } c fun ch => { ch with residence := .cached e }
      ((∀ r, s.xc.ctxRead = some r → r.channel ≠ c ∨ r.stage ≠ .fill) → s.install e c x dirty = t) ∧
      (∀ part cmd, s.xc.ctxRead = some { channel := c, part, stage := .fill } → s.ma.state = .working cmd true →
        cmd.code = 0x33 → s.install e c x dirty = State.answering { t with xc := { t.xc with ctxRead := none } } cmd 0
          ((x.image.drop (36 * part.val)).take (if part = 3 then 4 else 36))) ∧
      (∀ part, s.xc.ctxRead = some { channel := c, part, stage := .fill } →
        (∀ cmd, s.ma.state = .working cmd true → cmd.code ≠ 0x33) →
        s.install e c x dirty = { t with xc := { t.xc with ctxRead := none } })) ∧
  (∀ (s : State) e c,
    s.installFresh e c = (s.onChan c fun ch => { ch with fresh := false, poolReset := false }).install e c
      { state := .idle, expectedSeq := 0, buffers := [], bytesSoFar := 0, crc := 0, offset := 0, lastCode := 0
        msgsOk := 0, msgsBad := 0, strayCells := 0, cellsAccepted := 0 } true ∧
    ((s.chan c).fresh = true → s.startFill e c = s.installFresh e c) ∧
    ((s.chan c).fresh = false → s.startFill e c = (s.setEntry e (.filling c)).requestRead .ctx
      (s.xc.storeBase + BitVec.ofNat 32 (128 * c.val)) 112 (.fill e c))) ∧
  (∀ (s : State) e c claimant note, s.ma.state ≠ .resetWait → s.entry e = .writing c claimant note →
    let stored := s.onChan c fun ch => { ch with residence := .stored }
    let asks := note = true ∨ ∃ h ∈ s.re.hold, h.channel = c
    let seen : State → State := fun t => t.contextStored c .writeBack
    let left : State → State := fun t =>
      match claimant with
      | some d => t.startFill e d
      | none => t.setEntry e .free
    (¬ asks → s.give (.writeBack e c) .ok [] = left (seen stored)) ∧
    (asks → (claimant = none ∨ ∃ d, claimant = some d ∧ (s.chan d).fresh = true) →
      s.give (.writeBack e c) .ok [] = left ((seen stored).fetchRequest c)) ∧
    (∀ d, asks → claimant = some d → (s.chan d).fresh = false →
      s.give (.writeBack e c) .ok [] = ((seen stored).startFill e d).fetchRequest c) ∧
    (∀ a, a ≠ .ok → s.give (.writeBack e c) a [] =
      left (seen (s.channelFault c 2 (if a = .timeout then 1 else 0))))) ∧
  (∀ (s : State) c stage,
    ((∀ r, s.xc.ctxRead = some r → r.channel ≠ c ∨ r.stage ≠ stage) → s.contextStored c stage = s) ∧
    (∀ part, s.xc.ctxRead = some { channel := c, part, stage } → s.contextStored c stage = State.requestRead
      { s with xc := { s.xc with ctxRead := some { channel := c, part, stage := .store } } } .agt
      (s.xc.storeBase + BitVec.ofNat 32 (128 * c.val) + BitVec.ofNat 32 (36 * part.val))
      (if part = 3 then 4 else 36) .ctxRead))

/-- A channel fault releases the reservation of an open message, discards the channel's held cells into nochannel,
takes the channel off the Fetch Wait List, leaves it FAULTED and STORED with no message and no pending abort, and
raises CHANNEL_FAULT; every other channel is left alone (R61, R78, R81 to R83). A channel in UNBINDING becomes UNBOUND
at once and its UNBIND_CHANNEL completes OK (R57), or is given no response where it was abandoned (R165). A
READ_CONTEXT that awaited the fetch of the channel reads the store, as requester AGT, and any other goes on as it was
(R86); one that awaited its write-back reads the store as the write is answered (R86, O39). That an operation
outstanding is kept, and its cell counted in nochannel when it is answered, is the model's choice (log entry 21). -/
def Obligations.FaultedChannelLosesItsMessageAndCells : Prop :=
  ∀ (s : State) c detail aux, (s.chan c).binding = .bound ∨ (s.chan c).binding = .unbinding →
    let t := s.channelFault c detail aux
    ((s.chan c).binding = .bound → (t.chan c).binding = .faulted) ∧
    ((s.chan c).binding = .unbinding →
      (t.chan c).binding = .unbound ∧ (t.chan c).fresh = false ∧ (t.chan c).poolReset = false ∧
      ∀ cmd, s.ma.state = .working cmd true → cmd.code = 0x31 → t.ma.state =
        .answering { cmd, payload := be16 cmd.tag ++ [0x31, 0], executed := true }) ∧
    ((s.chan c).binding = .bound ∨ (∀ cmd, s.ma.state = .working cmd true → cmd.code ≠ 0x31) → t.ma = s.ma) ∧
    (t.chan c).residence = .stored ∧ (t.chan c).msgOpen = false ∧
    (t.chan c).pendingAbort = .none ∧ (t.chan c).op = (s.chan c).op ∧
    (∀ d, d ≠ c → t.chan d = s.chan d) ∧
    t.re.hold = s.re.hold.filter (fun h => h.channel != c) ∧
    t.counters.nochannel = s.counters.nochannel + BitVec.ofNat 32 (s.re.hold.countP fun h => h.channel == c) ∧
    c ∉ t.xc.waitList ∧ t.xc.entries = s.xc.entries ∧
    ((s.chan c).msgOpen = true → (s.pool (s.chan c).pool).state ≠ .faulted →
      (t.pool (s.chan c).pool).reserved = (s.pool (s.chan c).pool).reserved - 1) ∧
    (s.ma.state ≠ .resetWait → s.ew.enable.getLsbD 6 = true → s.ew.state = .on → s.ew.queue.length < 8 →
      t.ew.queue = s.ew.queue ++ [{ kind := .channelFault, subject := BitVec.ofNat 16 c.val
                                    detail := BitVec.ofNat 16 detail, tick := s.ma.nodeTime, aux }]) ∧
    ((∀ r, s.xc.ctxRead = some r → r.channel ≠ c ∨ r.stage ≠ .fill) → t.xc.ctxRead = s.xc.ctxRead ∧ t.lmp = s.lmp) ∧
    (∀ part, s.xc.ctxRead = some { channel := c, part, stage := .fill } →
      t.xc.ctxRead = some { channel := c, part, stage := .store } ∧ t.lmp = { s.lmp with agt := s.lmp.agt ++ [{
        requester := .agt, direction := .read
        addr := s.xc.storeBase + BitVec.ofNat 32 (128 * c.val) + BitVec.ofNat 32 (36 * part.val)
        length := if part = 3 then 4 else 36, data := [], tag := .ctxRead }] })

/-- A context whose fields are in range is rebuilt from its image as it was: the state by the first of the rules of
R76, every other field as it stands. -/
def Obligations.ContextIsRebuiltFromItsImage : Prop :=
  (∀ x : Context, x.buffers.length ≤ 8 → (x.state = .discarding → x.buffers = []) →
    (x.state = .assembling → x.buffers ≠ []) → (x.state = .idle → x.buffers = []) →
    x.image.length = 112 ∧ (Image.ofBytes x.image).context = x) ∧
  (∀ i : Image,
    (i.discard = true → i.context.state = .discarding) ∧
    (i.discard = false → i.count ≠ 0 → i.context.state = .assembling) ∧
    (i.discard = false → i.count = 0 → i.context.state = .idle) ∧
    i.context.buffers = i.buffers.take i.count.toNat ∧ i.context.expectedSeq = i.expectedSeq.setWidth 4 ∧
    i.context.bytesSoFar = i.bytesSoFar ∧ i.context.crc = i.crc ∧ i.context.offset = i.offset ∧
    i.context.lastCode = i.lastCode ∧ i.context.msgsOk = i.msgsOk ∧ i.context.msgsBad = i.msgsBad ∧
    i.context.strayCells = i.strayCells ∧ i.context.cellsAccepted = i.cellsAccepted) ∧
  (∀ i msgOpen bufSize, i.discard = true → i.count ≠ 0 → (Image.failedTest i msgOpen bufSize).isSome = true)

/-! ## The transmit side -/

/-- INTERVAL_POLL, when the countdown of a RUNNING node has run out, polls every ring and loads the countdown with
tx_poll. ATTN_EDGE deasserts LINT and polls every ring of a RUNNING node. A poll of an IDLE ring with no access in
flight reads bytes 0 to 5 of its head; any other ring, and a node that is not RUNNING, it leaves alone (R113, R114,
R203). That the poll of an interval comes at a command of its own once the countdown stands at 0 is the model's choice
(log entry 9), and so is that the rings are polled in rising order (log entry 22). -/
def Obligations.PollReadsTheHeadsOfIdleRings : Prop :=
  (∀ s, s.inReset = false → s.ma.state ≠ .resetWait → s.ma.nodeState = .running → s.su.txPoll ≠ 0 →
    s.su.countdown = 0 → exec .intervalPoll s = .next (State.polled { s with su := { s.su with
      countdown := s.su.txPoll } })) ∧
  (∀ s, s.inReset = false → s.ma.state ≠ .resetWait → s.ma.nodeState = .running →
    exec .attnEdge s = .next (State.polled { s with ew := { s.ew with lint := false } })) ∧
  (∀ s, s.inReset = false → (s.ma.state = .resetWait ∨ s.ma.nodeState ≠ .running) →
    exec .attnEdge s = .next { s with ew := { s.ew with lint := false } }) ∧
  (∀ s : State, s.ma.state ≠ .resetWait → s.ma.nodeState = .running →
    s.polled = (((s.poll 0).poll 1).poll 2).poll 3) ∧
  (∀ (s : State) r,
    (s.ma.state ≠ .resetWait → s.ma.nodeState = .running → (s.ring r).state = .idle → (s.ring r).access = none →
      s.poll r = (s.onRing r fun x => { x with access := some .ownerRead }).requestRead .seg
        ((s.ring r).base + BitVec.ofNat 32 (32 * (s.ring r).head)) 6 (.descriptor r)) ∧
    (s.ma.state = .resetWait ∨ s.ma.nodeState ≠ .running ∨ (s.ring r).state ≠ .idle ∨ (s.ring r).access ≠ none →
      s.poll r = s))

/-- The head descriptor of a RUNNING node's ring is read in two parts: a HOST-owned one leaves the ring IDLE, and a
DEVICE-owned one has its address read (R114); once the node is not RUNNING the answer leaves the ring IDLE (R129). It
then passes five tests in order, each failure with its status and an immediate write-back, which starts with the tick
and the cells sent, 0, and a valid one asks for its slot's lock (R115, R116). A free lock with no queue makes the ring
its holder, SENDING, with its body reads begun; otherwise the ring joins the lock queue in WAIT_SLOT (R118, R120). That
a first read answered after RUNNING is followed by no second one is the model's reading (log entry 30). -/
def Obligations.HeadDescriptorIsReadAndTested : Prop :=
  (∀ (s : State) r bytes, s.ma.state ≠ .resetWait → (s.ring r).access = some .ownerRead →
    (byteAt bytes 0 ≠ 1 ∨ s.ma.nodeState ≠ .running) →
    s.give (.descriptor r) .ok bytes = s.onRing r fun x => { x with access := none }) ∧
  (∀ (s : State) r bytes, s.ma.state ≠ .resetWait → s.ma.nodeState = .running →
    (s.ring r).access = some .ownerRead → byteAt bytes 0 = 1 →
    s.give (.descriptor r) .ok bytes = (s.onRing r fun x => { x with
      access := some .addrRead
      desc := some { slot := byteAt bytes 2, notifyThis := (byteAt bytes 3).getLsbD 0, length := halfAt bytes 4
                     addr := 0 } }).requestRead .seg
      ((s.ring r).base + BitVec.ofNat 32 (32 * (s.ring r).head + 8)) 4 (.descriptor r)) ∧
  (∀ (s : State) r bytes d, s.ma.state ≠ .resetWait → (s.ring r).access = some .addrRead →
    (s.ring r).desc = some d →
    let length := d.length.toNat
    let addr := wordAt bytes 0
    let held := s.onRing r fun x => { x with access := none, desc := some { d with addr := addr } }
    let short := length = 0 ∨ 16000 < length
    (s.ma.nodeState ≠ .running → s.give (.descriptor r) .ok bytes = s.onRing r fun x =>
      { x with access := none, desc := none }) ∧
    (s.ma.nodeState = .running →
      (short → s.give (.descriptor r) .ok bytes = held.beginWriteBack r .badlen 0) ∧
      (¬ short → 64 ≤ d.slot.toNat → s.give (.descriptor r) .ok bytes = held.beginWriteBack r .badslot 0) ∧
      (∀ k : SlotId, ¬ short → d.slot.toNat = k.val →
        ((s.slot k).enabled = false → s.give (.descriptor r) .ok bytes = held.beginWriteBack r .slotoff 0) ∧
        ((s.slot k).enabled = true → ((s.slot k).kind = .mgmt ∧ 40 < length ∨ 0x100000000 < addr.toNat + length) →
          s.give (.descriptor r) .ok bytes = held.beginWriteBack r .badlen 0) ∧
        ((s.slot k).enabled = true → ¬ ((s.slot k).kind = .mgmt ∧ 40 < length) → addr.toNat + length ≤ 0x100000000 →
          s.give (.descriptor r) .ok bytes = held.requestLock r k)))) ∧
  (∀ (s : State) r status cells, s.beginWriteBack r status cells =
    (s.onRing r fun x => { x with access := some (.tickWrite status) }).requestWrite .seg
      ((s.ring r).base + BitVec.ofNat 32 (32 * (s.ring r).head + 16))
      (be32 s.ma.nodeTime ++ be16 (BitVec.ofNat 16 cells)) (.descriptor r)) ∧
  (∀ (s : State) r k,
    let free := (s.slot k).holder = none ∧ (s.slot k).lockQueue = []
    (free → s.requestLock r k = ((s.onSlot k fun x => { x with holder := some r }).onRing r fun x => { x with
      state := .sending, gen := x.gen + 1
      msg := some { slot := k, nextRead := 1, nextBuild := 1, crc := 0xFFFFFFFF, sent := 0, ended := none } }).issueReads
        r 4) ∧
    (¬ free → s.requestLock r k = (s.onSlot k fun x => { x with lockQueue := x.lockQueue ++ [r] }).onRing r fun x =>
      { x with state := .waitSlot }))

/-- The bytes of a body read become the next DATA cell of the message: its position in the message, the slot's next_seq,
destination, label and hops, this node as source, and in the last body cell as many check bytes as fit; next_seq and the
running CRC go on (R4, R119). On a MGMT slot they become one MGMT_CMD cell without check bytes, and next_seq stays
(R121). A cell of check bytes alone is built without a read, once the FIFO holds fewer than 4 cells, and reads of 40
bytes or the body's rest are requested while staged cells and reads together are fewer than 4 (R120). The answer to a
read builds the cell and then both of these; one that belongs to an earlier message is ignored (R120, R123), which the
model tells by the ring's count of messages (log entry 17). -/
def Obligations.DataCellIsStagedWithTheSlotsHeader : Prop :=
  (∀ (s : State) r m d bytes, (s.slot m.slot).kind = .data →
    let x := s.slot m.slot
    let body := (d.length.toNat + 39) / 40
    let n := (d.length.toNat + 43) / 40
    let crc := crc32 m.crc bytes
    let valid := if m.nextBuild = body then (bytes ++ be32 (~~~ crc)).take 40 else bytes
    let cell : Cell :=
      { kind := .data
        position := if n = 1 then .only else if m.nextBuild = 1 then .first else if m.nextBuild = n then .last
          else .middle
        seq := x.nextSeq, dest := x.dest, src := s.ma.nodeId, label := x.label, hops := x.hops
        fill := BitVec.ofNat 6 valid.length, payload := padTo 40 valid }
    s.buildCell r m d bytes = (s.onSlot m.slot fun x => { x with nextSeq := x.nextSeq + 1 }).onRing r fun y =>
      { y with fifo := y.fifo ++ [cell], msg := some { m with nextBuild := m.nextBuild + 1, crc := crc } }) ∧
  (∀ (s : State) r m d bytes, (s.slot m.slot).kind = .mgmt →
    let x := s.slot m.slot
    let cell : Cell :=
      { kind := .mgmtCmd, position := .only, seq := 0, dest := x.dest, src := s.ma.nodeId, label := 0, hops := x.hops
        fill := BitVec.ofNat 6 bytes.length, payload := padTo 40 bytes }
    s.buildCell r m d bytes = s.onRing r fun y =>
      { y with fifo := y.fifo ++ [cell], msg := some { m with nextBuild := m.nextBuild + 1 } }) ∧
  (∀ (s : State) r m d, (s.ring r).msg = some m → (s.ring r).desc = some d →
    let x := s.slot m.slot
    let length := d.length.toNat
    let body := (length + 39) / 40
    let due := x.kind = .data ∧ m.ended = none ∧ m.nextBuild = body + 1 ∧ (length + 43) / 40 = body + 1 ∧
      (s.ring r).fifo.length < 4
    let rest := (be32 (~~~ m.crc)).drop (40 * body - length)
    let cell : Cell :=
      { kind := .data, position := .last, seq := x.nextSeq, dest := x.dest, src := s.ma.nodeId, label := x.label
        hops := x.hops, fill := BitVec.ofNat 6 rest.length, payload := padTo 40 rest }
    (due → s.stageTrailer r = (s.onSlot m.slot fun x => { x with nextSeq := x.nextSeq + 1 }).onRing r fun y =>
      { y with fifo := y.fifo ++ [cell], msg := some { m with nextBuild := m.nextBuild + 1 } }) ∧
    (¬ due → s.stageTrailer r = s)) ∧
  (∀ (s : State) r m d n, (s.ring r).msg = some m → (s.ring r).desc = some d →
    let length := d.length.toNat
    let start := 40 * (m.nextRead - 1)
    let room := m.ended = none ∧ m.nextRead ≤ (length + 39) / 40 ∧
      (s.ring r).fifo.length + (m.nextRead - m.nextBuild) < 4
    s.issueReads r 0 = s ∧
    (room → s.issueReads r (n + 1) = ((s.onRing r fun y => { y with
      msg := some { m with nextRead := m.nextRead + 1 } }).requestRead .seg (d.addr + BitVec.ofNat 32 start)
        (min 40 (length - start)) (.body r (s.ring r).gen)).issueReads r n) ∧
    (¬ room → s.issueReads r (n + 1) = s)) ∧
  (∀ (s : State) r m d bytes, s.ma.state ≠ .resetWait → (s.ring r).msg = some m → (s.ring r).desc = some d →
    s.give (.body r (s.ring r).gen) .ok bytes = ((s.buildCell r m d bytes).stageTrailer r).issueReads r 4) ∧
  (∀ (s : State) r gen a bytes, (s.ring r).gen ≠ gen → s.give (.body r gen) a bytes = s)

/-- A departure counts a cell as sent. That of a message's last cell begins the write-back: the tick and the cells sent
first, then owner 0 and the status; another makes room in the FIFO (R116, R120, R122). The second answer makes the ring
IDLE at the next descriptor, gives the lock of a SENDING ring up, asserts LINT if the ring or the descriptor notifies,
and polls the ring (R116). The lock goes to the head of the queue, which is SENDING from then on, or to none (R118). A
failed descriptor access makes the ring FAULTED at its head, its lock given up, and raises TXRING_FAULT (R125). A
failed body read ends the message early with MEMERR (R124): its staged cells are dropped and next_seq goes back, and an
abort cell follows on a DATA slot of which a cell has left; otherwise the write-back begins at once (R123). A message
that has ended or is written back already is not ended again (log entry 16); the model counts the ring's messages to
tell later answers (log entry 17). The granted ring's body reads come before the poll's read: the model's choice (log
entry 47). -/
def Obligations.MessageIsWrittenBack : Prop :=
  (∀ (s : State) r cell m, (s.ring r).msg = some m →
    ((cell.position = .last ∨ cell.position = .only) →
      s.departed r cell = (s.onRing r fun x => { x with
        access := some (.tickWrite (m.ended.getD .done)), msg := some { m with sent := m.sent + 1 } }).requestWrite .seg
        ((s.ring r).base + BitVec.ofNat 32 (32 * (s.ring r).head + 16))
        (be32 s.ma.nodeTime ++ be16 (BitVec.ofNat 16 (m.sent + 1))) (.descriptor r)) ∧
    ((cell.position = .first ∨ cell.position = .middle) → s.departed r cell = ((s.onRing r fun x =>
      { x with msg := some { m with sent := m.sent + 1 } }).stageTrailer r).issueReads r 4)) ∧
  (∀ (s : State) r status, s.ma.state ≠ .resetWait → (s.ring r).access = some (.tickWrite status) →
    s.give (.descriptor r) .ok [] = (s.onRing r fun x => { x with access := some .ownerWrite }).requestWrite .seg
      ((s.ring r).base + BitVec.ofNat 32 (32 * (s.ring r).head)) [0, status.code] (.descriptor r)) ∧
  (∀ (s : State) r, s.ma.state ≠ .resetWait → (s.ring r).access = some .ownerWrite →
    let free := if (s.ring r).state = .sending then s.releaseLock r else s
    s.give (.descriptor r) .ok [] = State.poll (State.onRing { free with ew := { free.ew with
        lint := free.ew.lint || (s.ring r).notify || (s.ring r).notifyThis } } r fun x =>
      { x with state := .idle, access := none, desc := none, msg := none, fifo := []
               head := (x.head + 1) % x.size }) r) ∧
  (∀ (s : State) r m, (s.ring r).msg = some m → (s.slot m.slot).holder = some r →
    ((s.slot m.slot).lockQueue = [] → s.releaseLock r = s.onSlot m.slot fun x => { x with holder := none }) ∧
    (∀ q rest, (s.slot m.slot).lockQueue = q :: rest → s.releaseLock r =
      ((s.onSlot m.slot fun x => { x with holder := some q, lockQueue := rest }).onRing q fun x => { x with
        state := .sending, gen := x.gen + 1
        msg := some { slot := m.slot, nextRead := 1, nextBuild := 1, crc := 0xFFFFFFFF, sent := 0
                      ended := none } }).issueReads q 4)) ∧
  (∀ (s : State) r a bytes access, s.ma.state ≠ .resetWait → a ≠ .ok → (s.ring r).access = some access →
    let free := if (s.ring r).state = .sending then s.releaseLock r else s
    s.give (.descriptor r) a bytes = State.raise (free.onRing r fun x =>
      { x with state := .faulted, access := none, desc := none, msg := none, fifo := [] }) .txringFault r.val
      (if access = .ownerRead ∨ access = .addrRead then 1 else 2) (if a = .timeout then 1 else 0)) ∧
  (∀ (s : State) r a bytes m d, s.ma.state ≠ .resetWait → a ≠ .ok → (s.ring r).msg = some m →
    (s.ring r).desc = some d → s.give (.body r (s.ring r).gen) a bytes = s.endEarly r .memerr) ∧
  (∀ (s : State) r m status, (s.ring r).msg = some m →
    let data := (s.slot m.slot).kind = .data
    let seq := (s.slot m.slot).nextSeq - BitVec.ofNat 4 (s.ring r).fifo.length
    let abort : Cell :=
      { kind := .data, position := .last, seq, dest := (s.slot m.slot).dest, src := s.ma.nodeId
        label := (s.slot m.slot).label, hops := (s.slot m.slot).hops, fill := 0, payload := padTo 40 [] }
    let cut : List Cell → State := fun fifo => s.onRing r fun x =>
      { x with fifo, gen := x.gen + 1, msg := some { m with ended := some status } }
    (m.ended = none → (s.ring r).access = none →
      (data → 0 < m.sent → s.endEarly r status = (cut [abort]).onSlot m.slot fun x => { x with nextSeq := seq + 1 }) ∧
      (data → m.sent = 0 → s.endEarly r status = State.beginWriteBack ((cut []).onSlot m.slot fun x =>
        { x with nextSeq := seq }) r status 0) ∧
      (¬ data → s.endEarly r status = (cut []).beginWriteBack r status m.sent)) ∧
    ((m.ended ≠ none ∨ (s.ring r).access ≠ none) → s.endEarly r status = s))

/-! ## The Management Agent -/

/-- COMMAND_TAKE in READY takes the head of the command queue through screening, authorization and the tag test: a
broadcast source is denied without a response, a broadcast other than IDENT ignored, a repeated tag answered from
memory, a listed sender's command handed to its owner or answered BADCMD, and a stranger's answered DENIED but for
IDENT and a CLAIM of an empty list (R155 to R157, R160, R162). In any other state, and with an empty queue, nothing is
taken; that a NODE_RESET repeated in RESET_SENT is no exception, as R155 and R172 have it and R193 does not, is the
model's reading (log entry 39). -/
def Obligations.CommandIsScreenedAndAuthorized : Prop :=
  (∀ s cmd rest, s.inReset = false → s.ma.state = .ready → s.ma.queue = cmd :: rest →
    let go : AgentState → State := fun a => { s with ma := { s.ma with queue := rest, state := a } }
    let denied := { s.counters with mgmtDenied := s.counters.mgmtDenied + 1 }
    let listed := ∃ m ∈ s.ma.managers, m.node = cmd.src
    let repeated := fun m => cmd.tag ≠ 0 ∧ s.memoryOf cmd.src = some m ∧ m.tag = cmd.tag
    let open' := cmd.code = 0x01 ∨ (cmd.code = 0x02 ∧ s.ma.managers = [])
    (cmd.src = 63 → exec .commandTake s = .next { go .ready with counters := denied }) ∧
    (cmd.src ≠ 63 → cmd.dest = 63 → cmd.code ≠ 0x01 → exec .commandTake s = .next { go .ready with
      counters := { s.counters with broadcastIgnored := s.counters.broadcastIgnored + 1 } }) ∧
    (cmd.src ≠ 63 → (cmd.dest ≠ 63 ∨ cmd.code = 0x01) →
      (∀ m, listed → repeated m → exec .commandTake s = .next
        (go (.answering { cmd, payload := m.payload, executed := false }))) ∧
      ((listed ∧ (∀ m, ¬ repeated m)) ∨ (¬ listed ∧ open') →
        (cmd.code ∈ knownCodes → exec .commandTake s = .next (go (.working cmd false))) ∧
        (cmd.code ∉ knownCodes → exec .commandTake s = .next ((go .ready).answering cmd 2 []))) ∧
      (¬ listed → ¬ open' → exec .commandTake s = .next { go
        (.answering { cmd, payload := be16 cmd.tag ++ [cmd.code, 1], executed := false }) with counters := denied }))) ∧
  (∀ s, (s.ma.state ≠ .ready ∨ s.ma.queue = []) → exec .commandTake s = .next s)

/-- RESPONSE_HANDOVER in ANSWERING puts the response cell into the response queue when it holds fewer than 8: the
payload of an executed tagged command, RELEASE apart, is stored for its sender, CONFIG is raised for a configuration
command that ends OK, with the sender, the node, the pool, ring, slot or channel, the label or 0 as detail, and the
agent is READY again, or in RESET_SENT after NODE_RESET (R134, R153, R161, R164, R176). That the refusal of a CLAIM is
stored like any other response, R178 speaking of the CLAIM's own step, is the model's reading (log entry 38). -/
def Obligations.ResponseIsHandedOver : Prop :=
  ∀ s r, s.inReset = false → s.ma.state = .answering r →
    (8 ≤ s.ia.responses.length → exec .responseHandover s = .next s) ∧
    (s.ia.responses.length < 8 →
      let cell : Cell := { kind := .mgmtRsp, position := .only, seq := 0, dest := r.cmd.src, src := s.ma.nodeId
                           label := 0, hops := 15, fill := BitVec.ofNat 6 r.payload.length
                           payload := padTo 40 r.payload }
      let reset := r.executed && r.cmd.code == 0x42
      let stored := r.executed = true ∧ r.cmd.tag ≠ (0 : Half) ∧ r.cmd.code ≠ (0x03 : Byte)
      let t : State := { s with
        ia := { s.ia with responses := s.ia.responses ++ [{ cell, reset }] }
        ma := { s.ma with
          state := if reset then .resetSent else .ready
          managers := if stored then
              s.ma.managers.map fun m =>
                if m.node = r.cmd.src then { m with memory := some { tag := r.cmd.tag, payload := r.payload } } else m
            else s.ma.managers } }
      let detail : Option Nat :=
        if r.cmd.code = 0x02 ∨ r.cmd.code = 0x03 then some r.cmd.src.toNat
        else if r.cmd.code = 0x04 then some (r.cmd.arg8 4).toNat
        else if r.cmd.code ∈ ([0x11, 0x12, 0x13, 0x30, 0x31] : List Byte) then some (r.cmd.arg8 3).toNat
        else if r.cmd.code = 0x20 then some (r.cmd.arg16 3).toNat
        else if r.cmd.code ∈ ([0x10, 0x14, 0x15] : List Byte) then some 0
        else none
      (∀ n, r.executed = true → byteAt r.payload 3 = 0 → detail = some n →
        exec .responseHandover s = .next (t.raise .config r.cmd.code.toNat n (r.cmd.src.setWidth 32))) ∧
      ((r.executed = false ∨ byteAt r.payload 3 ≠ 0 ∨ detail = none) →
        exec .responseHandover s = .next t))

/-! ## The management commands -/

/-- IDENT, READ_CIRCUIT, READ_CHANNEL and READ_COUNTERS answer OK with what they read and change nothing else, but for a
group of counters that is read with clear 1 and becomes 0 (R30, R177, R189, R194). -/
def Obligations.ReadingCommandsReport : Prop :=
  (∀ (s : State) cmd, s.InHand 0x01 cmd → exec .ident s = .next (s.answering cmd 0
    ([s.ma.nodeId.setWidth 8, 0x25, 0x60, 1, BitVec.ofNat 8 s.ma.nodeState.code,
      BitVec.ofNat 8 s.ma.managers.length] ++ be32 s.ma.nodeTime))) ∧
  (∀ (s : State) cmd, s.InHand 0x21 cmd →
    let x := s.circuit ((cmd.arg16 3).setWidth 11)
    ((cmd.arg16 3).toNat < 2048 → exec .readCircuit s = .next (s.answering cmd 0
      (be16 (cmd.arg16 3) ++ [x.action.code, BitVec.ofNat 8 x.channel.val, x.newDest.setWidth 8]
        ++ be16 (x.newLabel.setWidth 16) ++ be32 x.matched))) ∧
    (2048 ≤ (cmd.arg16 3).toNat → exec .readCircuit s = .next (s.answering cmd 3 []))) ∧
  (∀ (s : State) cmd, s.InHand 0x32 cmd →
    let c : Chan := (cmd.arg8 3).toFin
    let ch := s.chan c
    let flags : Byte := (if ch.msgOpen then 1 else 0) + (if ch.op.isSome then 2 else 0) + (if ch.fresh then 4 else 0)
      + (if ch.poolReset then 8 else 0)
    exec .readChannel s = .next (s.answering cmd 0
      ([cmd.arg8 3, ch.binding.code, BitVec.ofNat 8 ch.pool.val] ++ be16 ch.maxBody ++ be16 ch.limit
        ++ [flags, ch.pendingAbort.code, ch.residence.code, ch.residence.entryByte] ++ be32 ch.deadline))) ∧
  (∀ (s : State) cmd, s.InHand 0x50 cmd →
    let k := s.counters
    let trunk := [k.hdrErrors, k.malformed, k.returned, k.hopExpired, k.cellsPassed, k.positionsInserted,
      k.cellsForwarded, k.unknownLabel, k.mgmtRspDiscards]
    let datapath := [k.datapathOff, k.nochannel, k.poolDiscards, k.holdOverflow, k.memFailures, k.eventsLost,
      k.mgmtQueueFull, k.broadcastIgnored, k.mgmtDenied]
    let clear := cmd.arg8 3
    let group := cmd.arg8 4
    (clear = 0 → group = 0 → exec .readCounters s = .next (s.answering cmd 0 (trunk.flatMap be32))) ∧
    (clear = 0 → group = 1 → exec .readCounters s = .next (s.answering cmd 0 (datapath.flatMap be32))) ∧
    (clear = 1 → group = 0 → exec .readCounters s = .next (State.answering { s with counters := { k with
      hdrErrors := 0, malformed := 0, returned := 0, hopExpired := 0, cellsPassed := 0, positionsInserted := 0
      cellsForwarded := 0, unknownLabel := 0, mgmtRspDiscards := 0 } } cmd 0 (trunk.flatMap be32))) ∧
    (clear = 1 → group = 1 → exec .readCounters s = .next (State.answering { s with counters := { k with
      datapathOff := 0, nochannel := 0, poolDiscards := 0, holdOverflow := 0, memFailures := 0, eventsLost := 0
      mgmtQueueFull := 0, broadcastIgnored := 0, mgmtDenied := 0 } } cmd 0 (datapath.flatMap be32))) ∧
    (1 < clear.toNat ∨ 1 < group.toNat → exec .readCounters s = .next (s.answering cmd 3 [])))

/-- CLAIM adds its sender to the manager list and RELEASE takes it off; MANAGER adds or removes the node it names. Each
answers with the count that results. A node that is listed already, a fifth node, a node not listed, a number beyond 62
or an op beyond 1 is answered BADARG (R158, R178, R179). -/
def Obligations.ManagerListIsEdited : Prop :=
  let add : State → Node → State := fun s n => { s with ma := { s.ma with
    managers := s.ma.managers ++ [{ node := n, memory := none }] } }
  let remove : State → Node → State := fun s n => { s with ma := { s.ma with
    managers := s.ma.managers.filter fun m => m.node != n } }
  let ok : State → Cell → State := fun s cmd => s.answering cmd 0 [BitVec.ofNat 8 s.ma.managers.length]
  (∀ (s : State) cmd, s.InHand 0x02 cmd →
    (cmd.src ∉ s.ma.managers.map (·.node) → exec .claim s = .next (ok (add s cmd.src) cmd)) ∧
    (cmd.src ∈ s.ma.managers.map (·.node) → exec .claim s = .next (s.answering cmd 3 []))) ∧
  (∀ (s : State) cmd, s.InHand 0x03 cmd → exec .release s = .next (ok (remove s cmd.src) cmd)) ∧
  (∀ (s : State) cmd, s.InHand 0x04 cmd →
    let op := cmd.arg8 3
    let node : Node := (cmd.arg8 4).setWidth 6
    let listed := node ∈ s.ma.managers.map (·.node)
    (op = 0 → (cmd.arg8 4).toNat ≤ 62 → ¬ listed → s.ma.managers.length < 4 →
      exec .manager s = .next (ok (add s node) cmd)) ∧
    (op = 1 → (cmd.arg8 4).toNat ≤ 62 → listed → exec .manager s = .next (ok (remove s node) cmd)) ∧
    (1 < op.toNat ∨ 62 < (cmd.arg8 4).toNat ∨ (op = 0 ∧ (listed ∨ 4 ≤ s.ma.managers.length)) ∨ (op = 1 ∧ ¬ listed) →
      exec .manager s = .next (s.answering cmd 3 [])))

/-- SET_LOCAL_MAP in UNCONFIGURED or STOPPED sets the store base, the request timer and the event ring, which starts
anew ON, or OFF with size 0; an UNCONFIGURED node becomes STOPPED and raises NODE_STATE. Its tests refuse it in order:
BADARG for a size or a timer, BUSY while RUNNING or STOPPING, BADALIGN, and BADARG for a region beyond the address
space (R166, R180, R181). That size 0 leaves the event base as given, though it is not tested then, is the model's
choice (log entry 54). -/
def Obligations.LocalMapIsSet : Prop :=
  ∀ (s : State) cmd, s.InHand 0x10 cmd →
    let store := cmd.arg32 3
    let ring := cmd.arg32 7
    let size := (cmd.arg16 11).toNat
    let badSize := (size ≠ 0 ∧ (size < 16 ∨ 4096 < size)) ∨ cmd.arg8 13 = 0
    let busy := s.ma.nodeState = .running ∨ s.ma.nodeState = .stopping
    let skew := store.toNat % 128 ≠ 0 ∨ (size ≠ 0 ∧ ring.toNat % 16 ≠ 0)
    let beyond := 0x100000000 < store.toNat + 0x8000 ∨ (size ≠ 0 ∧ 0x100000000 < ring.toNat + 16 * size)
    let t : State := { s with
      xc := { s.xc with storeBase := store }
      lmp := { s.lmp with memTimeout := cmd.arg8 13 }
      ew := { s.ew with
        base := ring, size := size, pos := 0, lost := 0
        state := if size = 0 then .off else .on
        queue := if size = 0 then [] else s.ew.queue
        access := match s.ew.access with
          | .none => .none
          | .ownerRead _ => .ownerRead true
          | .recordWrite _ => .recordWrite true } }
    (¬ badSize → ¬ busy → ¬ skew → ¬ beyond →
      (s.ma.nodeState = .stopped → exec .setLocalMap s = .next (t.answering cmd 0 [])) ∧
      (s.ma.nodeState = .unconfigured → exec .setLocalMap s = .next ((State.raise
        { t with ma := { s.ma with nodeState := .stopped } } .nodeState 0 1 0).answering cmd 0 []))) ∧
    (badSize → exec .setLocalMap s = .next (s.answering cmd 3 [])) ∧
    (¬ badSize → busy → exec .setLocalMap s = .next (s.answering cmd 5 [])) ∧
    (¬ badSize → ¬ busy → skew → exec .setLocalMap s = .next (s.answering cmd 4 [])) ∧
    (¬ badSize → ¬ busy → ¬ skew → beyond → exec .setLocalMap s = .next (s.answering cmd 3 []))

/-- SET_POOL with sizes makes the pool ACTIVE with its positions and counts 0, and SET_TXRING with a size makes the
ring IDLE at head 0; with sizes 0 each is UNCONFIGURED again. The tests are made in the order of their tables, the
first that fails gives the status, and a refused command changes nothing (R107, R108, R128). That notify is not tested
with both sizes of a pool 0 is the model's reading of R107 (log entry 41). That size 0 leaves a ring with head 0 as
well is the model's choice (log entry 48). -/
def Obligations.PoolsAndRingsAreConfigured : Prop :=
  (∀ (s : State) cmd (p : PoolId), s.InHand 0x11 cmd → (cmd.arg8 3).toNat = p.val →
    let freeSize := (cmd.arg16 8).toNat
    let complSize := (cmd.arg16 14).toNat
    let bufSize := (cmd.arg16 16).toNat
    let notified := (freeSize ≠ 0 ∨ complSize ≠ 0) ∧ 1 < (cmd.arg8 18).toNat
    let used := ∃ c, ((s.chan c).binding = .bound ∨ (s.chan c).binding = .unbinding) ∧ (s.chan c).pool = p
    let busy := used ∨ (s.pool p).access ≠ none
    let badSize := freeSize < 8 ∨ 4096 < freeSize ∨ complSize < 8 ∨ 4096 < complSize ∨ bufSize < 512 ∨
      16384 < bufSize ∨ bufSize % 64 ≠ 0
    let skew := (cmd.arg32 4).toNat % 16 ≠ 0 ∨ (cmd.arg32 10).toNat % 64 ≠ 0
    let beyond := 0x100000000 < (cmd.arg32 4).toNat + 16 * freeSize ∨
      0x100000000 < (cmd.arg32 10).toNat + 64 * complSize
    let refused : Byte → Prop := fun st => exec .setPool s = .next (State.settle (s.answering cmd st []) s)
    (notified → refused 3) ∧
    (¬ notified → s.ma.nodeState = .unconfigured → refused 6) ∧
    (¬ notified → s.ma.nodeState ≠ .unconfigured →
      (freeSize = 0 → complSize ≠ 0 → refused 3) ∧
      (freeSize ≠ 0 → complSize = 0 → refused 3) ∧
      (freeSize = 0 → complSize = 0 → busy → refused 5) ∧
      (freeSize = 0 → complSize = 0 → ¬ busy → exec .setPool s = .next (State.settle ((s.onPool p fun x =>
        { freeBase := 0, freeSize := 0, complBase := 0, complSize := 0, bufSize := 0, notify := false
          state := .unconfigured, freePos := 0, writePos := 0, knownFree := 0, reserved := 0
          requests := x.requests, access := x.access }).answering cmd 0 []) s)) ∧
      (freeSize ≠ 0 → complSize ≠ 0 → (s.pool p).state ≠ .faulted → busy → refused 5) ∧
      (freeSize ≠ 0 → complSize ≠ 0 → ((s.pool p).state = .faulted ∨ ¬ busy) →
        (badSize → refused 3) ∧
        (¬ badSize → skew → refused 4) ∧
        (¬ badSize → ¬ skew → beyond → refused 3) ∧
        (¬ badSize → ¬ skew → ¬ beyond → exec .setPool s = .next (State.settle ((s.onPool p fun x =>
          { freeBase := cmd.arg32 4, freeSize := freeSize, complBase := cmd.arg32 10, complSize := complSize
            bufSize := bufSize, notify := cmd.arg8 18 == 1, state := .active, freePos := 0, writePos := 0
            knownFree := 0, reserved := 0, requests := x.requests, access := x.access }).answering cmd 0 []) s))))) ∧
  (∀ (s : State) cmd, s.InHand 0x11 cmd → 3 < (cmd.arg8 3).toNat →
    exec .setPool s = .next (State.settle (s.answering cmd 3 []) s)) ∧
  (∀ (s : State) cmd (r : RingId), s.InHand 0x12 cmd → (cmd.arg8 3).toNat = r.val →
    let size := (cmd.arg16 8).toNat
    let weight := (cmd.arg8 10).toNat
    let bad := 1 < (cmd.arg8 11).toNat ∨ (size ≠ 0 ∧ (size < 8 ∨ 1024 < size ∨ weight < 1 ∨ 15 < weight))
    let busy := (s.ring r).state = .waitSlot ∨ (s.ring r).state = .sending ∨ (s.ring r).access ≠ none
    let skew := size ≠ 0 ∧ (cmd.arg32 4).toNat % 32 ≠ 0
    let beyond := size ≠ 0 ∧ 0x100000000 < (cmd.arg32 4).toNat + 32 * size
    let refused : Byte → Prop := fun st => exec .setTxring s = .next (s.answering cmd st [])
    (bad → refused 3) ∧ (¬ bad → busy → refused 5) ∧ (¬ bad → ¬ busy → skew → refused 4) ∧
    (¬ bad → ¬ busy → ¬ skew → beyond → refused 3) ∧
    (¬ bad → ¬ busy → ¬ skew → ¬ beyond → exec .setTxring s = .next ((s.onRing r fun x =>
      { base := if size = 0 then 0 else cmd.arg32 4, size := size, weight := if size = 0 then 0 else weight
        notify := size != 0 && cmd.arg8 11 == 1, head := 0, state := if size = 0 then .unconfigured else .idle
        access := none, desc := none, msg := none, fifo := [], gen := x.gen }).answering cmd 0 []))) ∧
  (∀ (s : State) cmd, s.InHand 0x12 cmd → 3 < (cmd.arg8 3).toNat →
    exec .setTxring s = .next (s.answering cmd 3 []))

/-- SET_SEND writes a slot's header, enable and, with reset_seq 1, its sequence number; a slot that is held keeps header
and sequence number, or the command is BUSY. A slot that turns from enabled to disabled writes its waiting rings back
SLOTOFF and cuts its holder's message. SET_EVENTS writes the event enables; SET_NODE writes tx_poll with its countdown
and the response channel; WRITE_CIRCUIT writes a label's entry and, with clear 1, its matched counter (R26, R28, R126,
R127, R183 to R186). The waiting rings in the order of the lock queue: log entry 37. -/
def Obligations.SettingsAreWritten : Prop :=
  (∀ (s : State) cmd (k : SlotId), s.InHand 0x13 cmd → (cmd.arg8 3).toNat = k.val →
    let bad := 1 < (cmd.arg8 4).toNat ∨ 63 < (cmd.arg8 5).toNat ∨ 2047 < (cmd.arg16 6).toNat ∨
      15 < (cmd.arg8 8).toNat ∨ 1 < (cmd.arg8 9).toNat ∨ 1 < (cmd.arg8 10).toNat ∨
      (cmd.arg8 9 = 1 ∧ cmd.arg8 8 = 0) ∨ (cmd.arg8 5 = 63 ∧ cmd.arg8 4 = 0)
    let kind : SlotKind := if cmd.arg8 4 = 1 then .mgmt else .data
    let kept := (s.slot k).kind = kind ∧ (s.slot k).dest = (cmd.arg8 5).setWidth 6 ∧
      (s.slot k).label = (cmd.arg16 6).setWidth 11 ∧ (s.slot k).hops = (cmd.arg8 8).setWidth 4 ∧ cmd.arg8 10 = 0
    let t : State := s.onSlot k fun x => { x with
      kind := kind
      dest := (cmd.arg8 5).setWidth 6
      label := (cmd.arg16 6).setWidth 11
      hops := (cmd.arg8 8).setWidth 4
      enabled := cmd.arg8 9 == 1
      nextSeq := if cmd.arg8 10 = 1 then 0 else x.nextSeq }
    (bad → exec .setSend s = .next (s.answering cmd 3 [])) ∧
    (¬ bad → (s.slot k).holder ≠ none → ¬ kept → exec .setSend s = .next (s.answering cmd 5 [])) ∧
    (¬ bad → ((s.slot k).holder = none ∨ kept) → ((s.slot k).enabled = false ∨ cmd.arg8 9 = 1) →
      exec .setSend s = .next (t.answering cmd 0 [])) ∧
    (¬ bad → ((s.slot k).holder = none ∨ kept) → (s.slot k).enabled = true → cmd.arg8 9 = 0 →
      exec .setSend s = .next ((t.disableSlot k).answering cmd 0 []))) ∧
  (∀ (s : State) cmd, s.InHand 0x13 cmd → 63 < (cmd.arg8 3).toNat →
    exec .setSend s = .next (s.answering cmd 3 [])) ∧
  (∀ (s : State) k,
    let t : State := (s.slot k).lockQueue.foldl
      (fun t r => State.beginWriteBack (t.onRing r fun x => { x with state := .idle }) r .slotoff 0)
      (s.onSlot k fun x => { x with lockQueue := [] })
    ((s.slot k).holder = none → s.disableSlot k = t) ∧
    (∀ r, (s.slot k).holder = some r → s.disableSlot k = t.endEarly r .cut)) ∧
  (∀ (s : State) cmd, s.InHand 0x14 cmd → exec .setEvents s = .next (State.answering
    { s with ew := { s.ew with enable := cmd.arg16 3 &&& 0x0FFE } } cmd 0 [])) ∧
  (∀ (s : State) cmd, s.InHand 0x15 cmd →
    let t : Option Chan → State := fun rsp => { s with
      su := { s.su with txPoll := cmd.arg8 3, countdown := cmd.arg8 3 }, cc := { s.cc with rspChannel := rsp } }
    (∀ c : Chan, (cmd.arg16 4).toNat = c.val → exec .setNode s = .next ((t (some c)).answering cmd 0 [])) ∧
    (cmd.arg16 4 = 0xFFFF → exec .setNode s = .next ((t none).answering cmd 0 [])) ∧
    (255 < (cmd.arg16 4).toNat → cmd.arg16 4 ≠ 0xFFFF → exec .setNode s = .next (s.answering cmd 3 []))) ∧
  (∀ (s : State) cmd, s.InHand 0x20 cmd →
    let bad := 2047 < (cmd.arg16 3).toNat ∨ 4 < (cmd.arg8 5).toNat ∨ 62 < (cmd.arg8 7).toNat ∨
      2047 < (cmd.arg16 8).toNat ∨ 1 < (cmd.arg8 10).toNat
    (∀ action, ¬ bad → action.code = cmd.arg8 5 → exec .writeCircuit s = .next (State.answering { s with
      cc := { s.cc with circuits := tmod s.cc.circuits ((cmd.arg16 3).setWidth 11).toFin fun x =>
        { action := action, channel := (cmd.arg8 6).toFin, newDest := (cmd.arg8 7).setWidth 6
          newLabel := (cmd.arg16 8).setWidth 11, matched := if cmd.arg8 10 = 1 then 0 else x.matched } } } cmd 0 [])) ∧
    (bad → exec .writeCircuit s = .next (s.answering cmd 3 [])))

/-- BIND_CHANNEL binds an UNBOUND channel with nothing outstanding to an ACTIVE pool, its context fresh. UNBIND_CHANNEL
of a BOUND channel begins the unbind, with its held cells discarded into nochannel and no pending abort; of a FAULTED
one it is over at once (R55 to R57, R187, R188). A busy or unbound channel, a pool out of range or not ACTIVE and a
max_body beyond 16,000 are answered with their status. That the bind keeps the deadline (log entry 34) and that the
unbind of an UNBINDING channel becomes a long command (log entry 31) are the model's readings. A NODE_RESET queued that
R165 takes out of turn is executed with status OK in the step that begins the unbind, which goes on without a response
(R165, log entry 15). -/
def Obligations.ChannelsAreBoundAndUnbound : Prop :=
  (∀ (s : State) cmd, s.InHand 0x30 cmd →
    let c : Chan := (cmd.arg8 3).toFin
    let free := (s.chan c).binding = .unbound ∧ (s.chan c).op = none
    let bad := 3 < (cmd.arg8 4).toNat ∨ 16000 < (cmd.arg16 5).toNat
    (∀ p : PoolId, (cmd.arg8 4).toNat = p.val → ¬ bad → free → (s.pool p).state = .active →
      exec .bindChannel s = .next ((s.onChan c fun ch => { ch with
        binding := .bound, pool := p, maxBody := cmd.arg16 5, limit := cmd.arg16 7, msgOpen := false, op := none
        pendingAbort := .none, fresh := true, poolReset := false }).answering cmd 0 [])) ∧
    (bad → exec .bindChannel s = .next (s.answering cmd 3 [])) ∧
    (¬ bad → ¬ free → exec .bindChannel s = .next (s.answering cmd 5 [])) ∧
    (∀ p : PoolId, (cmd.arg8 4).toNat = p.val → ¬ bad → free → (s.pool p).state ≠ .active →
      exec .bindChannel s = .next (s.answering cmd 6 []))) ∧
  (∀ (s : State) cmd, s.InHand 0x31 cmd →
    let c : Chan := (cmd.arg8 3).toFin
    let n : Word := BitVec.ofNat 32 (s.re.hold.countP fun h => h.channel == c)
    let begun : Agent → State := fun ma => State.onChan
      { s with
        re := { s.re with hold := s.re.hold.filter fun h => h.channel != c }
        counters := { s.counters with nochannel := s.counters.nochannel + n }
        ma := ma } c fun ch =>
      { ch with binding := .unbinding, pendingAbort := .none }
    ((s.chan c).binding = .bound → s.NoneOutOfTurn → exec .unbindChannel s = .next (State.settle
      (begun { s.ma with state := .working cmd true }) s)) ∧
    ((s.chan c).binding = .unbinding → s.NoneOutOfTurn → exec .unbindChannel s = .next (State.settle
      { s with ma := { s.ma with state := .working cmd true } } s)) ∧
    (∀ q rest, s.GivesWay q rest →
      ((s.chan c).binding = .bound → exec .unbindChannel s = .next (State.settle
        ((begun { s.ma with queue := rest }).answering q 0 []) s)) ∧
      ((s.chan c).binding = .unbinding → exec .unbindChannel s = .next (State.settle
        (State.answering { s with ma := { s.ma with queue := rest } } q 0 []) s))) ∧
    ((s.chan c).binding = .faulted → exec .unbindChannel s = .next (State.settle ((State.onChan
      { s with xc := { s.xc with waitList := s.xc.waitList.filter (· != c) } } c fun ch =>
      { ch with binding := .unbound, fresh := false, poolReset := false }).answering cmd 0 []) s)) ∧
    ((s.chan c).binding = .unbound → exec .unbindChannel s = .next (State.settle (s.answering cmd 6 []) s)))

/-- READ_CONTEXT answers a cached channel's part from the context on chip, waits for a fetch or a write-back under way,
has a fresh STORED channel's context fetched and reads another STORED channel's part from the store as requester AGT,
whose answer becomes the response (R86, R190). SYNC_CONTEXTS of a RUNNING node writes the dirty entries' images in
entry order, one at a time. An entry changed meanwhile stays dirty, a failed write faults the channel and frees the
entry, and the command answers OK at the end of the set (R84, R85, R191). That a write carries the context as it stands
at the request is log entry 8; that a sync of nothing, and a fresh read given a FREE entry at once, are over in their
own step whatever is queued is log entry 42. That the next member's write comes before a fetch for the Fetch Wait List
is log entry 45, the model's choice. A NODE_RESET queued that R165 takes out of turn is executed in the step in which
either becomes long (R165, log entry 15); the work of an abandoned command goes on and is given no response (R165). -/
def Obligations.ContextsAreReadAndSynchronised : Prop :=
  (∀ (s : State) cmd (part : Fin 4), s.InHand 0x33 cmd → (cmd.arg8 4).toNat = part.val →
    s.ma.nodeState ≠ .unconfigured →
    let c : Chan := (cmd.arg8 3).toFin
    let start := 36 * part.val
    let n := if part = 3 then 4 else 36
    let idle := s.NoneOutOfTurn
    let anew := (s.chan c).binding = .bound ∧ (s.chan c).fresh = true
    let waiting : CtxReadStage → State := fun stage => { s with
      xc := { s.xc with ctxRead := some { channel := c, part := part, stage := stage } }
      ma := { s.ma with state := .working cmd true } }
    (∀ e v, (s.chan c).residence = .cached e → s.entry e = .valid v → v.channel = c →
      exec .readContext s = .next (State.settle (s.answering cmd 0 ((v.ctx.image.drop start).take n)) s)) ∧
    ((s.chan c).residence = .stored → idle → ¬ anew →
      exec .readContext s = .next (State.settle (State.requestRead (waiting .store) .agt
        (s.xc.storeBase + BitVec.ofNat 32 (128 * c.val) + BitVec.ofNat 32 start) n .ctxRead) s)) ∧
    ((s.chan c).residence = .stored → idle → anew →
      exec .readContext s = .next (State.settle ((waiting .fill).fetchRequest c) s)) ∧
    (∀ e, (s.chan c).residence = .stored → anew → s.xc.waitList = [] → s.entry e = .free →
      (∀ f, f.val < e.val → s.entry f ≠ .free) → ∃ t : State, exec .readContext s = .next (t.settle s) ∧
        t.ma = (s.answering cmd 0 (List.replicate n 0)).ma ∧ t.xc.ctxRead = none ∧
        (t.chan c).residence = .cached e ∧ (t.chan c).fresh = false ∧ t.context c = some {}) ∧
    ((s.chan c).residence = .fetching → idle → exec .readContext s = .next (State.settle (waiting .fill) s)) ∧
    ((s.chan c).residence = .writeback → idle →
      exec .readContext s = .next (State.settle (waiting .writeBack) s)) ∧
    (∀ q rest, s.GivesWay q rest →
      let gave : State → State := fun t => State.answering { t with ma := { t.ma with queue := rest } } q 0 []
      let fetched := (waiting .fill).fetchRequest c
      ((s.chan c).residence = .stored → ¬ anew →
        exec .readContext s = .next (State.settle (gave (State.requestRead (waiting .store) .agt
          (s.xc.storeBase + BitVec.ofNat 32 (128 * c.val) + BitVec.ofNat 32 start) n .ctxRead)) s)) ∧
      ((s.chan c).residence = .stored → anew → exec .readContext s = .next (State.settle
        (if fetched.ma.state = .working cmd true then gave fetched else fetched) s)) ∧
      ((s.chan c).residence = .fetching → exec .readContext s = .next (State.settle (gave (waiting .fill)) s)) ∧
      ((s.chan c).residence = .writeback →
        exec .readContext s = .next (State.settle (gave (waiting .writeBack)) s)))) ∧
  (∀ (s : State) cmd, s.InHand 0x33 cmd → 3 < (cmd.arg8 4).toNat →
    exec .readContext s = .next (State.settle (s.answering cmd 3 []) s)) ∧
  (∀ (s : State) cmd, s.InHand 0x33 cmd → (cmd.arg8 4).toNat ≤ 3 → s.ma.nodeState = .unconfigured →
    exec .readContext s = .next (State.settle (s.answering cmd 6 []) s)) ∧
  (∀ (s : State) cmd a bytes, s.ma.state = .working cmd true → cmd.code = 0x33 →
    s.give .ctxRead a bytes = State.answering { s with xc := { s.xc with ctxRead := none } } cmd
      (if a = .ok then 0 else 7) (if a = .ok then bytes else [])) ∧
  (∀ (s : State) a bytes, s.ma.state ≠ .resetWait → (∀ cmd, s.ma.state = .working cmd true → cmd.code ≠ 0x33) →
    s.give .ctxRead a bytes = { s with xc := { s.xc with ctxRead := none } }) ∧
  (∀ (s : State) cmd, s.InHand 0x34 cmd → s.ma.nodeState = .running →
    (s.dirtyEntries = [] → exec .syncContexts s = .next (State.settle (State.answering
      { s with xc := { s.xc with syncSet := [] } } cmd 0 []) s)) ∧
    (∀ e c rest v, s.dirtyEntries = (e, c) :: rest → s.entry e = .valid v →
      let begun : Agent → State := fun ma => State.requestWrite { s with
        xc := { s.xc with syncSet := rest
                          entries := tset s.xc.entries e (.valid { v with syncing := true, changed := false }) }
        ma := ma } .ctx (s.xc.storeBase + BitVec.ofNat 32 (128 * c.val)) v.ctx.image (.syncWrite e c)
      v.channel = c ∧ v.dirty = true ∧
      (s.NoneOutOfTurn → exec .syncContexts s = .next (State.settle
        (begun { s.ma with state := .working cmd true }) s)) ∧
      (∀ q left, s.GivesWay q left → exec .syncContexts s = .next (State.settle
        ((begun { s.ma with queue := left }).answering q 0 []) s)))) ∧
  (∀ s : State,
    (∀ e c, (e, c) ∈ s.dirtyEntries ↔ ∃ v, s.entry e = .valid v ∧ v.dirty = true ∧ v.channel = c) ∧
    s.dirtyEntries.Pairwise fun a b => a.1 < b.1) ∧
  (∀ (s : State) cmd, s.InHand 0x34 cmd → s.ma.nodeState ≠ .running →
    exec .syncContexts s = .next (State.settle (s.answering cmd 6 []) s)) ∧
  (∀ (s : State) e c v, s.ma.state ≠ .resetWait → s.entry e = .valid v → v.channel = c → v.syncing = true →
    s.give (.syncWrite e c) .ok [] = State.syncNext { s with xc := { s.xc with
      entries := tset s.xc.entries e (.valid { v with syncing := false, changed := false, dirty := v.changed }) } }
      s.xc.syncSet ∧
    ∀ a, a ≠ .ok → s.give (.syncWrite e c) a [] = State.syncNext (State.channelFault { s with xc := { s.xc with
      entries := tset s.xc.entries e .free, recency := s.xc.recency.filter (· != e) } } c 2
      (if a = .timeout then 1 else 0)) s.xc.syncSet) ∧
  (∀ (s : State) e c rest,
    let dirty : CacheEntry → Prop := fun x => ∃ v, x = .valid v ∧ v.channel = c ∧ v.dirty = true
    (¬ dirty (s.entry e) → s.syncNext ((e, c) :: rest) = s.syncNext rest) ∧
    (∀ v, s.entry e = .valid v → v.channel = c → v.dirty = true →
      s.syncNext ((e, c) :: rest) = State.requestWrite { s with xc := { s.xc with
        syncSet := rest, entries := tset s.xc.entries e (.valid { v with syncing := true, changed := false }) } } .ctx
        (s.xc.storeBase + BitVec.ofNat 32 (128 * c.val)) v.ctx.image (.syncWrite e c))) ∧
  (∀ (s : State),
    (∀ cmd, s.ma.state = .working cmd true → cmd.code = 0x34 → s.syncNext [] = State.answering
      { s with xc := { s.xc with syncSet := [] } } cmd 0 []) ∧
    ((∀ cmd, s.ma.state = .working cmd true → cmd.code ≠ 0x34) →
      s.syncNext [] = { s with xc := { s.xc with syncSet := [] } }))

/-- START makes a STOPPED node RUNNING, raises NODE_STATE and polls every ring. STOP makes a RUNNING node STOPPING: the
rings leave their lock queues, the held cells are discarded into datapath_off with every pending abort, an entry whose
channel has no work left is no longer newly filled, and a fetch is requested for every channel with an open message. An
open message of a BOUND channel is closed with STOPPED from the cached context of an ACTIVE pool, with a fetch request
if it is STORED, and once every message is closed every entry is freed, a dirty one by a write-back (R80, R87); what
closed means for a cell under application is log entry 12. When both drains are over the node is STOPPED and STOP
answers OK. NODE_RESET is executed in any node state. START and STOP in another node state answer BUSY (R58, R67, R129,
R166 to R168, R172, R192, R193). The polls in rising order are log entry 22, and all fetch requests before the closes
of the channels that are ready log entry 35. A NODE_RESET queued that R165 takes out of turn is executed in the step in
which STOP is taken, and an abandoned STOP does not move the node to STOPPED (R165, log entry 15). -/
def Obligations.NodeStateCommandsMoveTheNode : Prop :=
  (∀ (s : State) cmd, s.InHand 0x40 cmd →
    (s.ma.nodeState = .stopped → exec .start s = .next (State.answering (State.polled (State.raise
      { s with ma := { s.ma with nodeState := .running } } .nodeState 0 2 1)) cmd 0 [])) ∧
    (s.ma.nodeState ≠ .stopped → exec .start s = .next (s.answering cmd 5 []))) ∧
  (∀ (s : State) cmd, s.InHand 0x41 cmd →
    let begun := State.stopReceive { s with
      ma := { s.ma with nodeState := .stopping }
      su := { s.su with
        rings := s.su.rings.map fun x => if x.state = .waitSlot then { x with state := .idle, desc := none } else x
        slots := s.su.slots.map fun x => { x with lockQueue := [] } } }
    (s.ma.nodeState = .running → s.NoneOutOfTurn →
      exec .stop s = .next (State.settle (begun.agentTo (.working cmd true)) s)) ∧
    (∀ q rest, s.ma.nodeState = .running → s.GivesWay q rest → exec .stop s = .next (State.settle
      (State.answering { begun with ma := { begun.ma with queue := rest } } q 0 []) s)) ∧
    (s.ma.nodeState ≠ .running → exec .stop s = .next (State.settle (s.answering cmd 5 []) s))) ∧
  (∀ s : State,
    let owed : Chan → Bool := fun c => (s.chan c).msgOpen && ((s.chan c).binding == .unbinding ||
      ((s.chan c).binding == .bound && s.ma.nodeState == .stopping))
    let held : State := { s with
      re := { s.re with hold := [], channels := s.re.channels.map fun ch => { ch with pendingAbort := .none }
                        scanOpen := false, scanned := [] }
      xc := { s.xc with entries := s.xc.entries.map fun x =>
        match x with
        | .valid v => .valid { v with newlyFilled := v.newlyFilled && owed v.channel }
        | .free => .free
        | .filling d => .filling d
        | .writing d claimant note => .writing d claimant note }
      counters := { s.counters with datapathOff := s.counters.datapathOff + BitVec.ofNat 32 s.re.hold.length } }
    s.stopReceive = (List.finRange 256).foldl (fun t c => if (t.chan c).msgOpen then t.fetchRequest c else t) held ∧
    ((∀ c, (s.chan c).msgOpen = false) → s.stopReceive = held)) ∧
  (∀ (s : State) cmd, s.inReset = false → s.ma.state = .working cmd true → cmd.code = 0x41 →
    let drained := s.ma.nodeState = .stopping ∧ (∀ c, (s.chan c).msgOpen = false) ∧ (∀ e, s.entry e = .free) ∧
      s.xc.waitList = [] ∧ ∀ r, (s.ring r).state ≠ .sending ∧ (s.ring r).access = none
    (drained → exec .stopDrainComplete s = .next ((State.raise
      { s with ma := { s.ma with nodeState := .stopped } } .nodeState 0 1 3).answering cmd 0 [])) ∧
    (¬ drained → exec .stopDrainComplete s = .next s)) ∧
  (∀ s : State, (∀ cmd, s.ma.state = .working cmd true → cmd.code ≠ 0x41) → exec .stopDrainComplete s = .next s) ∧
  (∀ (s : State) cmd, s.InHand 0x42 cmd → exec .nodeReset s = .next (s.answering cmd 0 [])) ∧
  (∀ (s : State) c,
    let owes := (s.chan c).binding = .bound ∧ s.ma.nodeState = .stopping ∧ (s.chan c).msgOpen = true
    let resting := ((s.chan c).op ≠ none ∨ (¬ owes ∧ (s.chan c).binding ≠ .unbinding) ∨
      (s.chan c).residence = .fetching ∨ (s.chan c).residence = .writeback ∨
      ((s.chan c).binding = .unbinding ∧ (s.chan c).msgOpen = false ∧ (s.chan c).residence = .stored))
    (owes → (s.chan c).op = none → (s.chan c).residence = .stored → s.owedWork c = s.fetchRequest c) ∧
    (∀ e v, owes → (s.chan c).op = none → (s.chan c).residence = .cached e → s.entry e = .valid v →
      ((s.pool (s.chan c).pool).state = .active → s.owedWork c = State.beginClose { s with xc := { s.xc with
        entries := tset s.xc.entries e (.valid { v with newlyFilled := false })
        recency := s.xc.recency.filter (· != e) ++ [e] } } c .stopped .owner) ∧
      ((s.pool (s.chan c).pool).state ≠ .active → s.owedWork c = s)) ∧
    (resting → s.owedWork c = s)) ∧
  (∀ s : State,
    let closed := s.ma.nodeState = .stopping ∧
      ∀ c, (s.chan c).msgOpen = false ∧ ((s.chan c).binding = .bound → (s.chan c).op = none)
    (closed → s.freeAll = (List.finRange 16).foldl (fun t e => t.freeEntry e) s) ∧ (¬ closed → s.freeAll = s)) ∧
  (∀ (s : State) e,
    (∀ v, s.entry e = .valid v →
      let left : CacheEntry → Residence → State := fun x r => State.onChan { s with xc := { s.xc with
        entries := tset s.xc.entries e x, recency := s.xc.recency.filter (· != e) } } v.channel fun ch =>
        { ch with residence := r }
      (v.dirty = false → s.freeEntry e = left .free .stored) ∧
      (v.dirty = true → s.freeEntry e = (left (.writing v.channel none false) .writeback).requestWrite .ctx
        (s.xc.storeBase + BitVec.ofNat 32 (128 * v.channel.val)) v.ctx.image (.writeBack e v.channel))) ∧
    ((∀ v, s.entry e ≠ .valid v) → s.freeEntry e = s))

/-! ## The whole part -/

/-- The node state moves only as the table of R166 gives: SET_LOCAL_MAP from UNCONFIGURED to STOPPED, START from STOPPED
to RUNNING, STOP from RUNNING to STOPPING, the end of its drains to STOPPED, and a reset to UNCONFIGURED. -/
def Obligations.NodeStateMovesOnlyAsStated : Prop :=
  ∀ c s t, exec c s = .next t → t.ma.nodeState = s.ma.nodeState ∨
    (c = .setLocalMap ∧ s.ma.nodeState = .unconfigured ∧ t.ma.nodeState = .stopped) ∨
    (c = .start ∧ s.ma.nodeState = .stopped ∧ t.ma.nodeState = .running) ∨
    (c = .stop ∧ s.ma.nodeState = .running ∧ t.ma.nodeState = .stopping) ∨
    (c = .stopDrainComplete ∧ s.ma.nodeState = .stopping ∧ t.ma.nodeState = .stopped) ∨
    (((∃ n, c = .resetReleased n) ∨ c = .nodeResetTakesEffect) ∧ t.ma.nodeState = .unconfigured)

/-- The queues, lists and counts of the part are within their ranges after reset, and the residences, rings, slots and
port agree with one another. -/
def Obligations.LegalAfterReset : Prop := State.reset.Legal

/-- Every step keeps the queues, lists and counts of the part within the ranges that their chapters give: the framer's
run counts, 64 held cells, the recency order and the Fetch Wait List, a pool's positions below its ring sizes and its
reserved count at most known_free and that at most the completion size, with nothing reserved and no slot known free in
a pool that is not ACTIVE, a ring's head below its size and weights up to 15, 8 responses, 16 outstanding requests and
32 entries, 4 queued commands and 4 managers, 8 events and a saturating lost count. A channel's residence is the one
that the cache entry naming it gives, at most one entry names a channel, and one that none names, is on the Fetch Wait
List, or is UNBOUND or FAULTED is STORED (R63, R65). A ring holds at most 4 staged cells, and with the cells whose body
reads stand at the port still at most 4; a message ended early has no read outstanding (R120, R123). A lock queue holds
no ring twice, each of its rings is in WAIT_SLOT, and the holder of a slot is SENDING on it (R111, R118). (R7 to R10,
R35, R64, R72, R99, R105, R110, R131, R142, R154, R158, R197.) -/
def Obligations.EveryStepKeepsTheLegalRanges : Prop := ∀ s t : State, s.Legal → step s = .next t → t.Legal

/-- No command but the configuration commands and the resets changes a setting of the part: no circuit entry, response
channel, channel binding parameter, store base, pool, ring or slot configuration, poll interval, request timer, manager
list, node id, event ring or event enable (R18, R26, R33, R74, R89, R110, R117, R158, R176). -/
def Obligations.OnlyConfigurationChangesSettings : Prop :=
  ∀ c s t, exec c s = .next t → Instr.configures c = false → t.settings = s.settings

/-- A cell is read back from its bytes, its header is good and, if its fields are lawful, it is not malformed; and the
bytes of a cell with a good header and no must-be-zero bit set are those of the cell read from them (R1 to R3). A cell
with a good header is malformed exactly when one of the six conditions of R3 holds: a must-be-zero bit of byte 1, 2, 3,
5 or 6, fill beyond 40, FIRST or MIDDLE with fill not 40, DATA for dest 63, EMPTY with a header byte 0 to 6 that is not
zero, and MGMT_CMD or MGMT_RSP that is not ONLY. That the third is not put to an EMPTY cell, so that the EMPTY cell the
part sends is not malformed, is the model's reading (log entry 7). -/
def Obligations.CellAndBytesAgree : Prop :=
  (∀ c : Cell, Cell.ofBytes c.bytes = c ∧ goodHeader c.bytes.toList = true ∧ reservedBitSet c.bytes.toList = false) ∧
  (∀ raw : RawCell, goodHeader raw.toList = true → reservedBitSet raw.toList = false → (Cell.ofBytes raw).bytes = raw) ∧
  (∀ c : Cell, c.fill.toNat ≤ 40 → (c.position = .first ∨ c.position = .middle → c.fill = 40) → c.kind ≠ .empty →
    (c.kind = .data → c.dest ≠ 63) → (c.kind ≠ .data → c.position = .only) → malformed c.bytes = false) ∧
  malformed emptyCell.bytes = false ∧
  (∀ raw : RawCell, goodHeader raw.toList = true →
    let b : Nat → Byte := byteAt raw.toList
    let kind := (b 0).extractLsb' 6 2
    let position := (b 0).extractLsb' 4 2
    let fill := (b 5).extractLsb' 0 6
    (malformed raw = true ↔
      ((b 1).extractLsb' 6 2 ≠ 0 ∨ (b 2).extractLsb' 6 2 ≠ 0 ∨ (b 3).extractLsb' 3 5 ≠ 0 ∨
        (b 5).extractLsb' 6 2 ≠ 0 ∨ (b 6).extractLsb' 4 4 ≠ 0) ∨
      40 < fill.toNat ∨
      (kind ≠ 0 ∧ (position = 1 ∨ position = 0) ∧ fill ≠ 40) ∨
      (kind = 1 ∧ (b 1).extractLsb' 0 6 = 63) ∨
      (kind = 0 ∧ ∃ k < 7, b k ≠ 0) ∨
      ((kind = 2 ∨ kind = 3) ∧ position ≠ 3)))
end

