-- ==== Sys2Proof/Laws/State.lean ====
section
/-! SUPPORT. The small laws of the state: one lemma for each field after each update, the laws of the tables, and the laws of the byte and number helpers. -/

namespace Sys2Proof.Machine

set_option linter.unusedTactic false
set_option linter.unreachableTactic false
set_option linter.unusedSimpArgs false
set_option linter.unusedVariables false

section Tables

variable {α : Type} {n : Nat}

@[simp] theorem tget_tset_self (v : Vector α n) (i : Fin n) (x : α) : tget (tset v i x) i = x := by
  simp [tget, tset]

theorem tget_tset_ne (v : Vector α n) {i j : Fin n} (x : α) (h : i ≠ j) : tget (tset v i x) j = tget v j := by
  have h' : i.val ≠ j.val := fun e => h (Fin.ext e)
  simp [tget, tset, h']

theorem tget_tset (v : Vector α n) (i j : Fin n) (x : α) : tget (tset v i x) j = if i = j then x else tget v j := by
  split
  · subst i; simp
  · exact tget_tset_ne v x ‹_›

theorem tget_tmod (v : Vector α n) (i j : Fin n) (f : α → α) :
    tget (tmod v i f) j = if i = j then f (tget v j) else tget v j := by
  rw [tmod, tget_tset]
  split
  · subst i; rfl
  · rfl

@[simp] theorem tget_tmod_self (v : Vector α n) (i : Fin n) (f : α → α) : tget (tmod v i f) i = f (tget v i) := by
  simp [tget_tmod]

@[simp] theorem tget_map {β : Type} (v : Vector α n) (f : α → β) (i : Fin n) : tget (v.map f) i = f (tget v i) := by
  simp [tget]

@[simp] theorem tget_replicate (x : α) (i : Fin n) : tget (Vector.replicate n x) i = x := by
  simp [tget]

end Tables

section Fields

variable (s : State)

@[simp] theorem State.onCf_inReset (f : Framer → Framer) : (s.onCf f).inReset = s.inReset := rfl
@[simp] theorem State.onCf_cf (f : Framer → Framer) : (s.onCf f).cf = f s.cf := rfl
@[simp] theorem State.onCf_cc (f : Framer → Framer) : (s.onCf f).cc = s.cc := rfl
@[simp] theorem State.onCf_re (f : Framer → Framer) : (s.onCf f).re = s.re := rfl
@[simp] theorem State.onCf_xc (f : Framer → Framer) : (s.onCf f).xc = s.xc := rfl
@[simp] theorem State.onCf_du (f : Framer → Framer) : (s.onCf f).du = s.du := rfl
@[simp] theorem State.onCf_su (f : Framer → Framer) : (s.onCf f).su = s.su := rfl
@[simp] theorem State.onCf_ia (f : Framer → Framer) : (s.onCf f).ia = s.ia := rfl
@[simp] theorem State.onCf_lmp (f : Framer → Framer) : (s.onCf f).lmp = s.lmp := rfl
@[simp] theorem State.onCf_ma (f : Framer → Framer) : (s.onCf f).ma = s.ma := rfl
@[simp] theorem State.onCf_ew (f : Framer → Framer) : (s.onCf f).ew = s.ew := rfl
@[simp] theorem State.onCf_counters (f : Framer → Framer) : (s.onCf f).counters = s.counters := rfl
@[simp] theorem State.onCf_freeReads (f : Framer → Framer) : (s.onCf f).freeReads = s.freeReads := rfl
@[simp] theorem State.onCf_pending (f : Framer → Framer) : (s.onCf f).pending = s.pending := rfl

@[simp] theorem State.onCc_inReset (f : Classifier → Classifier) : (s.onCc f).inReset = s.inReset := rfl
@[simp] theorem State.onCc_cf (f : Classifier → Classifier) : (s.onCc f).cf = s.cf := rfl
@[simp] theorem State.onCc_cc (f : Classifier → Classifier) : (s.onCc f).cc = f s.cc := rfl
@[simp] theorem State.onCc_re (f : Classifier → Classifier) : (s.onCc f).re = s.re := rfl
@[simp] theorem State.onCc_xc (f : Classifier → Classifier) : (s.onCc f).xc = s.xc := rfl
@[simp] theorem State.onCc_du (f : Classifier → Classifier) : (s.onCc f).du = s.du := rfl
@[simp] theorem State.onCc_su (f : Classifier → Classifier) : (s.onCc f).su = s.su := rfl
@[simp] theorem State.onCc_ia (f : Classifier → Classifier) : (s.onCc f).ia = s.ia := rfl
@[simp] theorem State.onCc_lmp (f : Classifier → Classifier) : (s.onCc f).lmp = s.lmp := rfl
@[simp] theorem State.onCc_ma (f : Classifier → Classifier) : (s.onCc f).ma = s.ma := rfl
@[simp] theorem State.onCc_ew (f : Classifier → Classifier) : (s.onCc f).ew = s.ew := rfl
@[simp] theorem State.onCc_counters (f : Classifier → Classifier) : (s.onCc f).counters = s.counters := rfl
@[simp] theorem State.onCc_freeReads (f : Classifier → Classifier) : (s.onCc f).freeReads = s.freeReads := rfl
@[simp] theorem State.onCc_pending (f : Classifier → Classifier) : (s.onCc f).pending = s.pending := rfl

@[simp] theorem State.onRe_inReset (f : Reassembly → Reassembly) : (s.onRe f).inReset = s.inReset := rfl
@[simp] theorem State.onRe_cf (f : Reassembly → Reassembly) : (s.onRe f).cf = s.cf := rfl
@[simp] theorem State.onRe_cc (f : Reassembly → Reassembly) : (s.onRe f).cc = s.cc := rfl
@[simp] theorem State.onRe_re (f : Reassembly → Reassembly) : (s.onRe f).re = f s.re := rfl
@[simp] theorem State.onRe_xc (f : Reassembly → Reassembly) : (s.onRe f).xc = s.xc := rfl
@[simp] theorem State.onRe_du (f : Reassembly → Reassembly) : (s.onRe f).du = s.du := rfl
@[simp] theorem State.onRe_su (f : Reassembly → Reassembly) : (s.onRe f).su = s.su := rfl
@[simp] theorem State.onRe_ia (f : Reassembly → Reassembly) : (s.onRe f).ia = s.ia := rfl
@[simp] theorem State.onRe_lmp (f : Reassembly → Reassembly) : (s.onRe f).lmp = s.lmp := rfl
@[simp] theorem State.onRe_ma (f : Reassembly → Reassembly) : (s.onRe f).ma = s.ma := rfl
@[simp] theorem State.onRe_ew (f : Reassembly → Reassembly) : (s.onRe f).ew = s.ew := rfl
@[simp] theorem State.onRe_counters (f : Reassembly → Reassembly) : (s.onRe f).counters = s.counters := rfl
@[simp] theorem State.onRe_freeReads (f : Reassembly → Reassembly) : (s.onRe f).freeReads = s.freeReads := rfl
@[simp] theorem State.onRe_pending (f : Reassembly → Reassembly) : (s.onRe f).pending = s.pending := rfl

@[simp] theorem State.onXc_inReset (f : Cache → Cache) : (s.onXc f).inReset = s.inReset := rfl
@[simp] theorem State.onXc_cf (f : Cache → Cache) : (s.onXc f).cf = s.cf := rfl
@[simp] theorem State.onXc_cc (f : Cache → Cache) : (s.onXc f).cc = s.cc := rfl
@[simp] theorem State.onXc_re (f : Cache → Cache) : (s.onXc f).re = s.re := rfl
@[simp] theorem State.onXc_xc (f : Cache → Cache) : (s.onXc f).xc = f s.xc := rfl
@[simp] theorem State.onXc_du (f : Cache → Cache) : (s.onXc f).du = s.du := rfl
@[simp] theorem State.onXc_su (f : Cache → Cache) : (s.onXc f).su = s.su := rfl
@[simp] theorem State.onXc_ia (f : Cache → Cache) : (s.onXc f).ia = s.ia := rfl
@[simp] theorem State.onXc_lmp (f : Cache → Cache) : (s.onXc f).lmp = s.lmp := rfl
@[simp] theorem State.onXc_ma (f : Cache → Cache) : (s.onXc f).ma = s.ma := rfl
@[simp] theorem State.onXc_ew (f : Cache → Cache) : (s.onXc f).ew = s.ew := rfl
@[simp] theorem State.onXc_counters (f : Cache → Cache) : (s.onXc f).counters = s.counters := rfl
@[simp] theorem State.onXc_freeReads (f : Cache → Cache) : (s.onXc f).freeReads = s.freeReads := rfl
@[simp] theorem State.onXc_pending (f : Cache → Cache) : (s.onXc f).pending = s.pending := rfl

@[simp] theorem State.onDu_inReset (f : Vector Pool 4 → Vector Pool 4) : (s.onDu f).inReset = s.inReset := rfl
@[simp] theorem State.onDu_cf (f : Vector Pool 4 → Vector Pool 4) : (s.onDu f).cf = s.cf := rfl
@[simp] theorem State.onDu_cc (f : Vector Pool 4 → Vector Pool 4) : (s.onDu f).cc = s.cc := rfl
@[simp] theorem State.onDu_re (f : Vector Pool 4 → Vector Pool 4) : (s.onDu f).re = s.re := rfl
@[simp] theorem State.onDu_xc (f : Vector Pool 4 → Vector Pool 4) : (s.onDu f).xc = s.xc := rfl
@[simp] theorem State.onDu_du (f : Vector Pool 4 → Vector Pool 4) : (s.onDu f).du = f s.du := rfl
@[simp] theorem State.onDu_su (f : Vector Pool 4 → Vector Pool 4) : (s.onDu f).su = s.su := rfl
@[simp] theorem State.onDu_ia (f : Vector Pool 4 → Vector Pool 4) : (s.onDu f).ia = s.ia := rfl
@[simp] theorem State.onDu_lmp (f : Vector Pool 4 → Vector Pool 4) : (s.onDu f).lmp = s.lmp := rfl
@[simp] theorem State.onDu_ma (f : Vector Pool 4 → Vector Pool 4) : (s.onDu f).ma = s.ma := rfl
@[simp] theorem State.onDu_ew (f : Vector Pool 4 → Vector Pool 4) : (s.onDu f).ew = s.ew := rfl
@[simp] theorem State.onDu_counters (f : Vector Pool 4 → Vector Pool 4) : (s.onDu f).counters = s.counters := rfl
@[simp] theorem State.onDu_freeReads (f : Vector Pool 4 → Vector Pool 4) : (s.onDu f).freeReads = s.freeReads := rfl
@[simp] theorem State.onDu_pending (f : Vector Pool 4 → Vector Pool 4) : (s.onDu f).pending = s.pending := rfl

@[simp] theorem State.onSu_inReset (f : Segmentation → Segmentation) : (s.onSu f).inReset = s.inReset := rfl
@[simp] theorem State.onSu_cf (f : Segmentation → Segmentation) : (s.onSu f).cf = s.cf := rfl
@[simp] theorem State.onSu_cc (f : Segmentation → Segmentation) : (s.onSu f).cc = s.cc := rfl
@[simp] theorem State.onSu_re (f : Segmentation → Segmentation) : (s.onSu f).re = s.re := rfl
@[simp] theorem State.onSu_xc (f : Segmentation → Segmentation) : (s.onSu f).xc = s.xc := rfl
@[simp] theorem State.onSu_du (f : Segmentation → Segmentation) : (s.onSu f).du = s.du := rfl
@[simp] theorem State.onSu_su (f : Segmentation → Segmentation) : (s.onSu f).su = f s.su := rfl
@[simp] theorem State.onSu_ia (f : Segmentation → Segmentation) : (s.onSu f).ia = s.ia := rfl
@[simp] theorem State.onSu_lmp (f : Segmentation → Segmentation) : (s.onSu f).lmp = s.lmp := rfl
@[simp] theorem State.onSu_ma (f : Segmentation → Segmentation) : (s.onSu f).ma = s.ma := rfl
@[simp] theorem State.onSu_ew (f : Segmentation → Segmentation) : (s.onSu f).ew = s.ew := rfl
@[simp] theorem State.onSu_counters (f : Segmentation → Segmentation) : (s.onSu f).counters = s.counters := rfl
@[simp] theorem State.onSu_freeReads (f : Segmentation → Segmentation) : (s.onSu f).freeReads = s.freeReads := rfl
@[simp] theorem State.onSu_pending (f : Segmentation → Segmentation) : (s.onSu f).pending = s.pending := rfl

@[simp] theorem State.onIa_inReset (f : Arbiter → Arbiter) : (s.onIa f).inReset = s.inReset := rfl
@[simp] theorem State.onIa_cf (f : Arbiter → Arbiter) : (s.onIa f).cf = s.cf := rfl
@[simp] theorem State.onIa_cc (f : Arbiter → Arbiter) : (s.onIa f).cc = s.cc := rfl
@[simp] theorem State.onIa_re (f : Arbiter → Arbiter) : (s.onIa f).re = s.re := rfl
@[simp] theorem State.onIa_xc (f : Arbiter → Arbiter) : (s.onIa f).xc = s.xc := rfl
@[simp] theorem State.onIa_du (f : Arbiter → Arbiter) : (s.onIa f).du = s.du := rfl
@[simp] theorem State.onIa_su (f : Arbiter → Arbiter) : (s.onIa f).su = s.su := rfl
@[simp] theorem State.onIa_ia (f : Arbiter → Arbiter) : (s.onIa f).ia = f s.ia := rfl
@[simp] theorem State.onIa_lmp (f : Arbiter → Arbiter) : (s.onIa f).lmp = s.lmp := rfl
@[simp] theorem State.onIa_ma (f : Arbiter → Arbiter) : (s.onIa f).ma = s.ma := rfl
@[simp] theorem State.onIa_ew (f : Arbiter → Arbiter) : (s.onIa f).ew = s.ew := rfl
@[simp] theorem State.onIa_counters (f : Arbiter → Arbiter) : (s.onIa f).counters = s.counters := rfl
@[simp] theorem State.onIa_freeReads (f : Arbiter → Arbiter) : (s.onIa f).freeReads = s.freeReads := rfl
@[simp] theorem State.onIa_pending (f : Arbiter → Arbiter) : (s.onIa f).pending = s.pending := rfl

@[simp] theorem State.onLmp_inReset (f : Port → Port) : (s.onLmp f).inReset = s.inReset := rfl
@[simp] theorem State.onLmp_cf (f : Port → Port) : (s.onLmp f).cf = s.cf := rfl
@[simp] theorem State.onLmp_cc (f : Port → Port) : (s.onLmp f).cc = s.cc := rfl
@[simp] theorem State.onLmp_re (f : Port → Port) : (s.onLmp f).re = s.re := rfl
@[simp] theorem State.onLmp_xc (f : Port → Port) : (s.onLmp f).xc = s.xc := rfl
@[simp] theorem State.onLmp_du (f : Port → Port) : (s.onLmp f).du = s.du := rfl
@[simp] theorem State.onLmp_su (f : Port → Port) : (s.onLmp f).su = s.su := rfl
@[simp] theorem State.onLmp_ia (f : Port → Port) : (s.onLmp f).ia = s.ia := rfl
@[simp] theorem State.onLmp_lmp (f : Port → Port) : (s.onLmp f).lmp = f s.lmp := rfl
@[simp] theorem State.onLmp_ma (f : Port → Port) : (s.onLmp f).ma = s.ma := rfl
@[simp] theorem State.onLmp_ew (f : Port → Port) : (s.onLmp f).ew = s.ew := rfl
@[simp] theorem State.onLmp_counters (f : Port → Port) : (s.onLmp f).counters = s.counters := rfl
@[simp] theorem State.onLmp_freeReads (f : Port → Port) : (s.onLmp f).freeReads = s.freeReads := rfl
@[simp] theorem State.onLmp_pending (f : Port → Port) : (s.onLmp f).pending = s.pending := rfl

@[simp] theorem State.onMa_inReset (f : Agent → Agent) : (s.onMa f).inReset = s.inReset := rfl
@[simp] theorem State.onMa_cf (f : Agent → Agent) : (s.onMa f).cf = s.cf := rfl
@[simp] theorem State.onMa_cc (f : Agent → Agent) : (s.onMa f).cc = s.cc := rfl
@[simp] theorem State.onMa_re (f : Agent → Agent) : (s.onMa f).re = s.re := rfl
@[simp] theorem State.onMa_xc (f : Agent → Agent) : (s.onMa f).xc = s.xc := rfl
@[simp] theorem State.onMa_du (f : Agent → Agent) : (s.onMa f).du = s.du := rfl
@[simp] theorem State.onMa_su (f : Agent → Agent) : (s.onMa f).su = s.su := rfl
@[simp] theorem State.onMa_ia (f : Agent → Agent) : (s.onMa f).ia = s.ia := rfl
@[simp] theorem State.onMa_lmp (f : Agent → Agent) : (s.onMa f).lmp = s.lmp := rfl
@[simp] theorem State.onMa_ma (f : Agent → Agent) : (s.onMa f).ma = f s.ma := rfl
@[simp] theorem State.onMa_ew (f : Agent → Agent) : (s.onMa f).ew = s.ew := rfl
@[simp] theorem State.onMa_counters (f : Agent → Agent) : (s.onMa f).counters = s.counters := rfl
@[simp] theorem State.onMa_freeReads (f : Agent → Agent) : (s.onMa f).freeReads = s.freeReads := rfl
@[simp] theorem State.onMa_pending (f : Agent → Agent) : (s.onMa f).pending = s.pending := rfl

@[simp] theorem State.onEw_inReset (f : EventWriter → EventWriter) : (s.onEw f).inReset = s.inReset := rfl
@[simp] theorem State.onEw_cf (f : EventWriter → EventWriter) : (s.onEw f).cf = s.cf := rfl
@[simp] theorem State.onEw_cc (f : EventWriter → EventWriter) : (s.onEw f).cc = s.cc := rfl
@[simp] theorem State.onEw_re (f : EventWriter → EventWriter) : (s.onEw f).re = s.re := rfl
@[simp] theorem State.onEw_xc (f : EventWriter → EventWriter) : (s.onEw f).xc = s.xc := rfl
@[simp] theorem State.onEw_du (f : EventWriter → EventWriter) : (s.onEw f).du = s.du := rfl
@[simp] theorem State.onEw_su (f : EventWriter → EventWriter) : (s.onEw f).su = s.su := rfl
@[simp] theorem State.onEw_ia (f : EventWriter → EventWriter) : (s.onEw f).ia = s.ia := rfl
@[simp] theorem State.onEw_lmp (f : EventWriter → EventWriter) : (s.onEw f).lmp = s.lmp := rfl
@[simp] theorem State.onEw_ma (f : EventWriter → EventWriter) : (s.onEw f).ma = s.ma := rfl
@[simp] theorem State.onEw_ew (f : EventWriter → EventWriter) : (s.onEw f).ew = f s.ew := rfl
@[simp] theorem State.onEw_counters (f : EventWriter → EventWriter) : (s.onEw f).counters = s.counters := rfl
@[simp] theorem State.onEw_freeReads (f : EventWriter → EventWriter) : (s.onEw f).freeReads = s.freeReads := rfl
@[simp] theorem State.onEw_pending (f : EventWriter → EventWriter) : (s.onEw f).pending = s.pending := rfl

@[simp] theorem State.onCounters_inReset (f : Counters → Counters) : (s.onCounters f).inReset = s.inReset := rfl
@[simp] theorem State.onCounters_cf (f : Counters → Counters) : (s.onCounters f).cf = s.cf := rfl
@[simp] theorem State.onCounters_cc (f : Counters → Counters) : (s.onCounters f).cc = s.cc := rfl
@[simp] theorem State.onCounters_re (f : Counters → Counters) : (s.onCounters f).re = s.re := rfl
@[simp] theorem State.onCounters_xc (f : Counters → Counters) : (s.onCounters f).xc = s.xc := rfl
@[simp] theorem State.onCounters_du (f : Counters → Counters) : (s.onCounters f).du = s.du := rfl
@[simp] theorem State.onCounters_su (f : Counters → Counters) : (s.onCounters f).su = s.su := rfl
@[simp] theorem State.onCounters_ia (f : Counters → Counters) : (s.onCounters f).ia = s.ia := rfl
@[simp] theorem State.onCounters_lmp (f : Counters → Counters) : (s.onCounters f).lmp = s.lmp := rfl
@[simp] theorem State.onCounters_ma (f : Counters → Counters) : (s.onCounters f).ma = s.ma := rfl
@[simp] theorem State.onCounters_ew (f : Counters → Counters) : (s.onCounters f).ew = s.ew := rfl
@[simp] theorem State.onCounters_counters (f : Counters → Counters) : (s.onCounters f).counters = f s.counters := rfl
@[simp] theorem State.onCounters_freeReads (f : Counters → Counters) : (s.onCounters f).freeReads = s.freeReads := rfl
@[simp] theorem State.onCounters_pending (f : Counters → Counters) : (s.onCounters f).pending = s.pending := rfl

@[simp] theorem State.onCf_chan (f : Framer → Framer) (i : Chan) : (s.onCf f).chan i = s.chan i := rfl
@[simp] theorem State.onCf_entry (f : Framer → Framer) (i : EntryId) : (s.onCf f).entry i = s.entry i := rfl
@[simp] theorem State.onCf_pool (f : Framer → Framer) (i : PoolId) : (s.onCf f).pool i = s.pool i := rfl
@[simp] theorem State.onCf_ring (f : Framer → Framer) (i : RingId) : (s.onCf f).ring i = s.ring i := rfl
@[simp] theorem State.onCf_slot (f : Framer → Framer) (i : SlotId) : (s.onCf f).slot i = s.slot i := rfl
@[simp] theorem State.onCf_circuit (f : Framer → Framer) (i : BitVec 11) : (s.onCf f).circuit i = s.circuit i := rfl

@[simp] theorem State.onCc_chan (f : Classifier → Classifier) (i : Chan) : (s.onCc f).chan i = s.chan i := rfl
@[simp] theorem State.onCc_entry (f : Classifier → Classifier) (i : EntryId) : (s.onCc f).entry i = s.entry i := rfl
@[simp] theorem State.onCc_pool (f : Classifier → Classifier) (i : PoolId) : (s.onCc f).pool i = s.pool i := rfl
@[simp] theorem State.onCc_ring (f : Classifier → Classifier) (i : RingId) : (s.onCc f).ring i = s.ring i := rfl
@[simp] theorem State.onCc_slot (f : Classifier → Classifier) (i : SlotId) : (s.onCc f).slot i = s.slot i := rfl

@[simp] theorem State.onRe_entry (f : Reassembly → Reassembly) (i : EntryId) : (s.onRe f).entry i = s.entry i := rfl
@[simp] theorem State.onRe_pool (f : Reassembly → Reassembly) (i : PoolId) : (s.onRe f).pool i = s.pool i := rfl
@[simp] theorem State.onRe_ring (f : Reassembly → Reassembly) (i : RingId) : (s.onRe f).ring i = s.ring i := rfl
@[simp] theorem State.onRe_slot (f : Reassembly → Reassembly) (i : SlotId) : (s.onRe f).slot i = s.slot i := rfl
@[simp] theorem State.onRe_circuit (f : Reassembly → Reassembly) (i : BitVec 11) : (s.onRe f).circuit i = s.circuit i := rfl

@[simp] theorem State.onXc_chan (f : Cache → Cache) (i : Chan) : (s.onXc f).chan i = s.chan i := rfl
@[simp] theorem State.onXc_pool (f : Cache → Cache) (i : PoolId) : (s.onXc f).pool i = s.pool i := rfl
@[simp] theorem State.onXc_ring (f : Cache → Cache) (i : RingId) : (s.onXc f).ring i = s.ring i := rfl
@[simp] theorem State.onXc_slot (f : Cache → Cache) (i : SlotId) : (s.onXc f).slot i = s.slot i := rfl
@[simp] theorem State.onXc_circuit (f : Cache → Cache) (i : BitVec 11) : (s.onXc f).circuit i = s.circuit i := rfl

@[simp] theorem State.onDu_chan (f : Vector Pool 4 → Vector Pool 4) (i : Chan) : (s.onDu f).chan i = s.chan i := rfl
@[simp] theorem State.onDu_entry (f : Vector Pool 4 → Vector Pool 4) (i : EntryId) : (s.onDu f).entry i = s.entry i := rfl
@[simp] theorem State.onDu_ring (f : Vector Pool 4 → Vector Pool 4) (i : RingId) : (s.onDu f).ring i = s.ring i := rfl
@[simp] theorem State.onDu_slot (f : Vector Pool 4 → Vector Pool 4) (i : SlotId) : (s.onDu f).slot i = s.slot i := rfl
@[simp] theorem State.onDu_circuit (f : Vector Pool 4 → Vector Pool 4) (i : BitVec 11) : (s.onDu f).circuit i = s.circuit i := rfl

@[simp] theorem State.onSu_chan (f : Segmentation → Segmentation) (i : Chan) : (s.onSu f).chan i = s.chan i := rfl
@[simp] theorem State.onSu_entry (f : Segmentation → Segmentation) (i : EntryId) : (s.onSu f).entry i = s.entry i := rfl
@[simp] theorem State.onSu_pool (f : Segmentation → Segmentation) (i : PoolId) : (s.onSu f).pool i = s.pool i := rfl
@[simp] theorem State.onSu_circuit (f : Segmentation → Segmentation) (i : BitVec 11) : (s.onSu f).circuit i = s.circuit i := rfl

@[simp] theorem State.onIa_chan (f : Arbiter → Arbiter) (i : Chan) : (s.onIa f).chan i = s.chan i := rfl
@[simp] theorem State.onIa_entry (f : Arbiter → Arbiter) (i : EntryId) : (s.onIa f).entry i = s.entry i := rfl
@[simp] theorem State.onIa_pool (f : Arbiter → Arbiter) (i : PoolId) : (s.onIa f).pool i = s.pool i := rfl
@[simp] theorem State.onIa_ring (f : Arbiter → Arbiter) (i : RingId) : (s.onIa f).ring i = s.ring i := rfl
@[simp] theorem State.onIa_slot (f : Arbiter → Arbiter) (i : SlotId) : (s.onIa f).slot i = s.slot i := rfl
@[simp] theorem State.onIa_circuit (f : Arbiter → Arbiter) (i : BitVec 11) : (s.onIa f).circuit i = s.circuit i := rfl

@[simp] theorem State.onLmp_chan (f : Port → Port) (i : Chan) : (s.onLmp f).chan i = s.chan i := rfl
@[simp] theorem State.onLmp_entry (f : Port → Port) (i : EntryId) : (s.onLmp f).entry i = s.entry i := rfl
@[simp] theorem State.onLmp_pool (f : Port → Port) (i : PoolId) : (s.onLmp f).pool i = s.pool i := rfl
@[simp] theorem State.onLmp_ring (f : Port → Port) (i : RingId) : (s.onLmp f).ring i = s.ring i := rfl
@[simp] theorem State.onLmp_slot (f : Port → Port) (i : SlotId) : (s.onLmp f).slot i = s.slot i := rfl
@[simp] theorem State.onLmp_circuit (f : Port → Port) (i : BitVec 11) : (s.onLmp f).circuit i = s.circuit i := rfl

@[simp] theorem State.onMa_chan (f : Agent → Agent) (i : Chan) : (s.onMa f).chan i = s.chan i := rfl
@[simp] theorem State.onMa_entry (f : Agent → Agent) (i : EntryId) : (s.onMa f).entry i = s.entry i := rfl
@[simp] theorem State.onMa_pool (f : Agent → Agent) (i : PoolId) : (s.onMa f).pool i = s.pool i := rfl
@[simp] theorem State.onMa_ring (f : Agent → Agent) (i : RingId) : (s.onMa f).ring i = s.ring i := rfl
@[simp] theorem State.onMa_slot (f : Agent → Agent) (i : SlotId) : (s.onMa f).slot i = s.slot i := rfl
@[simp] theorem State.onMa_circuit (f : Agent → Agent) (i : BitVec 11) : (s.onMa f).circuit i = s.circuit i := rfl

@[simp] theorem State.onEw_chan (f : EventWriter → EventWriter) (i : Chan) : (s.onEw f).chan i = s.chan i := rfl
@[simp] theorem State.onEw_entry (f : EventWriter → EventWriter) (i : EntryId) : (s.onEw f).entry i = s.entry i := rfl
@[simp] theorem State.onEw_pool (f : EventWriter → EventWriter) (i : PoolId) : (s.onEw f).pool i = s.pool i := rfl
@[simp] theorem State.onEw_ring (f : EventWriter → EventWriter) (i : RingId) : (s.onEw f).ring i = s.ring i := rfl
@[simp] theorem State.onEw_slot (f : EventWriter → EventWriter) (i : SlotId) : (s.onEw f).slot i = s.slot i := rfl
@[simp] theorem State.onEw_circuit (f : EventWriter → EventWriter) (i : BitVec 11) : (s.onEw f).circuit i = s.circuit i := rfl

@[simp] theorem State.onCounters_chan (f : Counters → Counters) (i : Chan) : (s.onCounters f).chan i = s.chan i := rfl
@[simp] theorem State.onCounters_entry (f : Counters → Counters) (i : EntryId) : (s.onCounters f).entry i = s.entry i := rfl
@[simp] theorem State.onCounters_pool (f : Counters → Counters) (i : PoolId) : (s.onCounters f).pool i = s.pool i := rfl
@[simp] theorem State.onCounters_ring (f : Counters → Counters) (i : RingId) : (s.onCounters f).ring i = s.ring i := rfl
@[simp] theorem State.onCounters_slot (f : Counters → Counters) (i : SlotId) : (s.onCounters f).slot i = s.slot i := rfl
@[simp] theorem State.onCounters_circuit (f : Counters → Counters) (i : BitVec 11) : (s.onCounters f).circuit i = s.circuit i := rfl

@[simp] theorem State.onChan_inReset (c : Chan) (f : Channel → Channel) : (s.onChan c f).inReset = s.inReset := rfl
@[simp] theorem State.onChan_cf (c : Chan) (f : Channel → Channel) : (s.onChan c f).cf = s.cf := rfl
@[simp] theorem State.onChan_cc (c : Chan) (f : Channel → Channel) : (s.onChan c f).cc = s.cc := rfl
@[simp] theorem State.onChan_xc (c : Chan) (f : Channel → Channel) : (s.onChan c f).xc = s.xc := rfl
@[simp] theorem State.onChan_du (c : Chan) (f : Channel → Channel) : (s.onChan c f).du = s.du := rfl
@[simp] theorem State.onChan_su (c : Chan) (f : Channel → Channel) : (s.onChan c f).su = s.su := rfl
@[simp] theorem State.onChan_ia (c : Chan) (f : Channel → Channel) : (s.onChan c f).ia = s.ia := rfl
@[simp] theorem State.onChan_lmp (c : Chan) (f : Channel → Channel) : (s.onChan c f).lmp = s.lmp := rfl
@[simp] theorem State.onChan_ma (c : Chan) (f : Channel → Channel) : (s.onChan c f).ma = s.ma := rfl
@[simp] theorem State.onChan_ew (c : Chan) (f : Channel → Channel) : (s.onChan c f).ew = s.ew := rfl
@[simp] theorem State.onChan_counters (c : Chan) (f : Channel → Channel) : (s.onChan c f).counters = s.counters := rfl
@[simp] theorem State.onChan_freeReads (c : Chan) (f : Channel → Channel) : (s.onChan c f).freeReads = s.freeReads := rfl
@[simp] theorem State.onChan_pending (c : Chan) (f : Channel → Channel) : (s.onChan c f).pending = s.pending := rfl
@[simp] theorem State.onChan_entry (c : Chan) (f : Channel → Channel) (i : EntryId) : (s.onChan c f).entry i = s.entry i := rfl
@[simp] theorem State.onChan_pool (c : Chan) (f : Channel → Channel) (i : PoolId) : (s.onChan c f).pool i = s.pool i := rfl
@[simp] theorem State.onChan_ring (c : Chan) (f : Channel → Channel) (i : RingId) : (s.onChan c f).ring i = s.ring i := rfl
@[simp] theorem State.onChan_slot (c : Chan) (f : Channel → Channel) (i : SlotId) : (s.onChan c f).slot i = s.slot i := rfl
@[simp] theorem State.onChan_circuit (c : Chan) (f : Channel → Channel) (i : BitVec 11) : (s.onChan c f).circuit i = s.circuit i := rfl

@[simp] theorem State.setEntry_inReset (e : EntryId) (x : CacheEntry) : (s.setEntry e x).inReset = s.inReset := rfl
@[simp] theorem State.setEntry_cf (e : EntryId) (x : CacheEntry) : (s.setEntry e x).cf = s.cf := rfl
@[simp] theorem State.setEntry_cc (e : EntryId) (x : CacheEntry) : (s.setEntry e x).cc = s.cc := rfl
@[simp] theorem State.setEntry_re (e : EntryId) (x : CacheEntry) : (s.setEntry e x).re = s.re := rfl
@[simp] theorem State.setEntry_du (e : EntryId) (x : CacheEntry) : (s.setEntry e x).du = s.du := rfl
@[simp] theorem State.setEntry_su (e : EntryId) (x : CacheEntry) : (s.setEntry e x).su = s.su := rfl
@[simp] theorem State.setEntry_ia (e : EntryId) (x : CacheEntry) : (s.setEntry e x).ia = s.ia := rfl
@[simp] theorem State.setEntry_lmp (e : EntryId) (x : CacheEntry) : (s.setEntry e x).lmp = s.lmp := rfl
@[simp] theorem State.setEntry_ma (e : EntryId) (x : CacheEntry) : (s.setEntry e x).ma = s.ma := rfl
@[simp] theorem State.setEntry_ew (e : EntryId) (x : CacheEntry) : (s.setEntry e x).ew = s.ew := rfl
@[simp] theorem State.setEntry_counters (e : EntryId) (x : CacheEntry) : (s.setEntry e x).counters = s.counters := rfl
@[simp] theorem State.setEntry_freeReads (e : EntryId) (x : CacheEntry) : (s.setEntry e x).freeReads = s.freeReads := rfl
@[simp] theorem State.setEntry_pending (e : EntryId) (x : CacheEntry) : (s.setEntry e x).pending = s.pending := rfl
@[simp] theorem State.setEntry_chan (e : EntryId) (x : CacheEntry) (i : Chan) : (s.setEntry e x).chan i = s.chan i := rfl
@[simp] theorem State.setEntry_pool (e : EntryId) (x : CacheEntry) (i : PoolId) : (s.setEntry e x).pool i = s.pool i := rfl
@[simp] theorem State.setEntry_ring (e : EntryId) (x : CacheEntry) (i : RingId) : (s.setEntry e x).ring i = s.ring i := rfl
@[simp] theorem State.setEntry_slot (e : EntryId) (x : CacheEntry) (i : SlotId) : (s.setEntry e x).slot i = s.slot i := rfl
@[simp] theorem State.setEntry_circuit (e : EntryId) (x : CacheEntry) (i : BitVec 11) : (s.setEntry e x).circuit i = s.circuit i := rfl

@[simp] theorem State.onPool_inReset (p : PoolId) (f : Pool → Pool) : (s.onPool p f).inReset = s.inReset := rfl
@[simp] theorem State.onPool_cf (p : PoolId) (f : Pool → Pool) : (s.onPool p f).cf = s.cf := rfl
@[simp] theorem State.onPool_cc (p : PoolId) (f : Pool → Pool) : (s.onPool p f).cc = s.cc := rfl
@[simp] theorem State.onPool_re (p : PoolId) (f : Pool → Pool) : (s.onPool p f).re = s.re := rfl
@[simp] theorem State.onPool_xc (p : PoolId) (f : Pool → Pool) : (s.onPool p f).xc = s.xc := rfl
@[simp] theorem State.onPool_su (p : PoolId) (f : Pool → Pool) : (s.onPool p f).su = s.su := rfl
@[simp] theorem State.onPool_ia (p : PoolId) (f : Pool → Pool) : (s.onPool p f).ia = s.ia := rfl
@[simp] theorem State.onPool_lmp (p : PoolId) (f : Pool → Pool) : (s.onPool p f).lmp = s.lmp := rfl
@[simp] theorem State.onPool_ma (p : PoolId) (f : Pool → Pool) : (s.onPool p f).ma = s.ma := rfl
@[simp] theorem State.onPool_ew (p : PoolId) (f : Pool → Pool) : (s.onPool p f).ew = s.ew := rfl
@[simp] theorem State.onPool_counters (p : PoolId) (f : Pool → Pool) : (s.onPool p f).counters = s.counters := rfl
@[simp] theorem State.onPool_freeReads (p : PoolId) (f : Pool → Pool) : (s.onPool p f).freeReads = s.freeReads := rfl
@[simp] theorem State.onPool_pending (p : PoolId) (f : Pool → Pool) : (s.onPool p f).pending = s.pending := rfl
@[simp] theorem State.onPool_chan (p : PoolId) (f : Pool → Pool) (i : Chan) : (s.onPool p f).chan i = s.chan i := rfl
@[simp] theorem State.onPool_entry (p : PoolId) (f : Pool → Pool) (i : EntryId) : (s.onPool p f).entry i = s.entry i := rfl
@[simp] theorem State.onPool_ring (p : PoolId) (f : Pool → Pool) (i : RingId) : (s.onPool p f).ring i = s.ring i := rfl
@[simp] theorem State.onPool_slot (p : PoolId) (f : Pool → Pool) (i : SlotId) : (s.onPool p f).slot i = s.slot i := rfl
@[simp] theorem State.onPool_circuit (p : PoolId) (f : Pool → Pool) (i : BitVec 11) : (s.onPool p f).circuit i = s.circuit i := rfl

@[simp] theorem State.onRing_inReset (r : RingId) (f : TxRing → TxRing) : (s.onRing r f).inReset = s.inReset := rfl
@[simp] theorem State.onRing_cf (r : RingId) (f : TxRing → TxRing) : (s.onRing r f).cf = s.cf := rfl
@[simp] theorem State.onRing_cc (r : RingId) (f : TxRing → TxRing) : (s.onRing r f).cc = s.cc := rfl
@[simp] theorem State.onRing_re (r : RingId) (f : TxRing → TxRing) : (s.onRing r f).re = s.re := rfl
@[simp] theorem State.onRing_xc (r : RingId) (f : TxRing → TxRing) : (s.onRing r f).xc = s.xc := rfl
@[simp] theorem State.onRing_du (r : RingId) (f : TxRing → TxRing) : (s.onRing r f).du = s.du := rfl
@[simp] theorem State.onRing_ia (r : RingId) (f : TxRing → TxRing) : (s.onRing r f).ia = s.ia := rfl
@[simp] theorem State.onRing_lmp (r : RingId) (f : TxRing → TxRing) : (s.onRing r f).lmp = s.lmp := rfl
@[simp] theorem State.onRing_ma (r : RingId) (f : TxRing → TxRing) : (s.onRing r f).ma = s.ma := rfl
@[simp] theorem State.onRing_ew (r : RingId) (f : TxRing → TxRing) : (s.onRing r f).ew = s.ew := rfl
@[simp] theorem State.onRing_counters (r : RingId) (f : TxRing → TxRing) : (s.onRing r f).counters = s.counters := rfl
@[simp] theorem State.onRing_freeReads (r : RingId) (f : TxRing → TxRing) : (s.onRing r f).freeReads = s.freeReads := rfl
@[simp] theorem State.onRing_pending (r : RingId) (f : TxRing → TxRing) : (s.onRing r f).pending = s.pending := rfl
@[simp] theorem State.onRing_chan (r : RingId) (f : TxRing → TxRing) (i : Chan) : (s.onRing r f).chan i = s.chan i := rfl
@[simp] theorem State.onRing_entry (r : RingId) (f : TxRing → TxRing) (i : EntryId) : (s.onRing r f).entry i = s.entry i := rfl
@[simp] theorem State.onRing_pool (r : RingId) (f : TxRing → TxRing) (i : PoolId) : (s.onRing r f).pool i = s.pool i := rfl
@[simp] theorem State.onRing_circuit (r : RingId) (f : TxRing → TxRing) (i : BitVec 11) : (s.onRing r f).circuit i = s.circuit i := rfl

@[simp] theorem State.onSlot_inReset (k : SlotId) (f : SendSlot → SendSlot) : (s.onSlot k f).inReset = s.inReset := rfl
@[simp] theorem State.onSlot_cf (k : SlotId) (f : SendSlot → SendSlot) : (s.onSlot k f).cf = s.cf := rfl
@[simp] theorem State.onSlot_cc (k : SlotId) (f : SendSlot → SendSlot) : (s.onSlot k f).cc = s.cc := rfl
@[simp] theorem State.onSlot_re (k : SlotId) (f : SendSlot → SendSlot) : (s.onSlot k f).re = s.re := rfl
@[simp] theorem State.onSlot_xc (k : SlotId) (f : SendSlot → SendSlot) : (s.onSlot k f).xc = s.xc := rfl
@[simp] theorem State.onSlot_du (k : SlotId) (f : SendSlot → SendSlot) : (s.onSlot k f).du = s.du := rfl
@[simp] theorem State.onSlot_ia (k : SlotId) (f : SendSlot → SendSlot) : (s.onSlot k f).ia = s.ia := rfl
@[simp] theorem State.onSlot_lmp (k : SlotId) (f : SendSlot → SendSlot) : (s.onSlot k f).lmp = s.lmp := rfl
@[simp] theorem State.onSlot_ma (k : SlotId) (f : SendSlot → SendSlot) : (s.onSlot k f).ma = s.ma := rfl
@[simp] theorem State.onSlot_ew (k : SlotId) (f : SendSlot → SendSlot) : (s.onSlot k f).ew = s.ew := rfl
@[simp] theorem State.onSlot_counters (k : SlotId) (f : SendSlot → SendSlot) : (s.onSlot k f).counters = s.counters := rfl
@[simp] theorem State.onSlot_freeReads (k : SlotId) (f : SendSlot → SendSlot) : (s.onSlot k f).freeReads = s.freeReads := rfl
@[simp] theorem State.onSlot_pending (k : SlotId) (f : SendSlot → SendSlot) : (s.onSlot k f).pending = s.pending := rfl
@[simp] theorem State.onSlot_chan (k : SlotId) (f : SendSlot → SendSlot) (i : Chan) : (s.onSlot k f).chan i = s.chan i := rfl
@[simp] theorem State.onSlot_entry (k : SlotId) (f : SendSlot → SendSlot) (i : EntryId) : (s.onSlot k f).entry i = s.entry i := rfl
@[simp] theorem State.onSlot_pool (k : SlotId) (f : SendSlot → SendSlot) (i : PoolId) : (s.onSlot k f).pool i = s.pool i := rfl
@[simp] theorem State.onSlot_circuit (k : SlotId) (f : SendSlot → SendSlot) (i : BitVec 11) : (s.onSlot k f).circuit i = s.circuit i := rfl

theorem State.onChan_chan (c d : Chan) (f : Channel → Channel) :
    (s.onChan c f).chan d = if c = d then f (s.chan d) else s.chan d := tget_tmod _ _ _ _

theorem State.setEntry_entry (e d : EntryId) (x : CacheEntry) :
    (s.setEntry e x).entry d = if e = d then x else s.entry d := tget_tset _ _ _ _

theorem State.onPool_pool (p q : PoolId) (f : Pool → Pool) :
    (s.onPool p f).pool q = if p = q then f (s.pool q) else s.pool q := tget_tmod _ _ _ _

theorem State.onRing_ring (r q : RingId) (f : TxRing → TxRing) :
    (s.onRing r f).ring q = if r = q then f (s.ring q) else s.ring q := tget_tmod _ _ _ _

theorem State.onSlot_slot (k q : SlotId) (f : SendSlot → SendSlot) :
    (s.onSlot k f).slot q = if k = q then f (s.slot q) else s.slot q := tget_tmod _ _ _ _

@[simp] theorem State.onChan_chan_self (c : Chan) (f : Channel → Channel) : (s.onChan c f).chan c = f (s.chan c) := by
  simp [State.onChan_chan]

@[simp] theorem State.setEntry_entry_self (e : EntryId) (x : CacheEntry) : (s.setEntry e x).entry e = x := by
  simp [State.setEntry_entry]

@[simp] theorem State.onPool_pool_self (p : PoolId) (f : Pool → Pool) : (s.onPool p f).pool p = f (s.pool p) := by
  simp [State.onPool_pool]

@[simp] theorem State.onRing_ring_self (r : RingId) (f : TxRing → TxRing) : (s.onRing r f).ring r = f (s.ring r) := by
  simp [State.onRing_ring]

@[simp] theorem State.onSlot_slot_self (k : SlotId) (f : SendSlot → SendSlot) : (s.onSlot k f).slot k = f (s.slot k) := by
  simp [State.onSlot_slot]

@[simp] theorem State.onRing_slot (r : RingId) (f : TxRing → TxRing) (k : SlotId) : (s.onRing r f).slot k = s.slot k := rfl

@[simp] theorem State.onSlot_ring (k : SlotId) (f : SendSlot → SendSlot) (r : RingId) : (s.onSlot k f).ring r = s.ring r := rfl

end Fields

/-- Every index of a table is among its indices. -/
@[simp] theorem mem_allOf {n : Nat} (i : Fin n) : i ∈ allOf n := List.mem_finRange i

end Sys2Proof.Machine
end

