-- ==== Sys2Proof/Laws/CacheBase.lean ====
section
/-! SUPPORT. The recency order and the Fetch Wait List under the cache's own operations. -/

namespace Sys2Proof.Machine

set_option linter.unusedTactic false
set_option linter.unreachableTactic false
set_option linter.unusedSimpArgs false
set_option linter.unusedVariables false

/-- If the cache was legal in state o it is legal in state s. -/
def State.KeepsCache (o s : State) : Prop := o.xc.Legal → s.xc.Legal

theorem State.KeepsCache.of_xc {o s t : State} (h : o.KeepsCache s) (e : t.xc = s.xc) : o.KeepsCache t :=
  fun l => e ▸ h l

section Updates

variable {o s : State}

theorem State.cache_onChan (h : o.KeepsCache s) (c : Chan) (f : Channel → Channel) : o.KeepsCache (s.onChan c f) :=
  h.of_xc rfl

theorem State.cache_onPool (h : o.KeepsCache s) (p : PoolId) (f : Pool → Pool) : o.KeepsCache (s.onPool p f) :=
  h.of_xc rfl

theorem State.cache_onRing (h : o.KeepsCache s) (r : RingId) (f : TxRing → TxRing) : o.KeepsCache (s.onRing r f) :=
  h.of_xc rfl

theorem State.cache_onSlot (h : o.KeepsCache s) (k : SlotId) (f : SendSlot → SendSlot) : o.KeepsCache (s.onSlot k f) :=
  h.of_xc rfl

theorem State.cache_onCounters (h : o.KeepsCache s) (f : Counters → Counters) : o.KeepsCache (s.onCounters f) :=
  h.of_xc rfl

theorem State.cache_onRe (h : o.KeepsCache s) (f : Reassembly → Reassembly) : o.KeepsCache (s.onRe f) :=
  h.of_xc rfl

theorem State.cache_onSu (h : o.KeepsCache s) (f : Segmentation → Segmentation) : o.KeepsCache (s.onSu f) :=
  h.of_xc rfl

theorem State.cache_onEw (h : o.KeepsCache s) (f : EventWriter → EventWriter) : o.KeepsCache (s.onEw f) :=
  h.of_xc rfl

theorem State.cache_onMa (h : o.KeepsCache s) (f : Agent → Agent) : o.KeepsCache (s.onMa f) :=
  h.of_xc rfl

theorem State.cache_onCf (h : o.KeepsCache s) (f : Framer → Framer) : o.KeepsCache (s.onCf f) :=
  h.of_xc rfl

theorem State.cache_onCc (h : o.KeepsCache s) (f : Classifier → Classifier) : o.KeepsCache (s.onCc f) :=
  h.of_xc rfl

theorem State.cache_onIa (h : o.KeepsCache s) (f : Arbiter → Arbiter) : o.KeepsCache (s.onIa f) :=
  h.of_xc rfl

theorem State.cache_onLmp (h : o.KeepsCache s) (f : Port → Port) : o.KeepsCache (s.onLmp f) :=
  h.of_xc rfl

theorem State.cache_agentTo (h : o.KeepsCache s) (a : AgentState) : o.KeepsCache (s.agentTo a) :=
  h.of_xc rfl

theorem State.cache_dropHeld (h : o.KeepsCache s) (f : Chan → Bool) : o.KeepsCache (s.dropHeld f) :=
  h.of_xc rfl

theorem State.cache_request (h : o.KeepsCache s) (r : Request) : o.KeepsCache (s.request r) :=
  h.of_xc rfl

theorem State.cache_requestRead (h : o.KeepsCache s) (q : Requester) (addr : Word) (n : Nat) (t : RequestTag) :
    o.KeepsCache (s.requestRead q addr n t) := h.of_xc rfl

theorem State.cache_requestWrite (h : o.KeepsCache s) (q : Requester) (addr : Word) (d : List Byte)
    (t : RequestTag) : o.KeepsCache (s.requestWrite q addr d t) := h.of_xc rfl

theorem State.cache_loseEvent (h : o.KeepsCache s) : o.KeepsCache s.loseEvent := h.of_xc rfl

@[simp] theorem State.raise_xc (s : State) (k : EventKind) (x d : Nat) (w : Word) : (s.raise k x d w).xc = s.xc := by
  unfold State.raise
  repeat' split
  all_goals rfl

theorem State.cache_raise (h : o.KeepsCache s) (k : EventKind) (x d : Nat) (w : Word) :
    o.KeepsCache (s.raise k x d w) := h.of_xc (State.raise_xc s k x d w)

theorem State.cache_assertLint (h : o.KeepsCache s) : o.KeepsCache s.assertLint := h.of_xc rfl

theorem State.cache_answer (h : o.KeepsCache s) (cmd : Cell) (st : MgmtStatus) (r : List Byte) :
    o.KeepsCache (s.answer cmd st r) := h.of_xc rfl

@[simp] theorem State.finishLong_xc (s : State) (code : Byte) (st : MgmtStatus) (r : List Byte) :
    (s.finishLong code st r).xc = s.xc := by
  unfold State.finishLong
  split <;> rfl

theorem State.cache_finishLong (h : o.KeepsCache s) (code : Byte) (st : MgmtStatus) (r : List Byte) :
    o.KeepsCache (s.finishLong code st r) := h.of_xc (State.finishLong_xc s code st r)

theorem State.cache_examineQueue (h : o.KeepsCache s) : o.KeepsCache s.examineQueue := by
  refine h.of_xc ?_
  unfold State.examineQueue
  repeat' split
  all_goals rfl

theorem State.cache_goLong (h : o.KeepsCache s) (cmd : Cell) : o.KeepsCache (s.goLong cmd) :=
  State.cache_examineQueue (State.cache_agentTo h _)

/-- An update that leaves the entries, the recency order and the list. -/
theorem State.cache_onXc (h : o.KeepsCache s) (f : Cache → Cache) (he : (f s.xc).entries = s.xc.entries)
    (hr : (f s.xc).recency = s.xc.recency) (hw : (f s.xc).waitList = s.xc.waitList) : o.KeepsCache (s.onXc f) := by
  intro l
  have := h l
  unfold Cache.Legal at *
  simpa only [State.onXc_xc, he, hr, hw] using this

/-- An update of the entries that leaves which of them are VALID. -/
theorem State.cache_entries (h : o.KeepsCache s) (f : Cache → Cache)
    (he : ∀ e, (∃ v, tget (f s.xc).entries e = .valid v) ↔ ∃ v, tget s.xc.entries e = .valid v)
    (hr : (f s.xc).recency = s.xc.recency) (hw : (f s.xc).waitList = s.xc.waitList) : o.KeepsCache (s.onXc f) := by
  intro l
  have := h l
  unfold Cache.Legal at *
  simpa only [State.onXc_xc, he, hr, hw] using this

theorem State.cache_setEntry (h : o.KeepsCache s) (e : EntryId) (x : CacheEntry)
    (hv : (∃ v, s.entry e = .valid v) ↔ ∃ v, x = .valid v) : o.KeepsCache (s.setEntry e x) := by
  refine State.cache_entries h _ (fun d => ?_) rfl rfl
  show (∃ v, tget (tset s.xc.entries e x) d = .valid v) ↔ _
  rw [tget_tset]
  split
  · next hd => subst hd; exact hv.symm
  · exact Iff.rfl

/-- An entry that is not VALID takes another state that is not VALID. -/
theorem State.cache_setEntry_other (h : o.KeepsCache s) (e : EntryId) (x : CacheEntry) (hs : ∀ v, s.entry e ≠ .valid v)
    (hx : ∀ v, x ≠ .valid v) : o.KeepsCache (s.setEntry e x) :=
  State.cache_setEntry h e x ⟨fun ⟨v, hv⟩ => absurd hv (hs v), fun ⟨v, hv⟩ => absurd hv (hx v)⟩

/-- A VALID entry takes another VALID state. -/
theorem State.cache_setEntry_valid (h : o.KeepsCache s) (e : EntryId) (v w : ValidEntry) (hs : s.entry e = .valid v) :
    o.KeepsCache (s.setEntry e (.valid w)) :=
  State.cache_setEntry h e _ ⟨fun _ => ⟨w, rfl⟩, fun _ => ⟨v, hs⟩⟩

/-- An entry leaves VALID and the recency order together. -/
theorem State.cache_leave (h : o.KeepsCache s) (e : EntryId) (x : CacheEntry) (hx : ∀ v, x ≠ .valid v) :
    o.KeepsCache ((s.setEntry e x).leaveRecency e) := by
  intro l
  obtain ⟨h1, h2, h3⟩ := h l
  refine ⟨h1.filter _, fun d => ?_, h3⟩
  show d ∈ s.xc.recency.filter (· != e) ↔ ∃ v, tget (tset s.xc.entries e x) d = .valid v
  rw [List.mem_filter, tget_tset]
  split
  · next hd => subst hd; simp [hx]
  · next hd => simp [h2, Ne.symm hd]

/-- An entry becomes or stays VALID and is most recent. -/
theorem State.cache_use (h : o.KeepsCache s) (e : EntryId) (v : ValidEntry) :
    o.KeepsCache ((s.setEntry e (.valid v)).onXc fun xc => { xc with recency := xc.recency.filter (· != e) ++ [e] }) := by
  intro l
  obtain ⟨h1, h2, h3⟩ := h l
  refine ⟨?_, fun d => ?_, h3⟩
  · refine List.nodup_append.2 ⟨h1.filter _, by simp, ?_⟩
    intro d hd b hb
    simp only [List.mem_filter, bne_iff_ne, ne_eq, List.mem_singleton] at hd hb
    rintro rfl
    exact hd.2 hb
  · show d ∈ s.xc.recency.filter (· != e) ++ [e] ↔ ∃ w, tget (tset s.xc.entries e (.valid v)) d = .valid w
    rw [tget_tset]
    split
    · next hd => subst hd; simp
    · next hd => simp [h2, Ne.symm hd]

/-- Channels leave the Fetch Wait List. -/
theorem State.cache_shorten (h : o.KeepsCache s) (f : Cache → Cache) (he : (f s.xc).entries = s.xc.entries)
    (hr : (f s.xc).recency = s.xc.recency) (hw : (f s.xc).waitList.Sublist s.xc.waitList) :
    o.KeepsCache (s.onXc f) := by
  intro l
  obtain ⟨h1, h2, h3⟩ := h l
  refine ⟨?_, ?_, h3.sublist hw⟩
  · simpa only [State.onXc_xc, hr] using h1
  · simpa only [State.onXc_xc, hr, he] using h2

/-- A channel that is not on the list joins its tail. -/
theorem State.cache_joinWaitList (h : o.KeepsCache s) (c : Chan) (hc : s.xc.waitList.contains c = false) :
    o.KeepsCache (s.joinWaitList c) := by
  intro l
  obtain ⟨h1, h2, h3⟩ := h l
  refine ⟨h1, h2, List.nodup_append.2 ⟨h3, by simp, ?_⟩⟩
  intro d hd b hb
  have hc' : c ∉ s.xc.waitList := by
    intro hm
    have := List.contains_iff_mem.2 hm
    simp_all
  rw [List.mem_singleton] at hb
  rintro rfl
  exact hc' (hb ▸ hd)

end Updates

/-! ## The cache's own operations -/

section Operations

variable {o s : State}

theorem State.cache_readStore (h : o.KeepsCache s) (c : Chan) (part : Fin 4) : o.KeepsCache (s.readStore c part) :=
  State.cache_requestRead (State.cache_onXc h _ rfl rfl rfl) _ _ _ _

theorem State.cache_contextArrived (h : o.KeepsCache s) (c : Chan) (x : Context) :
    o.KeepsCache (s.contextArrived c x) := by
  unfold State.contextArrived
  split
  · exact State.cache_finishLong (State.cache_onXc h _ rfl rfl rfl) _ _ _
  · exact h

theorem State.cache_contextStored (h : o.KeepsCache s) (c : Chan) (stage : CtxReadStage) :
    o.KeepsCache (s.contextStored c stage) := by
  unfold State.contextStored
  split
  · exact State.cache_readStore h _ _
  · exact h

theorem State.cache_reside (h : o.KeepsCache s) (c : Chan) (r : Residence) : o.KeepsCache (s.reside c r) := h.of_xc rfl

theorem State.cache_install (h : o.KeepsCache s) (e : EntryId) (c : Chan) (x : Context) (dirty : Bool) :
    o.KeepsCache (s.install e c x dirty) :=
  State.cache_contextArrived (State.cache_reside (State.cache_use h e _) _ _) _ _

theorem State.cache_installFresh (h : o.KeepsCache s) (e : EntryId) (c : Chan) : o.KeepsCache (s.installFresh e c) :=
  State.cache_install (State.cache_onChan h _ _) _ _ _ _

theorem State.cache_startFill (h : o.KeepsCache s) (e : EntryId) (c : Chan) (hs : ∀ v, s.entry e ≠ .valid v) :
    o.KeepsCache (s.startFill e c) := by
  unfold State.startFill
  split
  · exact State.cache_installFresh h _ _
  · exact State.cache_requestRead (State.cache_setEntry_other h e _ hs (by simp)) _ _ _ _

theorem State.cache_startWriteBack (h : o.KeepsCache s) (e : EntryId) (c : Chan) (x : Context) (d : Option Chan) :
    o.KeepsCache (s.startWriteBack e c x d) :=
  State.cache_requestWrite (State.cache_reside (State.cache_leave h e _ (by simp)) _ _) _ _ _ _

theorem State.cache_evictClean (h : o.KeepsCache s) (e : EntryId) (c : Chan) : o.KeepsCache (s.evictClean e c) :=
  State.cache_reside (State.cache_leave h e _ (by simp)) _ _

theorem State.cache_useEntry (h : o.KeepsCache s) (e : EntryId) (c : Chan) : o.KeepsCache (s.useEntry e c) := by
  have h' : o.KeepsCache (s.reside c .fetching) := h.of_xc rfl
  unfold State.useEntry
  dsimp only
  split
  · next he => exact State.cache_startFill h' e c (by simp [he])
  · next v he =>
    split
    · exact State.cache_startWriteBack h' _ _ _ _
    · refine State.cache_startFill (State.cache_evictClean h' _ _) _ _ fun w hw => ?_
      have : ((s.reside c .fetching).evictClean e v.channel).entry e = .free := tget_tset_self _ _ _
      simp [this] at hw
  · exact h'
  · exact h'

theorem State.cache_noteFetch (h : o.KeepsCache s) (c : Chan) : o.KeepsCache (s.noteFetch c) := by
  refine State.cache_entries h _ (fun e => ?_) rfl rfl
  simp only [tget_map]
  split <;> simp_all

theorem State.cache_fetchRequest (h : o.KeepsCache s) (c : Chan) : o.KeepsCache (s.fetchRequest c) := by
  unfold State.fetchRequest
  split
  · split
    · exact h
    · exact h
    · exact State.cache_noteFetch h c
    · split
      · exact h
      · next hc =>
        have hc' : s.xc.waitList.contains c = false := by simpa using hc
        split
        · exact State.cache_joinWaitList h c hc'
        · split
          · exact State.cache_useEntry h _ _
          · exact State.cache_joinWaitList h c hc'
  · exact h

theorem State.cache_freeEntry (h : o.KeepsCache s) (e : EntryId) : o.KeepsCache (s.freeEntry e) := by
  unfold State.freeEntry
  repeat' split
  · exact State.cache_startWriteBack h _ _ _ _
  · exact State.cache_evictClean h _ _
  · exact h
  · exact h
  · exact h

theorem State.cache_release (h : o.KeepsCache s) (c : Chan) : o.KeepsCache (s.release c) := h.of_xc rfl

theorem State.cache_channelFault (h : o.KeepsCache s) (c : Chan) (detail : Nat) (aux : Word) :
    o.KeepsCache (s.channelFault c detail aux) := by
  have h0 : o.KeepsCache (if (s.chan c).msgOpen = true then s.release c else s) := by
    split
    · exact State.cache_release h c
    · exact h
  have h1 : ∀ t : State, o.KeepsCache t →
      o.KeepsCache (t.onXc fun xc => { xc with waitList := xc.waitList.filter (· != c) }) := fun t ht =>
    State.cache_shorten ht _ rfl rfl List.filter_sublist
  have h2 : ∀ t : State, o.KeepsCache t → o.KeepsCache (if (s.chan c).binding = .unbinding then
      t.finishLong codeUnbindChannel .ok [] else t) := by
    intro t ht
    split
    · exact State.cache_finishLong ht _ _ _
    · exact ht
  unfold State.channelFault
  refine h2 _ (State.cache_contextStored (State.cache_raise (State.cache_onChan (State.cache_onChan (h1 _ ?_) _ _) _ _)
    _ _ _ _) _ _)
  exact State.cache_dropHeld (State.cache_onCounters h0 _) _

theorem State.cache_fillAnswered (h : o.KeepsCache s) (e : EntryId) (c : Chan) (a : Answer) (bytes : List Byte) :
    o.KeepsCache (s.fillAnswered e c a bytes) := by
  unfold State.fillAnswered
  split
  · next he =>
    have h1 : o.KeepsCache (s.setEntry e .free) := State.cache_setEntry_other h e _ (by simp [he]) (by simp)
    split
    · have h2 : ∀ f, o.KeepsCache (s.onChan c f) := fun f => State.cache_onChan h c f
      dsimp only
      split
      · exact State.cache_channelFault (State.cache_setEntry_other (h2 _) e _ (by simp [he]) (by simp)) _ _ _
      · exact State.cache_install (h2 _) _ _ _ _
    · exact State.cache_channelFault h1 _ _ _
  · exact h

/-! ### A WRITING entry stays as it is while others are chosen and used -/

/-- Entry e is not VALID. -/
def State.NotValid (s : State) (e : EntryId) : Prop := ∀ v, s.entry e ≠ .valid v

/-- Entry e is WRITING. -/
def State.IsWriting (s : State) (e : EntryId) : Prop := ∃ d cl n, s.entry e = .writing d cl n

theorem State.IsWriting.notValid {e : EntryId} (h : s.IsWriting e) : s.NotValid e := by
  obtain ⟨d, cl, n, h⟩ := h
  simp [State.NotValid, h]

theorem State.entry_of_entries {t : State} (e : EntryId) (h : t.xc.entries = s.xc.entries) : t.entry e = s.entry e := by
  unfold State.entry
  rw [h]

@[simp] theorem State.contextArrived_entries (c : Chan) (x : Context) :
    (s.contextArrived c x).xc.entries = s.xc.entries := by
  unfold State.contextArrived
  split
  · simp
  · rfl

@[simp] theorem State.contextStored_entries (c : Chan) (stage : CtxReadStage) :
    (s.contextStored c stage).xc.entries = s.xc.entries := by
  unfold State.contextStored
  split <;> rfl

theorem State.install_entry_ne (e d : EntryId) (c : Chan) (x : Context) (dirty : Bool) (h : d ≠ e) :
    (s.install d c x dirty).entry e = s.entry e := by
  unfold State.install
  rw [State.entry_of_entries e (State.contextArrived_entries _ _)]
  exact tget_tset_ne _ _ h

theorem State.startFill_entry_ne (e d : EntryId) (c : Chan) (h : d ≠ e) : (s.startFill d c).entry e = s.entry e := by
  unfold State.startFill
  split
  · exact State.install_entry_ne _ _ _ _ _ h
  · exact tget_tset_ne _ _ h

theorem State.useEntry_entry_ne (e d : EntryId) (c : Chan) (h : d ≠ e) : (s.useEntry d c).entry e = s.entry e := by
  unfold State.useEntry
  dsimp only
  repeat' split
  · rw [State.startFill_entry_ne _ _ _ h]; rfl
  · exact tget_tset_ne _ _ h
  · rw [State.startFill_entry_ne _ _ _ h]; exact tget_tset_ne _ _ h
  · rfl
  · rfl

theorem State.chooseEntry_available (e : EntryId) (h : s.chooseEntry = some e) : s.available e = true := by
  unfold State.chooseEntry at h
  simp only [Option.orElse_eq_orElse, Option.orElse_eq_or, Option.or_eq_some_iff] at h
  unfold State.available
  rcases h with (h | ⟨-, h | ⟨-, h⟩⟩) <;> have := List.find?_some h <;> simp_all

theorem State.chooseEntry_not_writing (e : EntryId) (h : s.chooseEntry = some e) : ¬ s.IsWriting e := by
  rintro ⟨d, cl, n, hw⟩
  have := State.chooseEntry_available e h
  simp [State.available, State.isFree, State.eligible, hw] at this

theorem State.fetchRequest_isWriting {e : EntryId} (h : s.IsWriting e) (c : Chan) : (s.fetchRequest c).IsWriting e := by
  unfold State.fetchRequest
  repeat' split
  · exact h
  · exact h
  · obtain ⟨d, cl, n, hw⟩ := h
    refine ⟨d, cl, n || d == c, ?_⟩
    show tget (s.xc.entries.map _) e = _
    unfold State.entry at hw
    simp only [tget_map, hw]
  · exact h
  · exact h
  · next d hd =>
    obtain ⟨d', cl, n, hw⟩ := h
    have hne : d ≠ e := by
      rintro rfl
      exact State.chooseEntry_not_writing d hd ⟨d', cl, n, hw⟩
    exact ⟨d', cl, n, by rw [State.useEntry_entry_ne _ _ _ hne, hw]⟩
  · exact h
  · exact h

@[simp] theorem State.channelFault_entries (c : Chan) (detail : Nat) (aux : Word) :
    (s.channelFault c detail aux).xc.entries = s.xc.entries := by
  unfold State.channelFault
  dsimp only
  split <;> split <;> simp [State.dropHeld, State.release]

theorem State.cache_passToClaimant (h : o.KeepsCache s) (e : EntryId) (d : Option Chan) (hs : s.NotValid e) :
    o.KeepsCache (s.passToClaimant e d) := by
  unfold State.passToClaimant
  split
  · exact State.cache_startFill h _ _ hs
  · exact State.cache_setEntry_other h _ _ hs (by simp)

theorem State.cache_refetchAndPass (h : o.KeepsCache s) (e : EntryId) (c : Chan) (d : Option Chan)
    (hw : s.IsWriting e) : o.KeepsCache (s.refetchAndPass e c d) := by
  have hc := State.cache_fetchRequest h c
  have hn := (State.fetchRequest_isWriting hw c).notValid
  unfold State.refetchAndPass
  split
  · split
    · exact State.cache_startFill hc _ _ hn
    · exact State.cache_fetchRequest (State.cache_startFill h _ _ hw.notValid) _
  · exact State.cache_setEntry_other hc _ _ hn (by simp)

theorem State.cache_writeBackAnswered (h : o.KeepsCache s) (e : EntryId) (c : Chan) (a : Answer) :
    o.KeepsCache (s.writeBackAnswered e c a) := by
  unfold State.writeBackAnswered
  split
  · next d cl n he =>
    have hw : s.IsWriting e := ⟨_, _, _, he⟩
    have hr : o.KeepsCache (s.reside c .stored) := h.of_xc rfl
    have h' := State.cache_contextStored hr c .writeBack
    have hw' : ((s.reside c .stored).contextStored c .writeBack).IsWriting e := by
      obtain ⟨d, k, n, he⟩ := hw
      exact ⟨d, k, n, (State.entry_of_entries e (State.contextStored_entries _ _)).trans he⟩
    have hf : ((s.channelFault c 2 a.aux).contextStored c .writeBack).NotValid e := by
      intro v
      rw [State.entry_of_entries e (State.contextStored_entries _ _),
        State.entry_of_entries e (State.channelFault_entries _ _ _)]
      exact hw.notValid v
    split
    · split
      · dsimp only
        split
        · exact State.cache_refetchAndPass h' _ _ _ hw'
        · exact State.cache_passToClaimant h' _ _ hw'.notValid
      · exact State.cache_passToClaimant (State.cache_contextStored (State.cache_channelFault h _ _ _) _ _) _ _ hf
    · exact h
  · exact h
  · exact h
  · exact h

theorem State.cache_syncNext (h : o.KeepsCache s) (l : List (EntryId × Chan)) : o.KeepsCache (s.syncNext l) := by
  induction l with
  | nil => exact State.cache_finishLong (State.cache_onXc h _ rfl rfl rfl) _ _ _
  | cons m l ih =>
    unfold State.syncNext
    repeat' split
    · next v he _ =>
      refine State.cache_requestWrite ?_ _ _ _ _
      exact State.cache_setEntry_valid (State.cache_onXc h _ rfl rfl rfl) _ v _ he
    all_goals exact ih

theorem State.cache_syncAnswered (h : o.KeepsCache s) (e : EntryId) (c : Chan) (a : Answer) :
    o.KeepsCache (s.syncAnswered e c a) := by
  unfold State.syncAnswered
  split
  · next he =>
    split
    · dsimp only
      refine State.cache_syncNext ?_ _
      split
      · exact State.cache_setEntry_valid h _ _ _ he
      · exact State.cache_channelFault (State.cache_leave h _ _ (by simp)) _ _ _
    · exact h
  · exact h
  · exact h
  · exact h

theorem State.cache_ctxReadAnswered (h : o.KeepsCache s) (a : Answer) (bytes : List Byte) :
    o.KeepsCache (s.ctxReadAnswered a bytes) := by
  unfold State.ctxReadAnswered
  dsimp only
  split <;> exact State.cache_finishLong (State.cache_onXc h _ rfl rfl rfl) _ _ _

theorem State.cache_popWaitList (h : o.KeepsCache s) : o.KeepsCache s.popWaitList :=
  State.cache_shorten h _ rfl rfl (List.tail_sublist _)

theorem State.cache_serveWaitList (n : Nat) : ∀ s : State, o.KeepsCache s → o.KeepsCache (s.serveWaitList n) := by
  induction n with
  | zero => exact fun _ h => h
  | succ n ih =>
    intro s h
    unfold State.serveWaitList
    repeat' split
    · exact h
    · exact ih _ (State.cache_useEntry (State.cache_popWaitList h) _ _)
    · exact ih _ (State.cache_popWaitList h)
    · exact h

theorem State.cache_endNewlyFilled (h : o.KeepsCache s) : o.KeepsCache s.endNewlyFilled := by
  refine State.cache_entries h _ (fun e => ?_) rfl rfl
  simp only [tget_map]
  split <;> simp_all

theorem State.cache_modContext (h : o.KeepsCache s) (c : Chan) (f : Context → Context) :
    o.KeepsCache (s.modContext c f) := by
  unfold State.modContext
  split
  · split
    · next he =>
      split
      · exact State.cache_setEntry_valid h _ _ _ he
      · exact h
    all_goals exact h
  all_goals exact h

theorem State.cache_touch (h : o.KeepsCache s) (c : Chan) : o.KeepsCache (s.touch c) := by
  unfold State.touch
  repeat' split
  · exact State.cache_use h _ _
  all_goals exact h

theorem State.cache_dropMessage (h : o.KeepsCache s) (c : Chan) : o.KeepsCache (s.dropMessage c) := by
  have h' : ∀ f, o.KeepsCache (s.onChan c f) := fun f => State.cache_onChan h c f
  unfold State.dropMessage
  dsimp only
  split
  · split
    · next he => exact State.cache_setEntry_valid (h' _) _ _ _ he
    all_goals exact h' _
  all_goals exact h' _

theorem State.cache_dropIfDue (h : o.KeepsCache s) (c : Chan) : o.KeepsCache (s.dropIfDue c) := by
  unfold State.dropIfDue
  dsimp only
  split
  · exact State.cache_dropMessage h c
  · exact h

theorem State.cache_becomeUnbound (h : o.KeepsCache s) (c : Chan) : o.KeepsCache (s.becomeUnbound c) :=
  State.cache_shorten (State.cache_onChan h _ _) _ rfl rfl List.filter_sublist

theorem State.cache_foldl {β : Type} (f : State → β → State) (hf : ∀ s b, o.KeepsCache s → o.KeepsCache (f s b))
    (l : List β) : ∀ s, o.KeepsCache s → o.KeepsCache (l.foldl f s) := by
  induction l with
  | nil => exact fun _ h => h
  | cons b l ih => exact fun s h => ih _ (hf s b h)

theorem State.cache_forAll (n : Nat) (f : Fin n → State → State) (hf : ∀ i s, o.KeepsCache s → o.KeepsCache (f i s))
    (h : o.KeepsCache s) : o.KeepsCache (forAll n f s) :=
  State.cache_foldl _ (fun s i => hf i s) _ _ h

end Operations

end Sys2Proof.Machine
end

