-- ==== Sys2Proof/Laws/CacheLegal.lean ====
section
/-! SUPPORT. The rest of the datapath keeps the cache legal, one lemma for each operation. -/

namespace Sys2Proof.Machine

set_option linter.unusedTactic false
set_option linter.unreachableTactic false
set_option linter.unusedSimpArgs false
set_option linter.unusedVariables false

variable {o s : State}

theorem State.cache_askPool (h : o.KeepsCache s) (c : Chan) (r : DuRequest) :
    o.KeepsCache (s.askPool c r) := by
  unfold State.askPool
  repeat' first | exact h | with_reducible apply State.cache_onPool | split | dsimp only

theorem State.cache_setOp (h : o.KeepsCache s) (c : Chan) (op : Option ChanOp) :
    o.KeepsCache (s.setOp c op) := by
  unfold State.setOp
  repeat' first | exact h | with_reducible apply State.cache_onChan | split | dsimp only

theorem State.cache_undo (h : o.KeepsCache s) (c : Chan) :
    o.KeepsCache (s.undo c) := by
  unfold State.undo
  repeat' first | exact h | with_reducible apply State.cache_onCounters | with_reducible apply State.cache_setOp | split | dsimp only

theorem State.cache_poolFaultAnswered (h : o.KeepsCache s) (c : Chan) :
    o.KeepsCache (s.poolFaultAnswered c) := by
  unfold State.poolFaultAnswered
  repeat' first | exact h | with_reducible apply State.cache_onCounters | with_reducible apply State.cache_dropIfDue | with_reducible apply State.cache_setOp | with_reducible apply State.cache_undo | split | dsimp only

theorem State.cache_beginClose (h : o.KeepsCache s) (c : Chan) (status : RxStatus) (cause : CloseCause) :
    o.KeepsCache (s.beginClose c status cause) := by
  unfold State.beginClose
  repeat' first | exact h | with_reducible apply State.cache_askPool | with_reducible apply State.cache_setOp | split | dsimp only

theorem State.cache_askReserve (h : o.KeepsCache s) (c : Chan) (cell : Cell) :
    o.KeepsCache (s.askReserve c cell) := by
  unfold State.askReserve
  repeat' first | exact h | with_reducible apply State.cache_askPool | with_reducible apply State.cache_setOp | split | dsimp only

theorem State.cache_startData (h : o.KeepsCache s) (c : Chan) (cell : Cell) :
    o.KeepsCache (s.startData c cell) := by
  unfold State.startData
  repeat' first | exact h | with_reducible apply State.cache_modContext | with_reducible apply State.cache_askReserve | split | dsimp only

theorem State.cache_startCell (h : o.KeepsCache s) (c : Chan) (cell : Cell) :
    o.KeepsCache (s.startCell c cell) := by
  unfold State.startCell
  repeat' first | exact h | with_reducible apply State.cache_askReserve | with_reducible apply State.cache_startData | split | dsimp only

theorem State.cache_startRefused (h : o.KeepsCache s) (c : Chan) (cell : Cell) :
    o.KeepsCache (s.startRefused c cell) := by
  unfold State.startRefused
  repeat' first | exact h | with_reducible apply State.cache_modContext | with_reducible apply State.cache_setOp | split | dsimp only

theorem State.cache_reserveGranted (h : o.KeepsCache s) (c : Chan) :
    o.KeepsCache (s.reserveGranted c) := by
  unfold State.reserveGranted
  repeat' first | exact h | with_reducible apply State.cache_onChan | with_reducible apply State.cache_release | with_reducible apply State.cache_askPool | with_reducible apply State.cache_setOp | with_reducible apply State.cache_undo | split | dsimp only

theorem State.cache_reserveRefused (h : o.KeepsCache s) (c : Chan) :
    o.KeepsCache (s.reserveRefused c) := by
  unfold State.reserveRefused
  repeat' first | exact h | with_reducible apply State.cache_raise | with_reducible apply State.cache_undo | with_reducible apply State.cache_startRefused | split | dsimp only

theorem State.cache_writeCell (h : o.KeepsCache s) (c : Chan) (cell : Cell) :
    o.KeepsCache (s.writeCell c cell) := by
  unfold State.writeCell
  repeat' first | exact h | with_reducible apply State.cache_requestWrite | with_reducible apply State.cache_modContext | with_reducible apply State.cache_setOp | split | dsimp only

theorem State.cache_writeFurther (h : o.KeepsCache s) (c : Chan) (cell : Cell) (b : Buffer) :
    o.KeepsCache (s.writeFurther c cell b) := by
  unfold State.writeFurther
  repeat' first | exact h | with_reducible apply State.cache_requestWrite | with_reducible apply State.cache_modContext | with_reducible apply State.cache_setOp | split | dsimp only

theorem State.cache_takeGiven (h : o.KeepsCache s) (c : Chan) (cookie addr : Word) :
    o.KeepsCache (s.takeGiven c cookie addr) := by
  unfold State.takeGiven
  repeat' first | exact h | with_reducible apply State.cache_modContext | with_reducible apply State.cache_undo | with_reducible apply State.cache_beginClose | with_reducible apply State.cache_writeCell | with_reducible apply State.cache_writeFurther | split | dsimp only

theorem State.cache_takeNone (h : o.KeepsCache s) (c : Chan) :
    o.KeepsCache (s.takeNone c) := by
  unfold State.takeNone
  repeat' first | exact h | with_reducible apply State.cache_onChan | with_reducible apply State.cache_raise | with_reducible apply State.cache_release | with_reducible apply State.cache_undo | with_reducible apply State.cache_beginClose | with_reducible apply State.cache_startRefused | split | dsimp only

theorem State.cache_continueCell (h : o.KeepsCache s) (c : Chan) (cell : Cell) (x : Context) :
    o.KeepsCache (s.continueCell c cell x) := by
  unfold State.continueCell
  repeat' first | exact h | with_reducible apply State.cache_askPool | with_reducible apply State.cache_setOp | with_reducible apply State.cache_beginClose | with_reducible apply State.cache_writeCell | split | dsimp only

theorem State.cache_applyOpen (h : o.KeepsCache s) (c : Chan) (cell : Cell) (x : Context) :
    o.KeepsCache (s.applyOpen c cell x) := by
  unfold State.applyOpen
  repeat' first | exact h | with_reducible apply State.cache_beginClose | with_reducible apply State.cache_continueCell | split | dsimp only

theorem State.cache_applyClosed (h : o.KeepsCache s) (c : Chan) (cell : Cell) :
    o.KeepsCache (s.applyClosed c cell) := by
  unfold State.applyClosed
  repeat' first | exact h | with_reducible apply State.cache_modContext | with_reducible apply State.cache_startData | split | dsimp only

theorem State.cache_applyTo (h : o.KeepsCache s) (c : Chan) (cell : Cell) :
    o.KeepsCache (s.applyTo c cell) := by
  unfold State.applyTo
  repeat' first | exact h | with_reducible apply State.cache_beginClose | with_reducible apply State.cache_startCell | with_reducible apply State.cache_applyOpen | with_reducible apply State.cache_applyClosed | split | dsimp only

theorem State.cache_applyHeld (h : o.KeepsCache s) :
    o.KeepsCache s.applyHeld := by
  unfold State.applyHeld
  repeat' first | exact h | with_reducible apply State.cache_onRe | with_reducible apply State.cache_touch | with_reducible apply State.cache_applyTo | split | dsimp only

theorem State.cache_applyAbort (h : o.KeepsCache s) (c : Chan) :
    o.KeepsCache (s.applyAbort c) := by
  unfold State.applyAbort
  repeat' first | exact h | with_reducible apply State.cache_onChan | with_reducible apply State.cache_touch | with_reducible apply State.cache_beginClose | split | dsimp only

theorem State.cache_writeAnswered (h : o.KeepsCache s) (c : Chan) (cell : Cell) (a : Answer) :
    o.KeepsCache (s.writeAnswered c cell a) := by
  unfold State.writeAnswered
  repeat' first | exact h | with_reducible apply State.cache_dropIfDue | with_reducible apply State.cache_setOp | with_reducible apply State.cache_undo | with_reducible apply State.cache_beginClose | split | dsimp only

theorem State.cache_payloadAnswered (h : o.KeepsCache s) (c : Chan) (second : Bool) (a : Answer) :
    o.KeepsCache (s.payloadAnswered c second a) := by
  unfold State.payloadAnswered
  repeat' first | exact h | with_reducible apply State.cache_setOp | with_reducible apply State.cache_writeAnswered | split | dsimp only

theorem State.cache_closeFinished (h : o.KeepsCache s) (c : Chan) :
    o.KeepsCache (s.closeFinished c) := by
  unfold State.closeFinished
  repeat' first | exact h | with_reducible apply State.cache_onChan | with_reducible apply State.cache_modContext | with_reducible apply State.cache_undo | with_reducible apply State.cache_startCell | split | dsimp only

theorem State.cache_holdCell (h : o.KeepsCache s) (c : Chan) (cell : Cell) :
    o.KeepsCache (s.holdCell c cell) := by
  unfold State.holdCell
  repeat' first | exact h | with_reducible apply State.cache_onChan | with_reducible apply State.cache_onCounters | with_reducible apply State.cache_onRe | with_reducible apply State.cache_raise | with_reducible apply State.cache_fetchRequest | split | dsimp only

theorem State.cache_deadlineFound (h : o.KeepsCache s) (c : Chan) :
    o.KeepsCache (s.deadlineFound c) := by
  unfold State.deadlineFound
  repeat' first | exact h | with_reducible apply State.cache_onChan | with_reducible apply State.cache_fetchRequest | with_reducible apply State.cache_beginClose | split | dsimp only

theorem State.cache_scanChannel (h : o.KeepsCache s) (c : Chan) :
    o.KeepsCache (s.scanChannel c) := by
  unfold State.scanChannel
  repeat' first | exact h | with_reducible apply State.cache_onRe | with_reducible apply State.cache_deadlineFound | split | dsimp only

theorem State.cache_poolFaultChannels (h : o.KeepsCache s) (p : PoolId) : o.KeepsCache (s.poolFaultChannels p) := by
  unfold State.poolFaultChannels
  refine State.cache_forAll _ _ (fun c s hs => State.cache_dropIfDue hs c) ?_
  exact State.cache_onRe (State.cache_dropHeld (State.cache_onCounters h _) _) _

theorem State.cache_owedWork (h : o.KeepsCache s) (c : Chan) :
    o.KeepsCache (s.owedWork c) := by
  unfold State.owedWork
  repeat' first | exact h | with_reducible apply State.cache_fetchRequest | with_reducible apply State.cache_freeEntry | with_reducible apply State.cache_touch | with_reducible apply State.cache_beginClose | split | dsimp only

theorem State.cache_freeAll (h : o.KeepsCache s) : o.KeepsCache s.freeAll := by
  unfold State.freeAll
  split
  · exact State.cache_forAll _ _ (fun e s hs => State.cache_freeEntry hs e) h
  · exact h

theorem State.cache_serveIfFreed (h : o.KeepsCache s) (b : State) : o.KeepsCache (s.serveIfFreed b) := by
  unfold State.serveIfFreed
  split
  · exact State.cache_serveWaitList _ _ h
  · exact h

/-- The end of a step keeps the cache legal. -/
theorem State.cache_settle (h : o.KeepsCache s) (b : State) : o.KeepsCache (s.settle b) := by
  unfold State.settle
  split
  · exact h
  · exact State.cache_serveIfFreed (State.cache_freeAll (State.cache_forAll _ _
      (fun c s hs => State.cache_owedWork hs c) (State.cache_endNewlyFilled h))) b

theorem State.cache_setAccess (h : o.KeepsCache s) (p : PoolId) (x : Option DuAccess) :
    o.KeepsCache (s.setAccess p x) := by
  unfold State.setAccess
  repeat' first | exact h | with_reducible apply State.cache_onPool | split | dsimp only

theorem State.cache_popRequest (h : o.KeepsCache s) (p : PoolId) :
    o.KeepsCache (s.popRequest p) := by
  unfold State.popRequest
  repeat' first | exact h | with_reducible apply State.cache_onPool | split | dsimp only

theorem State.cache_readFree (h : o.KeepsCache s) (p : PoolId) (c : Chan) (examined : Nat) :
    o.KeepsCache (s.readFree p c examined) := by
  unfold State.readFree
  repeat' first | exact h | with_reducible apply State.cache_requestRead | with_reducible apply State.cache_setAccess | split | dsimp only

theorem State.cache_writeFree (h : o.KeepsCache s) (p : PoolId) (status : Byte) (x : DuAccess) :
    o.KeepsCache (s.writeFree p status x) := by
  unfold State.writeFree
  repeat' first | exact h | with_reducible apply State.cache_requestWrite | with_reducible apply State.cache_setAccess | split | dsimp only

theorem State.cache_grantReserve (h : o.KeepsCache s) (p : PoolId) (n : Nat) (c : Chan) :
    o.KeepsCache (s.grantReserve p n c) := by
  unfold State.grantReserve
  repeat' first | exact h | with_reducible apply State.cache_onPool | with_reducible apply State.cache_reserveGranted | split | dsimp only

theorem State.cache_takeReserve (h : o.KeepsCache s) (p : PoolId) (c : Chan) :
    o.KeepsCache (s.takeReserve p c) := by
  unfold State.takeReserve
  repeat' first | exact h | with_reducible apply State.cache_requestRead | with_reducible apply State.cache_poolFaultAnswered | with_reducible apply State.cache_reserveRefused | with_reducible apply State.cache_setAccess | with_reducible apply State.cache_grantReserve | split | dsimp only

theorem State.cache_takeTake (h : o.KeepsCache s) (p : PoolId) (c : Chan) :
    o.KeepsCache (s.takeTake p c) := by
  unfold State.takeTake
  repeat' first | exact h | with_reducible apply State.cache_poolFaultAnswered | with_reducible apply State.cache_readFree | split | dsimp only

theorem State.cache_takeComplete (h : o.KeepsCache s) (p : PoolId) (c : Chan) (record : List Byte) :
    o.KeepsCache (s.takeComplete p c record) := by
  unfold State.takeComplete
  repeat' first | exact h | with_reducible apply State.cache_requestWrite | with_reducible apply State.cache_undo | with_reducible apply State.cache_poolFaultAnswered | with_reducible apply State.cache_setAccess | split | dsimp only

theorem State.cache_poolFault (h : o.KeepsCache s) (p : PoolId) (c : Chan) (detail : Nat) (x : Answer) :
    o.KeepsCache (s.poolFault p c detail x) := by
  unfold State.poolFault
  refine State.cache_foldl _ (fun s r hs => State.cache_poolFaultAnswered hs _) _ _ ?_
  refine State.cache_poolFaultAnswered ?_ _
  refine State.cache_raise ?_ _ _ _ _
  refine State.cache_poolFaultChannels ?_ _
  exact State.cache_onPool h _ _

theorem State.cache_advanceFree (h : o.KeepsCache s) (p : PoolId) :
    o.KeepsCache (s.advanceFree p) := by
  unfold State.advanceFree
  repeat' first | exact h | with_reducible apply State.cache_onPool | split | dsimp only

theorem State.cache_examineFree (h : o.KeepsCache s) (p : PoolId) (c : Chan) (examined : Nat) (bytes : List Byte) :
    o.KeepsCache (s.examineFree p c examined bytes) := by
  unfold State.examineFree
  repeat' first | exact h | with_reducible apply State.cache_takeNone | with_reducible apply State.cache_writeFree | split | dsimp only

theorem State.cache_rejected (h : o.KeepsCache s) (p : PoolId) (c : Chan) (examined detail : Nat) :
    o.KeepsCache (s.rejected p c examined detail) := by
  unfold State.rejected
  repeat' first | exact h | with_reducible apply State.cache_raise | with_reducible apply State.cache_takeNone | with_reducible apply State.cache_readFree | with_reducible apply State.cache_advanceFree | split | dsimp only

theorem State.cache_recordWritten (h : o.KeepsCache s) (p : PoolId) (c : Chan) :
    o.KeepsCache (s.recordWritten p c) := by
  unfold State.recordWritten
  repeat' first | exact h | with_reducible apply State.cache_onPool | with_reducible apply State.cache_assertLint | with_reducible apply State.cache_closeFinished | split | dsimp only

theorem State.cache_poolAnswered (h : o.KeepsCache s) (p : PoolId) (x : Answer) (bytes : List Byte) :
    o.KeepsCache (s.poolAnswered p x bytes) := by
  unfold State.poolAnswered
  repeat' first | exact h | with_reducible apply State.cache_reserveRefused | with_reducible apply State.cache_takeGiven | with_reducible apply State.cache_setAccess | with_reducible apply State.cache_grantReserve | with_reducible apply State.cache_poolFault | with_reducible apply State.cache_advanceFree | with_reducible apply State.cache_examineFree | with_reducible apply State.cache_rejected | with_reducible apply State.cache_recordWritten | split | dsimp only

theorem State.cache_setTxAccess (h : o.KeepsCache s) (r : RingId) (x : Option TxAccess) :
    o.KeepsCache (s.setTxAccess r x) := by
  unfold State.setTxAccess
  repeat' first | exact h | with_reducible apply State.cache_onRing | split | dsimp only

theorem State.cache_beginWriteBack (h : o.KeepsCache s) (r : RingId) (status : TxStatus) (cells : Nat) :
    o.KeepsCache (s.beginWriteBack r status cells) := by
  unfold State.beginWriteBack
  repeat' first | exact h | with_reducible apply State.cache_requestWrite | with_reducible apply State.cache_setTxAccess | split | dsimp only

theorem State.cache_poll (h : o.KeepsCache s) (r : RingId) :
    o.KeepsCache (s.poll r) := by
  unfold State.poll
  repeat' first | exact h | with_reducible apply State.cache_requestRead | with_reducible apply State.cache_setTxAccess | split | dsimp only

theorem State.cache_pollAll (h : o.KeepsCache s) : o.KeepsCache s.pollAll :=
  State.cache_forAll _ _ (fun r _ hs => State.cache_poll hs r) h

theorem State.cache_issueReads (r : RingId) (n : Nat) :
    ∀ s : State, o.KeepsCache s → o.KeepsCache (s.issueReads r n) := by
  induction n with
  | zero => exact fun _ h => h
  | succ n ih =>
    intro s h
    unfold State.issueReads
    repeat' split
    · exact ih _ (State.cache_requestRead (State.cache_onRing h _ _) _ _ _ _)
    · exact h
    · exact h
    · exact h

theorem State.cache_stageData (h : o.KeepsCache s) (r : RingId) (k : SlotId) (position : Position) (bytes : List Byte) :
    o.KeepsCache (s.stageData r k position bytes) := by
  unfold State.stageData
  repeat' first | exact h | with_reducible apply State.cache_onRing | with_reducible apply State.cache_onSlot | split | dsimp only

theorem State.cache_stageTrailer (h : o.KeepsCache s) (r : RingId) :
    o.KeepsCache (s.stageTrailer r) := by
  unfold State.stageTrailer
  repeat' first | exact h | with_reducible apply State.cache_onRing | with_reducible apply State.cache_stageData | split | dsimp only

theorem State.cache_buildCell (h : o.KeepsCache s) (r : RingId) (m : TxMsg) (d : TxDesc) (bytes : List Byte) :
    o.KeepsCache (s.buildCell r m d bytes) := by
  unfold State.buildCell
  repeat' first | exact h | with_reducible apply State.cache_onRing | with_reducible apply State.cache_stageData | split | dsimp only

theorem State.cache_endEarly (h : o.KeepsCache s) (r : RingId) (status : TxStatus) :
    o.KeepsCache (s.endEarly r status) := by
  unfold State.endEarly
  repeat' first | exact h | with_reducible apply State.cache_onRing | with_reducible apply State.cache_onSlot | with_reducible apply State.cache_beginWriteBack | with_reducible apply State.cache_stageData | split | dsimp only

theorem State.cache_bodyAnswered (h : o.KeepsCache s) (r : RingId) (gen : Nat) (x : Answer) (bytes : List Byte) :
    o.KeepsCache (s.bodyAnswered r gen x bytes) := by
  unfold State.bodyAnswered
  repeat' first | exact h | with_reducible apply State.cache_issueReads | with_reducible apply State.cache_stageTrailer | with_reducible apply State.cache_buildCell | with_reducible apply State.cache_endEarly | split | dsimp only

theorem State.cache_startMessage (h : o.KeepsCache s) (r : RingId) (k : SlotId) :
    o.KeepsCache (s.startMessage r k) := by
  unfold State.startMessage
  repeat' first | exact h | with_reducible apply State.cache_onRing | with_reducible apply State.cache_issueReads | split | dsimp only

theorem State.cache_requestLock (h : o.KeepsCache s) (r : RingId) (k : SlotId) :
    o.KeepsCache (s.requestLock r k) := by
  unfold State.requestLock
  repeat' first | exact h | with_reducible apply State.cache_onRing | with_reducible apply State.cache_onSlot | with_reducible apply State.cache_startMessage | split | dsimp only

theorem State.cache_releaseLock (h : o.KeepsCache s) (r : RingId) :
    o.KeepsCache (s.releaseLock r) := by
  unfold State.releaseLock
  repeat' first | exact h | with_reducible apply State.cache_onSlot | with_reducible apply State.cache_startMessage | split | dsimp only

theorem State.cache_validated (h : o.KeepsCache s) (r : RingId) (d : TxDesc) :
    o.KeepsCache (s.validated r d) := by
  unfold State.validated
  repeat' first | exact h | with_reducible apply State.cache_onRing | with_reducible apply State.cache_beginWriteBack | with_reducible apply State.cache_requestLock | split | dsimp only

theorem State.cache_ringRests (h : o.KeepsCache s) (r : RingId) (state : RingState) :
    o.KeepsCache (s.ringRests r state) := by
  unfold State.ringRests
  repeat' first | exact h | with_reducible apply State.cache_onRing | with_reducible apply State.cache_releaseLock | split | dsimp only

theorem State.cache_ringFault (h : o.KeepsCache s) (r : RingId) (detail : Nat) (x : Answer) :
    o.KeepsCache (s.ringFault r detail x) := by
  unfold State.ringFault
  repeat' first | exact h | with_reducible apply State.cache_raise | with_reducible apply State.cache_ringRests | split | dsimp only

theorem State.cache_writeBackDone (h : o.KeepsCache s) (r : RingId) :
    o.KeepsCache (s.writeBackDone r) := by
  unfold State.writeBackDone
  repeat' first | exact h | with_reducible apply State.cache_onRing | with_reducible apply State.cache_assertLint | with_reducible apply State.cache_poll | with_reducible apply State.cache_ringRests | split | dsimp only

theorem State.cache_descriptorAnswered (h : o.KeepsCache s) (r : RingId) (x : Answer) (bytes : List Byte) :
    o.KeepsCache (s.descriptorAnswered r x bytes) := by
  unfold State.descriptorAnswered
  repeat' first | exact h | with_reducible apply State.cache_onRing | with_reducible apply State.cache_requestRead | with_reducible apply State.cache_requestWrite | with_reducible apply State.cache_setTxAccess | with_reducible apply State.cache_validated | with_reducible apply State.cache_ringFault | with_reducible apply State.cache_writeBackDone | split | dsimp only

theorem State.cache_departed (h : o.KeepsCache s) (r : RingId) (cell : Cell) :
    o.KeepsCache (s.departed r cell) := by
  unfold State.departed
  repeat' first | exact h | with_reducible apply State.cache_onRing | with_reducible apply State.cache_beginWriteBack | with_reducible apply State.cache_issueReads | with_reducible apply State.cache_stageTrailer | split | dsimp only

theorem State.cache_slotOff (h : o.KeepsCache s) (r : RingId) :
    o.KeepsCache (s.slotOff r) := by
  unfold State.slotOff
  repeat' first | exact h | with_reducible apply State.cache_onRing | with_reducible apply State.cache_beginWriteBack | split | dsimp only

theorem State.cache_disableSlot (h : o.KeepsCache s) (k : SlotId) : o.KeepsCache (s.disableSlot k) := by
  have h1 : o.KeepsCache (((s.slot k).lockQueue).foldl State.slotOff (s.onSlot k fun x => { x with lockQueue := [] })) :=
    State.cache_foldl _ (fun s r hs => State.cache_slotOff hs r) _ _ (State.cache_onSlot h _ _)
  unfold State.disableSlot
  dsimp only
  split
  · exact State.cache_endEarly h1 _ _
  · exact h1

theorem State.cache_leaveLockQueues (h : o.KeepsCache s) :
    o.KeepsCache s.leaveLockQueues := by
  unfold State.leaveLockQueues
  repeat' first | exact h | with_reducible apply State.cache_onSu | split | dsimp only

theorem State.cache_writerFault (h : o.KeepsCache s) :
    o.KeepsCache s.writerFault := by
  unfold State.writerFault
  repeat' first | exact h | with_reducible apply State.cache_onEw | split | dsimp only

theorem State.cache_ownerKnown (h : o.KeepsCache s) (owner : Byte) :
    o.KeepsCache (s.ownerKnown owner) := by
  unfold State.ownerKnown
  repeat' first | exact h | with_reducible apply State.cache_onEw | with_reducible apply State.cache_requestWrite | with_reducible apply State.cache_loseEvent | split | dsimp only

theorem State.cache_recordKept (h : o.KeepsCache s) :
    o.KeepsCache s.recordKept := by
  unfold State.recordKept
  repeat' first | exact h | with_reducible apply State.cache_onEw | with_reducible apply State.cache_assertLint | split | dsimp only

theorem State.cache_eventAnswered (h : o.KeepsCache s) (x : Answer) (bytes : List Byte) :
    o.KeepsCache (s.eventAnswered x bytes) := by
  unfold State.eventAnswered
  repeat' first | exact h | with_reducible apply State.cache_onEw | with_reducible apply State.cache_writerFault | with_reducible apply State.cache_ownerKnown | with_reducible apply State.cache_recordKept | split | dsimp only

theorem State.cache_give (h : o.KeepsCache s) (tag : RequestTag) (x : Answer) (bytes : List Byte) :
    o.KeepsCache (s.give tag x bytes) := by
  unfold State.give
  repeat' first | exact h | with_reducible apply State.cache_fillAnswered | with_reducible apply State.cache_writeBackAnswered | with_reducible apply State.cache_syncAnswered | with_reducible apply State.cache_ctxReadAnswered | with_reducible apply State.cache_payloadAnswered | with_reducible apply State.cache_poolAnswered | with_reducible apply State.cache_bodyAnswered | with_reducible apply State.cache_descriptorAnswered | with_reducible apply State.cache_eventAnswered | split | dsimp only

theorem State.cache_countFailure (h : o.KeepsCache s) :
    o.KeepsCache s.countFailure := by
  unfold State.countFailure
  repeat' first | exact h | with_reducible apply State.cache_onCounters | split | dsimp only

end Sys2Proof.Machine
end

