-- ==== Sys2Proof/Laws/Moves.lean ====
section
/-! SUPPORT. What every operation of the datapath leaves alone, said once for each operation. -/

namespace Sys2Proof.Machine

set_option linter.unusedTactic false
set_option linter.unreachableTactic false
set_option linter.unusedSimpArgs false
set_option linter.unusedVariables false

/-- From state a the datapath (XC, RE, DU, SU and EW) has moved on to state s: the framer, the classifier, the arbiter,
the order list, the node's own data and every setting are as they were, held cells have only left, and the event
writer is within its limits if it was. -/
structure State.Moves (a s : State) : Prop where
  inReset : s.inReset = a.inReset
  cf : s.cf = a.cf
  cc : s.cc = a.cc
  ia : s.ia = a.ia
  pending : s.pending = a.pending
  freeReads : s.freeReads = a.freeReads
  order : s.lmp.order = a.lmp.order
  offered : s.lmp.offered = a.lmp.offered
  pointer : s.lmp.pointer = a.lmp.pointer
  nodeState : s.ma.nodeState = a.ma.nodeState
  nodeTime : s.ma.nodeTime = a.ma.nodeTime
  managers : s.ma.managers = a.ma.managers
  queue : s.ma.queue = a.ma.queue
  agent : s.ma.state = a.ma.state ∨ ∃ r, s.ma.state = .answering r
  hold : s.re.hold.Sublist a.re.hold
  scanOpen : s.re.scanOpen = a.re.scanOpen
  scanned : s.re.scanned = a.re.scanned
  countdown : s.su.countdown = a.su.countdown
  settings : s.settings = a.settings
  writer : a.ew.Legal → s.ew.Legal

theorem State.Moves.refl (a : State) : a.Moves a :=
  { inReset := rfl, cf := rfl, cc := rfl, ia := rfl, pending := rfl, freeReads := rfl, order := rfl, offered := rfl
    pointer := rfl, nodeState := rfl, nodeTime := rfl, managers := rfl, queue := rfl, agent := .inl rfl
    hold := List.Sublist.refl _, scanOpen := rfl, scanned := rfl, countdown := rfl, settings := rfl, writer := id }

theorem State.Moves.trans {a b c : State} (h : a.Moves b) (k : b.Moves c) : a.Moves c where
  inReset := k.inReset.trans h.inReset
  cf := k.cf.trans h.cf
  cc := k.cc.trans h.cc
  ia := k.ia.trans h.ia
  pending := k.pending.trans h.pending
  freeReads := k.freeReads.trans h.freeReads
  order := k.order.trans h.order
  offered := k.offered.trans h.offered
  pointer := k.pointer.trans h.pointer
  nodeState := k.nodeState.trans h.nodeState
  nodeTime := k.nodeTime.trans h.nodeTime
  managers := k.managers.trans h.managers
  queue := k.queue.trans h.queue
  agent := by
    rcases k.agent with hk | hk
    · rcases h.agent with hh | ⟨r, hh⟩
      · exact .inl (hk.trans hh)
      · exact .inr ⟨r, hk.trans hh⟩
    · exact .inr hk
  hold := k.hold.trans h.hold
  scanOpen := k.scanOpen.trans h.scanOpen
  scanned := k.scanned.trans h.scanned
  countdown := k.countdown.trans h.countdown
  settings := k.settings.trans h.settings
  writer w := k.writer (h.writer w)

/-! ## The settings under the updates -/

section Settings

variable (s : State)

theorem State.settings_onChan (c : Chan) (f : Channel → Channel) (hf : ∀ x, (f x).setting = x.setting) :
    (s.onChan c f).settings = s.settings := by
  have : ∀ d, ((s.onChan c f).chan d).setting = (s.chan d).setting := by
    intro d; rw [State.onChan_chan]; split <;> simp [*]
  simp [State.settings, this]

theorem State.settings_onPool (p : PoolId) (f : Pool → Pool) (hf : ∀ x, (f x).setting = x.setting) :
    (s.onPool p f).settings = s.settings := by
  have : ∀ d, ((s.onPool p f).pool d).setting = (s.pool d).setting := by
    intro d; rw [State.onPool_pool]; split <;> simp [*]
  simp [State.settings, this]

theorem State.settings_onRing (r : RingId) (f : TxRing → TxRing) (hf : ∀ x, (f x).setting = x.setting) :
    (s.onRing r f).settings = s.settings := by
  have : ∀ d, ((s.onRing r f).ring d).setting = (s.ring d).setting := by
    intro d; rw [State.onRing_ring]; split <;> simp [*]
  have h2 : (s.onRing r f).su.txPoll = s.su.txPoll := rfl
  simp [State.settings, this, h2]

theorem State.settings_onSlot (k : SlotId) (f : SendSlot → SendSlot) (hf : ∀ x, (f x).setting = x.setting) :
    (s.onSlot k f).settings = s.settings := by
  have : ∀ d, ((s.onSlot k f).slot d).setting = (s.slot d).setting := by
    intro d; rw [State.onSlot_slot]; split <;> simp [*]
  have h2 : (s.onSlot k f).su.txPoll = s.su.txPoll := rfl
  simp [State.settings, this, h2]

end Settings

/-! ## The updates -/

section Updates

variable {a s : State}

theorem State.moves_onChan (h : a.Moves s) (c : Chan) (f : Channel → Channel)
    (hf : ∀ x, (f x).setting = x.setting) : a.Moves (s.onChan c f) :=
  h.trans { State.Moves.refl s with settings := s.settings_onChan c f hf }

theorem State.moves_onXc (h : a.Moves s) (f : Cache → Cache) (hf : (f s.xc).storeBase = s.xc.storeBase) :
    a.Moves (s.onXc f) :=
  h.trans { State.Moves.refl s with settings := by simp [State.settings, hf] }

theorem State.moves_setEntry (h : a.Moves s) (e : EntryId) (x : CacheEntry) : a.Moves (s.setEntry e x) :=
  State.moves_onXc h _ rfl

theorem State.moves_onPool (h : a.Moves s) (p : PoolId) (f : Pool → Pool)
    (hf : ∀ x, (f x).setting = x.setting) : a.Moves (s.onPool p f) :=
  h.trans { State.Moves.refl s with settings := s.settings_onPool p f hf }

theorem State.moves_onRing (h : a.Moves s) (r : RingId) (f : TxRing → TxRing)
    (hf : ∀ x, (f x).setting = x.setting) : a.Moves (s.onRing r f) :=
  h.trans { State.Moves.refl s with settings := s.settings_onRing r f hf }

theorem State.moves_onSlot (h : a.Moves s) (k : SlotId) (f : SendSlot → SendSlot)
    (hf : ∀ x, (f x).setting = x.setting) : a.Moves (s.onSlot k f) :=
  h.trans { State.Moves.refl s with settings := s.settings_onSlot k f hf }

theorem State.moves_onCounters (h : a.Moves s) (f : Counters → Counters) : a.Moves (s.onCounters f) :=
  h.trans { State.Moves.refl s with }

theorem State.moves_onEw (h : a.Moves s) (f : EventWriter → EventWriter) (hb : (f s.ew).base = s.ew.base)
    (hs : (f s.ew).size = s.ew.size) (he : (f s.ew).enable = s.ew.enable) (hl : s.ew.Legal → (f s.ew).Legal) :
    a.Moves (s.onEw f) :=
  h.trans { State.Moves.refl s with settings := by simp [State.settings, hb, hs, he], writer := hl }

theorem State.moves_dropHeld (h : a.Moves s) (f : Chan → Bool) : a.Moves (s.dropHeld f) :=
  h.trans { State.Moves.refl s with settings := rfl, hold := List.filter_sublist }

@[simp] theorem Port.setLine_order (p : Port) (q : Requester) (l : List Request) : (p.setLine q l).order = p.order := by
  cases q <;> rfl

@[simp] theorem Port.setLine_offered (p : Port) (q : Requester) (l : List Request) :
    (p.setLine q l).offered = p.offered := by cases q <;> rfl

@[simp] theorem Port.setLine_pointer (p : Port) (q : Requester) (l : List Request) :
    (p.setLine q l).pointer = p.pointer := by cases q <;> rfl

@[simp] theorem Port.setLine_memTimeout (p : Port) (q : Requester) (l : List Request) :
    (p.setLine q l).memTimeout = p.memTimeout := by cases q <;> rfl

theorem State.moves_request (h : a.Moves s) (r : Request) : a.Moves (s.request r) :=
  h.trans { State.Moves.refl s with
    settings := by simp [State.settings, State.request]
    order := by simp [State.request]
    offered := by simp [State.request]
    pointer := by simp [State.request] }

theorem State.moves_requestRead (h : a.Moves s) (q : Requester) (addr : Word) (n : Nat) (t : RequestTag) :
    a.Moves (s.requestRead q addr n t) := State.moves_request h _

theorem State.moves_requestWrite (h : a.Moves s) (q : Requester) (addr : Word) (d : List Byte)
    (t : RequestTag) : a.Moves (s.requestWrite q addr d t) := State.moves_request h _

theorem lostSucc_le (n : Nat) (h : n ≤ 65535) : lostSucc n ≤ 65535 := by
  unfold lostSucc; split <;> omega

theorem State.moves_loseEvent (h : a.Moves s) : a.Moves s.loseEvent :=
  State.moves_onCounters (State.moves_onEw h _ rfl rfl rfl fun w => ⟨w.1, lostSucc_le _ w.2⟩) _

theorem State.moves_raise (h : a.Moves s) (k : EventKind) (x d : Nat) (w : Word) :
    a.Moves (s.raise k x d w) := by
  unfold State.raise
  repeat' split
  · exact h
  · exact h
  · exact h
  · exact State.moves_loseEvent h
  · refine State.moves_onEw h _ rfl rfl rfl fun l => ⟨?_, l.2⟩
    simp only [List.length_append, List.length_cons, List.length_nil]
    omega

theorem State.moves_assertLint (h : a.Moves s) : a.Moves s.assertLint :=
  State.moves_onEw h _ rfl rfl rfl id

theorem State.moves_answer (h : a.Moves s) (cmd : Cell) (st : MgmtStatus) (r : List Byte) :
    a.Moves (s.answer cmd st r) :=
  h.trans { State.Moves.refl s with settings := rfl, agent := .inr ⟨_, rfl⟩ }

theorem State.moves_finishLong (h : a.Moves s) (code : Byte) (st : MgmtStatus) (r : List Byte) :
    a.Moves (s.finishLong code st r) := by
  unfold State.finishLong
  split
  · exact State.moves_answer h _ _ _
  · exact h

theorem State.moves_foldl {β : Type} (f : State → β → State) (hf : ∀ s b, a.Moves s → a.Moves (f s b)) (l : List β) :
    ∀ s, a.Moves s → a.Moves (l.foldl f s) := by
  induction l with
  | nil => exact fun _ h => h
  | cons b l ih => exact fun s h => ih _ (hf s b h)

theorem State.moves_forAll (n : Nat) (f : Fin n → State → State) (hf : ∀ i s, a.Moves s → a.Moves (f i s))
    (h : a.Moves s) : a.Moves (forAll n f s) :=
  State.moves_foldl _ (fun s i => hf i s) _ _ h

end Updates

end Sys2Proof.Machine
end

