-- ==== Sys2Proof/Laws/Datapath.lean ====
section
/-! SUPPORT. The operations of the datapath, one lemma each: all that an operation leaves alone. -/

namespace Sys2Proof.Machine

set_option linter.unusedTactic false
set_option linter.unreachableTactic false
set_option linter.unusedSimpArgs false
set_option linter.unusedVariables false

variable {o s : State}

theorem State.moves_release (h : o.Moves s) (c : Chan) :
    o.Moves (s.release c) := by
  unfold State.release
  repeat' first | exact h | exact fun _ => rfl | (intro _; split <;> rfl) | with_reducible apply State.moves_onPool | split | rfl | dsimp only

theorem State.moves_readStore (h : o.Moves s) (c : Chan) (part : Fin 4) :
    o.Moves (s.readStore c part) := by
  unfold State.readStore
  repeat' first | exact h | exact fun _ => rfl | (intro _; split <;> rfl) | with_reducible apply State.moves_onXc | with_reducible apply State.moves_requestRead | split | rfl | dsimp only

theorem State.moves_contextArrived (h : o.Moves s) (c : Chan) (x : Context) :
    o.Moves (s.contextArrived c x) := by
  unfold State.contextArrived
  repeat' first | exact h | exact fun _ => rfl | (intro _; split <;> rfl) | with_reducible apply State.moves_onXc | with_reducible apply State.moves_finishLong | split | rfl | dsimp only

theorem State.moves_contextStored (h : o.Moves s) (c : Chan) (stage : CtxReadStage) :
    o.Moves (s.contextStored c stage) := by
  unfold State.contextStored
  repeat' first | exact h | exact fun _ => rfl | (intro _; split <;> rfl) | with_reducible apply State.moves_readStore | split | rfl | dsimp only

theorem State.moves_leaveRecency (h : o.Moves s) (e : EntryId) :
    o.Moves (s.leaveRecency e) := by
  unfold State.leaveRecency
  repeat' first | exact h | exact fun _ => rfl | (intro _; split <;> rfl) | with_reducible apply State.moves_onXc | split | rfl | dsimp only

theorem State.moves_reside (h : o.Moves s) (c : Chan) (r : Residence) :
    o.Moves (s.reside c r) := by
  unfold State.reside
  repeat' first | exact h | exact fun _ => rfl | (intro _; split <;> rfl) | with_reducible apply State.moves_onChan | split | rfl | dsimp only

theorem State.moves_install (h : o.Moves s) (e : EntryId) (c : Chan) (x : Context) (dirty : Bool) :
    o.Moves (s.install e c x dirty) := by
  unfold State.install
  repeat' first | exact h | exact fun _ => rfl | (intro _; split <;> rfl) | with_reducible apply State.moves_onXc | with_reducible apply State.moves_setEntry | with_reducible apply State.moves_contextArrived | with_reducible apply State.moves_reside | split | rfl | dsimp only

theorem State.moves_installFresh (h : o.Moves s) (e : EntryId) (c : Chan) :
    o.Moves (s.installFresh e c) := by
  unfold State.installFresh
  repeat' first | exact h | exact fun _ => rfl | (intro _; split <;> rfl) | with_reducible apply State.moves_onChan | with_reducible apply State.moves_install | split | rfl | dsimp only

theorem State.moves_startFill (h : o.Moves s) (e : EntryId) (c : Chan) :
    o.Moves (s.startFill e c) := by
  unfold State.startFill
  repeat' first | exact h | exact fun _ => rfl | (intro _; split <;> rfl) | with_reducible apply State.moves_setEntry | with_reducible apply State.moves_requestRead | with_reducible apply State.moves_installFresh | split | rfl | dsimp only

theorem State.moves_startWriteBack (h : o.Moves s) (e : EntryId) (c : Chan) (x : Context) (d : Option Chan) :
    o.Moves (s.startWriteBack e c x d) := by
  unfold State.startWriteBack
  repeat' first | exact h | exact fun _ => rfl | (intro _; split <;> rfl) | with_reducible apply State.moves_setEntry | with_reducible apply State.moves_requestWrite | with_reducible apply State.moves_leaveRecency | with_reducible apply State.moves_reside | split | rfl | dsimp only

theorem State.moves_evictClean (h : o.Moves s) (e : EntryId) (c : Chan) :
    o.Moves (s.evictClean e c) := by
  unfold State.evictClean
  repeat' first | exact h | exact fun _ => rfl | (intro _; split <;> rfl) | with_reducible apply State.moves_setEntry | with_reducible apply State.moves_leaveRecency | with_reducible apply State.moves_reside | split | rfl | dsimp only

theorem State.moves_useEntry (h : o.Moves s) (e : EntryId) (c : Chan) :
    o.Moves (s.useEntry e c) := by
  unfold State.useEntry
  repeat' first | exact h | exact fun _ => rfl | (intro _; split <;> rfl) | with_reducible apply State.moves_reside | with_reducible apply State.moves_startFill | with_reducible apply State.moves_startWriteBack | with_reducible apply State.moves_evictClean | split | rfl | dsimp only

theorem State.moves_noteFetch (h : o.Moves s) (c : Chan) :
    o.Moves (s.noteFetch c) := by
  unfold State.noteFetch
  repeat' first | exact h | exact fun _ => rfl | (intro _; split <;> rfl) | with_reducible apply State.moves_onXc | split | rfl | dsimp only

theorem State.moves_joinWaitList (h : o.Moves s) (c : Chan) :
    o.Moves (s.joinWaitList c) := by
  unfold State.joinWaitList
  repeat' first | exact h | exact fun _ => rfl | (intro _; split <;> rfl) | with_reducible apply State.moves_onXc | split | rfl | dsimp only

theorem State.moves_fetchRequest (h : o.Moves s) (c : Chan) :
    o.Moves (s.fetchRequest c) := by
  unfold State.fetchRequest
  repeat' first | exact h | exact fun _ => rfl | (intro _; split <;> rfl) | with_reducible apply State.moves_useEntry | with_reducible apply State.moves_noteFetch | with_reducible apply State.moves_joinWaitList | split | rfl | dsimp only

theorem State.moves_freeEntry (h : o.Moves s) (e : EntryId) :
    o.Moves (s.freeEntry e) := by
  unfold State.freeEntry
  repeat' first | exact h | exact fun _ => rfl | (intro _; split <;> rfl) | with_reducible apply State.moves_startWriteBack | with_reducible apply State.moves_evictClean | split | rfl | dsimp only

theorem State.moves_channelFault (h : o.Moves s) (c : Chan) (detail : Nat) (aux : Word) :
    o.Moves (s.channelFault c detail aux) := by
  unfold State.channelFault
  repeat' first | exact h | exact fun _ => rfl | (intro _; split <;> rfl) | with_reducible apply State.moves_onChan | with_reducible apply State.moves_onXc | with_reducible apply State.moves_onCounters | with_reducible apply State.moves_dropHeld | with_reducible apply State.moves_raise | with_reducible apply State.moves_finishLong | with_reducible apply State.moves_release | with_reducible apply State.moves_contextStored | split | rfl | dsimp only

theorem State.moves_fillAnswered (h : o.Moves s) (e : EntryId) (c : Chan) (a : Answer) (bytes : List Byte) :
    o.Moves (s.fillAnswered e c a bytes) := by
  unfold State.fillAnswered
  repeat' first | exact h | exact fun _ => rfl | (intro _; split <;> rfl) | with_reducible apply State.moves_onChan | with_reducible apply State.moves_setEntry | with_reducible apply State.moves_install | with_reducible apply State.moves_channelFault | with_reducible apply State.moves_dropMessage | split | rfl | dsimp only

theorem State.moves_passToClaimant (h : o.Moves s) (e : EntryId) (d : Option Chan) :
    o.Moves (s.passToClaimant e d) := by
  unfold State.passToClaimant
  repeat' first | exact h | exact fun _ => rfl | (intro _; split <;> rfl) | with_reducible apply State.moves_setEntry | with_reducible apply State.moves_startFill | split | rfl | dsimp only

theorem State.moves_refetchAndPass (h : o.Moves s) (e : EntryId) (c : Chan) (d : Option Chan) :
    o.Moves (s.refetchAndPass e c d) := by
  unfold State.refetchAndPass
  repeat' first | exact h | with_reducible apply State.moves_setEntry | with_reducible apply State.moves_startFill | with_reducible apply State.moves_fetchRequest | split | rfl

theorem State.moves_writeBackAnswered (h : o.Moves s) (e : EntryId) (c : Chan) (a : Answer) :
    o.Moves (s.writeBackAnswered e c a) := by
  unfold State.writeBackAnswered
  repeat' first | exact h | exact fun _ => rfl | (intro _; split <;> rfl) | with_reducible apply State.moves_contextStored | with_reducible apply State.moves_reside | with_reducible apply State.moves_refetchAndPass | with_reducible apply State.moves_channelFault | with_reducible apply State.moves_passToClaimant | split | rfl | dsimp only

theorem State.moves_syncNext (h : o.Moves s) (l : List (EntryId × Chan)) : o.Moves (s.syncNext l) := by
  induction l with
  | nil => exact State.moves_finishLong (State.moves_onXc h _ rfl) _ _ _
  | cons m l ih =>
    unfold State.syncNext
    repeat' split
    all_goals first
      | exact ih
      | exact State.moves_requestWrite (State.moves_setEntry (State.moves_onXc h _ rfl) _ _) _ _ _ _

theorem State.moves_syncAnswered (h : o.Moves s) (e : EntryId) (c : Chan) (a : Answer) :
    o.Moves (s.syncAnswered e c a) := by
  unfold State.syncAnswered
  repeat' first | exact h | exact fun _ => rfl | (intro _; split <;> rfl) | with_reducible apply State.moves_setEntry | with_reducible apply State.moves_leaveRecency | with_reducible apply State.moves_channelFault | with_reducible apply State.moves_syncNext | split | rfl | dsimp only

theorem State.moves_ctxReadAnswered (h : o.Moves s) (a : Answer) (bytes : List Byte) :
    o.Moves (s.ctxReadAnswered a bytes) := by
  unfold State.ctxReadAnswered
  repeat' first | exact h | exact fun _ => rfl | (intro _; split <;> rfl) | with_reducible apply State.moves_onXc | with_reducible apply State.moves_finishLong | split | rfl | dsimp only

theorem State.moves_popWaitList (h : o.Moves s) :
    o.Moves s.popWaitList := by
  unfold State.popWaitList
  repeat' first | exact h | exact fun _ => rfl | (intro _; split <;> rfl) | with_reducible apply State.moves_onXc | split | rfl | dsimp only

theorem State.moves_serveWaitList (n : Nat) : ∀ s : State, o.Moves s → o.Moves (s.serveWaitList n) := by
  induction n with
  | zero => exact fun _ h => h
  | succ n ih =>
    intro s h
    unfold State.serveWaitList
    repeat' split
    · exact h
    · exact ih _ (State.moves_useEntry (State.moves_popWaitList h) _ _)
    · exact ih _ (State.moves_popWaitList h)
    · exact h

theorem State.moves_endNewlyFilled (h : o.Moves s) :
    o.Moves s.endNewlyFilled := by
  unfold State.endNewlyFilled
  repeat' first | exact h | exact fun _ => rfl | (intro _; split <;> rfl) | with_reducible apply State.moves_onXc | split | rfl | dsimp only

theorem State.moves_modContext (h : o.Moves s) (c : Chan) (f : Context → Context) :
    o.Moves (s.modContext c f) := by
  unfold State.modContext
  repeat' first | exact h | exact fun _ => rfl | (intro _; split <;> rfl) | with_reducible apply State.moves_setEntry | split | rfl | dsimp only

theorem State.moves_touch (h : o.Moves s) (c : Chan) :
    o.Moves (s.touch c) := by
  unfold State.touch
  repeat' first | exact h | exact fun _ => rfl | (intro _; split <;> rfl) | with_reducible apply State.moves_onXc | with_reducible apply State.moves_setEntry | split | rfl | dsimp only

theorem State.moves_dropMessage (h : o.Moves s) (c : Chan) :
    o.Moves (s.dropMessage c) := by
  unfold State.dropMessage
  repeat' first | exact h | exact fun _ => rfl | (intro _; split <;> rfl) | with_reducible apply State.moves_onChan | with_reducible apply State.moves_setEntry | split | rfl | dsimp only

theorem State.moves_dropIfDue (h : o.Moves s) (c : Chan) :
    o.Moves (s.dropIfDue c) := by
  unfold State.dropIfDue
  repeat' first | exact h | exact fun _ => rfl | (intro _; split <;> rfl) | with_reducible apply State.moves_dropMessage | split | rfl | dsimp only

theorem State.moves_askPool (h : o.Moves s) (c : Chan) (r : DuRequest) :
    o.Moves (s.askPool c r) := by
  unfold State.askPool
  repeat' first | exact h | exact fun _ => rfl | (intro _; split <;> rfl) | with_reducible apply State.moves_onPool | split | rfl | dsimp only

theorem State.moves_setOp (h : o.Moves s) (c : Chan) (op : Option ChanOp) :
    o.Moves (s.setOp c op) := by
  unfold State.setOp
  repeat' first | exact h | exact fun _ => rfl | (intro _; split <;> rfl) | with_reducible apply State.moves_onChan | split | rfl | dsimp only

theorem State.moves_undo (h : o.Moves s) (c : Chan) :
    o.Moves (s.undo c) := by
  unfold State.undo
  repeat' first | exact h | exact fun _ => rfl | (intro _; split <;> rfl) | with_reducible apply State.moves_onCounters | with_reducible apply State.moves_setOp | split | rfl | dsimp only

theorem State.moves_poolFaultAnswered (h : o.Moves s) (c : Chan) :
    o.Moves (s.poolFaultAnswered c) := by
  unfold State.poolFaultAnswered
  repeat' first | exact h | exact fun _ => rfl | (intro _; split <;> rfl) | with_reducible apply State.moves_onCounters | with_reducible apply State.moves_dropIfDue | with_reducible apply State.moves_setOp | with_reducible apply State.moves_undo | split | rfl | dsimp only

theorem State.moves_beginClose (h : o.Moves s) (c : Chan) (status : RxStatus) (cause : CloseCause) :
    o.Moves (s.beginClose c status cause) := by
  unfold State.beginClose
  repeat' first | exact h | exact fun _ => rfl | (intro _; split <;> rfl) | with_reducible apply State.moves_askPool | with_reducible apply State.moves_setOp | split | rfl | dsimp only

theorem State.moves_askReserve (h : o.Moves s) (c : Chan) (cell : Cell) :
    o.Moves (s.askReserve c cell) := by
  unfold State.askReserve
  repeat' first | exact h | exact fun _ => rfl | (intro _; split <;> rfl) | with_reducible apply State.moves_askPool | with_reducible apply State.moves_setOp | split | rfl | dsimp only

theorem State.moves_startData (h : o.Moves s) (c : Chan) (cell : Cell) :
    o.Moves (s.startData c cell) := by
  unfold State.startData
  repeat' first | exact h | exact fun _ => rfl | (intro _; split <;> rfl) | with_reducible apply State.moves_modContext | with_reducible apply State.moves_askReserve | split | rfl | dsimp only

theorem State.moves_startCell (h : o.Moves s) (c : Chan) (cell : Cell) :
    o.Moves (s.startCell c cell) := by
  unfold State.startCell
  repeat' first | exact h | exact fun _ => rfl | (intro _; split <;> rfl) | with_reducible apply State.moves_askReserve | with_reducible apply State.moves_startData | split | rfl | dsimp only

theorem State.moves_startRefused (h : o.Moves s) (c : Chan) (cell : Cell) :
    o.Moves (s.startRefused c cell) := by
  unfold State.startRefused
  repeat' first | exact h | exact fun _ => rfl | (intro _; split <;> rfl) | with_reducible apply State.moves_modContext | with_reducible apply State.moves_setOp | split | rfl | dsimp only

theorem State.moves_reserveGranted (h : o.Moves s) (c : Chan) :
    o.Moves (s.reserveGranted c) := by
  unfold State.reserveGranted
  repeat' first | exact h | exact fun _ => rfl | (intro _; split <;> rfl) | with_reducible apply State.moves_onChan | with_reducible apply State.moves_release | with_reducible apply State.moves_askPool | with_reducible apply State.moves_setOp | with_reducible apply State.moves_undo | split | rfl | dsimp only

theorem State.moves_reserveRefused (h : o.Moves s) (c : Chan) :
    o.Moves (s.reserveRefused c) := by
  unfold State.reserveRefused
  repeat' first | exact h | exact fun _ => rfl | (intro _; split <;> rfl) | with_reducible apply State.moves_raise | with_reducible apply State.moves_undo | with_reducible apply State.moves_startRefused | split | rfl | dsimp only

theorem State.moves_writeCell (h : o.Moves s) (c : Chan) (cell : Cell) :
    o.Moves (s.writeCell c cell) := by
  unfold State.writeCell
  repeat' first | exact h | exact fun _ => rfl | (intro _; split <;> rfl) | with_reducible apply State.moves_requestWrite | with_reducible apply State.moves_modContext | with_reducible apply State.moves_setOp | split | rfl | dsimp only

theorem State.moves_writeFurther (h : o.Moves s) (c : Chan) (cell : Cell) (b : Buffer) :
    o.Moves (s.writeFurther c cell b) := by
  unfold State.writeFurther
  repeat' first | exact h | exact fun _ => rfl | (intro _; split <;> rfl) | with_reducible apply State.moves_requestWrite | with_reducible apply State.moves_modContext | with_reducible apply State.moves_setOp | split | rfl | dsimp only

theorem State.moves_takeGiven (h : o.Moves s) (c : Chan) (cookie addr : Word) :
    o.Moves (s.takeGiven c cookie addr) := by
  unfold State.takeGiven
  repeat' first | exact h | exact fun _ => rfl | (intro _; split <;> rfl) | with_reducible apply State.moves_modContext | with_reducible apply State.moves_undo | with_reducible apply State.moves_beginClose | with_reducible apply State.moves_writeCell | with_reducible apply State.moves_writeFurther | split | rfl | dsimp only

theorem State.moves_takeNone (h : o.Moves s) (c : Chan) :
    o.Moves (s.takeNone c) := by
  unfold State.takeNone
  repeat' first | exact h | exact fun _ => rfl | (intro _; split <;> rfl) | with_reducible apply State.moves_onChan | with_reducible apply State.moves_raise | with_reducible apply State.moves_release | with_reducible apply State.moves_undo | with_reducible apply State.moves_beginClose | with_reducible apply State.moves_startRefused | split | rfl | dsimp only

theorem State.moves_continueCell (h : o.Moves s) (c : Chan) (cell : Cell) (x : Context) :
    o.Moves (s.continueCell c cell x) := by
  unfold State.continueCell
  repeat' first | exact h | exact fun _ => rfl | (intro _; split <;> rfl) | with_reducible apply State.moves_askPool | with_reducible apply State.moves_setOp | with_reducible apply State.moves_beginClose | with_reducible apply State.moves_writeCell | split | rfl | dsimp only

theorem State.moves_applyOpen (h : o.Moves s) (c : Chan) (cell : Cell) (x : Context) :
    o.Moves (s.applyOpen c cell x) := by
  unfold State.applyOpen
  repeat' first | exact h | exact fun _ => rfl | (intro _; split <;> rfl) | with_reducible apply State.moves_beginClose | with_reducible apply State.moves_continueCell | split | rfl | dsimp only

theorem State.moves_applyClosed (h : o.Moves s) (c : Chan) (cell : Cell) :
    o.Moves (s.applyClosed c cell) := by
  unfold State.applyClosed
  repeat' first | exact h | exact fun _ => rfl | (intro _; split <;> rfl) | with_reducible apply State.moves_modContext | with_reducible apply State.moves_startData | split | rfl | dsimp only

theorem State.moves_applyTo (h : o.Moves s) (c : Chan) (cell : Cell) :
    o.Moves (s.applyTo c cell) := by
  unfold State.applyTo
  repeat' first | exact h | exact fun _ => rfl | (intro _; split <;> rfl) | with_reducible apply State.moves_beginClose | with_reducible apply State.moves_startCell | with_reducible apply State.moves_applyOpen | with_reducible apply State.moves_applyClosed | split | rfl | dsimp only

theorem State.moves_applyHeld (h : o.Moves s) : o.Moves s.applyHeld := by
  unfold State.applyHeld
  repeat' split
  · exact h
  · refine State.moves_applyTo (State.moves_touch (h.trans ?_) _) _ _
    exact { State.Moves.refl s with hold := List.eraseP_sublist }
  · exact h

theorem State.moves_applyAbort (h : o.Moves s) (c : Chan) :
    o.Moves (s.applyAbort c) := by
  unfold State.applyAbort
  repeat' first | exact h | exact fun _ => rfl | (intro _; split <;> rfl) | with_reducible apply State.moves_onChan | with_reducible apply State.moves_touch | with_reducible apply State.moves_beginClose | split | rfl | dsimp only

theorem State.moves_writeAnswered (h : o.Moves s) (c : Chan) (cell : Cell) (a : Answer) :
    o.Moves (s.writeAnswered c cell a) := by
  unfold State.writeAnswered
  repeat' first | exact h | exact fun _ => rfl | (intro _; split <;> rfl) | with_reducible apply State.moves_dropIfDue | with_reducible apply State.moves_setOp | with_reducible apply State.moves_undo | with_reducible apply State.moves_beginClose | split | rfl | dsimp only

theorem State.moves_payloadAnswered (h : o.Moves s) (c : Chan) (second : Bool) (a : Answer) :
    o.Moves (s.payloadAnswered c second a) := by
  unfold State.payloadAnswered
  repeat' first | exact h | exact fun _ => rfl | (intro _; split <;> rfl) | with_reducible apply State.moves_setOp | with_reducible apply State.moves_writeAnswered | split | rfl | dsimp only

theorem State.moves_closeFinished (h : o.Moves s) (c : Chan) :
    o.Moves (s.closeFinished c) := by
  unfold State.closeFinished
  repeat' first | exact h | exact fun _ => rfl | (intro _; split <;> rfl) | with_reducible apply State.moves_onChan | with_reducible apply State.moves_modContext | with_reducible apply State.moves_undo | with_reducible apply State.moves_startCell | split | rfl | dsimp only

theorem State.moves_deadlineFound (h : o.Moves s) (c : Chan) :
    o.Moves (s.deadlineFound c) := by
  unfold State.deadlineFound
  repeat' first | exact h | exact fun _ => rfl | (intro _; split <;> rfl) | with_reducible apply State.moves_onChan | with_reducible apply State.moves_fetchRequest | with_reducible apply State.moves_beginClose | split | rfl | dsimp only

theorem State.moves_poolFaultChannels (h : o.Moves s) (p : PoolId) : o.Moves (s.poolFaultChannels p) := by
  unfold State.poolFaultChannels
  refine State.moves_forAll _ _ (fun c s hs => State.moves_dropIfDue hs c) ?_
  have : ∀ (t : State) (d : Chan), ((t.onRe fun re => { re with channels := re.channels.map fun ch =>
      if ch.uses && ch.pool == p then { ch with msgOpen := false, poolReset := true, pendingAbort := .none }
      else ch }).chan d).setting = (t.chan d).setting := by
    intro t d
    simp only [State.chan, State.onRe_re, tget_map]
    split <;> rfl
  have h2 : ∀ t : State, t.Moves (t.onRe fun re => { re with channels := re.channels.map fun ch =>
      if ch.uses && ch.pool == p then { ch with msgOpen := false, poolReset := true, pendingAbort := .none }
      else ch }) := by
    intro t
    refine { State.Moves.refl t with settings := ?_ }
    simp only [State.settings, this]
    rfl
  exact State.Moves.trans (State.moves_dropHeld (State.moves_onCounters h _) _) (h2 _)

theorem State.moves_owedWork (h : o.Moves s) (c : Chan) :
    o.Moves (s.owedWork c) := by
  unfold State.owedWork
  repeat' first | exact h | exact fun _ => rfl | (intro _; split <;> rfl) | with_reducible apply State.moves_fetchRequest | with_reducible apply State.moves_freeEntry | with_reducible apply State.moves_touch | with_reducible apply State.moves_beginClose | split | rfl | dsimp only

theorem State.moves_freeAll (h : o.Moves s) : o.Moves s.freeAll := by
  unfold State.freeAll
  split
  · exact State.moves_forAll _ _ (fun e s hs => State.moves_freeEntry hs e) h
  · exact h

theorem State.moves_serveIfFreed (h : o.Moves s) (b : State) : o.Moves (s.serveIfFreed b) := by
  unfold State.serveIfFreed
  split
  · exact State.moves_serveWaitList _ _ h
  · exact h

/-- What the end of a step leaves alone. -/
theorem State.moves_settle (h : o.Moves s) (b : State) : o.Moves (s.settle b) := by
  unfold State.settle
  split
  · exact h
  · exact State.moves_serveIfFreed (State.moves_freeAll (State.moves_forAll _ _
      (fun c s hs => State.moves_owedWork hs c) (State.moves_endNewlyFilled h))) b

theorem State.moves_becomeUnbound (h : o.Moves s) (c : Chan) :
    o.Moves (s.becomeUnbound c) := by
  unfold State.becomeUnbound
  repeat' first | exact h | exact fun _ => rfl | (intro _; split <;> rfl) | with_reducible apply State.moves_onChan | with_reducible apply State.moves_onXc | split | rfl | dsimp only

theorem State.moves_setAccess (h : o.Moves s) (p : PoolId) (x : Option DuAccess) :
    o.Moves (s.setAccess p x) := by
  unfold State.setAccess
  repeat' first | exact h | exact fun _ => rfl | (intro _; split <;> rfl) | with_reducible apply State.moves_onPool | split | rfl | dsimp only

theorem State.moves_popRequest (h : o.Moves s) (p : PoolId) :
    o.Moves (s.popRequest p) := by
  unfold State.popRequest
  repeat' first | exact h | exact fun _ => rfl | (intro _; split <;> rfl) | with_reducible apply State.moves_onPool | split | rfl | dsimp only

theorem State.moves_readFree (h : o.Moves s) (p : PoolId) (c : Chan) (examined : Nat) :
    o.Moves (s.readFree p c examined) := by
  unfold State.readFree
  repeat' first | exact h | exact fun _ => rfl | (intro _; split <;> rfl) | with_reducible apply State.moves_requestRead | with_reducible apply State.moves_setAccess | split | rfl | dsimp only

theorem State.moves_writeFree (h : o.Moves s) (p : PoolId) (status : Byte) (x : DuAccess) :
    o.Moves (s.writeFree p status x) := by
  unfold State.writeFree
  repeat' first | exact h | exact fun _ => rfl | (intro _; split <;> rfl) | with_reducible apply State.moves_requestWrite | with_reducible apply State.moves_setAccess | split | rfl | dsimp only

theorem State.moves_grantReserve (h : o.Moves s) (p : PoolId) (n : Nat) (c : Chan) :
    o.Moves (s.grantReserve p n c) := by
  unfold State.grantReserve
  repeat' first | exact h | exact fun _ => rfl | (intro _; split <;> rfl) | with_reducible apply State.moves_onPool | with_reducible apply State.moves_reserveGranted | split | rfl | dsimp only

theorem State.moves_takeReserve (h : o.Moves s) (p : PoolId) (c : Chan) :
    o.Moves (s.takeReserve p c) := by
  unfold State.takeReserve
  repeat' first | exact h | exact fun _ => rfl | (intro _; split <;> rfl) | with_reducible apply State.moves_requestRead | with_reducible apply State.moves_poolFaultAnswered | with_reducible apply State.moves_reserveRefused | with_reducible apply State.moves_setAccess | with_reducible apply State.moves_grantReserve | split | rfl | dsimp only

theorem State.moves_takeTake (h : o.Moves s) (p : PoolId) (c : Chan) :
    o.Moves (s.takeTake p c) := by
  unfold State.takeTake
  repeat' first | exact h | exact fun _ => rfl | (intro _; split <;> rfl) | with_reducible apply State.moves_poolFaultAnswered | with_reducible apply State.moves_readFree | split | rfl | dsimp only

theorem State.moves_takeComplete (h : o.Moves s) (p : PoolId) (c : Chan) (record : List Byte) :
    o.Moves (s.takeComplete p c record) := by
  unfold State.takeComplete
  repeat' first | exact h | exact fun _ => rfl | (intro _; split <;> rfl) | with_reducible apply State.moves_requestWrite | with_reducible apply State.moves_undo | with_reducible apply State.moves_poolFaultAnswered | with_reducible apply State.moves_setAccess | split | rfl | dsimp only

theorem State.moves_poolFault (h : o.Moves s) (p : PoolId) (c : Chan) (detail : Nat) (x : Answer) :
    o.Moves (s.poolFault p c detail x) := by
  unfold State.poolFault
  refine State.moves_foldl _ (fun s r hs => State.moves_poolFaultAnswered hs _) _ _ ?_
  refine State.moves_poolFaultAnswered ?_ _
  refine State.moves_raise ?_ _ _ _ _
  refine State.moves_poolFaultChannels ?_ _
  exact State.moves_onPool h _ _ fun _ => rfl

theorem State.moves_advanceFree (h : o.Moves s) (p : PoolId) :
    o.Moves (s.advanceFree p) := by
  unfold State.advanceFree
  repeat' first | exact h | exact fun _ => rfl | (intro _; split <;> rfl) | with_reducible apply State.moves_onPool | split | rfl | dsimp only

theorem State.moves_examineFree (h : o.Moves s) (p : PoolId) (c : Chan) (examined : Nat) (bytes : List Byte) :
    o.Moves (s.examineFree p c examined bytes) := by
  unfold State.examineFree
  repeat' first | exact h | exact fun _ => rfl | (intro _; split <;> rfl) | with_reducible apply State.moves_takeNone | with_reducible apply State.moves_writeFree | split | rfl | dsimp only

theorem State.moves_rejected (h : o.Moves s) (p : PoolId) (c : Chan) (examined detail : Nat) :
    o.Moves (s.rejected p c examined detail) := by
  unfold State.rejected
  repeat' first | exact h | exact fun _ => rfl | (intro _; split <;> rfl) | with_reducible apply State.moves_raise | with_reducible apply State.moves_takeNone | with_reducible apply State.moves_readFree | with_reducible apply State.moves_advanceFree | split | rfl | dsimp only

theorem State.moves_recordWritten (h : o.Moves s) (p : PoolId) (c : Chan) :
    o.Moves (s.recordWritten p c) := by
  unfold State.recordWritten
  repeat' first | exact h | exact fun _ => rfl | (intro _; split <;> rfl) | with_reducible apply State.moves_onPool | with_reducible apply State.moves_assertLint | with_reducible apply State.moves_closeFinished | split | rfl | dsimp only

theorem State.moves_poolAnswered (h : o.Moves s) (p : PoolId) (x : Answer) (bytes : List Byte) :
    o.Moves (s.poolAnswered p x bytes) := by
  unfold State.poolAnswered
  repeat' first | exact h | exact fun _ => rfl | (intro _; split <;> rfl) | with_reducible apply State.moves_reserveRefused | with_reducible apply State.moves_takeGiven | with_reducible apply State.moves_setAccess | with_reducible apply State.moves_grantReserve | with_reducible apply State.moves_poolFault | with_reducible apply State.moves_advanceFree | with_reducible apply State.moves_examineFree | with_reducible apply State.moves_rejected | with_reducible apply State.moves_recordWritten | split | rfl | dsimp only

theorem State.moves_setTxAccess (h : o.Moves s) (r : RingId) (x : Option TxAccess) :
    o.Moves (s.setTxAccess r x) := by
  unfold State.setTxAccess
  repeat' first | exact h | exact fun _ => rfl | (intro _; split <;> rfl) | with_reducible apply State.moves_onRing | split | rfl | dsimp only

theorem State.moves_beginWriteBack (h : o.Moves s) (r : RingId) (status : TxStatus) (cells : Nat) :
    o.Moves (s.beginWriteBack r status cells) := by
  unfold State.beginWriteBack
  repeat' first | exact h | exact fun _ => rfl | (intro _; split <;> rfl) | with_reducible apply State.moves_requestWrite | with_reducible apply State.moves_setTxAccess | split | rfl | dsimp only

theorem State.moves_poll (h : o.Moves s) (r : RingId) :
    o.Moves (s.poll r) := by
  unfold State.poll
  repeat' first | exact h | exact fun _ => rfl | (intro _; split <;> rfl) | with_reducible apply State.moves_requestRead | with_reducible apply State.moves_setTxAccess | split | rfl | dsimp only

theorem State.moves_pollAll (h : o.Moves s) : o.Moves s.pollAll :=
  State.moves_forAll _ _ (fun r _ hs => State.moves_poll hs r) h

theorem State.moves_issueReads (r : RingId) (n : Nat) : ∀ s : State, o.Moves s → o.Moves (s.issueReads r n) := by
  induction n with
  | zero => exact fun _ h => h
  | succ n ih =>
    intro s h
    unfold State.issueReads
    repeat' split
    · refine ih _ (State.moves_requestRead ?_ _ _ _ _)
      exact State.moves_onRing h _ _ fun _ => rfl
    · exact h
    · exact h
    · exact h

theorem State.moves_stageData (h : o.Moves s) (r : RingId) (k : SlotId) (position : Position) (bytes : List Byte) :
    o.Moves (s.stageData r k position bytes) := by
  unfold State.stageData
  repeat' first | exact h | exact fun _ => rfl | (intro _; split <;> rfl) | with_reducible apply State.moves_onRing | with_reducible apply State.moves_onSlot | split | rfl | dsimp only

theorem State.moves_stageTrailer (h : o.Moves s) (r : RingId) :
    o.Moves (s.stageTrailer r) := by
  unfold State.stageTrailer
  repeat' first | exact h | exact fun _ => rfl | (intro _; split <;> rfl) | with_reducible apply State.moves_onRing | with_reducible apply State.moves_stageData | split | rfl | dsimp only

theorem State.moves_buildCell (h : o.Moves s) (r : RingId) (m : TxMsg) (d : TxDesc) (bytes : List Byte) :
    o.Moves (s.buildCell r m d bytes) := by
  unfold State.buildCell
  repeat' first | exact h | exact fun _ => rfl | (intro _; split <;> rfl) | with_reducible apply State.moves_onRing | with_reducible apply State.moves_stageData | split | rfl | dsimp only

theorem State.moves_endEarly (h : o.Moves s) (r : RingId) (status : TxStatus) :
    o.Moves (s.endEarly r status) := by
  unfold State.endEarly
  repeat' first | exact h | exact fun _ => rfl | (intro _; split <;> rfl) | with_reducible apply State.moves_onRing | with_reducible apply State.moves_onSlot | with_reducible apply State.moves_beginWriteBack | with_reducible apply State.moves_stageData | split | rfl | dsimp only

theorem State.moves_bodyAnswered (h : o.Moves s) (r : RingId) (gen : Nat) (x : Answer) (bytes : List Byte) :
    o.Moves (s.bodyAnswered r gen x bytes) := by
  unfold State.bodyAnswered
  repeat' first | exact h | exact fun _ => rfl | (intro _; split <;> rfl) | with_reducible apply State.moves_issueReads | with_reducible apply State.moves_stageTrailer | with_reducible apply State.moves_buildCell | with_reducible apply State.moves_endEarly | split | rfl | dsimp only

theorem State.moves_startMessage (h : o.Moves s) (r : RingId) (k : SlotId) :
    o.Moves (s.startMessage r k) := by
  unfold State.startMessage
  repeat' first | exact h | exact fun _ => rfl | (intro _; split <;> rfl) | with_reducible apply State.moves_onRing | with_reducible apply State.moves_issueReads | split | rfl | dsimp only

theorem State.moves_requestLock (h : o.Moves s) (r : RingId) (k : SlotId) :
    o.Moves (s.requestLock r k) := by
  unfold State.requestLock
  repeat' first | exact h | exact fun _ => rfl | (intro _; split <;> rfl) | with_reducible apply State.moves_onRing | with_reducible apply State.moves_onSlot | with_reducible apply State.moves_startMessage | split | rfl | dsimp only

theorem State.moves_releaseLock (h : o.Moves s) (r : RingId) :
    o.Moves (s.releaseLock r) := by
  unfold State.releaseLock
  repeat' first | exact h | exact fun _ => rfl | (intro _; split <;> rfl) | with_reducible apply State.moves_onSlot | with_reducible apply State.moves_startMessage | split | rfl | dsimp only

theorem State.moves_validated (h : o.Moves s) (r : RingId) (d : TxDesc) :
    o.Moves (s.validated r d) := by
  unfold State.validated
  repeat' first | exact h | exact fun _ => rfl | (intro _; split <;> rfl) | with_reducible apply State.moves_onRing | with_reducible apply State.moves_beginWriteBack | with_reducible apply State.moves_requestLock | split | rfl | dsimp only

theorem State.moves_ringRests (h : o.Moves s) (r : RingId) (state : RingState) :
    o.Moves (s.ringRests r state) := by
  unfold State.ringRests
  repeat' first | exact h | exact fun _ => rfl | (intro _; split <;> rfl) | with_reducible apply State.moves_onRing | with_reducible apply State.moves_releaseLock | split | rfl | dsimp only

theorem State.moves_ringFault (h : o.Moves s) (r : RingId) (detail : Nat) (x : Answer) :
    o.Moves (s.ringFault r detail x) := by
  unfold State.ringFault
  repeat' first | exact h | exact fun _ => rfl | (intro _; split <;> rfl) | with_reducible apply State.moves_raise | with_reducible apply State.moves_ringRests | split | rfl | dsimp only

theorem State.moves_writeBackDone (h : o.Moves s) (r : RingId) :
    o.Moves (s.writeBackDone r) := by
  unfold State.writeBackDone
  repeat' first | exact h | exact fun _ => rfl | (intro _; split <;> rfl) | with_reducible apply State.moves_onRing | with_reducible apply State.moves_assertLint | with_reducible apply State.moves_poll | with_reducible apply State.moves_ringRests | split | rfl | dsimp only

theorem State.moves_descriptorAnswered (h : o.Moves s) (r : RingId) (x : Answer) (bytes : List Byte) :
    o.Moves (s.descriptorAnswered r x bytes) := by
  unfold State.descriptorAnswered
  repeat' first | exact h | exact fun _ => rfl | (intro _; split <;> rfl) | with_reducible apply State.moves_onRing | with_reducible apply State.moves_requestRead | with_reducible apply State.moves_requestWrite | with_reducible apply State.moves_setTxAccess | with_reducible apply State.moves_validated | with_reducible apply State.moves_ringFault | with_reducible apply State.moves_writeBackDone | split | rfl | dsimp only

theorem State.moves_departed (h : o.Moves s) (r : RingId) (cell : Cell) :
    o.Moves (s.departed r cell) := by
  unfold State.departed
  repeat' first | exact h | exact fun _ => rfl | (intro _; split <;> rfl) | with_reducible apply State.moves_onRing | with_reducible apply State.moves_beginWriteBack | with_reducible apply State.moves_issueReads | with_reducible apply State.moves_stageTrailer | split | rfl | dsimp only

theorem State.moves_slotOff (h : o.Moves s) (r : RingId) :
    o.Moves (s.slotOff r) := by
  unfold State.slotOff
  repeat' first | exact h | exact fun _ => rfl | (intro _; split <;> rfl) | with_reducible apply State.moves_onRing | with_reducible apply State.moves_beginWriteBack | split | rfl | dsimp only

theorem State.moves_disableSlot (h : o.Moves s) (k : SlotId) : o.Moves (s.disableSlot k) := by
  have h1 : o.Moves (((s.slot k).lockQueue).foldl State.slotOff (s.onSlot k fun x => { x with lockQueue := [] })) :=
    State.moves_foldl _ (fun s r hs => State.moves_slotOff hs r) _ _ (State.moves_onSlot h _ _ fun _ => rfl)
  unfold State.disableSlot
  dsimp only
  split
  · exact State.moves_endEarly h1 _ _
  · exact h1

theorem State.moves_leaveLockQueues (h : o.Moves s) : o.Moves s.leaveLockQueues := by
  have h1 : ∀ r, (s.leaveLockQueues.ring r).setting = (s.ring r).setting := by
    intro r
    simp only [State.leaveLockQueues, State.ring, State.onSu_su, tget_map]
    split <;> rfl
  have h2 : ∀ k, (s.leaveLockQueues.slot k).setting = (s.slot k).setting := by
    intro k
    simp only [State.leaveLockQueues, State.slot, State.onSu_su, tget_map]
    rfl
  refine h.trans { State.Moves.refl s with settings := ?_ }
  simp only [State.settings, h1, h2]
  rfl

theorem State.moves_writerFault (h : o.Moves s) : o.Moves s.writerFault :=
  State.moves_onEw h _ rfl rfl rfl fun _ => ⟨Nat.zero_le _, Nat.zero_le _⟩

theorem State.moves_ownerKnown (h : o.Moves s) (owner : Byte) : o.Moves (s.ownerKnown owner) := by
  unfold State.ownerKnown
  split
  · exact h
  · next e rest hq =>
    split
    · exact State.moves_requestWrite (State.moves_onEw h _ rfl rfl rfl fun l => ⟨l.1, Nat.zero_le _⟩) _ _ _ _
    · refine State.moves_loseEvent (State.moves_onEw h _ rfl rfl rfl fun l => ⟨?_, l.2⟩)
      have := l.1
      rw [hq] at this
      exact Nat.le_of_succ_le this

theorem State.moves_recordKept (h : o.Moves s) : o.Moves s.recordKept :=
  State.moves_assertLint (State.moves_onEw h _ rfl rfl rfl fun l =>
    ⟨by have := l.1; simp only [List.length_tail]; omega, l.2⟩)

theorem State.moves_eventAnswered (h : o.Moves s) (x : Answer) (bytes : List Byte) :
    o.Moves (s.eventAnswered x bytes) := by
  have h' : o.Moves (s.onEw fun ew => { ew with access := .none }) := State.moves_onEw h _ rfl rfl rfl id
  unfold State.eventAnswered
  dsimp only
  repeat' split
  all_goals first
    | exact h
    | exact h'
    | exact State.moves_ownerKnown h' _
    | exact State.moves_writerFault h'
    | exact State.moves_recordKept h'

theorem State.moves_give (h : o.Moves s) (tag : RequestTag) (x : Answer) (bytes : List Byte) :
    o.Moves (s.give tag x bytes) := by
  unfold State.give
  repeat' first | exact h | exact fun _ => rfl | (intro _; split <;> rfl) | with_reducible apply State.moves_fillAnswered | with_reducible apply State.moves_writeBackAnswered | with_reducible apply State.moves_syncAnswered | with_reducible apply State.moves_ctxReadAnswered | with_reducible apply State.moves_payloadAnswered | with_reducible apply State.moves_poolAnswered | with_reducible apply State.moves_bodyAnswered | with_reducible apply State.moves_descriptorAnswered | with_reducible apply State.moves_eventAnswered | split | rfl | dsimp only

theorem State.moves_countFailure (h : o.Moves s) :
    o.Moves s.countFailure := by
  unfold State.countFailure
  repeat' first | exact h | exact fun _ => rfl | (intro _; split <;> rfl) | with_reducible apply State.moves_onCounters | split | rfl | dsimp only

end Sys2Proof.Machine
end

