-- ==== Sys2Proof/Laws/PoolLegal.lean ====
section
/-! SUPPORT. The counts and positions of the receive pools stay in their ranges under the receive side's operations. -/

namespace Sys2Proof.Machine

set_option linter.unusedTactic false
set_option linter.unreachableTactic false
set_option linter.unusedSimpArgs false
set_option linter.unusedVariables false

/-- Every pool is legal (R95, R99). -/
def State.PoolsLegal (s : State) : Prop := ∀ p, (s.pool p).Legal

variable {s : State}

theorem State.pools_same {t : State} (h : s.PoolsLegal) (e : t.du = s.du) : t.PoolsLegal :=
  fun p => by unfold State.pool; rw [e]; exact h p

theorem State.pools_onPool (h : s.PoolsLegal) (p) (f : Pool → Pool) (hf : ∀ x, x.Legal → (f x).Legal) :
    (s.onPool p f).PoolsLegal := fun q => by
  rw [State.onPool_pool]
  split
  · exact hf _ (h q)
  · exact h q

theorem State.pools_onChan (h : s.PoolsLegal) (c f) : (s.onChan c f).PoolsLegal := State.pools_same h rfl

theorem State.pools_onXc (h : s.PoolsLegal) (f) : (s.onXc f).PoolsLegal := State.pools_same h rfl

theorem State.pools_onRe (h : s.PoolsLegal) (f) : (s.onRe f).PoolsLegal := State.pools_same h rfl

theorem State.pools_onCounters (h : s.PoolsLegal) (f) : (s.onCounters f).PoolsLegal := State.pools_same h rfl

theorem State.pools_setEntry (h : s.PoolsLegal) (e f) : (s.setEntry e f).PoolsLegal := State.pools_same h rfl

theorem State.pools_requestRead (h : s.PoolsLegal) (a b c d) : (s.requestRead a b c d).PoolsLegal :=
  State.pools_same h rfl

theorem State.pools_requestWrite (h : s.PoolsLegal) (a b c d) : (s.requestWrite a b c d).PoolsLegal :=
  State.pools_same h rfl

theorem State.pools_dropHeld (h : s.PoolsLegal) (f) : (s.dropHeld f).PoolsLegal := State.pools_same h rfl

theorem State.pools_assertLint (h : s.PoolsLegal) : s.assertLint.PoolsLegal := State.pools_same h rfl

theorem State.pools_raise (h : s.PoolsLegal) (a b c d) : (s.raise a b c d).PoolsLegal := by
  unfold State.raise
  repeat' split
  all_goals exact State.pools_same h rfl

theorem State.pools_finishLong (h : s.PoolsLegal) (a b c) : (s.finishLong a b c).PoolsLegal := by
  unfold State.finishLong; split <;> exact State.pools_same h rfl

theorem State.pools_release (h : s.PoolsLegal) (c : Chan) : (s.release c).PoolsLegal :=
  State.pools_onPool h _ _ fun x l => by
  split
  · exact l
  · exact ⟨l.1, l.2, Nat.le_trans (Nat.sub_le _ _) l.3, l.4, l.5, fun h =>
      ⟨by show x.reserved - 1 = 0; rw [(l.6 h).1], (l.6 h).2⟩⟩

theorem State.pools_readStore (h : s.PoolsLegal) (c : Chan) (part : Fin 4) : (s.readStore c part).PoolsLegal := by
  unfold State.readStore
  repeat' first | exact h | exact fun x l => ⟨l.1, l.2, l.3, l.4, l.5, l.6⟩ | with_reducible apply State.pools_onXc | with_reducible apply State.pools_requestRead | split | dsimp only

theorem State.pools_contextArrived (h : s.PoolsLegal) (c : Chan) (x : Context) : (s.contextArrived c x).PoolsLegal := by
  unfold State.contextArrived
  repeat' first | exact h | exact fun x l => ⟨l.1, l.2, l.3, l.4, l.5, l.6⟩ | with_reducible apply State.pools_onXc | with_reducible apply State.pools_finishLong | split | dsimp only

theorem State.pools_contextStored (h : s.PoolsLegal) (c : Chan) (stage : CtxReadStage) :
    (s.contextStored c stage).PoolsLegal := by
  unfold State.contextStored
  repeat' first | exact h | exact fun x l => ⟨l.1, l.2, l.3, l.4, l.5, l.6⟩ | with_reducible apply State.pools_readStore | split | dsimp only

theorem State.pools_leaveRecency (h : s.PoolsLegal) (e : EntryId) : (s.leaveRecency e).PoolsLegal := by
  unfold State.leaveRecency
  repeat' first | exact h | exact fun x l => ⟨l.1, l.2, l.3, l.4, l.5, l.6⟩ | with_reducible apply State.pools_onXc | split | dsimp only

theorem State.pools_reside (h : s.PoolsLegal) (c : Chan) (r : Residence) : (s.reside c r).PoolsLegal := by
  unfold State.reside
  repeat' first | exact h | exact fun x l => ⟨l.1, l.2, l.3, l.4, l.5, l.6⟩ | with_reducible apply State.pools_onChan | split | dsimp only

theorem State.pools_install (h : s.PoolsLegal) (e : EntryId) (c : Chan) (x : Context) (dirty : Bool) :
    (s.install e c x dirty).PoolsLegal := by
  unfold State.install
  repeat' first | exact h | exact fun x l => ⟨l.1, l.2, l.3, l.4, l.5, l.6⟩ | with_reducible apply State.pools_onXc | with_reducible apply State.pools_setEntry | with_reducible apply State.pools_contextArrived | with_reducible apply State.pools_reside | split | dsimp only

theorem State.pools_installFresh (h : s.PoolsLegal) (e : EntryId) (c : Chan) : (s.installFresh e c).PoolsLegal := by
  unfold State.installFresh
  repeat' first | exact h | exact fun x l => ⟨l.1, l.2, l.3, l.4, l.5, l.6⟩ | with_reducible apply State.pools_onChan | with_reducible apply State.pools_install | split | dsimp only

theorem State.pools_startFill (h : s.PoolsLegal) (e : EntryId) (c : Chan) : (s.startFill e c).PoolsLegal := by
  unfold State.startFill
  repeat' first | exact h | exact fun x l => ⟨l.1, l.2, l.3, l.4, l.5, l.6⟩ | with_reducible apply State.pools_setEntry | with_reducible apply State.pools_requestRead | with_reducible apply State.pools_installFresh | split | dsimp only

theorem State.pools_startWriteBack (h : s.PoolsLegal) (e : EntryId) (c : Chan) (x : Context) (d : Option Chan) :
    (s.startWriteBack e c x d).PoolsLegal := by
  unfold State.startWriteBack
  repeat' first | exact h | exact fun x l => ⟨l.1, l.2, l.3, l.4, l.5, l.6⟩ | with_reducible apply State.pools_setEntry | with_reducible apply State.pools_requestWrite | with_reducible apply State.pools_leaveRecency | with_reducible apply State.pools_reside | split | dsimp only

theorem State.pools_evictClean (h : s.PoolsLegal) (e : EntryId) (c : Chan) : (s.evictClean e c).PoolsLegal := by
  unfold State.evictClean
  repeat' first | exact h | exact fun x l => ⟨l.1, l.2, l.3, l.4, l.5, l.6⟩ | with_reducible apply State.pools_setEntry | with_reducible apply State.pools_leaveRecency | with_reducible apply State.pools_reside | split | dsimp only

theorem State.pools_useEntry (h : s.PoolsLegal) (e : EntryId) (c : Chan) : (s.useEntry e c).PoolsLegal := by
  unfold State.useEntry
  repeat' first | exact h | exact fun x l => ⟨l.1, l.2, l.3, l.4, l.5, l.6⟩ | with_reducible apply State.pools_reside | with_reducible apply State.pools_startFill | with_reducible apply State.pools_startWriteBack | with_reducible apply State.pools_evictClean | split | dsimp only

theorem State.pools_noteFetch (h : s.PoolsLegal) (c : Chan) : (s.noteFetch c).PoolsLegal := by
  unfold State.noteFetch
  repeat' first | exact h | exact fun x l => ⟨l.1, l.2, l.3, l.4, l.5, l.6⟩ | with_reducible apply State.pools_onXc | split | dsimp only

theorem State.pools_joinWaitList (h : s.PoolsLegal) (c : Chan) : (s.joinWaitList c).PoolsLegal := by
  unfold State.joinWaitList
  repeat' first | exact h | exact fun x l => ⟨l.1, l.2, l.3, l.4, l.5, l.6⟩ | with_reducible apply State.pools_onXc | split | dsimp only

theorem State.pools_fetchRequest (h : s.PoolsLegal) (c : Chan) : (s.fetchRequest c).PoolsLegal := by
  unfold State.fetchRequest
  repeat' first | exact h | exact fun x l => ⟨l.1, l.2, l.3, l.4, l.5, l.6⟩ | with_reducible apply State.pools_useEntry | with_reducible apply State.pools_noteFetch | with_reducible apply State.pools_joinWaitList | split | dsimp only

theorem State.pools_freeEntry (h : s.PoolsLegal) (e : EntryId) : (s.freeEntry e).PoolsLegal := by
  unfold State.freeEntry
  repeat' first | exact h | exact fun x l => ⟨l.1, l.2, l.3, l.4, l.5, l.6⟩ | with_reducible apply State.pools_startWriteBack | with_reducible apply State.pools_evictClean | split | dsimp only

theorem State.pools_channelFault (h : s.PoolsLegal) (c : Chan) (detail : Nat) (aux : Word) :
    (s.channelFault c detail aux).PoolsLegal := by
  unfold State.channelFault
  repeat' first | exact h | exact fun x l => ⟨l.1, l.2, l.3, l.4, l.5, l.6⟩ | with_reducible apply State.pools_onChan | with_reducible apply State.pools_onXc | with_reducible apply State.pools_onCounters | with_reducible apply State.pools_dropHeld | with_reducible apply State.pools_raise | with_reducible apply State.pools_finishLong | with_reducible apply State.pools_release | with_reducible apply State.pools_contextStored | split | dsimp only

theorem State.pools_modContext (h : s.PoolsLegal) (c : Chan) (f : Context → Context) :
    (s.modContext c f).PoolsLegal := by
  unfold State.modContext
  repeat' first | exact h | exact fun x l => ⟨l.1, l.2, l.3, l.4, l.5, l.6⟩ | with_reducible apply State.pools_setEntry | split | dsimp only

theorem State.pools_touch (h : s.PoolsLegal) (c : Chan) : (s.touch c).PoolsLegal := by
  unfold State.touch
  repeat' first | exact h | exact fun x l => ⟨l.1, l.2, l.3, l.4, l.5, l.6⟩ | with_reducible apply State.pools_onXc | with_reducible apply State.pools_setEntry | split | dsimp only

theorem State.pools_dropMessage (h : s.PoolsLegal) (c : Chan) : (s.dropMessage c).PoolsLegal := by
  unfold State.dropMessage
  repeat' first | exact h | exact fun x l => ⟨l.1, l.2, l.3, l.4, l.5, l.6⟩ | with_reducible apply State.pools_onChan | with_reducible apply State.pools_setEntry | split | dsimp only

theorem State.pools_dropIfDue (h : s.PoolsLegal) (c : Chan) : (s.dropIfDue c).PoolsLegal := by
  unfold State.dropIfDue
  repeat' first | exact h | exact fun x l => ⟨l.1, l.2, l.3, l.4, l.5, l.6⟩ | with_reducible apply State.pools_dropMessage | split | dsimp only

theorem State.pools_fillAnswered (h : s.PoolsLegal) (e : EntryId) (c : Chan) (a : Answer) (bytes : List Byte) :
    (s.fillAnswered e c a bytes).PoolsLegal := by
  unfold State.fillAnswered
  repeat' first | exact h | exact fun x l => ⟨l.1, l.2, l.3, l.4, l.5, l.6⟩ | with_reducible apply State.pools_onChan | with_reducible apply State.pools_setEntry | with_reducible apply State.pools_install | with_reducible apply State.pools_channelFault | with_reducible apply State.pools_dropMessage | split | dsimp only

theorem State.pools_passToClaimant (h : s.PoolsLegal) (e : EntryId) (d : Option Chan) :
    (s.passToClaimant e d).PoolsLegal := by
  unfold State.passToClaimant
  repeat' first | exact h | exact fun x l => ⟨l.1, l.2, l.3, l.4, l.5, l.6⟩ | with_reducible apply State.pools_setEntry | with_reducible apply State.pools_startFill | split | dsimp only

theorem State.pools_refetchAndPass (h : s.PoolsLegal) (e : EntryId) (c : Chan) (d : Option Chan) :
    (s.refetchAndPass e c d).PoolsLegal := by
  unfold State.refetchAndPass
  repeat' first | exact h | exact fun x l => ⟨l.1, l.2, l.3, l.4, l.5, l.6⟩ | with_reducible apply State.pools_setEntry | with_reducible apply State.pools_startFill | with_reducible apply State.pools_fetchRequest | split | dsimp only

theorem State.pools_writeBackAnswered (h : s.PoolsLegal) (e : EntryId) (c : Chan) (a : Answer) :
    (s.writeBackAnswered e c a).PoolsLegal := by
  unfold State.writeBackAnswered
  repeat' first | exact h | exact fun x l => ⟨l.1, l.2, l.3, l.4, l.5, l.6⟩ | with_reducible apply State.pools_contextStored | with_reducible apply State.pools_reside | with_reducible apply State.pools_refetchAndPass | with_reducible apply State.pools_channelFault | with_reducible apply State.pools_passToClaimant | split | dsimp only

theorem State.pools_askPool (h : s.PoolsLegal) (c : Chan) (r : DuRequest) : (s.askPool c r).PoolsLegal := by
  unfold State.askPool
  repeat' first | exact h | exact fun x l => ⟨l.1, l.2, l.3, l.4, l.5, l.6⟩ | with_reducible apply State.pools_onPool | split | dsimp only

theorem State.pools_setOp (h : s.PoolsLegal) (c : Chan) (op : Option ChanOp) : (s.setOp c op).PoolsLegal := by
  unfold State.setOp
  repeat' first | exact h | exact fun x l => ⟨l.1, l.2, l.3, l.4, l.5, l.6⟩ | with_reducible apply State.pools_onChan | split | dsimp only

theorem State.pools_undo (h : s.PoolsLegal) (c : Chan) : (s.undo c).PoolsLegal := by
  unfold State.undo
  repeat' first | exact h | exact fun x l => ⟨l.1, l.2, l.3, l.4, l.5, l.6⟩ | with_reducible apply State.pools_onCounters | with_reducible apply State.pools_setOp | split | dsimp only

theorem State.pools_poolFaultAnswered (h : s.PoolsLegal) (c : Chan) : (s.poolFaultAnswered c).PoolsLegal := by
  unfold State.poolFaultAnswered
  repeat' first | exact h | exact fun x l => ⟨l.1, l.2, l.3, l.4, l.5, l.6⟩ | with_reducible apply State.pools_onCounters | with_reducible apply State.pools_dropIfDue | with_reducible apply State.pools_setOp | with_reducible apply State.pools_undo | split | dsimp only

theorem State.pools_beginClose (h : s.PoolsLegal) (c : Chan) (status : RxStatus) (cause : CloseCause) :
    (s.beginClose c status cause).PoolsLegal := by
  unfold State.beginClose
  repeat' first | exact h | exact fun x l => ⟨l.1, l.2, l.3, l.4, l.5, l.6⟩ | with_reducible apply State.pools_askPool | with_reducible apply State.pools_setOp | split | dsimp only

theorem State.pools_askReserve (h : s.PoolsLegal) (c : Chan) (cell : Cell) : (s.askReserve c cell).PoolsLegal := by
  unfold State.askReserve
  repeat' first | exact h | exact fun x l => ⟨l.1, l.2, l.3, l.4, l.5, l.6⟩ | with_reducible apply State.pools_askPool | with_reducible apply State.pools_setOp | split | dsimp only

theorem State.pools_startData (h : s.PoolsLegal) (c : Chan) (cell : Cell) : (s.startData c cell).PoolsLegal := by
  unfold State.startData
  repeat' first | exact h | exact fun x l => ⟨l.1, l.2, l.3, l.4, l.5, l.6⟩ | with_reducible apply State.pools_modContext | with_reducible apply State.pools_askReserve | split | dsimp only

theorem State.pools_startCell (h : s.PoolsLegal) (c : Chan) (cell : Cell) : (s.startCell c cell).PoolsLegal := by
  unfold State.startCell
  repeat' first | exact h | exact fun x l => ⟨l.1, l.2, l.3, l.4, l.5, l.6⟩ | with_reducible apply State.pools_askReserve | with_reducible apply State.pools_startData | split | dsimp only

theorem State.pools_startRefused (h : s.PoolsLegal) (c : Chan) (cell : Cell) : (s.startRefused c cell).PoolsLegal := by
  unfold State.startRefused
  repeat' first | exact h | exact fun x l => ⟨l.1, l.2, l.3, l.4, l.5, l.6⟩ | with_reducible apply State.pools_modContext | with_reducible apply State.pools_setOp | split | dsimp only

theorem State.pools_reserveGranted (h : s.PoolsLegal) (c : Chan) : (s.reserveGranted c).PoolsLegal := by
  unfold State.reserveGranted
  repeat' first | exact h | exact fun x l => ⟨l.1, l.2, l.3, l.4, l.5, l.6⟩ | with_reducible apply State.pools_onChan | with_reducible apply State.pools_release | with_reducible apply State.pools_askPool | with_reducible apply State.pools_setOp | with_reducible apply State.pools_undo | split | dsimp only

theorem State.pools_reserveRefused (h : s.PoolsLegal) (c : Chan) : (s.reserveRefused c).PoolsLegal := by
  unfold State.reserveRefused
  repeat' first | exact h | exact fun x l => ⟨l.1, l.2, l.3, l.4, l.5, l.6⟩ | with_reducible apply State.pools_raise | with_reducible apply State.pools_undo | with_reducible apply State.pools_startRefused | split | dsimp only

theorem State.pools_writeCell (h : s.PoolsLegal) (c : Chan) (cell : Cell) : (s.writeCell c cell).PoolsLegal := by
  unfold State.writeCell
  repeat' first | exact h | exact fun x l => ⟨l.1, l.2, l.3, l.4, l.5, l.6⟩ | with_reducible apply State.pools_requestWrite | with_reducible apply State.pools_modContext | with_reducible apply State.pools_setOp | split | dsimp only

theorem State.pools_writeFurther (h : s.PoolsLegal) (c : Chan) (cell : Cell) (b : Buffer) :
    (s.writeFurther c cell b).PoolsLegal := by
  unfold State.writeFurther
  repeat' first | exact h | exact fun x l => ⟨l.1, l.2, l.3, l.4, l.5, l.6⟩ | with_reducible apply State.pools_requestWrite | with_reducible apply State.pools_modContext | with_reducible apply State.pools_setOp | split | dsimp only

theorem State.pools_takeGiven (h : s.PoolsLegal) (c : Chan) (cookie addr : Word) :
    (s.takeGiven c cookie addr).PoolsLegal := by
  unfold State.takeGiven
  repeat' first | exact h | exact fun x l => ⟨l.1, l.2, l.3, l.4, l.5, l.6⟩ | with_reducible apply State.pools_modContext | with_reducible apply State.pools_undo | with_reducible apply State.pools_beginClose | with_reducible apply State.pools_writeCell | with_reducible apply State.pools_writeFurther | split | dsimp only

theorem State.pools_takeNone (h : s.PoolsLegal) (c : Chan) : (s.takeNone c).PoolsLegal := by
  unfold State.takeNone
  repeat' first | exact h | exact fun x l => ⟨l.1, l.2, l.3, l.4, l.5, l.6⟩ | with_reducible apply State.pools_onChan | with_reducible apply State.pools_raise | with_reducible apply State.pools_release | with_reducible apply State.pools_undo | with_reducible apply State.pools_beginClose | with_reducible apply State.pools_startRefused | split | dsimp only

theorem State.pools_continueCell (h : s.PoolsLegal) (c : Chan) (cell : Cell) (x : Context) :
    (s.continueCell c cell x).PoolsLegal := by
  unfold State.continueCell
  repeat' first | exact h | exact fun x l => ⟨l.1, l.2, l.3, l.4, l.5, l.6⟩ | with_reducible apply State.pools_askPool | with_reducible apply State.pools_setOp | with_reducible apply State.pools_beginClose | with_reducible apply State.pools_writeCell | split | dsimp only

theorem State.pools_applyOpen (h : s.PoolsLegal) (c : Chan) (cell : Cell) (x : Context) :
    (s.applyOpen c cell x).PoolsLegal := by
  unfold State.applyOpen
  repeat' first | exact h | exact fun x l => ⟨l.1, l.2, l.3, l.4, l.5, l.6⟩ | with_reducible apply State.pools_beginClose | with_reducible apply State.pools_continueCell | split | dsimp only

theorem State.pools_applyClosed (h : s.PoolsLegal) (c : Chan) (cell : Cell) : (s.applyClosed c cell).PoolsLegal := by
  unfold State.applyClosed
  repeat' first | exact h | exact fun x l => ⟨l.1, l.2, l.3, l.4, l.5, l.6⟩ | with_reducible apply State.pools_modContext | with_reducible apply State.pools_startData | split | dsimp only

theorem State.pools_applyTo (h : s.PoolsLegal) (c : Chan) (cell : Cell) : (s.applyTo c cell).PoolsLegal := by
  unfold State.applyTo
  repeat' first | exact h | exact fun x l => ⟨l.1, l.2, l.3, l.4, l.5, l.6⟩ | with_reducible apply State.pools_beginClose | with_reducible apply State.pools_startCell | with_reducible apply State.pools_applyOpen | with_reducible apply State.pools_applyClosed | split | dsimp only

theorem State.pools_applyAbort (h : s.PoolsLegal) (c : Chan) : (s.applyAbort c).PoolsLegal := by
  unfold State.applyAbort
  repeat' first | exact h | exact fun x l => ⟨l.1, l.2, l.3, l.4, l.5, l.6⟩ | with_reducible apply State.pools_onChan | with_reducible apply State.pools_touch | with_reducible apply State.pools_beginClose | split | dsimp only

theorem State.pools_writeAnswered (h : s.PoolsLegal) (c : Chan) (cell : Cell) (a : Answer) :
    (s.writeAnswered c cell a).PoolsLegal := by
  unfold State.writeAnswered
  repeat' first | exact h | exact fun x l => ⟨l.1, l.2, l.3, l.4, l.5, l.6⟩ | with_reducible apply State.pools_dropIfDue | with_reducible apply State.pools_setOp | with_reducible apply State.pools_undo | with_reducible apply State.pools_beginClose | split | dsimp only

theorem State.pools_payloadAnswered (h : s.PoolsLegal) (c : Chan) (second : Bool) (a : Answer) :
    (s.payloadAnswered c second a).PoolsLegal := by
  unfold State.payloadAnswered
  repeat' first | exact h | exact fun x l => ⟨l.1, l.2, l.3, l.4, l.5, l.6⟩ | with_reducible apply State.pools_setOp | with_reducible apply State.pools_writeAnswered | split | dsimp only

theorem State.pools_closeFinished (h : s.PoolsLegal) (c : Chan) : (s.closeFinished c).PoolsLegal := by
  unfold State.closeFinished
  repeat' first | exact h | exact fun x l => ⟨l.1, l.2, l.3, l.4, l.5, l.6⟩ | with_reducible apply State.pools_onChan | with_reducible apply State.pools_modContext | with_reducible apply State.pools_undo | with_reducible apply State.pools_startCell | split | dsimp only

theorem State.pools_deadlineFound (h : s.PoolsLegal) (c : Chan) : (s.deadlineFound c).PoolsLegal := by
  unfold State.deadlineFound
  repeat' first | exact h | exact fun x l => ⟨l.1, l.2, l.3, l.4, l.5, l.6⟩ | with_reducible apply State.pools_onChan | with_reducible apply State.pools_fetchRequest | with_reducible apply State.pools_beginClose | split | dsimp only

theorem State.pools_owedWork (h : s.PoolsLegal) (c : Chan) : (s.owedWork c).PoolsLegal := by
  unfold State.owedWork
  repeat' first | exact h | exact fun x l => ⟨l.1, l.2, l.3, l.4, l.5, l.6⟩ | with_reducible apply State.pools_fetchRequest | with_reducible apply State.pools_freeEntry | with_reducible apply State.pools_touch | with_reducible apply State.pools_beginClose | split | dsimp only

theorem State.pools_applyHeld (h : s.PoolsLegal) : s.applyHeld.PoolsLegal := by
  unfold State.applyHeld
  repeat' split
  · exact h
  · exact State.pools_applyTo (State.pools_touch (State.pools_onRe h _) _) _ _
  · exact h

theorem State.pools_holdCell (h : s.PoolsLegal) (c : Chan) (cell : Cell) : (s.holdCell c cell).PoolsLegal := by
  unfold State.holdCell
  repeat' first | exact h | with_reducible apply State.pools_onRe | with_reducible apply State.pools_onCounters | with_reducible apply State.pools_onChan | with_reducible apply State.pools_raise | with_reducible apply State.pools_fetchRequest | split | dsimp only

theorem State.pools_scanChannel (h : s.PoolsLegal) (c : Chan) : (s.scanChannel c).PoolsLegal := by
  unfold State.scanChannel
  repeat' first | exact h | with_reducible apply State.pools_onRe | with_reducible apply State.pools_deadlineFound | split | dsimp only

theorem State.pools_syncNext (h : s.PoolsLegal) (l : List (EntryId × Chan)) : (s.syncNext l).PoolsLegal := by
  induction l with
  | nil => exact State.pools_finishLong (State.pools_onXc h _) _ _ _
  | cons m l ih =>
    unfold State.syncNext
    repeat' split
    all_goals first
      | exact ih
      | exact State.pools_requestWrite (State.pools_setEntry (State.pools_onXc h _) _ _) _ _ _ _

theorem State.pools_syncAnswered (h : s.PoolsLegal) (e : EntryId) (c : Chan) (a : Answer) :
    (s.syncAnswered e c a).PoolsLegal := by
  unfold State.syncAnswered
  repeat' first | exact h | with_reducible apply State.pools_setEntry | with_reducible apply State.pools_leaveRecency | with_reducible apply State.pools_channelFault | with_reducible apply State.pools_syncNext | split | dsimp only

theorem State.pools_fold {β} (f : State → β → State) (hf : ∀ s b, s.PoolsLegal → (f s b).PoolsLegal) (l : List β) :
    ∀ s, s.PoolsLegal → (l.foldl f s).PoolsLegal := by
  induction l with
  | nil => exact fun _ h => h
  | cons b l ih => exact fun s h => ih _ (hf s b h)

theorem State.pools_serve (n : Nat) : ∀ s : State, s.PoolsLegal → (s.serveWaitList n).PoolsLegal := by
  induction n with
  | zero => exact fun _ h => h
  | succ n ih =>
    intro s h
    unfold State.serveWaitList
    repeat' split
    · exact h
    · exact ih _ (State.pools_useEntry (State.pools_onXc h _) _ _)
    · exact ih _ (State.pools_onXc h _)
    · exact h

theorem State.pools_settle (h : s.PoolsLegal) (b) : (s.settle b).PoolsLegal := by
  unfold State.settle State.serveIfFreed State.freeAll
  split
  · exact h
  · have h1 : (forAll 256 (fun c s => s.owedWork c) s.endNewlyFilled).PoolsLegal := State.pools_fold _
      (fun s c hs => State.pools_owedWork hs c) _ _ (State.pools_onXc h _)
    repeat' split
    · exact State.pools_serve _ _ (State.pools_fold _ (fun s e hs => State.pools_freeEntry hs e) _ _ h1)
    · exact State.pools_fold _ (fun s e hs => State.pools_freeEntry hs e) _ _ h1
    · exact State.pools_serve _ _ h1
    · exact h1

theorem State.pools_setNone (h : s.PoolsLegal) (p) : (s.setAccess p none).PoolsLegal :=
  State.pools_onPool h _ _ fun x l => ⟨l.1, l.2, l.3, l.4, fun c hc => (by cases hc), fun h =>
      ⟨(l.6 h).1, (l.6 h).2.1, rfl⟩⟩

theorem State.pools_one (h : s.PoolsLegal) (p) (f : Pool → Pool) (hf : (f (s.pool p)).Legal) :
    (s.onPool p f).PoolsLegal := fun q => by
  rw [State.onPool_pool]
  split
  · next e => subst e; exact hf
  · exact h q

theorem State.pools_setAcc (h : s.PoolsLegal) (p a) (hs : (s.pool p).state = .active) (ha : ∀ c, a ≠ .ownerRead c) :
    (s.setAccess p (some a)).PoolsLegal :=
  have l := h p
  State.pools_one h _ _ ⟨l.1, l.2, l.3, l.4, fun c hc => by cases hc; exact absurd rfl (ha c), fun n => absurd hs n⟩

theorem State.pools_pop (h : s.PoolsLegal) (p) : (s.popRequest p).PoolsLegal :=
  State.pools_onPool h _ _ fun x l => ⟨l.1, l.2, l.3, l.4, l.5, l.6⟩

theorem State.pools_readFree (h : s.PoolsLegal) (p c n) (hs : (s.pool p).state = .active) :
    (s.readFree p c n).PoolsLegal := State.pools_requestRead (State.pools_setAcc h _ _ hs (by simp)) _ _ _ _

theorem State.pools_writeFree (h : s.PoolsLegal) (p st a) (hs : (s.pool p).state = .active)
    (ha : ∀ c, a ≠ .ownerRead c) : (s.writeFree p st a).PoolsLegal :=
  State.pools_requestWrite (State.pools_setAcc h _ _ hs ha) _ _ _ _

theorem State.pools_takeReserve (h : s.PoolsLegal) (p c) : (s.takeReserve p c).PoolsLegal := by
  have l := h p
  unfold State.takeReserve
  dsimp only
  split
  · exact State.pools_poolFaultAnswered h _
  · next hs =>
    have hs : (s.pool p).state = .active := by simpa using hs
    split
    · next hlt => exact State.pools_reserveGranted (State.pools_one h p
        (fun x => { x with knownFree := x.knownFree + 0, reserved := x.reserved + 1 })
          ⟨l.1, l.2, hlt, l.4, l.5, fun n => absurd hs n⟩) _
    · split
      · exact State.pools_reserveRefused h _
      · next hne =>
        refine State.pools_requestRead
          (State.pools_one h p _ ⟨l.1, l.2, l.3, l.4, fun _ _ => ?_, fun n => absurd hs n⟩) _ _ _ _
        have := l.4
        show (s.pool p).knownFree < (s.pool p).complSize
        omega

theorem State.pools_poolFault (h : s.PoolsLegal) (p c d a) (hn : (s.pool p).access = none) :
    (s.poolFault p c d a).PoolsLegal := by
  have l := h p
  unfold State.poolFault
  refine State.pools_fold _ (fun s r hs => State.pools_poolFaultAnswered hs _) _ _
    (State.pools_poolFaultAnswered (State.pools_raise ?_ _ _ _ _) _)
  unfold State.poolFaultChannels
  refine State.pools_fold _ (fun s c hs => State.pools_dropIfDue hs c) _ _ ?_
  refine State.pools_onRe (State.pools_dropHeld (State.pools_onCounters ?_ _) _) _
  exact State.pools_one h _ _ ⟨fun h => h, fun h => h, Nat.le_refl _, Nat.zero_le _, fun c hc => Nat.lt_of_le_of_lt
    (Nat.zero_le _) (l.5 c hc), fun _ => ⟨rfl, rfl, hn⟩⟩

theorem State.pools_advance (h : s.PoolsLegal) (p) : (s.advanceFree p).PoolsLegal :=
  State.pools_onPool h _ _ fun x l => ⟨fun h => Nat.mod_lt _ h, l.2, l.3, l.4, l.5, l.6⟩

theorem State.pools_poolAnswered (h : s.PoolsLegal) (p a b) : (s.poolAnswered p a b).PoolsLegal := by
  have l := h p
  have h1 := State.pools_setNone h p
  have e : (s.setAccess p none).pool p = { s.pool p with access := none } := State.onPool_pool_self _ _ _
  have hn : ((s.setAccess p none).pool p).access = none := by rw [e]
  have act : ∀ z, (s.pool p).access = some z → ((s.setAccess p none).pool p).state = .active := fun z hz => by
    rw [e]; exact Classical.byContradiction fun n => by have := (l.6 n).2.2; rw [hz] at this; cases this
  unfold State.poolAnswered
  dsimp only
  split
  · next c ha =>
    repeat' split
    · exact State.pools_poolFault h1 _ _ _ _ hn
    · refine State.pools_reserveGranted (State.pools_one h1 p _ ?_) _
      rw [e]
      have := l.5 c ha
      have := l.3
      exact ⟨l.1, l.2, by dsimp only; omega, by dsimp only; omega, by simp, fun n => absurd (e ▸ act _ ha) n⟩
    · exact State.pools_reserveRefused h1 _
  · next ha =>
    split
    · exact State.pools_poolFault h1 _ _ _ _ hn
    · unfold State.examineFree
      dsimp only
      repeat' split
      all_goals first | exact State.pools_takeNone h1 _ | exact State.pools_writeFree h1 _ _ _ (act _ ha) (by simp)
  · split
    · exact State.pools_poolFault h1 _ _ _ _ hn
    · exact State.pools_takeGiven (State.pools_advance h1 _) _ _ _
  · next ha =>
    split
    · exact State.pools_poolFault h1 _ _ _ _ hn
    · unfold State.rejected
      dsimp only
      split
      · exact State.pools_takeNone (State.pools_raise (State.pools_advance h1 _) _ _ _ _) _
      · refine State.pools_readFree (State.pools_raise (State.pools_advance h1 _) _ _ _ _) _ _ _ ?_
        have hd : ∀ (t : State) k x d w, (t.raise k x d w).pool p = t.pool p := by
          intro t k x d w
          unfold State.raise
          repeat' split
          all_goals rfl
        rw [hd]
        unfold State.advanceFree
        rw [State.onPool_pool_self]
        exact act _ ha
  · next ha =>
    split
    · exact State.pools_poolFault h1 _ _ _ _ hn
    · unfold State.recordWritten
      dsimp only
      have h2 : ∀ u, ((s.setAccess p none).onPool p fun x => { x with
          writePos := ringPos x.complSize x.writePos 1, knownFree := x.knownFree - 1
          reserved := x.reservedAfter u }).PoolsLegal := fun u => by
        refine State.pools_one h1 p _ ?_
        rw [e]
        have := l.3
        have := l.4
        refine ⟨l.1, fun h => Nat.mod_lt _ h, ?_, by dsimp only; omega, by simp, fun n => absurd (e ▸ act _ ha) n⟩
        unfold Pool.reservedAfter; dsimp only; split <;> omega
      split
      · exact State.pools_closeFinished (State.pools_assertLint (h2 _)) _
      · exact State.pools_closeFinished (h2 _) _
  · exact h

theorem State.pools_takeTake (h : s.PoolsLegal) (p : PoolId) (c : Chan) : (s.takeTake p c).PoolsLegal := by
  unfold State.takeTake
  split
  · exact State.pools_poolFaultAnswered h _
  · next hs => exact State.pools_readFree h _ _ _ (by simpa using hs)

theorem State.pools_takeComplete (h : s.PoolsLegal) (p : PoolId) (c : Chan) (record : List Byte) :
    (s.takeComplete p c record).PoolsLegal := by
  unfold State.takeComplete
  dsimp only
  split
  · exact State.pools_poolFaultAnswered h _
  · next hs =>
    split
    · exact State.pools_requestWrite (State.pools_setAcc h _ _ (by simpa using hs) (by simp)) _ _ _ _
    · exact State.pools_undo h _

end Sys2Proof.Machine
end

