-- ==== Sys2Proof/Laws/Residence.lean ====
section
/-! SUPPORT. The residences of the channels agree with the cache entries under the cache's own operations, also while an entry is being passed on. -/

namespace Sys2Proof.Machine

set_option linter.unusedTactic false
set_option linter.unreachableTactic false
set_option linter.unusedSimpArgs false
set_option linter.unusedVariables false

/-! ## Agreement in the middle of a step -/

/-- The channels that some entries count as naming although they hold something else by now. -/
abbrev Claims := EntryId → Option (List (Chan × Residence))

/-- No entry counts as naming anything but what it holds. -/
def Claims.none : Claims := fun _ => Option.none

/-- The claims with those of entry e replaced. -/
def Claims.set (k : Claims) (e : EntryId) (l : Option (List (Chan × Residence))) : Claims :=
  fun d => if d = e then l else k d

@[simp] theorem Claims.set_self (k : Claims) (e : EntryId) (l : Option (List (Chan × Residence))) : k.set e l e = l := by
  simp [Claims.set]

theorem Claims.set_ne (k : Claims) {d e : EntryId} (l : Option (List (Chan × Residence))) (h : d ≠ e) :
    k.set e l d = k d := by
  simp [Claims.set, h]

@[simp] theorem Claims.set_set (k : Claims) (e : EntryId) (l m : Option (List (Chan × Residence))) :
    (k.set e l).set e m = k.set e m := by
  funext d
  unfold Claims.set
  split <;> rfl

theorem Claims.set_same (k : Claims) (e : EntryId) (l : Option (List (Chan × Residence))) (h : k e = l) :
    k.set e l = k := by
  funext d
  unfold Claims.set
  split
  · next hd => rw [hd, h]
  · rfl

/-- The channels that an entry counts as naming. -/
def State.namesAs (s : State) (k : Claims) (e : EntryId) : List (Chan × Residence) :=
  (k e).getD ((s.entry e).names e)

/-- The residences agree with the entries, under these claims (R63, R65). -/
structure State.AgreesAs (s : State) (k : Claims) : Prop where
  named : ∀ e c r, (c, r) ∈ s.namesAs k e → (s.chan c).residence = r ∧ r ≠ .stored
  naming : ∀ c, (s.chan c).residence ≠ .stored → ∃ e, (c, (s.chan c).residence) ∈ s.namesAs k e
  once : ∀ c d e r q, (c, r) ∈ s.namesAs k d → (c, q) ∈ s.namesAs k e → d = e
  listed : ∀ c ∈ s.xc.waitList, (s.chan c).residence = .stored
  unused : ∀ c, ¬ (s.chan c).InUse → (s.chan c).residence = .stored

theorem CacheEntry.names_not_stored (x : CacheEntry) (e : EntryId) (c : Chan) (r : Residence) (h : (c, r) ∈ x.names e) :
    r ≠ .stored := by
  rintro rfl
  cases x <;> simp [CacheEntry.names] at h

theorem State.agreesAs_none (s : State) : s.AgreesAs .none ↔ s.EntriesAgree :=
  ⟨fun h => ⟨fun e c r m => (h.named e c r m).1, h.naming, h.once, h.listed, h.unused⟩,
   fun h => ⟨fun e c r m => ⟨h.named e c r m, CacheEntry.names_not_stored _ _ _ _ m⟩, h.naming, h.once, h.listed, h.unused⟩⟩

/-- An update that leaves names, residences, use and the list. -/
theorem State.AgreesAs.congr {s t : State} {k j : Claims} (h : s.AgreesAs k)
    (hn : ∀ e, t.namesAs j e = s.namesAs k e) (hr : ∀ c, (t.chan c).residence = (s.chan c).residence)
    (hb : ∀ c, (s.chan c).InUse → (t.chan c).InUse ∨ (s.chan c).residence = .stored)
    (hw : ∀ c ∈ t.xc.waitList, c ∈ s.xc.waitList ∨ (s.chan c).residence = .stored) : t.AgreesAs j where
  named e c r m := by rw [hr]; rw [hn] at m; exact h.named e c r m
  naming c m := by simp only [hn, hr] at *; exact h.naming c m
  once c d e r q m n := by rw [hn] at m n; exact h.once c d e r q m n
  listed c m := by
    rw [hr]
    rcases hw c m with m | m
    · exact h.listed c m
    · exact m
  unused c m := by
    rw [hr]
    by_cases u : (s.chan c).InUse
    · rcases hb c u with v | v
      · exact absurd v m
      · exact v
    · exact h.unused c u

/-- One entry comes to name other channels, and the residences follow. -/
theorem State.AgreesAs.pass {s t : State} {k j : Claims} (h : s.AgreesAs k) (e : EntryId)
    (hn : ∀ d, d ≠ e → t.namesAs j d = s.namesAs k d)
    (hin : ∀ c r, (c, r) ∈ t.namesAs j e → (t.chan c).residence = r ∧ r ≠ .stored ∧ c ∉ t.xc.waitList ∧ (t.chan c).InUse
      ∧ ((s.chan c).residence = .stored ∨ ∃ q, (c, q) ∈ s.namesAs k e))
    (hout : ∀ c, (∀ r, (c, r) ∉ t.namesAs j e) → (∃ r, (c, r) ∈ s.namesAs k e) → (t.chan c).residence = .stored)
    (hrest : ∀ c, (∀ r, (c, r) ∉ t.namesAs j e) → (∀ r, (c, r) ∉ s.namesAs k e) →
      (t.chan c).residence = (s.chan c).residence)
    (hb : ∀ c, (s.chan c).InUse → (t.chan c).InUse ∨ (t.chan c).residence = .stored)
    (hw : ∀ c ∈ t.xc.waitList, c ∈ s.xc.waitList ∨ (t.chan c).residence = .stored) : t.AgreesAs j := by
  have sep : ∀ c d r q, d ≠ e → (c, r) ∈ t.namesAs j e → (c, q) ∈ s.namesAs k d → False := by
    intro c d r q hd m n
    obtain ⟨-, -, -, -, hs | ⟨q', hq⟩⟩ := hin c r m
    · exact (h.named d c q n).2 ((h.named d c q n).1.symm.trans hs)
    · exact hd (h.once c d e q q' n hq)
  have old : ∀ c d r, d ≠ e → (c, r) ∈ s.namesAs k d →
      (∀ q, (c, q) ∉ t.namesAs j e) ∧ (t.chan c).residence = (s.chan c).residence := by
    intro c d r hd m
    have h1 : ∀ q, (c, q) ∉ t.namesAs j e := fun q hq => sep c d q r hd hq m
    exact ⟨h1, hrest c h1 fun q hq => hd (h.once c d e r q m hq)⟩
  refine ⟨?_, ?_, ?_, ?_, ?_⟩
  · intro d c r m
    by_cases hd : d = e
    · subst hd; exact ⟨(hin c r m).1, (hin c r m).2.1⟩
    · rw [hn d hd] at m
      rw [(old c d r hd m).2]
      exact h.named d c r m
  · intro c m
    by_cases h1 : ∃ r, (c, r) ∈ t.namesAs j e
    · obtain ⟨r, hr⟩ := h1
      exact ⟨e, by rw [(hin c r hr).1]; exact hr⟩
    · have h1' : ∀ r, (c, r) ∉ t.namesAs j e := fun r hr => h1 ⟨r, hr⟩
      by_cases h2 : ∃ r, (c, r) ∈ s.namesAs k e
      · exact absurd (hout c h1' h2) m
      · have h2' : ∀ r, (c, r) ∉ s.namesAs k e := fun r hr => h2 ⟨r, hr⟩
        have hr := hrest c h1' h2'
        rw [hr] at m ⊢
        obtain ⟨d, hd⟩ := h.naming c m
        refine ⟨d, ?_⟩
        rw [hn d]
        · exact hd
        · rintro rfl
          exact h2' _ hd
  · intro c d d' r q m n
    by_cases hd : d = e <;> by_cases hd' : d' = e
    · rw [hd, hd']
    · subst hd; rw [hn d' hd'] at n; exact (sep c d' r q hd' m n).elim
    · subst hd'; rw [hn d hd] at m; exact (sep c d q r hd n m).elim
    · rw [hn d hd] at m; rw [hn d' hd'] at n; exact h.once c d d' r q m n
  · intro c m
    by_cases h1 : ∃ r, (c, r) ∈ t.namesAs j e
    · obtain ⟨r, hr⟩ := h1
      exact absurd m (hin c r hr).2.2.1
    · have h1' : ∀ r, (c, r) ∉ t.namesAs j e := fun r hr => h1 ⟨r, hr⟩
      rcases hw c m with hm | hm
      · by_cases h2 : ∃ r, (c, r) ∈ s.namesAs k e
        · exact hout c h1' h2
        · rw [hrest c h1' fun r hr => h2 ⟨r, hr⟩]; exact h.listed c hm
      · exact hm
  · intro c m
    by_cases u : (s.chan c).InUse
    · exact (hb c u).resolve_left m
    · have hs := h.unused c u
      by_cases h1 : ∃ r, (c, r) ∈ t.namesAs j e
      · obtain ⟨r, hr⟩ := h1
        exact absurd (hin c r hr).2.2.2.1 m
      · have h1' : ∀ r, (c, r) ∉ t.namesAs j e := fun r hr => h1 ⟨r, hr⟩
        by_cases h2 : ∃ r, (c, r) ∈ s.namesAs k e
        · exact hout c h1' h2
        · rw [hrest c h1' fun r hr => h2 ⟨r, hr⟩]; exact hs

/-! ## The cache's own operations, under claims -/

section Operations

variable {s : State} {k : Claims}

theorem State.namesAs_of_entry {t : State} {j : Claims} (e : EntryId) (hk : j e = k e) (he : t.entry e = s.entry e) :
    t.namesAs j e = s.namesAs k e := by
  unfold State.namesAs
  rw [hk, he]

/-- An update that leaves every entry's names, every residence and binding, and the list. -/
structure State.Alike (s t : State) : Prop where
  names : ∀ e, (t.entry e).names e = (s.entry e).names e
  residence : ∀ c, (t.chan c).residence = (s.chan c).residence
  binding : ∀ c, (t.chan c).binding = (s.chan c).binding
  waitList : t.xc.waitList = s.xc.waitList

theorem State.AgreesAs.alike {t : State} (h : s.AgreesAs k) (a : s.Alike t) : t.AgreesAs k :=
  h.congr (fun e => by unfold State.namesAs; rw [a.names]) a.residence
    (fun c u => .inl (by unfold Channel.InUse; rw [a.binding]; exact u)) (fun c m => .inl (by rw [← a.waitList]; exact m))

theorem State.alike_finishLong (code : Byte) (st : MgmtStatus) (r : List Byte) : s.Alike (s.finishLong code st r) := by
  unfold State.finishLong
  split <;> exact ⟨fun _ => rfl, fun _ => rfl, fun _ => rfl, rfl⟩

theorem State.alike_raise (x : EventKind) (a d : Nat) (w : Word) : s.Alike (s.raise x a d w) := by
  unfold State.raise
  repeat' split
  all_goals exact ⟨fun _ => rfl, fun _ => rfl, fun _ => rfl, rfl⟩

theorem State.alike_contextArrived (c : Chan) (x : Context) : s.Alike (s.contextArrived c x) := by
  unfold State.contextArrived State.finishLong
  repeat' split
  all_goals exact ⟨fun _ => rfl, fun _ => rfl, fun _ => rfl, rfl⟩

theorem State.alike_contextStored (c : Chan) (stage : CtxReadStage) : s.Alike (s.contextStored c stage) := by
  unfold State.contextStored
  split
  all_goals exact ⟨fun _ => rfl, fun _ => rfl, fun _ => rfl, rfl⟩

theorem State.AgreesAs.inUse (h : s.AgreesAs k) {c : Chan} (hc : (s.chan c).residence ≠ .stored) : (s.chan c).InUse :=
  Classical.byContradiction fun u => hc (h.unused c u)

theorem State.AgreesAs.unlisted (h : s.AgreesAs k) {c : Chan} (hc : (s.chan c).residence ≠ .stored) :
    c ∉ s.xc.waitList := fun m => hc (h.listed c m)

theorem State.reside_chan (c d : Chan) (r : Residence) :
    (s.reside c r).chan d = if c = d then { s.chan d with residence := r } else s.chan d := State.onChan_chan _ _ _ _

/-- One entry comes to name the channels of list m in place of those of list l: these are STORED first or were named
before, and those it names no longer are STORED. -/
theorem State.AgreesAs.rename {t : State} {j : Claims} (h : s.AgreesAs k) (e : EntryId)
    (l m : List (Chan × Residence)) (hl : s.namesAs k e = l) (hm : t.namesAs j e = m)
    (hk : ∀ d, d ≠ e → j d = k d) (he : ∀ d, d ≠ e → t.entry d = s.entry d)
    (hin : ∀ c r, (c, r) ∈ m → (t.chan c).residence = r ∧ r ≠ .stored ∧
      ((∃ q, (c, q) ∈ l) ∨ ((s.chan c).residence = .stored ∧ (s.chan c).InUse ∧ c ∉ t.xc.waitList)))
    (hout : ∀ c, c ∉ m.map Prod.fst →
      (t.chan c).residence = if c ∈ l.map Prod.fst then .stored else (s.chan c).residence)
    (hb : ∀ c, (t.chan c).binding = (s.chan c).binding) (hw : ∀ c ∈ t.xc.waitList, c ∈ s.xc.waitList) :
    t.AgreesAs j := by
  have hu : ∀ c, (s.chan c).InUse → (t.chan c).InUse := fun c u => by unfold Channel.InUse; rw [hb]; exact u
  subst hl hm
  refine h.pass e (fun d hd => State.namesAs_of_entry d (hk d hd) (he d hd)) ?_ ?_ ?_ (fun c u => .inl (hu c u))
    (fun c m => .inl (hw c m))
  · intro c r m
    obtain ⟨h1, h2, h3⟩ := hin c r m
    refine ⟨h1, h2, ?_⟩
    rcases h3 with ⟨q, hq⟩ | ⟨h3, h4, h5⟩
    · have hc := h.named e c q hq
      have hs : (s.chan c).residence ≠ .stored := by rw [hc.1]; exact hc.2
      exact ⟨fun m => h.unlisted hs (hw c m), hu c (h.inUse hs), .inr ⟨q, hq⟩⟩
    · exact ⟨h5, hu c h4, .inl h3⟩
  · intro c m n
    rw [hout c (by simpa using m), if_pos (by simpa using n)]
  · intro c m n
    rw [hout c (by simpa using m), if_neg (by simpa using n)]

theorem State.namesAs_claimed (e : EntryId) (l : List (Chan × Residence)) (h : k e = some l) : s.namesAs k e = l := by
  unfold State.namesAs
  rw [h]
  rfl

theorem State.namesAs_unclaimed (e : EntryId) (x : CacheEntry) (h : k e = none) (hx : s.entry e = x) :
    s.namesAs k e = x.names e := by
  unfold State.namesAs
  rw [h, hx]
  rfl

/-- The entry that counts as naming channel c alone becomes VALID for it. -/
theorem State.AgreesAs.install (h : s.AgreesAs k) (e : EntryId) (c : Chan) (r : Residence)
    (he : s.namesAs k e = [(c, r)]) (x : Context) (dirty : Bool) : (s.install e c x dirty).AgreesAs (k.set e none) := by
  unfold State.install
  refine State.AgreesAs.alike ?_ (State.alike_contextArrived _ _)
  refine h.rename e _ _ he (State.namesAs_unclaimed e _ (Claims.set_self _ _ _) (tget_tset_self _ _ _))
    (fun d hd => Claims.set_ne _ _ hd) (fun d hd => tget_tset_ne _ _ (Ne.symm hd)) ?_ ?_ ?_ (fun _ m => m)
  · intro d q m
    simp only [CacheEntry.names, List.mem_singleton, Prod.mk.injEq] at m
    obtain ⟨rfl, rfl⟩ := m
    exact ⟨by simp [State.reside], by simp, .inl ⟨r, by simp⟩⟩
  · intro d m
    have : c ≠ d := by rintro rfl; simp [CacheEntry.names] at m
    simp only [State.reside_chan, this, if_false, List.map_cons, List.map_nil, List.mem_singleton, Ne.symm this]
    rfl
  · intro d
    rw [State.reside_chan]
    split <;> rfl

/-- A channel's flags change, but not its residence or binding. -/
theorem State.alike_onChan (c : Chan) (f : Channel → Channel) (hr : ∀ x, (f x).residence = x.residence)
    (hb : ∀ x, (f x).binding = x.binding) : s.Alike (s.onChan c f) where
  names _ := rfl
  residence d := by rw [State.onChan_chan]; split <;> simp [hr]
  binding d := by rw [State.onChan_chan]; split <;> simp [hb]
  waitList := rfl

/-- A request leaves names, residences, bindings and the list. -/
theorem State.alike_request (r : Request) : s.Alike (s.request r) := ⟨fun _ => rfl, fun _ => rfl, fun _ => rfl, rfl⟩

theorem State.alike_requestRead (q : Requester) (addr : Word) (n : Nat) (x : RequestTag) :
    s.Alike (s.requestRead q addr n x) := State.alike_request _

theorem State.alike_requestWrite (q : Requester) (addr : Word) (d : List Byte) (x : RequestTag) :
    s.Alike (s.requestWrite q addr d x) := State.alike_request _

theorem State.AgreesAs.startFill (h : s.AgreesAs k) (e : EntryId) (c : Chan) (he : k e = some [(c, .fetching)]) :
    (s.startFill e c).AgreesAs (k.set e none) := by
  unfold State.startFill
  split
  · unfold State.installFresh
    have h' : (s.onChan c fun ch => { ch with fresh := false, poolReset := false }).AgreesAs k :=
      h.alike (State.alike_onChan c _ (fun _ => rfl) fun _ => rfl)
    exact h'.install e c .fetching (State.namesAs_claimed _ _ he) _ _
  · refine State.AgreesAs.alike ?_ (State.alike_requestRead _ _ _ _)
    refine h.congr (fun d => ?_) (fun _ => rfl) (fun _ u => .inl u) (fun _ m => .inl m)
    by_cases hd : d = e
    · subst hd
      exact (State.namesAs_unclaimed d (.filling c) (Claims.set_self k d none) (State.setEntry_entry_self s d _)).trans
        (State.namesAs_claimed _ _ he).symm
    · exact State.namesAs_of_entry d (Claims.set_ne _ _ hd) (tget_tset_ne _ _ (Ne.symm hd))

/-- The write-back of a VALID entry begins: it names its channel in WRITEBACK, and the claimant (R63, R68). -/
theorem State.AgreesAs.startWriteBack (h : s.AgreesAs k) (e : EntryId) (he : k e = none) (v : ValidEntry)
    (hv : s.entry e = .valid v) (x : Context) : (s.startWriteBack e v.channel x none).AgreesAs k := by
  unfold State.startWriteBack
  refine State.AgreesAs.alike ?_ (State.alike_requestWrite _ _ _ _)
  refine h.rename e _ _ (State.namesAs_unclaimed e _ he hv) (State.namesAs_unclaimed e _ he (tget_tset_self _ _ _))
    (fun _ _ => rfl) (fun d hd => tget_tset_ne _ _ (Ne.symm hd)) ?_ ?_ ?_ (fun _ m => m)
  · intro d q m
    simp only [CacheEntry.names, Option.toList_none, List.map_nil, List.mem_singleton, Prod.mk.injEq] at m
    obtain ⟨rfl, rfl⟩ := m
    exact ⟨by simp [State.reside], by simp, .inl ⟨.cached e, by simp [CacheEntry.names]⟩⟩
  · intro d m
    have : v.channel ≠ d := by rintro rfl; simp [CacheEntry.names] at m
    simp only [State.reside_chan, this, if_false, CacheEntry.names, List.map_cons, List.map_nil, List.mem_singleton,
      Ne.symm this]
    rfl
  · intro d
    rw [State.reside_chan]
    split <;> rfl

/-- A clean VALID entry is taken from its channel (R68, R80). -/
theorem State.AgreesAs.evictClean (h : s.AgreesAs k) (e : EntryId) (he : k e = none) (v : ValidEntry)
    (hv : s.entry e = .valid v) : (s.evictClean e v.channel).AgreesAs k := by
  unfold State.evictClean
  refine h.rename e _ [] (State.namesAs_unclaimed e _ he hv) (State.namesAs_unclaimed e .free he (tget_tset_self _ _ _))
    (fun _ _ => rfl) (fun d hd => tget_tset_ne _ _ (Ne.symm hd)) (by simp) ?_ ?_ (fun _ m => m)
  · intro d _
    rw [State.reside_chan]
    by_cases hd : v.channel = d
    · simp [hd, CacheEntry.names]
    · simp only [hd, if_false, CacheEntry.names, List.map_cons, List.map_nil, List.mem_singleton, Ne.symm hd]
      rfl
  · intro d
    rw [State.reside_chan]
    split <;> rfl

/-- A VALID entry is freed by an unbind or a stop (R80). -/
theorem State.AgreesAs.freeEntry (h : s.AgreesAs k) (e : EntryId) (he : k e = none) : (s.freeEntry e).AgreesAs k := by
  unfold State.freeEntry
  split
  · next v hv =>
    split
    · exact h.startWriteBack e he v hv _
    · exact h.evictClean e he v hv
  all_goals exact h

/-- The entry chosen for a STORED channel in use is given to it (R68). -/
theorem State.AgreesAs.useEntry (h : s.AgreesAs k) (e : EntryId) (he : k e = none) (ha : s.available e = true) (c : Chan)
    (hs : (s.chan c).residence = .stored) (hu : (s.chan c).InUse) (hw : c ∉ s.xc.waitList) :
    (s.useEntry e c).AgreesAs k := by
  have claimed : ∀ t : State, t.namesAs (k.set e (some [(c, .fetching)])) e = [(c, .fetching)] := fun t =>
    State.namesAs_claimed _ _ (Claims.set_self _ _ _)
  have back : (k.set e (some [(c, .fetching)])).set e none = k := by rw [Claims.set_set]; exact Claims.set_same _ _ _ he
  have bind : ∀ (t : State) (d x : Chan) (r : Residence), ((t.reside x r).chan d).binding = (t.chan d).binding := by
    intro t d x r
    rw [State.reside_chan]
    split <;> rfl
  unfold State.useEntry
  dsimp only
  split
  · next hf =>
    rw [← back]
    refine State.AgreesAs.startFill ?_ e c (Claims.set_self _ _ _)
    refine h.rename e [] _ (State.namesAs_unclaimed e .free he hf) (claimed _) (fun d hd => Claims.set_ne _ _ hd)
      (fun _ _ => rfl) ?_ ?_ (fun d => bind _ _ _ _) (fun _ m => m)
    · intro d r m
      simp only [List.mem_singleton, Prod.mk.injEq] at m
      obtain ⟨rfl, rfl⟩ := m
      exact ⟨by simp [State.reside], by simp, .inr ⟨hs, hu, hw⟩⟩
    · intro d m
      have : c ≠ d := by rintro rfl; simp at m
      simp [State.reside_chan, this]
  · next v hv =>
    have hv' : s.entry e = .valid v := hv
    have hn := State.namesAs_unclaimed e _ he hv'
    have hvc : (s.chan v.channel).residence = .cached e := (h.named e v.channel (.cached e) (by rw [hn]; simp [CacheEntry.names])).1
    have hne : v.channel ≠ c := by rintro rfl; rw [hs] at hvc; cases hvc
    split
    · unfold State.startWriteBack
      refine State.AgreesAs.alike ?_ (State.alike_requestWrite _ _ _ _)
      refine h.rename e _ _ hn (State.namesAs_unclaimed e _ he (tget_tset_self _ _ _)) (fun _ _ => rfl)
        (fun d hd => tget_tset_ne _ _ (Ne.symm hd)) ?_ ?_ ?_ (fun _ m => m)
      · intro d r m
        simp only [CacheEntry.names, Option.toList_some, List.map_cons, List.map_nil, List.mem_cons, Prod.mk.injEq,
          List.not_mem_nil, or_false] at m
        rcases m with ⟨rfl, rfl⟩ | ⟨rfl, rfl⟩
        · exact ⟨by simp [State.reside], by simp, .inl ⟨.cached e, by simp [CacheEntry.names]⟩⟩
        · refine ⟨?_, by simp, .inr ⟨hs, hu, hw⟩⟩
          rw [State.reside_chan, if_neg hne]
          show ((s.reside d .fetching).chan d).residence = _
          simp [State.reside]
      · intro d m
        have h1 : v.channel ≠ d := by rintro rfl; simp [CacheEntry.names] at m
        have h2 : c ≠ d := by rintro rfl; simp [CacheEntry.names] at m
        rw [State.reside_chan, if_neg h1]
        show ((s.reside c .fetching).chan d).residence = _
        simp only [State.reside_chan, h2, if_false, CacheEntry.names, List.map_cons, List.map_nil, List.mem_singleton,
          Ne.symm h1]
      · intro d
        rw [bind]
        exact bind _ _ _ _
    · rw [← back]
      refine State.AgreesAs.startFill ?_ e c (Claims.set_self _ _ _)
      unfold State.evictClean
      refine h.rename e _ _ hn (claimed _) (fun d hd => Claims.set_ne _ _ hd)
        (fun d hd => tget_tset_ne _ _ (Ne.symm hd)) ?_ ?_ ?_ (fun _ m => m)
      · intro d r m
        simp only [List.mem_singleton, Prod.mk.injEq] at m
        obtain ⟨rfl, rfl⟩ := m
        refine ⟨?_, by simp, .inr ⟨hs, hu, hw⟩⟩
        rw [State.reside_chan, if_neg hne]
        show ((s.reside d .fetching).chan d).residence = _
        simp [State.reside]
      · intro d m
        have h2 : c ≠ d := by rintro rfl; simp at m
        rw [State.reside_chan]
        by_cases h1 : v.channel = d
        · simp [h1, CacheEntry.names]
        · rw [if_neg h1]
          show ((s.reside c .fetching).chan d).residence = _
          simp only [State.reside_chan, h2, if_false, CacheEntry.names, List.map_cons, List.map_nil, List.mem_singleton,
            Ne.symm h1]
      · intro d
        rw [bind]
        exact bind _ _ _ _
  · next hf => simp [State.available, State.isFree, State.eligible, show s.entry e = _ from hf] at ha
  · next hf => simp [State.available, State.isFree, State.eligible, show s.entry e = _ from hf] at ha

theorem State.alike_noteFetch (c : Chan) : s.Alike (s.noteFetch c) where
  names e := by
    unfold State.entry State.noteFetch
    simp only [State.onXc_xc, tget_map]
    split <;> simp_all [CacheEntry.names]
  residence _ := rfl
  binding _ := rfl
  waitList := rfl

theorem Channel.uses_iff (ch : Channel) : ch.uses = true ↔ ch.InUse := by
  simp [Channel.uses, Channel.InUse]

theorem State.AgreesAs.joinWaitList (h : s.AgreesAs k) (c : Chan) (hs : (s.chan c).residence = .stored) :
    (s.joinWaitList c).AgreesAs k :=
  h.congr (fun _ => rfl) (fun _ => rfl) (fun _ u => .inl u) fun d m => by
    simp only [State.joinWaitList, State.onXc_xc, List.mem_append, List.mem_singleton] at m
    rcases m with m | rfl
    · exact .inl m
    · exact .inr hs

/-- A fetch request keeps the agreement; the entries under a claim are WRITING, so none of them is chosen (R66, R67). -/
theorem State.AgreesAs.fetchRequest (h : s.AgreesAs k) (hk : ∀ e, k e ≠ none → s.IsWriting e) (c : Chan) :
    (s.fetchRequest c).AgreesAs k := by
  unfold State.fetchRequest
  split
  · next hu =>
    split
    · exact h
    · exact h
    · exact h.alike (State.alike_noteFetch c)
    · next hs =>
      split
      · exact h
      · next hc =>
        split
        · exact h.joinWaitList c hs
        · split
          · next e he =>
            refine h.useEntry e ?_ (State.chooseEntry_available e he) c hs ((Channel.uses_iff _).1 hu) ?_
            · exact Classical.byContradiction fun hn => State.chooseEntry_not_writing e he (hk e hn)
            · intro m
              exact hc (List.contains_iff_mem.2 m)
          · exact h.joinWaitList c hs
  · exact h

/-- Channel c has become FAULTED or UNBOUND: it is STORED and off the list, and the others are as they were. -/
structure State.Faulted (s t : State) (c : Chan) : Prop where
  entries : t.xc.entries = s.xc.entries
  stored : (t.chan c).residence = .stored
  residence : ∀ d, d ≠ c → (t.chan d).residence = (s.chan d).residence
  binding : ∀ d, d ≠ c → (t.chan d).binding = (s.chan d).binding
  waitList : ∀ d ∈ t.xc.waitList, d ∈ s.xc.waitList

theorem State.Faulted.alike {t u : State} {c : Chan} (h : s.Faulted t c) (a : t.Alike u) (he : u.xc.entries = t.xc.entries) :
    s.Faulted u c where
  entries := he.trans h.entries
  stored := (a.residence c).trans h.stored
  residence d hd := (a.residence d).trans (h.residence d hd)
  binding d hd := (a.binding d).trans (h.binding d hd)
  waitList d m := h.waitList d (by rw [← a.waitList]; exact m)

theorem State.channelFault_faulted (c : Chan) (detail : Nat) (aux : Word) : s.Faulted (s.channelFault c detail aux) c := by
  have core : ∀ (t : State) (n : Word) (f : Channel → Channel), t.re.channels = s.re.channels → t.xc = s.xc →
      (∀ x, (f x).residence = x.residence) → s.Faulted (((((t.onCounters fun k => { k with nochannel := k.nochannel + n }).dropHeld
        (· == c)).onXc fun xc => { xc with waitList := xc.waitList.filter (· != c) }).onChan c fun ch =>
        { ch with residence := .stored, msgOpen := false, pendingAbort := .none }).onChan c f) c := by
    intro t n f hre hxc hf
    have hch : ∀ d, t.chan d = s.chan d := fun d => by unfold State.chan; rw [hre]
    refine ⟨by simp [State.dropHeld, hxc], ?_, ?_, ?_, ?_⟩
    · simp [hf]
    · intro d hd
      simp [State.onChan_chan, Ne.symm hd]
      exact congrArg _ (hch d)
    · intro d hd
      simp [State.onChan_chan, Ne.symm hd]
      exact congrArg _ (hch d)
    · intro d m
      simp [State.dropHeld, hxc] at m
      exact m.1
  have fin : ∀ t : State, s.Faulted t c → s.Faulted (if (s.chan c).binding = .unbinding then
      t.finishLong codeUnbindChannel .ok [] else t) c := by
    intro t h
    split
    · exact h.alike (State.alike_finishLong _ _ _) (by simp)
    · exact h
  unfold State.channelFault
  refine fin _ (State.Faulted.alike (State.Faulted.alike (core _ _ _ ?_ ?_ ?_) (State.alike_raise _ _ _ _) (by simp))
    (State.alike_contextStored _ _) (by simp))
  · split <;> rfl
  · split <;> rfl
  · intro x
    split <;> rfl

/-- Channel c, which an entry counts as naming, becomes FAULTED or UNBOUND, and the entry names it no longer. -/
theorem State.AgreesAs.channelFault (h : s.AgreesAs k) (e : EntryId) (c : Chan) (r : Residence)
    (m : List (Chan × Residence)) (he : s.namesAs k e = (c, r) :: m) (hm : c ∉ m.map Prod.fst) (detail : Nat)
    (aux : Word) : (s.channelFault c detail aux).AgreesAs (k.set e (some m)) := by
  have f := State.channelFault_faulted (s := s) c detail aux
  have hn : (s.channelFault c detail aux).namesAs (k.set e (some m)) e = m := State.namesAs_claimed _ _ (Claims.set_self _ _ _)
  refine h.pass e ?_ ?_ ?_ ?_ ?_ (fun d hd => .inl (f.waitList d hd))
  · intro d hd
    exact State.namesAs_of_entry d (Claims.set_ne _ _ hd) (State.entry_of_entries d f.entries)
  · intro d q hd
    rw [hn] at hd
    have hne : d ≠ c := by
      rintro rfl
      exact hm (List.mem_map.2 ⟨_, hd, rfl⟩)
    have hd' : (d, q) ∈ s.namesAs k e := by rw [he]; exact List.mem_cons_of_mem _ hd
    have hr := h.named e d q hd'
    have hs : (s.chan d).residence ≠ .stored := by rw [hr.1]; exact hr.2
    refine ⟨(f.residence d hne).trans hr.1, hr.2, fun w => h.unlisted hs (f.waitList d w), ?_, .inr ⟨q, hd'⟩⟩
    unfold Channel.InUse
    rw [f.binding d hne]
    exact h.inUse hs
  · intro d hd hq
    rw [hn] at hd
    obtain ⟨q, hq⟩ := hq
    rw [he, List.mem_cons] at hq
    rcases hq with hq | hq
    · cases hq
      exact f.stored
    · exact absurd hq (hd q)
  · intro d _ hq
    refine f.residence d ?_
    rintro rfl
    exact hq r (by rw [he]; exact List.mem_cons_self)
  · intro d hu
    by_cases hd : d = c
    · subst hd; exact .inr f.stored
    · refine .inl ?_
      unfold Channel.InUse
      rw [f.binding d hd]
      exact hu

/-- The claims of an entry that are what it holds may be dropped. -/
theorem State.AgreesAs.settled (h : s.AgreesAs k) (e : EntryId) (he : k e = some ((s.entry e).names e)) :
    s.AgreesAs (k.set e none) := by
  refine h.congr (fun d => ?_) (fun _ => rfl) (fun _ u => .inl u) (fun _ m => .inl m)
  by_cases hd : d = e
  · subst hd
    rw [State.namesAs_claimed _ _ he, State.namesAs_unclaimed d _ (Claims.set_self _ _ _) rfl]
  · exact State.namesAs_of_entry d (Claims.set_ne _ _ hd) rfl

end Operations

/-! ## What the receive side leaves alone -/

/-- From o to s the Segmentation Unit, and how many body reads of each message stand at the port, are as they were. -/
structure State.Aside (o s : State) : Prop where
  su : s.su = o.su
  reads : ∀ r g, s.lmp.bodyReads r g = o.lmp.bodyReads r g

theorem State.Aside.refl (s : State) : s.Aside s := ⟨rfl, fun _ _ => rfl⟩

theorem State.Aside.trans {a b c : State} (h : a.Aside b) (k : b.Aside c) : a.Aside c :=
  ⟨k.su.trans h.su, fun r g => (k.reads r g).trans (h.reads r g)⟩

/-- A request that joins a line stands at the port. -/
theorem Port.bodyReads_join (p : Port) (q : Request) (r : RingId) (g : Nat) :
    (p.setLine q.requester (p.line q.requester ++ [q])).bodyReads r g
      = p.bodyReads r g + if q.tag = .body r g then 1 else 0 := by
  unfold Port.bodyReads Port.standing
  cases q.requester <;>
    simp only [Port.setLine, Port.line, List.countP_append, List.countP_cons, List.countP_nil, beq_iff_eq] <;> omega

section Aside

variable {o s : State}

theorem State.aside_same {t : State} (h : o.Aside s) (hs : t.su = s.su) (hl : t.lmp = s.lmp) : o.Aside t :=
  h.trans ⟨hs, fun _ _ => by rw [hl]⟩

theorem State.aside_onChan (h : o.Aside s) (c : Chan) (f : Channel → Channel) : o.Aside (s.onChan c f) :=
  State.aside_same h rfl rfl

theorem State.aside_onXc (h : o.Aside s) (f : Cache → Cache) : o.Aside (s.onXc f) := State.aside_same h rfl rfl

theorem State.aside_setEntry (h : o.Aside s) (e : EntryId) (x : CacheEntry) : o.Aside (s.setEntry e x) :=
  State.aside_same h rfl rfl

theorem State.aside_onPool (h : o.Aside s) (p : PoolId) (f : Pool → Pool) : o.Aside (s.onPool p f) :=
  State.aside_same h rfl rfl

theorem State.aside_onCounters (h : o.Aside s) (f : Counters → Counters) : o.Aside (s.onCounters f) :=
  State.aside_same h rfl rfl

theorem State.aside_onRe (h : o.Aside s) (f : Reassembly → Reassembly) : o.Aside (s.onRe f) :=
  State.aside_same h rfl rfl

theorem State.aside_onEw (h : o.Aside s) (f : EventWriter → EventWriter) : o.Aside (s.onEw f) :=
  State.aside_same h rfl rfl

theorem State.aside_dropHeld (h : o.Aside s) (f : Chan → Bool) : o.Aside (s.dropHeld f) := State.aside_same h rfl rfl

/-- A request that is no body read. -/
theorem State.aside_request (h : o.Aside s) (q : Request) (hq : ∀ r g, q.tag ≠ .body r g) : o.Aside (s.request q) :=
  h.trans ⟨rfl, fun r g => (Port.bodyReads_join _ q r g).trans (by rw [if_neg (hq r g)]; rfl)⟩

theorem State.aside_requestRead (h : o.Aside s) (q : Requester) (addr : Word) (n : Nat) (t : RequestTag)
    (ht : ∀ r g, t ≠ .body r g) : o.Aside (s.requestRead q addr n t) := State.aside_request h _ ht

theorem State.aside_requestWrite (h : o.Aside s) (q : Requester) (addr : Word) (d : List Byte) (t : RequestTag)
    (ht : ∀ r g, t ≠ .body r g) : o.Aside (s.requestWrite q addr d t) := State.aside_request h _ ht

theorem State.aside_raise (h : o.Aside s) (k : EventKind) (x d : Nat) (w : Word) : o.Aside (s.raise k x d w) := by
  unfold State.raise
  repeat' split
  all_goals exact State.aside_same h rfl rfl

theorem State.aside_assertLint (h : o.Aside s) : o.Aside s.assertLint := State.aside_same h rfl rfl

theorem State.aside_finishLong (h : o.Aside s) (code : Byte) (st : MgmtStatus) (r : List Byte) :
    o.Aside (s.finishLong code st r) := by
  unfold State.finishLong
  split <;> exact State.aside_same h rfl rfl

theorem State.aside_release (h : o.Aside s) (c : Chan) : o.Aside (s.release c) := by
  unfold State.release
  repeat' first | exact h | exact fun _ _ => nofun | with_reducible apply State.aside_onPool | split | dsimp only

theorem State.aside_readStore (h : o.Aside s) (c : Chan) (part : Fin 4) : o.Aside (s.readStore c part) := by
  unfold State.readStore
  repeat' first | exact h | exact fun _ _ => nofun | with_reducible apply State.aside_onXc | with_reducible apply State.aside_requestRead | split | dsimp only

theorem State.aside_contextArrived (h : o.Aside s) (c : Chan) (x : Context) : o.Aside (s.contextArrived c x) := by
  unfold State.contextArrived
  repeat' first | exact h | exact fun _ _ => nofun | with_reducible apply State.aside_onXc | with_reducible apply State.aside_finishLong | split | dsimp only

theorem State.aside_contextStored (h : o.Aside s) (c : Chan) (stage : CtxReadStage) : o.Aside (s.contextStored c stage) := by
  unfold State.contextStored
  repeat' first | exact h | exact fun _ _ => nofun | with_reducible apply State.aside_readStore | split | dsimp only

theorem State.aside_leaveRecency (h : o.Aside s) (e : EntryId) : o.Aside (s.leaveRecency e) := by
  unfold State.leaveRecency
  repeat' first | exact h | exact fun _ _ => nofun | with_reducible apply State.aside_onXc | split | dsimp only

theorem State.aside_reside (h : o.Aside s) (c : Chan) (r : Residence) : o.Aside (s.reside c r) := by
  unfold State.reside
  repeat' first | exact h | exact fun _ _ => nofun | with_reducible apply State.aside_onChan | split | dsimp only

theorem State.aside_install (h : o.Aside s) (e : EntryId) (c : Chan) (x : Context) (dirty : Bool) : o.Aside (s.install e c x dirty) := by
  unfold State.install
  repeat' first | exact h | exact fun _ _ => nofun | with_reducible apply State.aside_onXc | with_reducible apply State.aside_setEntry | with_reducible apply State.aside_contextArrived | with_reducible apply State.aside_reside | split | dsimp only

theorem State.aside_installFresh (h : o.Aside s) (e : EntryId) (c : Chan) : o.Aside (s.installFresh e c) := by
  unfold State.installFresh
  repeat' first | exact h | exact fun _ _ => nofun | with_reducible apply State.aside_onChan | with_reducible apply State.aside_install | split | dsimp only

theorem State.aside_startFill (h : o.Aside s) (e : EntryId) (c : Chan) : o.Aside (s.startFill e c) := by
  unfold State.startFill
  repeat' first | exact h | exact fun _ _ => nofun | with_reducible apply State.aside_setEntry | with_reducible apply State.aside_requestRead | with_reducible apply State.aside_installFresh | split | dsimp only

theorem State.aside_startWriteBack (h : o.Aside s) (e : EntryId) (c : Chan) (x : Context) (d : Option Chan) : o.Aside (s.startWriteBack e c x d) := by
  unfold State.startWriteBack
  repeat' first | exact h | exact fun _ _ => nofun | with_reducible apply State.aside_setEntry | with_reducible apply State.aside_requestWrite | with_reducible apply State.aside_leaveRecency | with_reducible apply State.aside_reside | split | dsimp only

theorem State.aside_evictClean (h : o.Aside s) (e : EntryId) (c : Chan) : o.Aside (s.evictClean e c) := by
  unfold State.evictClean
  repeat' first | exact h | exact fun _ _ => nofun | with_reducible apply State.aside_setEntry | with_reducible apply State.aside_leaveRecency | with_reducible apply State.aside_reside | split | dsimp only

theorem State.aside_useEntry (h : o.Aside s) (e : EntryId) (c : Chan) : o.Aside (s.useEntry e c) := by
  unfold State.useEntry
  repeat' first | exact h | exact fun _ _ => nofun | with_reducible apply State.aside_reside | with_reducible apply State.aside_startFill | with_reducible apply State.aside_startWriteBack | with_reducible apply State.aside_evictClean | split | dsimp only

theorem State.aside_noteFetch (h : o.Aside s) (c : Chan) : o.Aside (s.noteFetch c) := by
  unfold State.noteFetch
  repeat' first | exact h | exact fun _ _ => nofun | with_reducible apply State.aside_onXc | split | dsimp only

theorem State.aside_joinWaitList (h : o.Aside s) (c : Chan) : o.Aside (s.joinWaitList c) := by
  unfold State.joinWaitList
  repeat' first | exact h | exact fun _ _ => nofun | with_reducible apply State.aside_onXc | split | dsimp only

theorem State.aside_fetchRequest (h : o.Aside s) (c : Chan) : o.Aside (s.fetchRequest c) := by
  unfold State.fetchRequest
  repeat' first | exact h | exact fun _ _ => nofun | with_reducible apply State.aside_useEntry | with_reducible apply State.aside_noteFetch | with_reducible apply State.aside_joinWaitList | split | dsimp only

theorem State.aside_freeEntry (h : o.Aside s) (e : EntryId) : o.Aside (s.freeEntry e) := by
  unfold State.freeEntry
  repeat' first | exact h | exact fun _ _ => nofun | with_reducible apply State.aside_startWriteBack | with_reducible apply State.aside_evictClean | split | dsimp only

theorem State.aside_channelFault (h : o.Aside s) (c : Chan) (detail : Nat) (aux : Word) : o.Aside (s.channelFault c detail aux) := by
  unfold State.channelFault
  repeat' first | exact h | exact fun _ _ => nofun | with_reducible apply State.aside_onChan | with_reducible apply State.aside_onXc | with_reducible apply State.aside_onCounters | with_reducible apply State.aside_dropHeld | with_reducible apply State.aside_raise | with_reducible apply State.aside_finishLong | with_reducible apply State.aside_release | with_reducible apply State.aside_contextStored | split | dsimp only

theorem State.aside_fillAnswered (h : o.Aside s) (e : EntryId) (c : Chan) (a : Answer) (bytes : List Byte) : o.Aside (s.fillAnswered e c a bytes) := by
  unfold State.fillAnswered
  repeat' first | exact h | exact fun _ _ => nofun | with_reducible apply State.aside_onChan | with_reducible apply State.aside_setEntry | with_reducible apply State.aside_install | with_reducible apply State.aside_channelFault | with_reducible apply State.aside_dropMessage | split | dsimp only

theorem State.aside_passToClaimant (h : o.Aside s) (e : EntryId) (d : Option Chan) : o.Aside (s.passToClaimant e d) := by
  unfold State.passToClaimant
  repeat' first | exact h | exact fun _ _ => nofun | with_reducible apply State.aside_setEntry | with_reducible apply State.aside_startFill | split | dsimp only

theorem State.aside_refetchAndPass (h : o.Aside s) (e : EntryId) (c : Chan) (d : Option Chan) : o.Aside (s.refetchAndPass e c d) := by
  unfold State.refetchAndPass
  repeat' first | exact h | exact fun _ _ => nofun | with_reducible apply State.aside_setEntry | with_reducible apply State.aside_startFill | with_reducible apply State.aside_fetchRequest | split | dsimp only

theorem State.aside_writeBackAnswered (h : o.Aside s) (e : EntryId) (c : Chan) (a : Answer) : o.Aside (s.writeBackAnswered e c a) := by
  unfold State.writeBackAnswered
  repeat' first | exact h | exact fun _ _ => nofun | with_reducible apply State.aside_contextStored | with_reducible apply State.aside_reside | with_reducible apply State.aside_refetchAndPass | with_reducible apply State.aside_channelFault | with_reducible apply State.aside_passToClaimant | split | dsimp only
end Aside

/-! ## The receive side keeps the agreement -/

/-- From o to s the Segmentation Unit and its body reads are as they were, and the residences agree with the entries if
they did. -/
structure State.Receives (o s : State) : Prop extends o.Aside s where
  agree : o.EntriesAgree → s.EntriesAgree

theorem State.Receives.refl (s : State) : s.Receives s := { State.Aside.refl s with agree := id }

theorem State.Receives.trans {a b c : State} (h : a.Receives b) (k : b.Receives c) : a.Receives c :=
  { h.toAside.trans k.toAside with agree := k.agree ∘ h.agree }

theorem State.EntriesAgree.as {s : State} (h : s.EntriesAgree) : s.AgreesAs .none := s.agreesAs_none.2 h

section Receives

variable {o s : State}

theorem State.receives_alike {t : State} (h : o.Receives s) (a : s.Aside t) (e : s.Alike t) : o.Receives t :=
  h.trans { a with agree := fun g => t.agreesAs_none.1 (g.as.alike e) }

theorem State.receives_onChan (h : o.Receives s) (c : Chan) (f : Channel → Channel)
    (hr : ∀ x, (f x).residence = x.residence) (hb : ∀ x, (f x).binding = x.binding) : o.Receives (s.onChan c f) :=
  State.receives_alike h (State.aside_onChan (.refl s) c f) (State.alike_onChan c f hr hb)

theorem State.receives_onPool (h : o.Receives s) (p : PoolId) (f : Pool → Pool) : o.Receives (s.onPool p f) :=
  State.receives_alike h (State.aside_onPool (.refl s) p f) ⟨fun _ => rfl, fun _ => rfl, fun _ => rfl, rfl⟩

theorem State.receives_onCounters (h : o.Receives s) (f : Counters → Counters) : o.Receives (s.onCounters f) :=
  State.receives_alike h (State.aside_onCounters (.refl s) f) ⟨fun _ => rfl, fun _ => rfl, fun _ => rfl, rfl⟩

theorem State.receives_onEw (h : o.Receives s) (f : EventWriter → EventWriter) : o.Receives (s.onEw f) :=
  State.receives_alike h (State.aside_onEw (.refl s) f) ⟨fun _ => rfl, fun _ => rfl, fun _ => rfl, rfl⟩

theorem State.receives_dropHeld (h : o.Receives s) (f : Chan → Bool) : o.Receives (s.dropHeld f) :=
  State.receives_alike h (State.aside_dropHeld (.refl s) f) ⟨fun _ => rfl, fun _ => rfl, fun _ => rfl, rfl⟩

/-- An update of the engine that leaves the channel table. -/
theorem State.receives_onRe (h : o.Receives s) (f : Reassembly → Reassembly)
    (hf : (f s.re).channels = s.re.channels) : o.Receives (s.onRe f) :=
  State.receives_alike h (State.aside_onRe (.refl s) f)
    ⟨fun _ => rfl, fun c => by simp [State.chan, hf], fun c => by simp [State.chan, hf], rfl⟩

/-- An update of the cache that leaves the entries and the list. -/
theorem State.receives_onXc (h : o.Receives s) (f : Cache → Cache) (he : (f s.xc).entries = s.xc.entries)
    (hw : (f s.xc).waitList = s.xc.waitList) : o.Receives (s.onXc f) :=
  State.receives_alike h (State.aside_onXc (.refl s) f)
    ⟨fun e => by simp [State.entry, he], fun _ => rfl, fun _ => rfl, hw⟩

/-- A VALID entry of a channel stays a VALID entry of it. -/
theorem State.receives_setEntry (h : o.Receives s) (e : EntryId) (v w : ValidEntry) (hs : s.entry e = .valid v)
    (hc : w.channel = v.channel) : o.Receives (s.setEntry e (.valid w)) :=
  State.receives_alike h (State.aside_setEntry (.refl s) e _)
    ⟨fun d => by
      rw [State.setEntry_entry]
      split
      · next hd => subst hd; rw [hs]; simp [CacheEntry.names, hc]
      · rfl, fun _ => rfl, fun _ => rfl, rfl⟩

theorem State.receives_requestRead (h : o.Receives s) (q : Requester) (addr : Word) (n : Nat) (t : RequestTag)
    (ht : ∀ r g, t ≠ .body r g) : o.Receives (s.requestRead q addr n t) :=
  State.receives_alike h (State.aside_requestRead (.refl s) q addr n t ht) (State.alike_requestRead _ _ _ _)

theorem State.receives_requestWrite (h : o.Receives s) (q : Requester) (addr : Word) (d : List Byte) (t : RequestTag)
    (ht : ∀ r g, t ≠ .body r g) : o.Receives (s.requestWrite q addr d t) :=
  State.receives_alike h (State.aside_requestWrite (.refl s) q addr d t ht) (State.alike_requestWrite _ _ _ _)

theorem State.receives_raise (h : o.Receives s) (k : EventKind) (x d : Nat) (w : Word) : o.Receives (s.raise k x d w) :=
  State.receives_alike h (State.aside_raise (.refl s) k x d w) (State.alike_raise _ _ _ _)

theorem State.receives_assertLint (h : o.Receives s) : o.Receives s.assertLint := State.receives_onEw h _

theorem State.receives_loseEvent (h : o.Receives s) : o.Receives s.loseEvent :=
  State.receives_onCounters (State.receives_onEw h _) _

theorem State.receives_finishLong (h : o.Receives s) (code : Byte) (st : MgmtStatus) (r : List Byte) :
    o.Receives (s.finishLong code st r) :=
  State.receives_alike h (State.aside_finishLong (.refl s) code st r) (State.alike_finishLong _ _ _)

theorem State.receives_contextStored (h : o.Receives s) (c : Chan) (stage : CtxReadStage) :
    o.Receives (s.contextStored c stage) :=
  State.receives_alike h (State.aside_contextStored (.refl s) c stage) (State.alike_contextStored _ _)

theorem State.receives_release (h : o.Receives s) (c : Chan) : o.Receives (s.release c) := State.receives_onPool h _ _

theorem State.claims_none {e : EntryId} {P : Prop} (h : Claims.none e ≠ none) : P := absurd rfl h

theorem State.receives_fetchRequest (h : o.Receives s) (c : Chan) : o.Receives (s.fetchRequest c) :=
  h.trans { State.aside_fetchRequest (.refl s) c with
    agree := fun g => (State.agreesAs_none _).1 (g.as.fetchRequest (fun _ => State.claims_none) c) }

theorem State.receives_freeEntry (h : o.Receives s) (e : EntryId) : o.Receives (s.freeEntry e) :=
  h.trans { State.aside_freeEntry (.refl s) e with
    agree := fun g => (State.agreesAs_none _).1 (g.as.freeEntry e rfl) }

theorem Claims.set_none (e : EntryId) : Claims.none.set e Option.none = Claims.none := Claims.set_same _ _ _ rfl

/-- An entry that names channel c alone, and is FREE by now, has its channel faulted. -/
theorem State.agree_faultOf {t : State} (g : s.EntriesAgree) (e : EntryId) (c : Chan) (r : Residence)
    (he : (s.entry e).names e = [(c, r)]) (ht : t.xc.entries = tset s.xc.entries e .free)
    (hc : ∀ d, (t.chan d).residence = (s.chan d).residence ∧ (t.chan d).binding = (s.chan d).binding)
    (hw : t.xc.waitList = s.xc.waitList) (detail : Nat) (aux : Word) : (t.channelFault c detail aux).EntriesAgree := by
  have hte : ∀ d, t.entry d = if e = d then .free else s.entry d := fun d => by
    unfold State.entry; rw [ht]; exact tget_tset _ _ _ _
  have h1 : t.AgreesAs (Claims.none.set e (some [(c, r)])) := by
    refine g.as.congr (fun d => ?_) (fun d => (hc d).1)
      (fun d u => .inl (by unfold Channel.InUse; rw [(hc d).2]; exact u)) (fun d m => .inl (by rw [← hw]; exact m))
    by_cases hd : d = e
    · subst hd
      rw [State.namesAs_claimed d _ (Claims.set_self _ _ _), ← he]
      rfl
    · exact State.namesAs_of_entry d (Claims.set_ne _ _ hd) (by rw [hte, if_neg (Ne.symm hd)])
  have h2 := h1.channelFault e c r [] (State.namesAs_claimed _ _ (Claims.set_self _ _ _)) (by simp) detail aux
  rw [Claims.set_set] at h2
  have h3 := h2.settled e (by
    rw [Claims.set_self, State.entry_of_entries e (State.channelFault_entries _ _ _), hte, if_pos rfl]; rfl)
  rw [Claims.set_set, Claims.set_none] at h3
  exact (State.agreesAs_none _).1 h3

theorem State.receives_fillAnswered (h : o.Receives s) (e : EntryId) (c : Chan) (a : Answer) (bytes : List Byte) :
    o.Receives (s.fillAnswered e c a bytes) := by
  refine h.trans { State.aside_fillAnswered (.refl s) e c a bytes with agree := fun g => ?_ }
  unfold State.fillAnswered
  split
  · next he =>
    have hn : (s.entry e).names e = [(c, .fetching)] := by rw [he]; rfl
    have hr : ∀ d, ((s.onChan c fun ch => { ch with poolReset := false }).chan d).residence = (s.chan d).residence ∧
        ((s.onChan c fun ch => { ch with poolReset := false }).chan d).binding = (s.chan d).binding := by
      intro d
      rw [State.onChan_chan]
      split <;> exact ⟨rfl, rfl⟩
    split
    · dsimp only
      split
      · refine State.agree_faultOf g e c .fetching hn ?_ ?_ ?_ _ _
        · rfl
        · exact hr
        · rfl
      · have h1 : (s.onChan c fun ch => { ch with poolReset := false }).AgreesAs .none :=
          g.as.alike (State.alike_onChan c _ (fun _ => rfl) fun _ => rfl)
        have h2 := h1.install e c .fetching (by rw [← hn]; rfl)
        rw [Claims.set_none] at h2
        exact (State.agreesAs_none _).1 (h2 _ _)
    · refine State.agree_faultOf (t := s.setEntry e .free) g e c .fetching hn ?_ (fun _ => ⟨rfl, rfl⟩) ?_ _ _
      · rfl
      · rfl
  · exact g

/-- The entry that was written is used for its claimant, or becomes FREE (R68, R71). -/
theorem State.AgreesAs.passToClaimant {e : EntryId} {d : Option Chan}
    (h : s.AgreesAs (Claims.none.set e (some (d.toList.map fun d => (d, .fetching))))) :
    (s.passToClaimant e d).EntriesAgree := by
  unfold State.passToClaimant
  split
  · next d =>
    have h1 := h.startFill e d (Claims.set_self _ _ _)
    rw [Claims.set_set, Claims.set_none] at h1
    exact (State.agreesAs_none _).1 h1
  · have h1 : (s.setEntry e .free).AgreesAs (Claims.none.set e (some [])) := by
      refine h.congr (fun d => ?_) (fun _ => rfl) (fun _ u => .inl u) (fun _ m => .inl m)
      by_cases hd : d = e
      · subst hd
        exact (State.namesAs_claimed _ _ (Claims.set_self _ _ _)).trans (State.namesAs_claimed _ _ (Claims.set_self _ _ _)).symm
      · refine State.namesAs_of_entry d ?_ (tget_tset_ne _ _ (Ne.symm hd))
        rw [Claims.set_ne _ _ hd, Claims.set_ne _ _ hd]
    have h2 := h1.settled e (by rw [Claims.set_self, State.setEntry_entry_self]; rfl)
    rw [Claims.set_set, Claims.set_none] at h2
    exact (State.agreesAs_none _).1 h2

/-- A fetch is requested for the channel that was written, and the entry is used for its claimant (R71). -/
theorem State.AgreesAs.refetchAndPass {e : EntryId} {d : Option Chan}
    (h : s.AgreesAs (Claims.none.set e (some (d.toList.map fun d => (d, .fetching))))) (hw : s.IsWriting e) (c : Chan) :
    (s.refetchAndPass e c d).EntriesAgree := by
  have hf := h.fetchRequest (fun x hx => by
    by_cases hd : x = e
    · subst hd; exact hw
    · rw [Claims.set_ne _ _ hd] at hx; exact State.claims_none hx) c
  unfold State.refetchAndPass
  split
  · next d =>
    split
    · exact State.AgreesAs.passToClaimant (d := some d) hf
    · have h1 : (s.startFill e d).EntriesAgree := State.AgreesAs.passToClaimant (d := some d) h
      exact (State.agreesAs_none _).1 (h1.as.fetchRequest (fun _ => State.claims_none) c)
  · exact State.AgreesAs.passToClaimant (d := none) hf

theorem State.receives_writeBackAnswered (h : o.Receives s) (e : EntryId) (c : Chan) (a : Answer) :
    o.Receives (s.writeBackAnswered e c a) := by
  refine h.trans { State.aside_writeBackAnswered (.refl s) e c a with agree := fun g => ?_ }
  unfold State.writeBackAnswered
  split
  · next d cl n he =>
    split
    · next hd =>
      subst hd
      have hn : s.namesAs .none e = (d, .writeback) :: cl.toList.map fun x => (x, .fetching) := by
        show (s.entry e).names e = _
        rw [he]; rfl
      have hd := g.as.named e d .writeback (by rw [hn]; exact List.mem_cons_self)
      have hcl : ∀ x ∈ cl.toList, (s.chan x).residence = .fetching := fun x hx =>
        (g.as.named e x .fetching (by rw [hn]; exact List.mem_cons_of_mem _ (List.mem_map.2 ⟨x, hx, rfl⟩))).1
      have hne : d ∉ (cl.toList.map fun x => (x, Residence.fetching)).map Prod.fst := by
        intro m
        simp only [List.map_map, List.mem_map, Function.comp_apply] at m
        obtain ⟨x, hx, rfl⟩ := m
        exact absurd (hd.1.symm.trans (hcl x hx)) (by simp)
      split
      · have h1 : (s.reside d .stored).AgreesAs (Claims.none.set e (some (cl.toList.map fun x => (x, .fetching)))) := by
          refine g.as.rename e _ _ hn (State.namesAs_claimed _ _ (Claims.set_self _ _ _))
            (fun x hx => Claims.set_ne _ _ hx) (fun _ _ => rfl) ?_ ?_ ?_ (fun _ m => m)
          · intro x r m
            simp only [List.mem_map, Prod.mk.injEq] at m
            obtain ⟨x, hx, rfl, rfl⟩ := m
            have : d ≠ x := by rintro rfl; exact hne (by simpa using hx)
            refine ⟨?_, by simp, .inl ⟨.fetching, List.mem_cons_of_mem _ (List.mem_map.2 ⟨x, hx, rfl⟩)⟩⟩
            rw [State.reside_chan, if_neg this]
            exact hcl x hx
          · intro x m
            rw [State.reside_chan]
            by_cases hx : d = x
            · simp [hx]
            · rw [if_neg hx, if_neg]
              rw [List.map_cons, List.mem_cons]
              exact fun hx' => hx'.elim (Ne.symm hx) m
          · intro x
            rw [State.reside_chan]
            split <;> rfl
        have h2 := h1.alike (State.alike_contextStored d .writeBack)
        have hw : ((s.reside d .stored).contextStored d .writeBack).IsWriting e :=
          ⟨d, cl, n, (State.entry_of_entries e (State.contextStored_entries _ _)).trans he⟩
        dsimp only
        split
        · exact h2.refetchAndPass hw d
        · exact h2.passToClaimant
      · exact State.AgreesAs.passToClaimant
          ((g.as.channelFault e d .writeback _ hn hne 2 a.aux).alike (State.alike_contextStored _ _))
    · exact g
  all_goals exact g

theorem State.receives_syncNext (h : o.Receives s) (l : List (EntryId × Chan)) : o.Receives (s.syncNext l) := by
  induction l with
  | nil => exact State.receives_finishLong (State.receives_onXc h _ rfl rfl) _ _ _
  | cons m l ih =>
    unfold State.syncNext
    repeat' split
    · next v he _ =>
      refine State.receives_requestWrite ?_ _ _ _ _ fun _ _ => nofun
      exact State.receives_setEntry (State.receives_onXc h _ rfl rfl) _ v _ he rfl
    all_goals exact ih

theorem State.receives_syncAnswered (h : o.Receives s) (e : EntryId) (c : Chan) (a : Answer) :
    o.Receives (s.syncAnswered e c a) := by
  unfold State.syncAnswered
  split
  · next v he =>
    split
    · next hc =>
      dsimp only
      refine State.receives_syncNext ?_ _
      split
      · exact State.receives_setEntry h _ v _ he rfl
      · refine h.trans { State.aside_channelFault (State.aside_leaveRecency (State.aside_setEntry (.refl s) _ _) _) _ _ _ with
          agree := fun g => ?_ }
        refine State.agree_faultOf (t := (s.setEntry e .free).leaveRecency e) g e c (.cached e) (by rw [he]; simp [CacheEntry.names, hc.1]) ?_ (fun _ => ⟨rfl, rfl⟩) ?_ _ _
        · rfl
        · rfl
    · exact h
  all_goals exact h

theorem State.receives_ctxReadAnswered (h : o.Receives s) (a : Answer) (bytes : List Byte) :
    o.Receives (s.ctxReadAnswered a bytes) := by
  unfold State.ctxReadAnswered
  dsimp only
  split <;> exact State.receives_finishLong (State.receives_onXc h _ rfl rfl) _ _ _

/-! ### The engine and the end of a step -/

theorem State.alike_endNewlyFilled : s.Alike s.endNewlyFilled where
  names e := by
    unfold State.entry State.endNewlyFilled
    simp only [State.onXc_xc, tget_map]
    split <;> simp_all [CacheEntry.names]
  residence _ := rfl
  binding _ := rfl
  waitList := rfl

theorem State.receives_endNewlyFilled (h : o.Receives s) : o.Receives s.endNewlyFilled :=
  State.receives_alike h (State.aside_onXc (.refl s) _) State.alike_endNewlyFilled

theorem State.receives_modContext (h : o.Receives s) (c : Chan) (f : Context → Context) :
    o.Receives (s.modContext c f) := by
  unfold State.modContext
  split
  · split
    · next he =>
      split
      · exact State.receives_setEntry h _ _ _ he rfl
      · exact h
    all_goals exact h
  all_goals exact h

theorem State.receives_touch (h : o.Receives s) (c : Chan) : o.Receives (s.touch c) := by
  unfold State.touch
  split
  · split
    · next he =>
      refine State.receives_onXc (State.receives_setEntry h _ _ _ he ?_) _ ?_ ?_
      · rfl
      · rfl
      · rfl
    all_goals exact h
  all_goals exact h

theorem State.receives_dropMessage (h : o.Receives s) (c : Chan) : o.Receives (s.dropMessage c) := by
  have h' : o.Receives (s.onChan c fun ch => { ch with poolReset := false }) :=
    State.receives_onChan h c _ (fun _ => rfl) fun _ => rfl
  unfold State.dropMessage
  dsimp only
  split
  · split
    · next he => exact State.receives_setEntry h' _ _ _ he rfl
    all_goals exact h'
  all_goals exact h'

theorem State.receives_foldl {β : Type} (f : State → β → State) (hf : ∀ s b, o.Receives s → o.Receives (f s b))
    (l : List β) : ∀ s, o.Receives s → o.Receives (l.foldl f s) := by
  induction l with
  | nil => exact fun _ h => h
  | cons b l ih => exact fun s h => ih _ (hf s b h)

theorem State.receives_forAll (n : Nat) (f : Fin n → State → State) (hf : ∀ i s, o.Receives s → o.Receives (f i s))
    (h : o.Receives s) : o.Receives (forAll n f s) :=
  State.receives_foldl _ (fun s i => hf i s) _ _ h

/-- A STORED channel becomes UNBOUND. -/
theorem State.receives_becomeUnbound (h : o.Receives s) (c : Chan) (hs : (s.chan c).residence = .stored) :
    o.Receives (s.becomeUnbound c) := by
  refine h.trans { State.aside_onXc (State.aside_onChan (.refl s) c _) _ with agree := fun g => ?_ }
  refine (State.agreesAs_none _).1 (g.as.congr (fun _ => rfl) (fun d => ?_) (fun d u => ?_) fun d m => .inl ?_)
  · show (State.chan (s.onChan c _) d).residence = _
    rw [State.onChan_chan]
    split <;> rfl
  · by_cases hd : c = d
    · subst hd; exact .inr hs
    · refine .inl ?_
      show (State.chan (s.onChan c _) d).InUse
      rw [State.onChan_chan, if_neg hd]
      exact u
  · simp only [State.becomeUnbound, State.onXc_xc, State.onChan_xc, List.mem_filter] at m
    exact m.1

theorem State.receives_dropIfDue (h : o.Receives s) (c : Chan) : o.Receives (s.dropIfDue c) := by
  unfold State.dropIfDue
  repeat' first | exact h | exact fun _ _ => nofun | exact fun _ => rfl | (intro _; split <;> rfl) | with_reducible apply State.receives_dropMessage | split | rfl | dsimp only

theorem State.receives_askPool (h : o.Receives s) (c : Chan) (r : DuRequest) : o.Receives (s.askPool c r) := by
  unfold State.askPool
  repeat' first | exact h | exact fun _ _ => nofun | exact fun _ => rfl | (intro _; split <;> rfl) | with_reducible apply State.receives_onPool | split | rfl | dsimp only

theorem State.receives_setOp (h : o.Receives s) (c : Chan) (op : Option ChanOp) : o.Receives (s.setOp c op) := by
  unfold State.setOp
  repeat' first | exact h | exact fun _ _ => nofun | exact fun _ => rfl | (intro _; split <;> rfl) | with_reducible apply State.receives_onChan | split | rfl | dsimp only

theorem State.receives_undo (h : o.Receives s) (c : Chan) : o.Receives (s.undo c) := by
  unfold State.undo
  repeat' first | exact h | exact fun _ _ => nofun | exact fun _ => rfl | (intro _; split <;> rfl) | with_reducible apply State.receives_onCounters | with_reducible apply State.receives_setOp | split | rfl | dsimp only

theorem State.receives_poolFaultAnswered (h : o.Receives s) (c : Chan) : o.Receives (s.poolFaultAnswered c) := by
  unfold State.poolFaultAnswered
  repeat' first | exact h | exact fun _ _ => nofun | exact fun _ => rfl | (intro _; split <;> rfl) | with_reducible apply State.receives_onCounters | with_reducible apply State.receives_dropIfDue | with_reducible apply State.receives_setOp | with_reducible apply State.receives_undo | split | rfl | dsimp only

theorem State.receives_beginClose (h : o.Receives s) (c : Chan) (status : RxStatus) (cause : CloseCause) : o.Receives (s.beginClose c status cause) := by
  unfold State.beginClose
  repeat' first | exact h | exact fun _ _ => nofun | exact fun _ => rfl | (intro _; split <;> rfl) | with_reducible apply State.receives_askPool | with_reducible apply State.receives_setOp | split | rfl | dsimp only

theorem State.receives_askReserve (h : o.Receives s) (c : Chan) (cell : Cell) : o.Receives (s.askReserve c cell) := by
  unfold State.askReserve
  repeat' first | exact h | exact fun _ _ => nofun | exact fun _ => rfl | (intro _; split <;> rfl) | with_reducible apply State.receives_askPool | with_reducible apply State.receives_setOp | split | rfl | dsimp only

theorem State.receives_startData (h : o.Receives s) (c : Chan) (cell : Cell) : o.Receives (s.startData c cell) := by
  unfold State.startData
  repeat' first | exact h | exact fun _ _ => nofun | exact fun _ => rfl | (intro _; split <;> rfl) | with_reducible apply State.receives_modContext | with_reducible apply State.receives_askReserve | split | rfl | dsimp only

theorem State.receives_startCell (h : o.Receives s) (c : Chan) (cell : Cell) : o.Receives (s.startCell c cell) := by
  unfold State.startCell
  repeat' first | exact h | exact fun _ _ => nofun | exact fun _ => rfl | (intro _; split <;> rfl) | with_reducible apply State.receives_askReserve | with_reducible apply State.receives_startData | split | rfl | dsimp only

theorem State.receives_startRefused (h : o.Receives s) (c : Chan) (cell : Cell) : o.Receives (s.startRefused c cell) := by
  unfold State.startRefused
  repeat' first | exact h | exact fun _ _ => nofun | exact fun _ => rfl | (intro _; split <;> rfl) | with_reducible apply State.receives_modContext | with_reducible apply State.receives_setOp | split | rfl | dsimp only

theorem State.receives_reserveGranted (h : o.Receives s) (c : Chan) : o.Receives (s.reserveGranted c) := by
  unfold State.reserveGranted
  repeat' first | exact h | exact fun _ _ => nofun | exact fun _ => rfl | (intro _; split <;> rfl) | with_reducible apply State.receives_onChan | with_reducible apply State.receives_release | with_reducible apply State.receives_askPool | with_reducible apply State.receives_setOp | with_reducible apply State.receives_undo | split | rfl | dsimp only

theorem State.receives_reserveRefused (h : o.Receives s) (c : Chan) : o.Receives (s.reserveRefused c) := by
  unfold State.reserveRefused
  repeat' first | exact h | exact fun _ _ => nofun | exact fun _ => rfl | (intro _; split <;> rfl) | with_reducible apply State.receives_raise | with_reducible apply State.receives_undo | with_reducible apply State.receives_startRefused | split | rfl | dsimp only

theorem State.receives_writeCell (h : o.Receives s) (c : Chan) (cell : Cell) : o.Receives (s.writeCell c cell) := by
  unfold State.writeCell
  repeat' first | exact h | exact fun _ _ => nofun | exact fun _ => rfl | (intro _; split <;> rfl) | with_reducible apply State.receives_requestWrite | with_reducible apply State.receives_modContext | with_reducible apply State.receives_setOp | split | rfl | dsimp only

theorem State.receives_writeFurther (h : o.Receives s) (c : Chan) (cell : Cell) (b : Buffer) : o.Receives (s.writeFurther c cell b) := by
  unfold State.writeFurther
  repeat' first | exact h | exact fun _ _ => nofun | exact fun _ => rfl | (intro _; split <;> rfl) | with_reducible apply State.receives_requestWrite | with_reducible apply State.receives_modContext | with_reducible apply State.receives_setOp | split | rfl | dsimp only

theorem State.receives_takeGiven (h : o.Receives s) (c : Chan) (cookie addr : Word) : o.Receives (s.takeGiven c cookie addr) := by
  unfold State.takeGiven
  repeat' first | exact h | exact fun _ _ => nofun | exact fun _ => rfl | (intro _; split <;> rfl) | with_reducible apply State.receives_modContext | with_reducible apply State.receives_undo | with_reducible apply State.receives_beginClose | with_reducible apply State.receives_writeCell | with_reducible apply State.receives_writeFurther | split | rfl | dsimp only

theorem State.receives_takeNone (h : o.Receives s) (c : Chan) : o.Receives (s.takeNone c) := by
  unfold State.takeNone
  repeat' first | exact h | exact fun _ _ => nofun | exact fun _ => rfl | (intro _; split <;> rfl) | with_reducible apply State.receives_onChan | with_reducible apply State.receives_raise | with_reducible apply State.receives_release | with_reducible apply State.receives_undo | with_reducible apply State.receives_beginClose | with_reducible apply State.receives_startRefused | split | rfl | dsimp only

theorem State.receives_continueCell (h : o.Receives s) (c : Chan) (cell : Cell) (x : Context) : o.Receives (s.continueCell c cell x) := by
  unfold State.continueCell
  repeat' first | exact h | exact fun _ _ => nofun | exact fun _ => rfl | (intro _; split <;> rfl) | with_reducible apply State.receives_askPool | with_reducible apply State.receives_setOp | with_reducible apply State.receives_beginClose | with_reducible apply State.receives_writeCell | split | rfl | dsimp only

theorem State.receives_applyOpen (h : o.Receives s) (c : Chan) (cell : Cell) (x : Context) : o.Receives (s.applyOpen c cell x) := by
  unfold State.applyOpen
  repeat' first | exact h | exact fun _ _ => nofun | exact fun _ => rfl | (intro _; split <;> rfl) | with_reducible apply State.receives_beginClose | with_reducible apply State.receives_continueCell | split | rfl | dsimp only

theorem State.receives_applyClosed (h : o.Receives s) (c : Chan) (cell : Cell) : o.Receives (s.applyClosed c cell) := by
  unfold State.applyClosed
  repeat' first | exact h | exact fun _ _ => nofun | exact fun _ => rfl | (intro _; split <;> rfl) | with_reducible apply State.receives_modContext | with_reducible apply State.receives_startData | split | rfl | dsimp only

theorem State.receives_applyTo (h : o.Receives s) (c : Chan) (cell : Cell) : o.Receives (s.applyTo c cell) := by
  unfold State.applyTo
  repeat' first | exact h | exact fun _ _ => nofun | exact fun _ => rfl | (intro _; split <;> rfl) | with_reducible apply State.receives_beginClose | with_reducible apply State.receives_startCell | with_reducible apply State.receives_applyOpen | with_reducible apply State.receives_applyClosed | split | rfl | dsimp only

theorem State.receives_applyHeld (h : o.Receives s) : o.Receives s.applyHeld := by
  unfold State.applyHeld
  repeat' split
  · exact h
  · exact State.receives_applyTo (State.receives_touch (State.receives_onRe h _ rfl) _) _ _
  · exact h

theorem State.receives_applyAbort (h : o.Receives s) (c : Chan) : o.Receives (s.applyAbort c) := by
  unfold State.applyAbort
  repeat' first | exact h | exact fun _ _ => nofun | exact fun _ => rfl | (intro _; split <;> rfl) | with_reducible apply State.receives_onChan | with_reducible apply State.receives_touch | with_reducible apply State.receives_beginClose | split | rfl | dsimp only

theorem State.receives_writeAnswered (h : o.Receives s) (c : Chan) (cell : Cell) (a : Answer) : o.Receives (s.writeAnswered c cell a) := by
  unfold State.writeAnswered
  repeat' first | exact h | exact fun _ _ => nofun | exact fun _ => rfl | (intro _; split <;> rfl) | with_reducible apply State.receives_dropIfDue | with_reducible apply State.receives_setOp | with_reducible apply State.receives_undo | with_reducible apply State.receives_beginClose | split | rfl | dsimp only

theorem State.receives_payloadAnswered (h : o.Receives s) (c : Chan) (second : Bool) (a : Answer) : o.Receives (s.payloadAnswered c second a) := by
  unfold State.payloadAnswered
  repeat' first | exact h | exact fun _ _ => nofun | exact fun _ => rfl | (intro _; split <;> rfl) | with_reducible apply State.receives_setOp | with_reducible apply State.receives_writeAnswered | split | rfl | dsimp only

theorem State.receives_closeFinished (h : o.Receives s) (c : Chan) : o.Receives (s.closeFinished c) := by
  unfold State.closeFinished
  repeat' first | exact h | exact fun _ _ => nofun | exact fun _ => rfl | (intro _; split <;> rfl) | with_reducible apply State.receives_onChan | with_reducible apply State.receives_modContext | with_reducible apply State.receives_undo | with_reducible apply State.receives_startCell | split | rfl | dsimp only

theorem State.receives_deadlineFound (h : o.Receives s) (c : Chan) : o.Receives (s.deadlineFound c) := by
  unfold State.deadlineFound
  repeat' first | exact h | exact fun _ _ => nofun | exact fun _ => rfl | (intro _; split <;> rfl) | with_reducible apply State.receives_onChan | with_reducible apply State.receives_fetchRequest | with_reducible apply State.receives_beginClose | split | rfl | dsimp only

theorem State.receives_owedWork (h : o.Receives s) (c : Chan) : o.Receives (s.owedWork c) := by
  unfold State.owedWork
  repeat' first | exact h | exact fun _ _ => nofun | exact fun _ => rfl | (intro _; split <;> rfl) | with_reducible apply State.receives_fetchRequest | with_reducible apply State.receives_freeEntry | with_reducible apply State.receives_touch | with_reducible apply State.receives_beginClose | split | rfl | dsimp only

theorem State.receives_holdCell (h : o.Receives s) (c : Chan) (cell : Cell) : o.Receives (s.holdCell c cell) := by
  have h1 : o.Receives (s.onRe fun re => { re with hold := re.hold ++ [{ channel := c, cell }] }) :=
    State.receives_onRe h _ rfl
  have h2 : o.Receives (s.onCounters fun k => { k with holdOverflow := k.holdOverflow + 1 }) :=
    State.receives_onCounters h _
  unfold State.holdCell
  dsimp only
  split
  · split
    · exact State.receives_fetchRequest h1 _
    · exact h1
  · split
    · refine State.receives_raise (State.receives_onChan h2 c _ ?_ ?_) _ _ _ _
      · exact fun _ => rfl
      · exact fun _ => rfl
    · exact h2

theorem State.receives_scanChannel (h : o.Receives s) (c : Chan) : o.Receives (s.scanChannel c) := by
  have h1 : o.Receives (s.onRe fun re => { re with scanned := c :: re.scanned }) := State.receives_onRe h _ rfl
  unfold State.scanChannel
  dsimp only
  split
  · exact h
  · split
    · exact State.receives_deadlineFound h1 _
    · exact h1

theorem State.receives_poolFaultChannels (h : o.Receives s) (p : PoolId) : o.Receives (s.poolFaultChannels p) := by
  unfold State.poolFaultChannels
  refine State.receives_forAll _ _ (fun c s hs => State.receives_dropIfDue hs c) ?_
  refine State.receives_alike (State.receives_dropHeld (State.receives_onCounters h _) _)
    (State.aside_onRe (.refl _) _) ⟨fun _ => rfl, fun c => ?_, fun c => ?_, rfl⟩
  · simp only [State.chan, State.onRe_re, tget_map]
    split <;> rfl
  · simp only [State.chan, State.onRe_re, tget_map]
    split <;> rfl

theorem State.receives_freeAll (h : o.Receives s) : o.Receives s.freeAll := by
  unfold State.freeAll
  split
  · exact State.receives_forAll _ _ (fun e s hs => State.receives_freeEntry hs e) h
  · exact h

theorem State.aside_serveWaitList (n : Nat) : ∀ s : State, o.Aside s → o.Aside (s.serveWaitList n) := by
  induction n with
  | zero => exact fun _ h => h
  | succ n ih =>
    intro s h
    unfold State.serveWaitList
    repeat' split
    · exact h
    · exact ih _ (State.aside_useEntry (State.aside_onXc h _) _ _)
    · exact ih _ (State.aside_onXc h _)
    · exact h

theorem State.agree_serveWaitList (n : Nat) : ∀ s : State, s.xc.Legal → s.EntriesAgree →
    (s.serveWaitList n).EntriesAgree := by
  induction n with
  | zero => exact fun _ _ g => g
  | succ n ih =>
    intro s l g
    have lp : s.popWaitList.xc.Legal := State.cache_popWaitList (o := s) (s := s) id l
    have gp : s.popWaitList.EntriesAgree := (State.agreesAs_none _).1
      (g.as.congr (fun _ => rfl) (fun _ => rfl) (fun _ u => .inl u) fun _ m => .inl (List.mem_of_mem_tail m))
    unfold State.serveWaitList
    split
    · exact g
    · next c rest hw =>
      split
      · next e he =>
        split
        · next hn =>
          refine ih _ (State.cache_useEntry (o := s) (fun _ => lp) e c l) ((State.agreesAs_none _).1 ?_)
          refine gp.as.useEntry e rfl ?_ c ?_ ?_ ?_
          · exact State.chooseEntry_available e he
          · exact g.listed c (by rw [hw]; exact List.mem_cons_self)
          · have : (s.chan c).uses = true := by
              unfold State.needsContext at hn
              simp only [Bool.and_eq_true] at hn
              exact hn.1
            exact (Channel.uses_iff _).1 this
          · have hd := l.2.2
            rw [hw] at hd
            show c ∉ s.xc.waitList.tail
            rw [hw]
            exact (List.nodup_cons.1 hd).1
        · exact ih _ lp gp
      · exact g

/-- The end of a step keeps the agreement of a state whose cache is legal (R73). -/
theorem State.receives_settle (h : o.Receives s) (l : s.xc.Legal) (b : State) : o.Receives (s.settle b) := by
  unfold State.settle
  split
  · exact h
  · have h1 := State.receives_freeAll (State.receives_forAll 256 _ (fun c s hs => State.receives_owedWork hs c)
      (State.receives_endNewlyFilled h))
    have l1 := State.cache_freeAll (State.cache_forAll (o := s) 256 _ (fun c s hs => State.cache_owedWork hs c)
      (State.cache_endNewlyFilled (s := s) id)) l
    unfold State.serveIfFreed
    split
    · exact h1.trans { State.aside_serveWaitList _ _ (.refl _) with agree := State.agree_serveWaitList _ _ l1 }
    · exact h1

/-! ### The pools and the writer -/

theorem State.receives_setAccess (h : o.Receives s) (p : PoolId) (x : Option DuAccess) : o.Receives (s.setAccess p x) := by
  unfold State.setAccess
  repeat' first | exact h | exact fun _ _ => nofun | exact fun _ => rfl | (intro _; split <;> rfl) | with_reducible apply State.receives_onPool | split | rfl | dsimp only

theorem State.receives_popRequest (h : o.Receives s) (p : PoolId) : o.Receives (s.popRequest p) := by
  unfold State.popRequest
  repeat' first | exact h | exact fun _ _ => nofun | exact fun _ => rfl | (intro _; split <;> rfl) | with_reducible apply State.receives_onPool | split | rfl | dsimp only

theorem State.receives_readFree (h : o.Receives s) (p : PoolId) (c : Chan) (examined : Nat) : o.Receives (s.readFree p c examined) := by
  unfold State.readFree
  repeat' first | exact h | exact fun _ _ => nofun | exact fun _ => rfl | (intro _; split <;> rfl) | with_reducible apply State.receives_requestRead | with_reducible apply State.receives_setAccess | split | rfl | dsimp only

theorem State.receives_writeFree (h : o.Receives s) (p : PoolId) (status : Byte) (x : DuAccess) : o.Receives (s.writeFree p status x) := by
  unfold State.writeFree
  repeat' first | exact h | exact fun _ _ => nofun | exact fun _ => rfl | (intro _; split <;> rfl) | with_reducible apply State.receives_requestWrite | with_reducible apply State.receives_setAccess | split | rfl | dsimp only

theorem State.receives_grantReserve (h : o.Receives s) (p : PoolId) (n : Nat) (c : Chan) : o.Receives (s.grantReserve p n c) := by
  unfold State.grantReserve
  repeat' first | exact h | exact fun _ _ => nofun | exact fun _ => rfl | (intro _; split <;> rfl) | with_reducible apply State.receives_onPool | with_reducible apply State.receives_reserveGranted | split | rfl | dsimp only

theorem State.receives_takeReserve (h : o.Receives s) (p : PoolId) (c : Chan) : o.Receives (s.takeReserve p c) := by
  unfold State.takeReserve
  repeat' first | exact h | exact fun _ _ => nofun | exact fun _ => rfl | (intro _; split <;> rfl) | with_reducible apply State.receives_requestRead | with_reducible apply State.receives_poolFaultAnswered | with_reducible apply State.receives_reserveRefused | with_reducible apply State.receives_setAccess | with_reducible apply State.receives_grantReserve | split | rfl | dsimp only

theorem State.receives_takeTake (h : o.Receives s) (p : PoolId) (c : Chan) : o.Receives (s.takeTake p c) := by
  unfold State.takeTake
  repeat' first | exact h | exact fun _ _ => nofun | exact fun _ => rfl | (intro _; split <;> rfl) | with_reducible apply State.receives_poolFaultAnswered | with_reducible apply State.receives_readFree | split | rfl | dsimp only

theorem State.receives_takeComplete (h : o.Receives s) (p : PoolId) (c : Chan) (record : List Byte) : o.Receives (s.takeComplete p c record) := by
  unfold State.takeComplete
  repeat' first | exact h | exact fun _ _ => nofun | exact fun _ => rfl | (intro _; split <;> rfl) | with_reducible apply State.receives_requestWrite | with_reducible apply State.receives_undo | with_reducible apply State.receives_poolFaultAnswered | with_reducible apply State.receives_setAccess | split | rfl | dsimp only

theorem State.receives_poolFault (h : o.Receives s) (p : PoolId) (c : Chan) (detail : Nat) (x : Answer) :
    o.Receives (s.poolFault p c detail x) := by
  unfold State.poolFault
  refine State.receives_foldl _ (fun s r hs => State.receives_poolFaultAnswered hs _) _ _ ?_
  refine State.receives_poolFaultAnswered ?_ _
  refine State.receives_raise ?_ _ _ _ _
  refine State.receives_poolFaultChannels ?_ _
  exact State.receives_onPool h _ _

theorem State.receives_advanceFree (h : o.Receives s) (p : PoolId) : o.Receives (s.advanceFree p) := by
  unfold State.advanceFree
  repeat' first | exact h | exact fun _ _ => nofun | exact fun _ => rfl | (intro _; split <;> rfl) | with_reducible apply State.receives_onPool | split | rfl | dsimp only

theorem State.receives_examineFree (h : o.Receives s) (p : PoolId) (c : Chan) (examined : Nat) (bytes : List Byte) : o.Receives (s.examineFree p c examined bytes) := by
  unfold State.examineFree
  repeat' first | exact h | exact fun _ _ => nofun | exact fun _ => rfl | (intro _; split <;> rfl) | with_reducible apply State.receives_takeNone | with_reducible apply State.receives_writeFree | split | rfl | dsimp only

theorem State.receives_rejected (h : o.Receives s) (p : PoolId) (c : Chan) (examined detail : Nat) : o.Receives (s.rejected p c examined detail) := by
  unfold State.rejected
  repeat' first | exact h | exact fun _ _ => nofun | exact fun _ => rfl | (intro _; split <;> rfl) | with_reducible apply State.receives_raise | with_reducible apply State.receives_takeNone | with_reducible apply State.receives_readFree | with_reducible apply State.receives_advanceFree | split | rfl | dsimp only

theorem State.receives_recordWritten (h : o.Receives s) (p : PoolId) (c : Chan) : o.Receives (s.recordWritten p c) := by
  unfold State.recordWritten
  repeat' first | exact h | exact fun _ _ => nofun | exact fun _ => rfl | (intro _; split <;> rfl) | with_reducible apply State.receives_onPool | with_reducible apply State.receives_assertLint | with_reducible apply State.receives_closeFinished | split | rfl | dsimp only

theorem State.receives_poolAnswered (h : o.Receives s) (p : PoolId) (x : Answer) (bytes : List Byte) : o.Receives (s.poolAnswered p x bytes) := by
  unfold State.poolAnswered
  repeat' first | exact h | exact fun _ _ => nofun | exact fun _ => rfl | (intro _; split <;> rfl) | with_reducible apply State.receives_reserveRefused | with_reducible apply State.receives_takeGiven | with_reducible apply State.receives_setAccess | with_reducible apply State.receives_grantReserve | with_reducible apply State.receives_poolFault | with_reducible apply State.receives_advanceFree | with_reducible apply State.receives_examineFree | with_reducible apply State.receives_rejected | with_reducible apply State.receives_recordWritten | split | rfl | dsimp only

theorem State.receives_eventAnswered (h : o.Receives s) (x : Answer) (bytes : List Byte) :
    o.Receives (s.eventAnswered x bytes) := by
  unfold State.eventAnswered State.ownerKnown State.writerFault State.recordKept
  repeat' first | exact h | exact fun _ _ => nofun | with_reducible apply State.receives_onEw | with_reducible apply State.receives_requestWrite | with_reducible apply State.receives_loseEvent | with_reducible apply State.receives_assertLint | split | dsimp only

end Receives

end Sys2Proof.Machine
end

