-- ==== Sys2Proof/Laws/Staging.lean ====
section
/-! SUPPORT. The transmit rings agree with the send slots and with the body reads that stand at the port, under the Segmentation Unit's own operations. -/

namespace Sys2Proof.Machine

set_option linter.unusedTactic false
set_option linter.unreachableTactic false
set_option linter.unusedSimpArgs false
set_option linter.unusedVariables false

/-- The rings, their messages and the locks are legal, with some body reads counted beside those that stand at the
port: the one whose answer is being acted on. -/
structure State.TxLegal (s : State) (x : RingId → Nat → Nat) : Prop where
  rings : ∀ r, (s.ring r).Legal
  staged : ∀ r, (s.ring r).StagedWith fun g => s.lmp.bodyReads r g + x r g
  locks : s.LocksLegal

/-- No body read is counted beside those at the port. -/
def noRead : RingId → Nat → Nat := fun _ _ => 0

/-- The one body read that a tag stands for, if it does. -/
def RequestTag.read (t : RequestTag) : RingId → Nat → Nat := fun r g => if t = .body r g then 1 else 0

theorem State.txLegal_iff (s : State) : s.TxLegal noRead ↔
    (∀ r, (s.ring r).Legal) ∧ (∀ r, (s.ring r).StagedWith (s.lmp.bodyReads r)) ∧ s.LocksLegal :=
  ⟨fun h => ⟨h.rings, h.staged, h.locks⟩, fun ⟨h1, h2, h3⟩ => ⟨h1, h2, h3⟩⟩

theorem TxRing.StagedWith.mono {x : TxRing} {a b : Nat → Nat} (h : x.StagedWith a) (hab : ∀ g, b g ≤ a g) :
    x.StagedWith b where
  none_to_come g hg := Nat.le_zero.1 ((h.none_to_come g hg) ▸ hab g)
  under_way m hm he := ⟨Nat.le_trans (hab _) (h.under_way m hm he).1, (h.under_way m hm he).2⟩
  ended m hm he := Nat.le_zero.1 ((h.ended m hm he) ▸ hab _)
  in_order := h.in_order

section Updates

variable {s t : State} {x y : RingId → Nat → Nat}

/-- One ring changes; the slots' holders and lock queues stay. A waiting ring goes on waiting unless it is in no queue,
and a holder goes on sending on its slot. -/
theorem State.TxLegal.ring (h : s.TxLegal x) (r : RingId) (hq : ∀ q, q ≠ r → t.ring q = s.ring q)
    (hs : ∀ k, (t.slot k).holder = (s.slot k).holder ∧ (t.slot k).lockQueue = (s.slot k).lockQueue)
    (hn : ∀ q, q ≠ r → ∀ g, t.lmp.bodyReads q g + y q g ≤ s.lmp.bodyReads q g + x q g)
    (hl : (t.ring r).Legal) (hg : (t.ring r).StagedWith fun g => t.lmp.bodyReads r g + y r g)
    (hw : (t.ring r).state = .waitSlot ∨ ∀ k, r ∉ (s.slot k).lockQueue)
    (hh : ∀ k m, (s.slot k).holder = some r → (s.ring r).msg = some m → (s.ring r).state = .sending →
      (t.ring r).state = .sending ∧ ∃ m', (t.ring r).msg = some m' ∧ m'.slot = m.slot) : t.TxLegal y where
  rings q := by
    by_cases e : q = r
    · subst e; exact hl
    · rw [hq q e]; exact h.rings q
  staged q := by
    by_cases e : q = r
    · subst e; exact hg
    · rw [hq q e]; exact (h.staged q).mono (hn q e)
  locks := by
    refine ⟨fun k => ?_, fun k q m => ?_, fun j k q m n => ?_, fun k q m => ?_, fun k m => ?_⟩
    · rw [(hs k).2]; exact h.locks.nodup k
    · rw [(hs k).2] at m
      by_cases e : q = r
      · subst e
        exact hw.resolve_right fun n => n k m
      · rw [hq q e]; exact h.locks.waiting k q m
    · rw [(hs _).2] at m n; exact h.locks.once j k q m n
    · rw [(hs k).1] at m
      obtain ⟨h1, m', h2, h3⟩ := h.locks.holding k q m
      by_cases e : q = r
      · subst e
        obtain ⟨g1, m2, g2, g3⟩ := hh k m' m h2 h1
        exact ⟨g1, m2, g2, g3.trans h3⟩
      · rw [hq q e]; exact ⟨h1, m', h2, h3⟩
    · rw [(hs k).2] at m; rw [(hs k).1]; exact h.locks.held k m

/-- Only the requests change, and no body read is added. -/
theorem State.TxLegal.reads (h : s.TxLegal x) (hs : t.su.rings = s.su.rings ∧ t.su.slots = s.su.slots)
    (hn : ∀ q g, t.lmp.bodyReads q g + y q g ≤ s.lmp.bodyReads q g + x q g) : t.TxLegal y := by
  have hr : ∀ q, t.ring q = s.ring q := fun q => by unfold State.ring; rw [hs.1]
  have hk : ∀ k, t.slot k = s.slot k := fun k => by unfold State.slot; rw [hs.2]
  refine ⟨fun r => by rw [hr]; exact h.rings r, fun r => by rw [hr]; exact (h.staged r).mono (hn r), ?_⟩
  obtain ⟨l1, l2, l3, l4, l5⟩ := h.locks
  refine ⟨?_, ?_, ?_, ?_, ?_⟩ <;> simp only [hr, hk]
  all_goals assumption

theorem State.TxLegal.same (h : s.TxLegal x) (hs : t.su.rings = s.su.rings ∧ t.su.slots = s.su.slots)
    (hl : t.lmp = s.lmp) : t.TxLegal x := h.reads hs fun q g => by rw [hl]

/-- The receive side leaves the transmit side legal. -/
theorem State.TxLegal.aside (h : s.TxLegal x) (a : s.Aside t) : t.TxLegal x :=
  h.reads ⟨by rw [a.su], by rw [a.su]⟩ fun q g => by rw [a.reads]

/-- A read that is counted may be left out of the count. -/
theorem State.TxLegal.forget (h : s.TxLegal x) : s.TxLegal noRead :=
  h.reads ⟨rfl, rfl⟩ fun _ _ => Nat.le_add_right _ _

theorem State.TxLegal.requestRead (h : s.TxLegal x) (q : Requester) (addr : Word) (n : Nat) (t : RequestTag)
    (ht : ∀ r g, t ≠ .body r g) : (s.requestRead q addr n t).TxLegal x :=
  h.aside (State.aside_requestRead (.refl s) q addr n t ht)

theorem State.TxLegal.requestWrite (h : s.TxLegal x) (q : Requester) (addr : Word) (d : List Byte) (t : RequestTag)
    (ht : ∀ r g, t ≠ .body r g) : (s.requestWrite q addr d t).TxLegal x :=
  h.aside (State.aside_requestWrite (.refl s) q addr d t ht)

/-- A slot's header and sequence change, but not its holder or its queue. -/
theorem State.TxLegal.onSlot (h : s.TxLegal x) (k : SlotId) (f : SendSlot → SendSlot)
    (hf : ∀ z, (f z).holder = z.holder ∧ (f z).lockQueue = z.lockQueue) : (s.onSlot k f).TxLegal x := by
  have hk : ∀ j, ((s.onSlot k f).slot j).holder = (s.slot j).holder ∧
      ((s.onSlot k f).slot j).lockQueue = (s.slot j).lockQueue := fun j => by
    rw [State.onSlot_slot]
    split
    · exact hf _
    · exact ⟨rfl, rfl⟩
  refine ⟨h.rings, h.staged, ?_⟩
  obtain ⟨l1, l2, l3, l4, l5⟩ := h.locks
  refine ⟨?_, ?_, ?_, ?_, ?_⟩ <;> simp only [hk]
  all_goals assumption

/-- A ring changes by itself. -/
theorem State.TxLegal.onRing (h : s.TxLegal x) (r : RingId) (f : TxRing → TxRing) (hl : (f (s.ring r)).Legal)
    (hg : (f (s.ring r)).StagedWith fun g => s.lmp.bodyReads r g + x r g)
    (hw : (f (s.ring r)).state = .waitSlot ∨ ∀ k, r ∉ (s.slot k).lockQueue)
    (hh : ∀ k m, (s.slot k).holder = some r → (s.ring r).msg = some m → (s.ring r).state = .sending →
      (f (s.ring r)).state = .sending ∧ ∃ m', (f (s.ring r)).msg = some m' ∧ m'.slot = m.slot) :
    (s.onRing r f).TxLegal x := by
  have e : (s.onRing r f).ring r = f (s.ring r) := State.onRing_ring_self _ _ _
  refine h.ring r (fun q hq => by rw [State.onRing_ring, if_neg (Ne.symm hq)]) (fun _ => ⟨rfl, rfl⟩)
    (fun _ _ _ => Nat.le_refl _) ?_ ?_ ?_ ?_ <;> rw [e]
  all_goals assumption

theorem State.TxLegal.sending (h : s.TxLegal x) {r : RingId} {m : TxMsg} (hm : (s.ring r).msg = some m) :
    (s.ring r).state = .sending :=
  Classical.byContradiction fun n => by rw [((h.rings r).resting n).2] at hm; cases hm

theorem State.TxLegal.unqueued (h : s.TxLegal x) {r : RingId} (hr : (s.ring r).state ≠ .waitSlot) (k : SlotId) :
    r ∉ (s.slot k).lockQueue := fun m => hr (h.locks.waiting k r m)

theorem State.TxLegal.unheld (h : s.TxLegal x) {r : RingId} (hr : (s.ring r).state ≠ .sending) (k : SlotId) :
    (s.slot k).holder ≠ some r := fun m => hr (h.locks.holding k r m).1

/-- A ring whose descriptor access is set, and nothing else, stays legal if the access suits its state. -/
theorem State.TxLegal.setTxAccess (h : s.TxLegal x) (r : RingId) (a : Option TxAccess)
    (h1 : a = some .ownerRead ∨ a = some .addrRead → (s.ring r).state = .idle)
    (h2 : (s.ring r).state = .waitSlot → a = none) : (s.setTxAccess r a).TxLegal x := by
  obtain ⟨l1, l2, l3, l4, l5, l6⟩ := h.rings r
  obtain ⟨g1, g2, g3, g4⟩ := h.staged r
  refine h.onRing r _ ⟨l1, l2, l3, l4, h1, h2⟩ ⟨g1, g2, g3, g4⟩ ?_ ?_
  · by_cases hs : (s.ring r).state = .waitSlot
    · exact .inl hs
    · exact .inr (h.unqueued hs)
  · exact fun k m _ h2 h3 => ⟨h3, m, h2, rfl⟩

theorem State.TxLegal.beginWriteBack (h : s.TxLegal x) (r : RingId) (status : TxStatus) (n : Nat)
    (hr : (s.ring r).state ≠ .waitSlot) : (s.beginWriteBack r status n).TxLegal x := by
  refine State.TxLegal.requestWrite ?_ _ _ _ _ fun _ _ => nofun
  exact h.setTxAccess r _ (by simp) fun e => absurd e hr

theorem State.TxLegal.poll (h : s.TxLegal x) (r : RingId) : (s.poll r).TxLegal x := by
  unfold State.poll
  split
  · exact h
  · split
    · next hp =>
      refine State.TxLegal.requestRead ?_ _ _ _ _ fun _ _ => nofun
      exact h.setTxAccess r _ (fun _ => hp.1) fun e => by rw [hp.1] at e; cases e
    · exact h

/-- Body reads are issued while the FIFO has room (R120). -/
theorem State.TxLegal.issueReads (r : RingId) (n : Nat) : ∀ s : State, s.TxLegal noRead →
    (s.issueReads r n).TxLegal noRead := by
  induction n with
  | zero => exact fun _ h => h
  | succ n ih =>
    intro s h
    unfold State.issueReads
    split
    · next m d hm hd =>
      split
      · next hc =>
        obtain ⟨hc1, hc2, hc3⟩ := hc
        refine ih _ ?_
        obtain ⟨l1, l2, l3, l4, l5, l6⟩ := h.rings r
        obtain ⟨g1, g2, g3, g4⟩ := h.staged r
        have hs := h.sending hm
        have hi := (g4 m d hm hd hc1).2 hc2
        have hu := g2 m hm hc1
        have hread : ∀ q g, ((s.onRing r fun y => { y with msg := some { m with nextRead := m.nextRead + 1 } }).requestRead
            .seg (addrAt d.addr (40 * (m.nextRead - 1))) (min 40 (d.length.toNat - 40 * (m.nextRead - 1)))
            (.body r (s.ring r).gen)).lmp.bodyReads q g = s.lmp.bodyReads q g + RequestTag.read (.body r (s.ring r).gen) q g :=
          fun q g => Port.bodyReads_join _ _ q g
        have hring : ((s.onRing r fun y => { y with msg := some { m with nextRead := m.nextRead + 1 } }).requestRead
            .seg (addrAt d.addr (40 * (m.nextRead - 1))) (min 40 (d.length.toNat - 40 * (m.nextRead - 1)))
            (.body r (s.ring r).gen)).ring r = { s.ring r with msg := some { m with nextRead := m.nextRead + 1 } } :=
          State.onRing_ring_self _ _ _
        refine h.ring r (fun q hq => State.onRing_ring _ _ _ _ ▸ if_neg (Ne.symm hq)) (fun _ => ⟨rfl, rfl⟩) ?_ ?_ ?_ ?_ ?_
        · intro q hq g
          rw [hread]
          simp [RequestTag.read, Ne.symm hq, noRead]
        · rw [hring]
          exact ⟨l1, l2, l3, fun e => absurd hs e, l5, l6⟩
        · rw [hring]
          refine ⟨fun g hg => ?_, fun m' hm' he => ?_, fun m' hm' he => ?_, fun m' d' hm' hd' he => ?_⟩
          · rw [hread]
            have := g1 g hg
            have hne : (s.ring r).gen ≠ g := Nat.ne_of_lt hg
            simp only [noRead, RequestTag.read, RequestTag.body.injEq, true_and, hne, if_false] at *
            omega
          · simp only [Option.some.injEq] at hm'
            subst hm'
            rw [hread]
            simp only [noRead, RequestTag.read, if_true] at *
            omega
          · simp only [Option.some.injEq] at hm'
            subst hm'
            exact absurd hc1 he
          · simp only [Option.some.injEq] at hm'
            subst hm'
            have : d' = d := by
              have : some d' = some d := hd'.symm.trans hd
              cases this; rfl
            subst this
            simp only
            omega
        · exact .inr (h.unqueued (by rw [hs]; simp))
        · intro k m' _ hm' _
          rw [hring]
          rw [hm] at hm'
          cases hm'
          exact ⟨hs, _, rfl, rfl⟩
      · exact h
    · exact h
    · exact h

/-- A cell joins the FIFO, and the message is counted on. -/
theorem State.TxLegal.stage (h : s.TxLegal x) (r : RingId) (m m' : TxMsg) (d : TxDesc) (cell : Cell)
    (hm : (s.ring r).msg = some m) (hd : (s.ring r).desc = some d) (hs : m'.slot = m.slot) (he : m'.ended = none)
    (h1 : s.lmp.bodyReads r (s.ring r).gen + y r (s.ring r).gen ≤ m'.nextRead - m'.nextBuild)
    (h2 : (s.ring r).fifo.length + 1 + (m'.nextRead - m'.nextBuild) ≤ 4)
    (h3 : m'.nextRead ≤ bodyCells d.length.toNat + 1)
    (h4 : m'.nextRead ≤ bodyCells d.length.toNat → m'.nextBuild ≤ m'.nextRead)
    (hy : ∀ q g, y q g ≤ x q g) :
    (s.onRing r fun z => { z with fifo := z.fifo ++ [cell], msg := some m' }).TxLegal y := by
  obtain ⟨l1, l2, l3, l4, l5, l6⟩ := h.rings r
  obtain ⟨g1, g2, g3, g4⟩ := h.staged r
  have hsend := h.sending hm
  have e : (s.onRing r fun z => { z with fifo := z.fifo ++ [cell], msg := some m' }).ring r
      = { s.ring r with fifo := (s.ring r).fifo ++ [cell], msg := some m' } := State.onRing_ring_self _ _ _
  refine h.ring r (fun q hq => by rw [State.onRing_ring, if_neg (Ne.symm hq)]) (fun _ => ⟨rfl, rfl⟩)
    (fun q _ g => Nat.add_le_add_left (hy q g) _) ?_ ?_ (.inr (h.unqueued (by rw [hsend]; simp))) ?_
  · rw [e]
    refine ⟨l1, l2, ?_, fun n => absurd hsend n, l5, l6⟩
    simp only [List.length_append, List.length_cons, List.length_nil]
    omega
  · rw [e]
    refine ⟨fun g hg => ?_, fun z hz _ => ?_, fun z hz n => ?_, fun z w hz hw _ => ?_⟩
    · have := g1 g hg
      have := hy r g
      show s.lmp.bodyReads r g + y r g = 0
      simp only at *
      omega
    · cases hz
      refine ⟨h1, ?_⟩
      simp only [List.length_append, List.length_cons, List.length_nil]
      omega
    · cases hz
      exact absurd he n
    · cases hz
      have : d = w := by
        have : some d = some w := hd.symm.trans hw
        cases this; rfl
      subst this
      exact ⟨h3, h4⟩
  · intro k z _ hz _
    rw [e]
    rw [hm] at hz
    cases hz
    exact ⟨hsend, m', rfl, hs⟩

theorem State.onRing_onRing (r : RingId) (f g : TxRing → TxRing) : (s.onRing r f).onRing r g = s.onRing r fun z => g (f z) := by
  unfold State.onRing State.onSu
  simp [tmod, tset, tget]

theorem State.stageTrailer_legal (h : s.TxLegal noRead) (r : RingId) : (s.stageTrailer r).TxLegal noRead := by
  unfold State.stageTrailer
  split
  · next m d hm hd =>
    dsimp only
    split
    · next hc =>
      obtain ⟨-, hc1, hc2, -, hc3⟩ := hc
      have g4 := (h.staged r).in_order m d hm hd hc1
      have g2 := (h.staged r).under_way m hm hc1
      unfold State.stageData
      rw [State.onRing_onRing]
      have h1 := h.onSlot m.slot (fun x => { x with nextSeq := x.nextSeq + 1 }) fun _ => ⟨rfl, rfl⟩
      refine h1.stage r m _ d _ hm hd rfl hc1 ?_ ?_ ?_ ?_
        (fun _ _ => Nat.le_refl _)
      · show s.lmp.bodyReads r (s.ring r).gen + _ ≤ m.nextRead - (m.nextBuild + 1)
        simp only [noRead] at *
        omega
      · show (s.ring r).fifo.length + 1 + (m.nextRead - (m.nextBuild + 1)) ≤ 4
        omega
      · exact g4.1
      · show m.nextRead ≤ bodyCells d.length.toNat → m.nextBuild + 1 ≤ m.nextRead
        omega
    · exact h
  · exact h
  · exact h

/-- The answer of a body read of the message in hand: its cell is built, and the read no longer counts. -/
theorem State.buildCell_legal (r : RingId) (h : s.TxLegal (RequestTag.read (.body r (s.ring r).gen))) (m : TxMsg)
    (d : TxDesc) (hm : (s.ring r).msg = some m) (hd : (s.ring r).desc = some d) (bytes : List Byte) :
    (s.buildCell r m d bytes).TxLegal noRead := by
  have one : RequestTag.read (.body r (s.ring r).gen) r (s.ring r).gen = 1 := by simp [RequestTag.read]
  have he : m.ended = none := Classical.byContradiction fun n => by
    have := (h.staged r).ended m hm n
    simp only [one] at this
    omega
  have g2 := (h.staged r).under_way m hm he
  have g4 := (h.staged r).in_order m d hm hd he
  simp only [one] at g2
  have a1 : s.lmp.bodyReads r (s.ring r).gen + noRead r (s.ring r).gen ≤ m.nextRead - (m.nextBuild + 1) := by
    simp only [noRead]; omega
  have a2 : (s.ring r).fifo.length + 1 + (m.nextRead - (m.nextBuild + 1)) ≤ 4 := by omega
  have a4 : m.nextRead ≤ bodyCells d.length.toNat → m.nextBuild + 1 ≤ m.nextRead := by omega
  unfold State.buildCell
  dsimp only
  split
  · exact h.stage r m _ d _ hm hd rfl he a1 a2 g4.1 a4 fun _ _ => Nat.zero_le _
  · unfold State.stageData
    rw [State.onRing_onRing]
    have h1 := h.onSlot m.slot (fun x => { x with nextSeq := x.nextSeq + 1 }) fun _ => ⟨rfl, rfl⟩
    exact h1.stage r m _ d _ hm hd rfl he a1 a2 g4.1 a4 fun _ _ => Nat.zero_le _

/-- A message is ended early: its staged cells are dropped and its body reads belong to no message any longer (R123). -/
theorem State.endEarly_legal (h : s.TxLegal noRead) (r : RingId) (status : TxStatus) :
    (s.endEarly r status).TxLegal noRead := by
  unfold State.endEarly
  split
  · next m hm =>
    split
    · have hsend := h.sending hm
      obtain ⟨l1, l2, l3, l4, l5, l6⟩ := h.rings r
      obtain ⟨g1, g2, g3, g4⟩ := h.staged r
      have h1 : ∀ n : BitVec 4, ((s.onSlot m.slot fun x => { x with nextSeq := x.nextSeq - n }).onRing r fun x =>
          { x with fifo := [], gen := x.gen + 1, msg := some { m with ended := some status } }).TxLegal noRead := by
        intro n
        have h0 := h.onSlot m.slot (fun x => { x with nextSeq := x.nextSeq - n }) fun _ => ⟨rfl, rfl⟩
        refine h0.onRing r _ ?_ ?_ (.inr (h0.unqueued (by rw [State.onSlot_ring, hsend]; simp))) ?_
        · exact ⟨l1, l2, Nat.zero_le _, fun n => absurd hsend n, l5, l6⟩
        · refine ⟨fun g hg => g1 g (Nat.lt_of_succ_lt hg), fun z hz n => ?_, fun z hz _ => g1 _ (Nat.lt_succ_self _),
            fun z w hz _ n => ?_⟩
          · cases hz; cases n
          · cases hz; cases n
        · intro k z _ hz _
          have : some m = some z := hm.symm.trans hz
          cases this
          exact ⟨hsend, _, rfl, rfl⟩
      dsimp only
      split
      · unfold State.stageData
        generalize BitVec.ofNat 4 (if (s.slot m.slot).kind = .data then (s.ring r).fifo.length else 0) = n
        have e : State.ring (State.onRing (s.onSlot m.slot fun x => { x with nextSeq := x.nextSeq - n }) r fun x =>
          { x with fifo := [], gen := x.gen + 1, msg := some { m with ended := some status } }) r
          = { s.ring r with fifo := [], gen := (s.ring r).gen + 1, msg := some { m with ended := some status } } :=
          State.onRing_ring_self _ _ _
        have h3 := (h1 n).onSlot m.slot (fun x => { x with nextSeq := x.nextSeq + 1 }) fun _ => ⟨rfl, rfl⟩
        refine h3.onRing r _ ?_ ?_ (.inr (h3.unqueued (by rw [State.onSlot_ring, e]; simp [hsend]))) ?_
        · rw [State.onSlot_ring, e]
          exact ⟨l1, l2, by simp, fun n => absurd hsend n, l5, l6⟩
        · have g := h3.staged r
          rw [State.onSlot_ring, e] at g ⊢
          refine ⟨g.none_to_come, fun z hz n => ?_, g.ended, fun z w hz _ n => ?_⟩
          · cases hz; cases n
          · cases hz; cases n
        · exact fun k z _ h2 h3 => ⟨h3, z, h2, rfl⟩
      · refine State.TxLegal.beginWriteBack (h1 _) r status _ ?_
        rw [show (State.onRing _ r _).ring r = _ from State.onRing_ring_self _ _ _]
        simp [hsend]
    · exact h
  · exact h

/-- A body read is answered (R120, R121, R124). -/
theorem State.bodyAnswered_legal (r : RingId) (gen : Nat) (h : s.TxLegal (RequestTag.read (.body r gen))) (a : Answer)
    (bytes : List Byte) : (s.bodyAnswered r gen a bytes).TxLegal noRead := by
  unfold State.bodyAnswered
  split
  · next hg =>
    subst hg
    split
    · next m d hm hd =>
      split
      · exact State.TxLegal.issueReads r 4 _ (State.stageTrailer_legal (State.buildCell_legal r h m d hm hd bytes) r)
      · exact State.endEarly_legal h.forget r _
    · exact h.forget
    · exact h.forget
  · exact h.forget

/-! ### Locks (R118) -/

/-- Ring r, which is not SENDING, is given the lock of slot k and begins its message; the rings that go on waiting for
the slot are among those that waited, without r. -/
theorem State.grant_legal (h : s.TxLegal noRead) (r : RingId) (k : SlotId) (f : SendSlot → SendSlot)
    (hr : (s.ring r).state ≠ .sending) (ha : (s.ring r).access = none) (hf : (f (s.slot k)).holder = some r)
    (hq : (f (s.slot k)).lockQueue.Sublist (s.slot k).lockQueue) (hn : r ∉ (f (s.slot k)).lockQueue)
    (hj : ∀ j, j ≠ k → r ∉ (s.slot j).lockQueue) : ((s.onSlot k f).startMessage r k).TxLegal noRead := by
  unfold State.startMessage
  refine State.TxLegal.issueReads r 4 _ ?_
  have er : ∀ q, (State.onRing (s.onSlot k f) r fun x => { x with state := .sending, msg := some { slot := k }, gen := x.gen + 1 }).ring q
      = if r = q then { s.ring q with state := .sending, msg := some { slot := k }, gen := (s.ring q).gen + 1 } else s.ring q :=
    fun q => State.onRing_ring _ _ _ _
  have es : ∀ j, (State.onRing (s.onSlot k f) r fun x => { x with state := .sending, msg := some { slot := k }, gen := x.gen + 1 }).slot j
      = if k = j then f (s.slot j) else s.slot j := fun j => State.onSlot_slot _ _ _ _
  refine ⟨fun q => ?_, fun q => ?_, fun j => ?_, fun j q m => ?_, fun i j q m n => ?_, fun j q m => ?_, fun j m => ?_⟩
  · rw [er]
    split
    · next e =>
      subst e
      obtain ⟨l1, l2, l3, l4, l5, l6⟩ := h.rings r
      exact ⟨l1, l2, l3, fun n => absurd rfl n, fun n => by simp only [ha] at n; simp at n, fun n => by cases n⟩
    · exact h.rings q
  · rw [er]
    split
    · next e =>
      subst e
      obtain ⟨g1, -, -, -⟩ := h.staged r
      refine ⟨fun g hg => g1 g (Nat.lt_of_succ_lt hg), fun z hz _ => ?_, fun z hz n => ?_, fun z w hz _ _ => ?_⟩
      · cases hz
        have := g1 ((s.ring r).gen + 1) (Nat.lt_succ_self _)
        have hf : (s.ring r).fifo = [] := ((h.rings r).resting hr).1
        refine ⟨Nat.le_of_eq (by simpa using this), by simp [hf]⟩
      · cases hz; exact absurd rfl n
      · cases hz; exact ⟨by simp, fun _ => Nat.le_refl _⟩
    · exact h.staged q
  · rw [es]
    split
    · next e => subst e; exact (h.locks.nodup k).sublist hq
    · exact h.locks.nodup j
  · have old : r ≠ q ∧ q ∈ (s.slot j).lockQueue := by
      rw [es] at m
      split at m
      · next e =>
        subst e
        exact ⟨by rintro rfl; exact hn m, hq.subset m⟩
      · next e => exact ⟨by rintro rfl; exact hj j (Ne.symm e) m, m⟩
    rw [er, if_neg old.1]
    exact h.locks.waiting j q old.2
  · rw [es] at m n
    refine h.locks.once i j q ?_ ?_
    · split at m
      · next e => subst e; exact hq.subset m
      · exact m
    · split at n
      · next e => subst e; exact hq.subset n
      · exact n
  · rw [es] at m
    rw [er]
    split at m
    · next e =>
      subst e
      rw [hf] at m
      cases m
      rw [if_pos rfl]
      exact ⟨rfl, _, rfl, rfl⟩
    · have : r ≠ q := by
        rintro rfl
        exact h.unheld hr j m
      rw [if_neg this]
      exact h.locks.holding j q m
  · rw [es] at m ⊢
    split
    · next e => subst e; rw [hf]; simp
    · next e => rw [if_neg e] at m; exact h.locks.held j m

/-- An IDLE ring with no access in flight requests a lock (R118). -/
theorem State.requestLock_legal (h : s.TxLegal noRead) (r : RingId) (k : SlotId) (hr : (s.ring r).state = .idle)
    (ha : (s.ring r).access = none) : (s.requestLock r k).TxLegal noRead := by
  have hno : ∀ j, r ∉ (s.slot j).lockQueue := h.unqueued (by rw [hr]; simp)
  have hnh : ∀ j, (s.slot j).holder ≠ some r := h.unheld (by rw [hr]; simp)
  unfold State.requestLock
  split
  · next hc => exact State.grant_legal h r k _ (by rw [hr]; simp) ha rfl (List.Sublist.refl _) (hno k) fun j _ => hno j
  · next hc =>
    have er : ∀ q, (State.onRing (s.onSlot k fun x => { x with lockQueue := x.lockQueue ++ [r] }) r fun x =>
        { x with state := .waitSlot }).ring q = if r = q then { s.ring q with state := .waitSlot } else s.ring q :=
      fun q => State.onRing_ring _ _ _ _
    have es : ∀ j, (State.onRing (s.onSlot k fun x => { x with lockQueue := x.lockQueue ++ [r] }) r fun x =>
        { x with state := .waitSlot }).slot j = if k = j then { s.slot j with lockQueue := (s.slot j).lockQueue ++ [r] }
        else s.slot j := fun j => State.onSlot_slot _ _ _ _
    have hmem : ∀ j q, q ∈ ((State.onRing (s.onSlot k fun x => { x with lockQueue := x.lockQueue ++ [r] }) r fun x =>
        { x with state := .waitSlot }).slot j).lockQueue → (q = r ∧ j = k) ∨ (q ≠ r ∧ q ∈ (s.slot j).lockQueue) := by
      intro j q m
      rw [es] at m
      split at m
      · next e =>
        simp only [List.mem_append, List.mem_singleton] at m
        rcases m with m | m
        · exact .inr ⟨by rintro rfl; exact hno j m, m⟩
        · exact .inl ⟨m, e.symm⟩
      · exact .inr ⟨by rintro rfl; exact hno j m, m⟩
    refine ⟨fun q => ?_, fun q => ?_, fun j => ?_, fun j q m => ?_, fun i j q m n => ?_, fun j q m => ?_, fun j m => ?_⟩
    · rw [er]
      split
      · next e =>
        subst e
        obtain ⟨l1, l2, l3, l4, l5, l6⟩ := h.rings r
        exact ⟨l1, l2, l3, fun _ => l4 (by rw [hr]; simp), fun n => by simp only [ha] at n; simp at n, fun _ => ha⟩
      · exact h.rings q
    · rw [er]
      split
      · next e =>
        subst e
        obtain ⟨g1, g2, g3, g4⟩ := h.staged r
        exact ⟨g1, g2, g3, g4⟩
      · exact h.staged q
    · rw [es]
      split
      · refine List.nodup_append.2 ⟨h.locks.nodup j, by simp, ?_⟩
        intro a ha b hb
        rw [List.mem_singleton] at hb
        rintro rfl
        exact hno j (hb ▸ ha)
      · exact h.locks.nodup j
    · rw [er]
      rcases hmem j q m with ⟨rfl, -⟩ | ⟨n, m⟩
      · rw [if_pos rfl]
      · rw [if_neg (Ne.symm n)]; exact h.locks.waiting j q m
    · rcases hmem i q m with ⟨rfl, hi⟩ | ⟨a, m⟩
      · rcases hmem j q n with ⟨-, hj⟩ | ⟨b, -⟩
        · rw [hi, hj]
        · exact absurd rfl b
      · rcases hmem j q n with ⟨b, -⟩ | ⟨-, n⟩
        · exact absurd b a
        · exact h.locks.once i j q m n
    · have m' : (s.slot j).holder = some q := by
        rw [es] at m
        split at m <;> exact m
      rw [er, if_neg (by rintro rfl; exact hnh j m')]
      exact h.locks.holding j q m'
    · rw [es] at m ⊢
      split
      · next e =>
        subst e
        show (s.slot k).holder ≠ none
        by_cases hq : (s.slot k).lockQueue = []
        · exact fun n => hc ⟨n, hq⟩
        · exact h.locks.held k hq
      · next e => rw [if_neg e] at m; exact h.locks.held j m

/-- A SENDING ring releases its lock, to the next that waits if there is one (R118). It holds no lock then. -/
theorem State.releaseLock_legal (h : s.TxLegal noRead) (r : RingId) (hr : (s.ring r).state = .sending) :
    (s.releaseLock r).TxLegal noRead := by
  unfold State.releaseLock
  split
  · next m hm =>
    split
    · split
      · next hk hq =>
        have es : ∀ j, (s.onSlot m.slot fun x => { x with holder := none }).slot j
            = if m.slot = j then { s.slot j with holder := none } else s.slot j := fun j => State.onSlot_slot _ _ _ _
        refine ⟨h.rings, h.staged, fun j => ?_, fun j q n => ?_, fun i j q n o => ?_, fun j q n => ?_, fun j n => ?_⟩
        · rw [es]
          split <;> exact h.locks.nodup j
        · rw [es] at n
          split at n <;> exact h.locks.waiting j q n
        · rw [es] at n o
          refine h.locks.once i j q ?_ ?_
          · split at n <;> exact n
          · split at o <;> exact o
        · rw [es] at n
          split at n
          · cases n
          · exact h.locks.holding j q n
        · rw [es] at n ⊢
          split
          · next e => rw [if_pos e] at n; subst e; exact absurd hq n
          · next e => rw [if_neg e] at n; exact h.locks.held j n
      · next hk q rest hq =>
        have hwait := h.locks.waiting m.slot q (by rw [hq]; exact List.mem_cons_self)
        have hnd := h.locks.nodup m.slot
        rw [hq, List.nodup_cons] at hnd
        refine State.grant_legal h q m.slot _ (by rw [hwait]; simp) ((h.rings q).waiting hwait) rfl ?_ hnd.1 ?_
        · show List.Sublist rest _
          rw [hq]
          exact List.sublist_cons_self _ _
        · intro j hj n
          exact hj (h.locks.once j m.slot q n (by rw [hq]; exact List.mem_cons_self))
    · exact h
  · exact h

@[simp] theorem State.issueReads_slot (r : RingId) (k : SlotId) (n : Nat) : ∀ s : State, (s.issueReads r n).slot k = s.slot k := by
  induction n with
  | zero => exact fun _ => rfl
  | succ n ih =>
    intro s
    unfold State.issueReads
    repeat' split
    · rw [ih]; rfl
    all_goals rfl

theorem State.issueReads_ring_ne {r q : RingId} (hq : r ≠ q) (n : Nat) :
    ∀ s : State, (s.issueReads r n).ring q = s.ring q := by
  induction n with
  | zero => exact fun _ => rfl
  | succ n ih =>
    intro s
    unfold State.issueReads
    repeat' split
    · rw [ih]
      exact (State.onRing_ring _ _ _ _).trans (if_neg hq)
    all_goals rfl

/-- A ring that has released its lock is as it was and holds no lock. -/
theorem State.releaseLock_released (h : s.TxLegal noRead) (r : RingId) (hr : (s.ring r).state = .sending) :
    (s.releaseLock r).ring r = s.ring r ∧ ∀ k, ((s.releaseLock r).slot k).holder ≠ some r := by
  have only : ∀ k m, (s.ring r).msg = some m → (s.slot k).holder = some r → m.slot = k := by
    intro k m hm hk
    obtain ⟨-, m', h1, h2⟩ := h.locks.holding k r hk
    rw [hm] at h1
    cases h1
    exact h2
  unfold State.releaseLock
  split
  · next m hm =>
    split
    · next hk =>
      split
      · refine ⟨rfl, fun k n => ?_⟩
        rw [State.onSlot_slot] at n
        split at n
        · cases n
        · next e => exact e (only k m hm n)
      · next q rest hq =>
        have hne : q ≠ r := by
          rintro rfl
          have := h.locks.waiting m.slot q (by rw [hq]; exact List.mem_cons_self)
          rw [hr] at this
          cases this
        unfold State.startMessage
        refine ⟨?_, fun k n => ?_⟩
        · rw [State.issueReads_ring_ne hne]
          exact (State.onRing_ring _ _ _ _).trans (if_neg hne)
        · rw [State.issueReads_slot, State.onRing_slot, State.onSlot_slot] at n
          split at n
          · exact hne (by simpa using n)
          · next e => exact e (only k m hm n)
    · next hk =>
      refine ⟨rfl, fun k n => ?_⟩
      have := only k m hm n
      subst this
      exact hk n
  · next hm =>
    refine ⟨rfl, fun k n => ?_⟩
    obtain ⟨-, m', h1, -⟩ := h.locks.holding k r n
    rw [hm] at h1
    cases h1

/-- A ring that is not SENDING on, and waits for no lock, comes to rest. -/
theorem State.TxLegal.rest (h : s.TxLegal noRead) (r : RingId) (z : RingState) (hd : Nat → Nat → Nat)
    (hz : z = .idle ∨ z = .faulted) (hw : (s.ring r).state ≠ .waitSlot) (hh : ∀ k, (s.slot k).holder ≠ some r)
    (hp : ∀ size head, 0 < size → (0 < size → head < size) → hd size head < size) :
    (s.onRing r fun x => { x.rest z with head := hd x.size x.head }).TxLegal noRead := by
  obtain ⟨l1, l2, l3, l4, l5, l6⟩ := h.rings r
  obtain ⟨g1, -, -, -⟩ := h.staged r
  have hs : z ≠ .waitSlot ∧ z ≠ .sending := by rcases hz with rfl | rfl <;> simp
  refine h.onRing r _ ⟨l1, fun n => hp _ _ n l2, Nat.zero_le _, fun _ => ⟨rfl, rfl⟩, fun n => ?_, fun n => absurd n hs.1⟩
    ⟨g1, fun _ n => ?_, fun _ n => ?_, fun _ _ n => ?_⟩ (.inr (h.unqueued hw)) fun k m n => absurd n (hh k)
  · simp [TxRing.rest] at n
  all_goals cases n

theorem State.ringRests_eq (s : State) (r : RingId) (z : RingState) :
    s.ringRests r z = (if (s.ring r).state = .sending then s.releaseLock r else s).onRing r fun x =>
      { x.rest z with head := x.head } := rfl

/-- The ring of an access in flight gives up its lock and comes to rest (R116, R125). -/
theorem State.ringRests_legal (h : s.TxLegal noRead) (r : RingId) (z : RingState) (hz : z = .idle ∨ z = .faulted)
    (hw : (s.ring r).state ≠ .waitSlot) : (s.ringRests r z).TxLegal noRead := by
  rw [State.ringRests_eq]
  split
  · next hs =>
    obtain ⟨h1, h2⟩ := State.releaseLock_released h r hs
    exact (State.releaseLock_legal h r hs).rest r z (fun _ head => head) hz (by rw [h1]; exact hw) h2 fun _ _ a b => b a
  · next hs => exact h.rest r z (fun _ head => head) hz hw (h.unheld hs) fun _ _ a b => b a

theorem State.TxLegal.active (h : s.TxLegal x) {r : RingId} {a : TxAccess} (ha : (s.ring r).access = some a) :
    (s.ring r).state ≠ .waitSlot := fun e => by rw [(h.rings r).waiting e] at ha; cases ha

theorem State.ringFault_legal (h : s.TxLegal noRead) (r : RingId) (hw : (s.ring r).state ≠ .waitSlot) (detail : Nat)
    (a : Answer) : (s.ringFault r detail a).TxLegal noRead :=
  (State.ringRests_legal h r .faulted (.inr rfl) hw).aside (State.aside_raise (.refl _) _ _ _ _)

/-- A ring's head moves on by one descriptor. -/
theorem State.TxLegal.advance (h : s.TxLegal noRead) (r : RingId) :
    (s.onRing r fun x => { x with head := ringPos x.size x.head 1 }).TxLegal noRead := by
  obtain ⟨l1, l2, l3, l4, l5, l6⟩ := h.rings r
  obtain ⟨g1, g2, g3, g4⟩ := h.staged r
  refine h.onRing r _ ⟨l1, fun n => Nat.mod_lt _ n, l3, l4, l5, l6⟩ ⟨g1, g2, g3, g4⟩ ?_ fun k m _ h2 h3 => ⟨h3, m, h2, rfl⟩
  by_cases hs : (s.ring r).state = .waitSlot
  · exact .inl hs
  · exact .inr (h.unqueued hs)

theorem State.writeBackDone_legal (h : s.TxLegal noRead) (r : RingId) (hw : (s.ring r).state ≠ .waitSlot) :
    (s.writeBackDone r).TxLegal noRead := by
  have h1 := (State.ringRests_legal h r .idle (.inl rfl) hw).advance r
  unfold State.writeBackDone
  dsimp only
  refine State.TxLegal.poll ?_ r
  split
  · exact h1.aside (State.aside_assertLint (.refl _))
  · exact h1

/-- The descriptor that an IDLE ring has read is acted on (R114, R115, R118). -/
theorem State.validated_legal (h : s.TxLegal noRead) (r : RingId) (d : TxDesc) (hr : (s.ring r).state = .idle)
    (ha : (s.ring r).access = none) : (s.validated r d).TxLegal noRead := by
  have hm := ((h.rings r).resting (by rw [hr]; simp)).2
  have h1 : (s.onRing r fun x => { x with desc := some d }).TxLegal noRead := by
    obtain ⟨l1, l2, l3, l4, l5, l6⟩ := h.rings r
    obtain ⟨g1, g2, g3, g4⟩ := h.staged r
    refine h.onRing r _ ⟨l1, l2, l3, l4, l5, l6⟩ ⟨g1, g2, g3, fun m _ n => ?_⟩ (.inr (h.unqueued (by rw [hr]; simp)))
      fun k m _ h2 h3 => ⟨h3, m, h2, rfl⟩
    rw [hm] at n
    cases n
  have e : (s.onRing r fun x => { x with desc := some d }).ring r = { s.ring r with desc := some d } :=
    State.onRing_ring_self _ _ _
  unfold State.validated
  dsimp only
  split
  · exact h1.beginWriteBack r _ _ (by rw [e]; simp [hr])
  · exact State.requestLock_legal h1 r _ (by rw [e]; exact hr) (by rw [e]; exact ha)

theorem State.descriptorAnswered_legal (h : s.TxLegal noRead) (r : RingId) (a : Answer) (bytes : List Byte) :
    (s.descriptorAnswered r a bytes).TxLegal noRead := by
  have desc : ∀ (z : Option TxDesc) (b : Option TxAccess), (s.ring r).state = .idle → b = none ∨ b = some .addrRead →
      (s.onRing r fun x => { x with desc := z, access := b }).TxLegal noRead := by
    intro z b hi hb
    have hm := ((h.rings r).resting (by rw [hi]; simp)).2
    obtain ⟨l1, l2, l3, l4, l5, l6⟩ := h.rings r
    obtain ⟨g1, g2, g3, g4⟩ := h.staged r
    refine h.onRing r _ ⟨l1, l2, l3, l4, fun _ => hi, fun n => ?_⟩ ⟨g1, g2, g3, fun m _ n => ?_⟩
      (.inr (h.unqueued (by rw [hi]; simp))) fun k m _ h2 h3 => ⟨h3, m, h2, rfl⟩
    · simp only [hi] at n
      cases n
    · rw [hm] at n
      cases n
  unfold State.descriptorAnswered
  split
  · next ha =>
    have hi := (h.rings r).reading (.inl ha)
    split
    · exact State.ringFault_legal h r (h.active ha) _ _
    · split
      · exact State.TxLegal.requestRead (desc _ _ hi (.inr rfl)) _ _ _ _ fun _ _ => nofun
      · exact h.setTxAccess r none (by simp) fun _ => rfl
  · next ha =>
    have hi := (h.rings r).reading (.inr ha)
    have h0 := h.setTxAccess r none (by simp) fun _ => rfl
    have e : (s.setTxAccess r none).ring r = { s.ring r with access := none } := State.onRing_ring_self _ _ _
    split
    · exact State.ringFault_legal h r (h.active ha) _ _
    · split
      · split
        · exact State.validated_legal h0 r _ (by rw [e]; exact hi) (by rw [e])
        · exact desc none none hi (.inl rfl)
      · exact h0
  · next ha =>
    split
    · exact State.ringFault_legal h r (h.active ha) _ _
    · refine State.TxLegal.requestWrite ?_ _ _ _ _ fun _ _ => nofun
      exact h.setTxAccess r _ (by simp) fun e => absurd e (h.active ha)
  · next ha =>
    split
    · exact State.ringFault_legal h r (h.active ha) _ _
    · exact State.writeBackDone_legal h r (h.active ha)
  · exact h

/-- A cell of ring r has left (R120, R122, R123). -/
theorem State.departed_legal (h : s.TxLegal noRead) (r : RingId) (cell : Cell) : (s.departed r cell).TxLegal noRead := by
  unfold State.departed
  split
  · next m hm =>
    have hs := h.sending hm
    have h1 : (s.onRing r fun x => { x with msg := some { m with sent := m.sent + 1 } }).TxLegal noRead := by
      obtain ⟨l1, l2, l3, l4, l5, l6⟩ := h.rings r
      obtain ⟨g1, g2, g3, g4⟩ := h.staged r
      refine h.onRing r _ ⟨l1, l2, l3, fun n => absurd hs n, l5, l6⟩
        ⟨g1, fun z hz n => ?_, fun z hz n => ?_, fun z w hz hw n => ?_⟩ (.inr (h.unqueued (by rw [hs]; simp))) fun k z _ hz _ => ?_
      · cases hz; exact g2 m hm n
      · cases hz; exact g3 m hm n
      · cases hz; exact g4 m w hm hw n
      · rw [hm] at hz
        cases hz
        exact ⟨hs, _, rfl, rfl⟩
    dsimp only
    split
    · refine h1.beginWriteBack r _ _ ?_
      rw [show State.ring (State.onRing s r _) r = _ from State.onRing_ring_self _ _ _]
      simp [hs]
    · exact State.TxLegal.issueReads r 4 _ (State.stageTrailer_legal h1 r)
  · exact h

/-- The first staged cell of a ring leaves its FIFO (R132). -/
theorem State.TxLegal.unstage (h : s.TxLegal noRead) (r : RingId) (l : List Cell) (hl : l.length ≤ (s.ring r).fifo.length) :
    (s.onRing r fun x => { x with fifo := l }).TxLegal noRead := by
  obtain ⟨l1, l2, l3, l4, l5, l6⟩ := h.rings r
  obtain ⟨g1, g2, g3, g4⟩ := h.staged r
  refine h.onRing r _ ⟨l1, l2, Nat.le_trans hl l3, fun n => ⟨?_, (l4 n).2⟩, l5, l6⟩
    ⟨g1, fun m hm he => ⟨(g2 m hm he).1, ?_⟩, g3, g4⟩ ?_ fun k m _ h2 h3 => ⟨h3, m, h2, rfl⟩
  · rw [(l4 n).1] at hl
    exact List.length_eq_zero_iff.1 (Nat.le_zero.1 hl)
  · have := (g2 m hm he).2
    show l.length + _ ≤ 4
    omega
  · by_cases hs : (s.ring r).state = .waitSlot
    · exact .inl hs
    · exact .inr (h.unqueued hs)

theorem State.placeStaged_legal (h : s.TxLegal noRead) (r : RingId) (run : Nat) : (s.placeStaged r run).TxLegal noRead := by
  unfold State.placeStaged
  split
  · exact h
  · next cell rest hf =>
    refine State.departed_legal ?_ r cell
    refine State.TxLegal.same (s := (s.onIa _).onRing r fun x => { x with fifo := rest }) ?_ ⟨rfl, rfl⟩ rfl
    have h0 : (s.onIa fun ia => { ia with pointer := r, runCount := run }).TxLegal noRead := h.same ⟨rfl, rfl⟩ rfl
    refine h0.unstage r rest ?_
    show rest.length ≤ (s.ring r).fifo.length
    rw [hf]
    exact Nat.le_succ _

/-! ### Slots disabled, stops and resets -/

/-- A ring that waits for no lock and sends nothing is written back SLOTOFF (R127). -/
theorem State.slotOff_legal (h : s.TxLegal noRead) (r : RingId) (hs : (s.ring r).state ≠ .sending)
    (hq : ∀ k, r ∉ (s.slot k).lockQueue) : (s.slotOff r).TxLegal noRead := by
  obtain ⟨l1, l2, l3, l4, l5, l6⟩ := h.rings r
  obtain ⟨g1, g2, g3, g4⟩ := h.staged r
  have h1 : (s.onRing r fun x => { x with state := .idle }).TxLegal noRead :=
    h.onRing r _ ⟨l1, l2, l3, fun _ => l4 hs, fun _ => rfl, fun n => by cases n⟩ ⟨g1, g2, g3, g4⟩ (.inr hq)
      fun k m _ _ n => absurd n hs
  unfold State.slotOff
  refine h1.beginWriteBack r _ _ ?_
  rw [show State.ring (State.onRing s r _) r = _ from State.onRing_ring_self _ _ _]
  simp

theorem State.slotOff_ring (s : State) (r q : RingId) (hs : (s.ring q).state ≠ .sending) :
    ((s.slotOff r).ring q).state ≠ .sending := by
  have : ∀ x : TxRing, (({ x with state := .idle, access := x.access } : TxRing)).state ≠ .sending := by simp
  show ((State.onRing (State.onRing s r _) r _).ring q).state ≠ .sending
  rw [State.onRing_ring, State.onRing_ring]
  split
  · simp
  · exact hs

theorem State.slotOffs_legal (l : List RingId) : ∀ s : State, s.TxLegal noRead →
    (∀ r ∈ l, (s.ring r).state ≠ .sending ∧ ∀ k, r ∉ (s.slot k).lockQueue) → (l.foldl State.slotOff s).TxLegal noRead := by
  induction l with
  | nil => exact fun _ h _ => h
  | cons r l ih =>
    intro s h hl
    have hr := hl r List.mem_cons_self
    refine ih _ (State.slotOff_legal h r hr.1 hr.2) fun q hq => ?_
    have hq := hl q (List.mem_cons_of_mem _ hq)
    exact ⟨State.slotOff_ring s r q hq.1, hq.2⟩

/-- An empty lock queue is legal whatever the queue was. -/
theorem State.TxLegal.emptyQueue (h : s.TxLegal noRead) (k : SlotId) :
    (s.onSlot k fun x => { x with lockQueue := [] }).TxLegal noRead := by
  have es : ∀ j, (s.onSlot k fun x => { x with lockQueue := [] }).slot j
      = if k = j then { s.slot j with lockQueue := [] } else s.slot j := fun j => State.onSlot_slot _ _ _ _
  have sub : ∀ j, ((s.onSlot k fun x => { x with lockQueue := [] }).slot j).lockQueue.Sublist (s.slot j).lockQueue := by
    intro j
    rw [es]
    split
    · exact List.nil_sublist _
    · exact List.Sublist.refl _
  have hold : ∀ j, ((s.onSlot k fun x => { x with lockQueue := [] }).slot j).holder = (s.slot j).holder := by
    intro j
    rw [es]
    split <;> rfl
  refine ⟨h.rings, h.staged, fun j => (h.locks.nodup j).sublist (sub j), fun j q m => h.locks.waiting j q ((sub j).subset m),
    fun i j q m n => h.locks.once i j q ((sub i).subset m) ((sub j).subset n), fun j q m => ?_, fun j m => ?_⟩
  · rw [hold] at m; exact h.locks.holding j q m
  · rw [hold]
    refine h.locks.held j fun n => m ?_
    have := sub j
    rw [n] at this
    exact List.sublist_nil.1 this

theorem State.disableSlot_legal (h : s.TxLegal noRead) (k : SlotId) : (s.disableSlot k).TxLegal noRead := by
  have h1 : (((s.slot k).lockQueue).foldl State.slotOff (s.onSlot k fun x => { x with lockQueue := [] })).TxLegal noRead := by
    refine State.slotOffs_legal _ _ (h.emptyQueue k) fun r hr => ⟨?_, fun j n => ?_⟩
    · rw [State.onSlot_ring, h.locks.waiting k r hr]; simp
    · rw [State.onSlot_slot] at n
      split at n
      · simp at n
      · next e => exact e (h.locks.once k j r hr n)
  unfold State.disableSlot
  dsimp only
  split
  · exact State.endEarly_legal h1 _ _
  · exact h1

theorem State.leaveLockQueues_ring (s : State) (r : RingId) : s.leaveLockQueues.ring r
    = if (s.ring r).state = .waitSlot then { s.ring r with state := .idle, desc := none } else s.ring r := by
  simp only [State.ring, State.leaveLockQueues, State.onSu_su, tget_map]
  by_cases h : (tget s.su.rings r).state = .waitSlot <;> simp [h]

theorem State.leaveLockQueues_slot (s : State) (k : SlotId) :
    s.leaveLockQueues.slot k = { s.slot k with lockQueue := [] } := by
  simp only [State.slot, State.leaveLockQueues, State.onSu_su, tget_map]

theorem State.leaveLockQueues_legal (h : s.TxLegal noRead) : s.leaveLockQueues.TxLegal noRead := by
  refine ⟨fun r => ?_, fun r => ?_, fun k => ?_, fun k r m => ?_, fun j k r m => ?_, fun k r m => ?_, fun k m => ?_⟩
  · rw [State.leaveLockQueues_ring]
    split
    · next hw =>
      obtain ⟨l1, l2, l3, l4, l5, l6⟩ := h.rings r
      exact ⟨l1, l2, l3, fun _ => l4 (by rw [hw]; simp), fun _ => rfl, fun n => by cases n⟩
    · exact h.rings r
  · rw [State.leaveLockQueues_ring]
    split
    · next hw =>
      obtain ⟨g1, g2, g3, g4⟩ := h.staged r
      exact ⟨g1, g2, g3, fun _ _ _ n => by cases n⟩
    · exact h.staged r
  · rw [State.leaveLockQueues_slot]; exact List.nodup_nil
  · rw [State.leaveLockQueues_slot] at m; cases m
  · rw [State.leaveLockQueues_slot] at m; cases m
  · rw [State.leaveLockQueues_slot] at m
    obtain ⟨h1, h2⟩ := h.locks.holding k r m
    rw [State.leaveLockQueues_ring, if_neg (by rw [h1]; simp)]
    exact ⟨h1, h2⟩
  · rw [State.leaveLockQueues_slot] at m; exact absurd rfl m

/-- What the port drops in RESET_WAIT only takes reads away (R130, R151). -/
theorem State.enterResetWait_legal (h : s.TxLegal noRead) : s.enterResetWait.TxLegal noRead := by
  have hr : ∀ r, s.enterResetWait.ring r = { s.ring r with fifo := [] } := fun r => by
    simp only [State.ring, State.enterResetWait, State.onSu_su, tget_map]
    rfl
  have hn : ∀ r g, s.enterResetWait.lmp.bodyReads r g ≤ s.lmp.bodyReads r g := fun r g => by
    show List.countP _ ([] ++ [] ++ [] ++ [] ++ [] ++ [] ++ _) ≤ List.countP _ (_ ++ _)
    rw [List.countP_append (l₁ := s.lmp.ctx ++ s.lmp.dlv ++ s.lmp.seg ++ s.lmp.evt ++ s.lmp.agt ++ s.lmp.offered.toList)]
    exact Nat.le_add_left _ _
  refine ⟨fun r => ?_, fun r => ?_, h.locks.nodup, fun k r m => ?_, h.locks.once, fun k r m => ?_, h.locks.held⟩
  · rw [hr]
    obtain ⟨l1, l2, l3, l4, l5, l6⟩ := h.rings r
    exact ⟨l1, l2, Nat.zero_le _, fun n => ⟨rfl, (l4 n).2⟩, l5, l6⟩
  · rw [hr]
    obtain ⟨g1, g2, g3, g4⟩ := (h.staged r).mono fun g => Nat.add_le_add_right (hn r g) 0
    refine ⟨g1, fun m hm he => ⟨(g2 m hm he).1, ?_⟩, g3, g4⟩
    have := (g2 m hm he).2
    simp only [List.length_nil]
    omega
  · rw [hr]; exact h.locks.waiting k r m
  · rw [hr]; exact h.locks.holding k r m

/-- A ring that rests is configured anew, and keeps its message number (R128). -/
theorem State.TxLegal.configure (h : s.TxLegal noRead) (r : RingId) (f : TxRing → TxRing) (hl : (f (s.ring r)).Legal)
    (hg : (f (s.ring r)).gen = (s.ring r).gen) (hm : (f (s.ring r)).msg = none)
    (hw : (s.ring r).state ≠ .waitSlot) (hs : (s.ring r).state ≠ .sending) : (s.onRing r f).TxLegal noRead := by
  refine h.onRing r f hl ⟨fun g n => (h.staged r).none_to_come g (hg ▸ n), fun m n => ?_, fun m n => ?_, fun m _ n => ?_⟩
    (.inr (h.unqueued hw)) fun k m _ _ n => absurd n hs
  all_goals (rw [hm] at n; cases n)

/-- The answer of a request is acted on (R144, R147): a body read's is counted until then. -/
theorem State.give_legal (tag : RequestTag) (h : s.TxLegal tag.read) (a : Answer) (bytes : List Byte) :
    (s.give tag a bytes).TxLegal noRead := by
  have h0 := h.forget
  unfold State.give
  split
  · exact h0
  · split
    · exact h0.aside (State.receives_fillAnswered (.refl _) _ _ _ _).toAside
    · exact h0.aside (State.receives_writeBackAnswered (.refl _) _ _ _).toAside
    · exact h0.aside (State.receives_syncAnswered (.refl _) _ _ _).toAside
    · exact h0.aside (State.receives_poolAnswered (.refl _) _ _ _).toAside
    · exact h0.aside (State.receives_payloadAnswered (.refl _) _ _ _).toAside
    · exact State.descriptorAnswered_legal h0 _ _ _
    · exact State.bodyAnswered_legal _ _ h _ _
    · exact h0.aside (State.receives_eventAnswered (.refl _) _ _).toAside
    · exact h0.aside (State.receives_ctxReadAnswered (.refl _) _ _).toAside

end Updates

/-! ## The transmit side leaves the engine and the cache alone -/

/-- From o to s the channels and the cache are as they were. -/
structure State.Beside (o s : State) : Prop where
  re : s.re = o.re
  xc : s.xc = o.xc

theorem State.Beside.refl (s : State) : s.Beside s := ⟨rfl, rfl⟩

theorem State.Beside.trans {a b c : State} (h : a.Beside b) (k : b.Beside c) : a.Beside c :=
  ⟨k.re.trans h.re, k.xc.trans h.xc⟩

theorem State.Beside.agree {o s : State} (h : o.Beside s) (g : o.EntriesAgree) : s.EntriesAgree := by
  have hc : ∀ c, s.chan c = o.chan c := fun c => by unfold State.chan; rw [h.re]
  have he : ∀ e, s.entry e = o.entry e := fun e => by unfold State.entry; rw [h.xc]
  obtain ⟨g1, g2, g3, g4, g5⟩ := g
  refine ⟨?_, ?_, ?_, ?_, ?_⟩ <;> simp only [hc, he, h.xc]
  all_goals assumption

section Beside

variable {o s : State}

theorem State.beside_same {t : State} (h : o.Beside s) (hr : t.re = s.re) (hx : t.xc = s.xc) : o.Beside t :=
  ⟨hr.trans h.re, hx.trans h.xc⟩

theorem State.beside_onRing (h : o.Beside s) (r : RingId) (f : TxRing → TxRing) : o.Beside (s.onRing r f) :=
  State.beside_same h rfl rfl

theorem State.beside_onSlot (h : o.Beside s) (k : SlotId) (f : SendSlot → SendSlot) : o.Beside (s.onSlot k f) :=
  State.beside_same h rfl rfl

theorem State.beside_requestRead (h : o.Beside s) (q : Requester) (addr : Word) (n : Nat) (t : RequestTag) :
    o.Beside (s.requestRead q addr n t) := State.beside_same h rfl rfl

theorem State.beside_requestWrite (h : o.Beside s) (q : Requester) (addr : Word) (d : List Byte) (t : RequestTag) :
    o.Beside (s.requestWrite q addr d t) := State.beside_same h rfl rfl

theorem State.beside_raise (h : o.Beside s) (k : EventKind) (x d : Nat) (w : Word) : o.Beside (s.raise k x d w) := by
  unfold State.raise
  repeat' split
  all_goals exact State.beside_same h rfl rfl

theorem State.beside_assertLint (h : o.Beside s) : o.Beside s.assertLint := State.beside_same h rfl rfl

theorem State.beside_issueReads (r : RingId) (n : Nat) : ∀ s : State, o.Beside s → o.Beside (s.issueReads r n) := by
  induction n with
  | zero => exact fun _ h => h
  | succ n ih =>
    intro s h
    unfold State.issueReads
    repeat' split
    · exact ih _ (State.beside_same h rfl rfl)
    all_goals exact h

theorem State.beside_setTxAccess (h : o.Beside s) (r : RingId) (x : Option TxAccess) : o.Beside (s.setTxAccess r x) := by
  unfold State.setTxAccess
  repeat' first | exact h | with_reducible apply State.beside_onRing | split | rfl | dsimp only

theorem State.beside_beginWriteBack (h : o.Beside s) (r : RingId) (status : TxStatus) (cells : Nat) : o.Beside (s.beginWriteBack r status cells) := by
  unfold State.beginWriteBack
  repeat' first | exact h | with_reducible apply State.beside_requestWrite | with_reducible apply State.beside_setTxAccess | split | rfl | dsimp only

theorem State.beside_poll (h : o.Beside s) (r : RingId) : o.Beside (s.poll r) := by
  unfold State.poll
  repeat' first | exact h | with_reducible apply State.beside_requestRead | with_reducible apply State.beside_setTxAccess | split | rfl | dsimp only

theorem State.beside_stageData (h : o.Beside s) (r : RingId) (k : SlotId) (position : Position) (bytes : List Byte) : o.Beside (s.stageData r k position bytes) := by
  unfold State.stageData
  repeat' first | exact h | with_reducible apply State.beside_onRing | with_reducible apply State.beside_onSlot | split | rfl | dsimp only

theorem State.beside_stageTrailer (h : o.Beside s) (r : RingId) : o.Beside (s.stageTrailer r) := by
  unfold State.stageTrailer
  repeat' first | exact h | with_reducible apply State.beside_onRing | with_reducible apply State.beside_stageData | split | rfl | dsimp only

theorem State.beside_buildCell (h : o.Beside s) (r : RingId) (m : TxMsg) (d : TxDesc) (bytes : List Byte) : o.Beside (s.buildCell r m d bytes) := by
  unfold State.buildCell
  repeat' first | exact h | with_reducible apply State.beside_onRing | with_reducible apply State.beside_stageData | split | rfl | dsimp only

theorem State.beside_endEarly (h : o.Beside s) (r : RingId) (status : TxStatus) : o.Beside (s.endEarly r status) := by
  unfold State.endEarly
  repeat' first | exact h | with_reducible apply State.beside_onRing | with_reducible apply State.beside_onSlot | with_reducible apply State.beside_beginWriteBack | with_reducible apply State.beside_stageData | split | rfl | dsimp only

theorem State.beside_bodyAnswered (h : o.Beside s) (r : RingId) (gen : Nat) (x : Answer) (bytes : List Byte) : o.Beside (s.bodyAnswered r gen x bytes) := by
  unfold State.bodyAnswered
  repeat' first | exact h | with_reducible apply State.beside_issueReads | with_reducible apply State.beside_stageTrailer | with_reducible apply State.beside_buildCell | with_reducible apply State.beside_endEarly | split | rfl | dsimp only

theorem State.beside_startMessage (h : o.Beside s) (r : RingId) (k : SlotId) : o.Beside (s.startMessage r k) := by
  unfold State.startMessage
  repeat' first | exact h | with_reducible apply State.beside_onRing | with_reducible apply State.beside_issueReads | split | rfl | dsimp only

theorem State.beside_requestLock (h : o.Beside s) (r : RingId) (k : SlotId) : o.Beside (s.requestLock r k) := by
  unfold State.requestLock
  repeat' first | exact h | with_reducible apply State.beside_onRing | with_reducible apply State.beside_onSlot | with_reducible apply State.beside_startMessage | split | rfl | dsimp only

theorem State.beside_releaseLock (h : o.Beside s) (r : RingId) : o.Beside (s.releaseLock r) := by
  unfold State.releaseLock
  repeat' first | exact h | with_reducible apply State.beside_onSlot | with_reducible apply State.beside_startMessage | split | rfl | dsimp only

theorem State.beside_validated (h : o.Beside s) (r : RingId) (d : TxDesc) : o.Beside (s.validated r d) := by
  unfold State.validated
  repeat' first | exact h | with_reducible apply State.beside_onRing | with_reducible apply State.beside_beginWriteBack | with_reducible apply State.beside_requestLock | split | rfl | dsimp only

theorem State.beside_ringRests (h : o.Beside s) (r : RingId) (state : RingState) : o.Beside (s.ringRests r state) := by
  unfold State.ringRests
  repeat' first | exact h | with_reducible apply State.beside_onRing | with_reducible apply State.beside_releaseLock | split | rfl | dsimp only

theorem State.beside_ringFault (h : o.Beside s) (r : RingId) (detail : Nat) (x : Answer) : o.Beside (s.ringFault r detail x) := by
  unfold State.ringFault
  repeat' first | exact h | with_reducible apply State.beside_raise | with_reducible apply State.beside_ringRests | split | rfl | dsimp only

theorem State.beside_writeBackDone (h : o.Beside s) (r : RingId) : o.Beside (s.writeBackDone r) := by
  unfold State.writeBackDone
  repeat' first | exact h | with_reducible apply State.beside_onRing | with_reducible apply State.beside_assertLint | with_reducible apply State.beside_poll | with_reducible apply State.beside_ringRests | split | rfl | dsimp only

theorem State.beside_descriptorAnswered (h : o.Beside s) (r : RingId) (x : Answer) (bytes : List Byte) : o.Beside (s.descriptorAnswered r x bytes) := by
  unfold State.descriptorAnswered
  repeat' first | exact h | with_reducible apply State.beside_onRing | with_reducible apply State.beside_requestRead | with_reducible apply State.beside_requestWrite | with_reducible apply State.beside_setTxAccess | with_reducible apply State.beside_validated | with_reducible apply State.beside_ringFault | with_reducible apply State.beside_writeBackDone | split | rfl | dsimp only

theorem State.beside_departed (h : o.Beside s) (r : RingId) (cell : Cell) : o.Beside (s.departed r cell) := by
  unfold State.departed
  repeat' first | exact h | with_reducible apply State.beside_onRing | with_reducible apply State.beside_beginWriteBack | with_reducible apply State.beside_issueReads | with_reducible apply State.beside_stageTrailer | split | rfl | dsimp only

theorem State.beside_slotOff (h : o.Beside s) (r : RingId) : o.Beside (s.slotOff r) := by
  unfold State.slotOff
  repeat' first | exact h | with_reducible apply State.beside_onRing | with_reducible apply State.beside_beginWriteBack | split | rfl | dsimp only

theorem State.beside_foldl {β : Type} (f : State → β → State) (hf : ∀ s b, o.Beside s → o.Beside (f s b)) (l : List β) :
    ∀ s, o.Beside s → o.Beside (l.foldl f s) := by
  induction l with
  | nil => exact fun _ h => h
  | cons b l ih => exact fun s h => ih _ (hf s b h)

theorem State.beside_pollAll (h : o.Beside s) : o.Beside s.pollAll :=
  State.beside_foldl _ (fun s r hs => State.beside_poll hs r) _ _ h

theorem State.beside_disableSlot (h : o.Beside s) (k : SlotId) : o.Beside (s.disableSlot k) := by
  have h1 : o.Beside (((s.slot k).lockQueue).foldl State.slotOff (s.onSlot k fun x => { x with lockQueue := [] })) :=
    State.beside_foldl _ (fun s r hs => State.beside_slotOff hs r) _ _ (State.beside_onSlot h _ _)
  unfold State.disableSlot
  dsimp only
  split
  · exact State.beside_endEarly h1 _ _
  · exact h1

/-- The answer of a request keeps the agreement of the residences with the entries. -/
theorem State.give_agree (g : s.EntriesAgree) (tag : RequestTag) (a : Answer) (bytes : List Byte) :
    (s.give tag a bytes).EntriesAgree := by
  unfold State.give
  split
  · exact g
  · split
    · exact (State.receives_fillAnswered (.refl _) _ _ _ _).agree g
    · exact (State.receives_writeBackAnswered (.refl _) _ _ _).agree g
    · exact (State.receives_syncAnswered (.refl _) _ _ _).agree g
    · exact (State.receives_poolAnswered (.refl _) _ _ _).agree g
    · exact (State.receives_payloadAnswered (.refl _) _ _ _).agree g
    · exact (State.beside_descriptorAnswered (.refl _) _ _ _).agree g
    · exact (State.beside_bodyAnswered (.refl _) _ _ _ _).agree g
    · exact (State.receives_eventAnswered (.refl _) _ _).agree g
    · exact (State.receives_ctxReadAnswered (.refl _) _ _).agree g

end Beside

end Sys2Proof.Machine
end

