-- ==== Sys2Proof/WellFormed.lean ====
section
/-! DEFINITION. Which commands are well formed: what R140 says of a bus response. Every other operand is in range by its type. -/

namespace Sys2Proof

/-- A response carries at most the 128 bytes of the longest request, and data only with the result OK (R140). -/
def BusResult.dataFits (r : BusResult) (data : List Byte) : Bool :=
  data.length ≤ 128 && (r == .ok || data.isEmpty)

/-- Well-formedness of a command. -/
def Instr.wellFormed : Instr → Bool
  | .memoryResponse r data => r.dataFits data
  | .resetAsserted | .resetReleased _ | .tick | .deadlineReached _ | .intervalPoll | .requestTimeout | .attnEdge
  | .huntTrial _ | .presyncCell _ | .syncCell _ | .outboundPosition | .applyCell | .applyPendingAbort _
  | .reserve _ | .take _ | .completionWrite _ | .requestGrant | .busAccept | .channelUnbound _ | .eventServe
  | .commandTake | .responseHandover | .ident | .claim | .release | .manager | .setLocalMap | .setPool | .setTxring
  | .setSend | .setEvents | .setNode | .writeCircuit | .readCircuit | .bindChannel | .unbindChannel | .readChannel
  | .readContext | .syncContexts | .start | .stop | .stopDrainComplete | .nodeReset | .nodeResetTakesEffect
  | .readCounters => true

end Sys2Proof
end

