-- ==== Sys2Proof/Tests/Slice0.lean ====
section
/-! SUPPORT. Tests: well-formedness, worked values of the chapters, one or two steps of each command, and for each statement a state that meets its hypotheses. -/

namespace Sys2Proof.Tests

set_option Elab.async false

open Sys2Proof.Machine

/-! ## States to test with -/

/-- The next state of an outcome. -/
def nextOf : Host.Outcome State Fault Refusal → State
  | .next t => t
  | .fault _ => State.reset
  | .refused _ => State.reset

/-- The state after a command. -/
def run (c : Instr) (s : State) : State := nextOf (exec c s)

/-- Node 5, RUNNING, its local map set and its event ring ON. -/
def node : State :=
  { State.reset with
    ma := { nodeId := 5, nodeState := .running, nodeTime := 100 }
    xc := { storeBase := 0x10000 }
    ew := { state := .on, base := 0x2000, size := 16 } }

/-- Node 5 in SYNC, at the boundary between two cells. -/
def synced : State := { node with cf := { delineation := .sync, alignment := some 0, goodRun := 8 } }

/-- Pool 0 ACTIVE with 8 free descriptors at 0x3000 and 8 completion slots at 0x4000. -/
def pooled : State :=
  node.onPool 0 fun x => { x with
    state := .active, freeBase := 0x3000, freeSize := 8, complBase := 0x4000, complSize := 8, bufSize := 512 }

/-- Channel 7 BOUND to pool 0, its clean context x in cache entry 0. -/
def cached (x : Context) : State :=
  { pooled with xc := { pooled.xc with
      entries := tset pooled.xc.entries 0 (.valid { channel := 7, ctx := x, dirty := false, newlyFilled := false })
      recency := [0] } }.onChan 7 fun ch => { ch with
        binding := .bound, maxBody := 100, limit := 50, residence := .cached 0 }

/-- A context in ASSEMBLING with one buffer, expecting seq 3. -/
def opened : Context :=
  { state := .assembling, expectedSeq := 3, buffers := [{ cookie := 9, used := 40, addr := 0x8000 }], bytesSoFar := 40
    offset := 40 }

/-- The same channel with a message open. -/
def assembling : State :=
  (cached opened).onChan 7 fun ch => { ch with msgOpen := true, deadline := 150 }

/-- A DATA cell of this position, seq and number of bytes, for node 5 with label 2. -/
def data (position : Position) (seq : BitVec 4) (n : Nat) : Cell :=
  Cell.build .data position seq 5 9 2 4 (List.replicate n 0xAB)

/-- The state with one held cell of channel 7. -/
def holding (s : State) (c : Cell) : State := s.onRe fun re => { re with hold := [{ channel := 7, cell := c }] }

/-- A command cell from node 9 to node 5 with tag 1234H. -/
def command (code : Byte) (args : List Byte) : Cell :=
  Cell.build .mgmtCmd .only 0 5 9 0 4 ([0x12, 0x34, code] ++ args)

/-- The agent WORKING on a command that its owner has not taken. -/
def hand (s : State) (code : Byte) (args : List Byte) : State := s.agentTo (.working (command code args) false)

/-- The payload of the response that the agent holds. -/
def reply (s : State) : List Byte :=
  match s.ma.state with
  | .answering r => r.payload
  | .ready => []
  | .working _ _ => []
  | .resetSent => []
  | .resetWait => []

/-- The status of the response that the agent holds. -/
def status (s : State) : Byte := byteAt (reply s) 3

/-! ## Well-formedness (R140) -/

theorem test_error_with_data_is_ill_formed : (Instr.memoryResponse .error [0]).wellFormed = false := by decide

theorem test_long_data_is_ill_formed : (Instr.memoryResponse .ok (List.replicate 129 0)).wellFormed = false := by
  decide +kernel

theorem test_longest_data_is_well_formed : (Instr.memoryResponse .ok (List.replicate 128 0)).wellFormed = true := by
  decide +kernel

/-! ## Worked values -/

/-- R2 gives the check of the EMPTY cell's header as 60H. -/
theorem test_empty_header_check : headerCheck (List.replicate 7 0) = 0x60 := by decide +kernel

/-- R49: the register over a correct stream holds C704DD7BH. -/
theorem test_crc_residue : crc32 crcPreset ([1, 2, 3] ++ trailer (crc32 crcPreset [1, 2, 3])) = 0xC704DD7B := by
  decide +kernel

theorem test_cell_is_read_back : Cell.ofBytes (data .last 7 3).bytes = data .last 7 3 := by decide +kernel

/-- No word spells a command. -/
theorem test_no_word_decodes : decodeTableWord 8 0 = none := rfl

theorem test_image_is_read_back : (Image.ofBytes opened.image).context = opened ∧ opened.image.length = 112 := by
  decide +kernel

/-! ## The step and the resets -/

theorem test_step_takes_the_front :
    step { node with pending := [.tick, .busAccept] } = exec .tick { node with pending := [.busAccept] } := rfl

theorem test_reset_asserted : (run .resetAsserted node).inReset = true := by decide +kernel

theorem test_reset_released : (run (.resetReleased 12) { node with inReset := true }).ma.nodeId = 12 := by
  decide +kernel

theorem test_tick : (run .tick node).ma.nodeTime = 101 := by decide +kernel

theorem test_node_reset_takes_effect :
    (run .nodeResetTakesEffect (node.agentTo .resetWait)).ma =
      { nodeId := 5, nodeState := .unconfigured, nodeTime := 100 } := by decide +kernel

/-! ## The trunk -/

theorem test_hunt_trial :
    (run (.huntTrial ⟨#[0, 0, 0, 0, 0, 0, 0, 0x60], rfl⟩) node).cf.delineation = .presync := by decide +kernel

theorem test_presync_cell :
    (run (.presyncCell emptyCell.bytes) { node with cf := { delineation := .presync, alignment := some 0
                                                            goodRun := 7 } }).cf.delineation = .sync := by
  decide +kernel

/-- A passing cell departs with one hop less, after the three free positions of the changeover. -/
theorem test_sync_cell_passes :
    (run (.syncCell { data .first 0 40 with dest := 6 }.bytes)
      { synced with cf := { synced.cf with changeover := true } }).cf.transit =
      [.free, .free, .free, .passed { data .first 0 40 with dest := 6, hops := 3 }] := by decide +kernel

theorem test_sync_cell_is_held :
    (run (.syncCell (data .first 0 40).bytes) { cached {} with
      cf := synced.cf
      cc := { circuits := tset (cached {}).cc.circuits 2 { action := .terminate, channel := 7 } } }).re.hold =
      [{ channel := 7, cell := data .first 0 40 }] := by decide +kernel

theorem test_outbound_position_is_empty : (run .outboundPosition node).cf.trunkOut = some emptyCell.bytes := by
  decide +kernel

/-! ## The engine -/

theorem test_apply_cell_counts_a_stray :
    (run .applyCell (holding (cached {}) (data .middle 0 40))).context 7 = some { strayCells := 1 } := by decide +kernel

theorem test_apply_cell_asks_for_a_slot :
    ((run .applyCell (holding (cached {}) (data .first 0 40))).pool 0).requests = [.reserve 7] := by decide +kernel

theorem test_apply_pending_abort_closes :
    ((run (.applyPendingAbort 7) (assembling.onChan 7 fun ch => { ch with pendingAbort := .holdfull })).chan 7).op =
      some (.close .holdfull .abort) := by decide +kernel

theorem test_deadline_reached_closes :
    ((run (.deadlineReached 7) { assembling with
      ma := { assembling.ma with nodeTime := 150 }, re := { assembling.re with scanOpen := true } }).chan 7).op =
      some (.close .timeout .owner) := by decide +kernel

theorem test_channel_unbound :
    ((run (.channelUnbound 7) (node.onChan 7 fun ch => { ch with binding := .unbinding })).chan 7).binding =
      .unbound := by decide +kernel

/-- A clean entry of an UNBINDING channel is freed in the step that leaves the channel no work (R80). -/
theorem test_clean_entry_of_an_unbind_is_freed :
    (run .applyCell ((cached {}).onChan 7 fun ch => { ch with binding := .unbinding })).entry 0 = .free := by
  decide +kernel

/-- A write of 40 bytes with seq 3 at offset 40 of a buffer at 8000H. -/
theorem test_write_goes_to_the_offset :
    ((run .applyCell (holding assembling (data .middle 3 40))).lmp.dlv.map fun r => (r.addr, r.length)) =
      [(0x8028, 40)] := by decide +kernel

/-! ## The Delivery Unit -/

theorem test_reserve_reads_the_owner :
    ((run (.reserve 0) (pooled.onPool 0 fun x => { x with requests := [.reserve 7] })).lmp.dlv.map (·.addr)) =
      [0x4000] := by decide +kernel

theorem test_take_reads_the_descriptor :
    ((run (.take 0) (pooled.onPool 0 fun x => { x with requests := [.take 7], freePos := 2 })).lmp.dlv.map (·.addr)) =
      [0x3020] := by decide +kernel

theorem test_completion_write_is_at_write_pos :
    ((run (.completionWrite 0) ((cached {}).onPool 0 fun x => { x with
      requests := [.complete 7 []], writePos := 1 })).lmp.dlv.map (·.addr)) = [0x4040] := by decide +kernel

/-! ## The port -/

/-- A read that the Event Writer has made. -/
def eventRead : Request :=
  { requester := .evt, direction := .read, addr := 0x2000, length := 1, data := [], tag := .event }

theorem test_request_grant : (run .requestGrant { node with lmp := { evt := [eventRead] } }).lmp.pointer = .evt := by
  decide +kernel

theorem test_bus_accept :
    (run .busAccept { node with lmp := { offered := some eventRead } }).lmp.order =
      [{ request := eventRead, timer := 10, live := true }] := by decide +kernel

/-- An owner byte 1 gives the event's record, whose lost-before is the lost count. -/
theorem test_memory_response_writes_the_event :
    ((run (.memoryResponse .ok [1]) { node with
      ew := { node.ew with
        queue := [{ kind := .nocompl, subject := 7, detail := 0, tick := 3, aux := 0 }], lost := 2
        access := .ownerRead false }
      lmp := { order := [{ request := eventRead, timer := 4, live := true }] } }).lmp.evt.map (·.data)) =
      [[0, 4, 0, 2, 0, 7, 0, 0, 0, 0, 0, 3, 0, 0, 0, 0]] := by decide +kernel

theorem test_request_timeout_expires :
    ((run .requestTimeout { node with
      lmp := { order := [{ request := eventRead, timer := 0, live := true }] } }).lmp.order.map (·.live)) = [false] := by
  decide +kernel

theorem test_event_serve :
    (run .eventServe { node with ew := { node.ew with
      queue := [{ kind := .nocompl, subject := 7, detail := 0, tick := 3, aux := 0 }], pos := 3 } }).lmp.evt =
      [{ eventRead with addr := 0x2030 }] := by decide +kernel

/-! ## The transmit side -/

/-- Node 5 with rings 1 and 3 IDLE. -/
def ringed : State :=
  (node.onRing 1 fun x => { x with state := .idle, base := 0x6000, size := 8, weight := 2 }).onRing 3 fun x =>
    { x with state := .idle, base := 0x7000, size := 8, weight := 1, head := 2 }

theorem test_interval_poll_reads_the_heads :
    ((run .intervalPoll { ringed with su := { ringed.su with txPoll := 3 } }).lmp.seg.map (·.addr)) =
      [0x6000, 0x7040] := by decide +kernel

theorem test_poll_of_every_ring :
    ringed.pollAll.lmp = ringed.polled.lmp ∧ ringed.pollAll.su.rings = ringed.polled.su.rings := by decide +kernel

theorem test_attn_edge_deasserts_lint :
    (run .attnEdge { ringed with ew := { ringed.ew with lint := true } }).ew.lint = false := by decide +kernel

/-! ## The Management Agent -/

theorem test_command_take_denies_a_stranger :
    status (run .commandTake { node with ma := { node.ma with queue := [command 0x40 []] } }) = 1 := by decide +kernel

theorem test_response_handover :
    ((run .responseHandover (node.answering (command 0x01 []) 0 [])).ia.responses.map (·.cell.payload.toList.take 4)) =
      [[0x12, 0x34, 0x01, 0]] := by decide +kernel

/-- R161 names RELEASE alone as not stored. -/
theorem test_refused_claim_is_stored :
    (run .responseHandover ({ node with ma := { node.ma with managers := [{ node := 9, memory := none }] } }.answering
      (command 0x02 []) 3 [])).ma.managers =
      [{ node := 9, memory := some { tag := 0x1234, payload := [0x12, 0x34, 0x02, 3] } }] := by decide +kernel

theorem test_ident :
    reply (run .ident (hand node 0x01 [])) = [0x12, 0x34, 1, 0, 5, 0x25, 0x60, 1, 2, 0, 0, 0, 0, 100] := by
  decide +kernel

theorem test_claim : (run .claim (hand node 0x02 [])).ma.managers = [{ node := 9, memory := none }] := by
  decide +kernel

theorem test_release :
    (run .release (hand { node with ma := { node.ma with managers := [{ node := 9, memory := none }] } } 0x03
      [])).ma.managers = [] := by decide +kernel

theorem test_manager_adds :
    ((run .manager (hand node 0x04 [0, 62])).ma.managers.map (·.node)) = [62] := by decide +kernel

theorem test_set_local_map :
    (run .setLocalMap (hand State.reset 0x10 [0, 1, 0, 0, 0, 0, 0x20, 0, 0, 16, 5])).ma.nodeState = .stopped := by
  decide +kernel

theorem test_set_pool_is_busy_in_use :
    status (run .setPool (hand (cached {}) 0x11 [0, 0, 0, 0x30, 0, 0, 8, 0, 0, 0x40, 0, 0, 8, 2, 0, 0])) = 5 := by
  decide +kernel

theorem test_set_pool_of_sizes_0_takes_any_notify :
    status (run .setPool (hand pooled 0x11 [0, 0, 0, 0, 0, 0, 0, 0, 0, 0, 0, 0, 0, 0, 0, 2])) = 0 := by decide +kernel

theorem test_set_txring :
    ((run .setTxring (hand node 0x12 [2, 0, 0, 0x60, 0, 0, 8, 15, 1])).ring 2).weight = 15 := by decide +kernel

theorem test_set_send :
    ((run .setSend (hand node 0x13 [63, 0, 6, 7, 0xFF, 4, 1, 1])).slot 63).label = 2047 := by decide +kernel

theorem test_set_events : (run .setEvents (hand node 0x14 [0xFF, 0xFF])).ew.enable = 0x0FFE := by decide +kernel

theorem test_set_node : (run .setNode (hand node 0x15 [3, 0, 255])).cc.rspChannel = some 255 := by decide +kernel

theorem test_write_circuit :
    (run .writeCircuit (hand node 0x20 [7, 0xFF, 2, 1, 62, 0, 9, 0])).circuit 2047 =
      { action := .forward, channel := 1, newDest := 62, newLabel := 9, matched := 0 } := by decide +kernel

theorem test_read_circuit_refuses_a_label : status (run .readCircuit (hand node 0x21 [8, 0])) = 3 := by decide +kernel

theorem test_bind_channel :
    ((run .bindChannel (hand pooled 0x30 [7, 0, 0, 100, 0, 50])).chan 7).fresh = true := by decide +kernel

theorem test_unbind_channel :
    ((run .unbindChannel (hand (cached {}) 0x31 [7])).chan 7).binding = .unbinding := by decide +kernel

theorem test_read_channel :
    reply (run .readChannel (hand assembling 0x32 [7])) =
      [0x12, 0x34, 0x32, 0, 7, 1, 0, 0, 100, 0, 50, 1, 0, 2, 0, 0, 0, 0, 150] := by decide +kernel

theorem test_read_context :
    (reply (run .readContext (hand assembling 0x33 [7, 0]))).take 8 = [0x12, 0x34, 0x33, 0, 0, 3, 0, 1] := by
  decide +kernel

theorem test_sync_contexts_of_a_clean_cache : status (run .syncContexts (hand (cached {}) 0x34 [])) = 0 := by
  decide +kernel

theorem test_start :
    (run .start (hand { ringed with ma := { ringed.ma with nodeState := .stopped } } 0x40 [])).ma.nodeState =
      .running := by decide +kernel

theorem test_stop_refused_when_stopped :
    status (run .stop (hand { node with ma := { node.ma with nodeState := .stopped } } 0x41 [])) = 5 := by
  decide +kernel

theorem test_stop_discards_held_cells :
    (holding (cached {}) (data .first 0 40)).stopReceive.counters.datapathOff = 1 := by decide +kernel

/-- A STOP in which channel 8 asks for an entry: the held cell of channel 7 is dropped first, so its entry is no longer
newly filled (R67). -/
theorem test_stop_ends_newly_filled :
    (holding ((cached {}).setEntry 0 (.valid { channel := 7, ctx := {}, dirty := false, newlyFilled := true }))
      (data .first 0 40)).stopHolding.entry 0 =
      .valid { channel := 7, ctx := {}, dirty := false, newlyFilled := false } := by decide +kernel

theorem test_stop_drain_complete :
    (run .stopDrainComplete { node with ma := { node.ma with
      nodeState := .stopping, state := .working (command 0x41 []) true } }).ma.nodeState = .stopped := by decide +kernel

theorem test_node_reset : status (run .nodeReset (hand node 0x42 [])) = 0 := by decide +kernel

theorem test_read_counters :
    (reply (run .readCounters (hand node 0x50 [0, 1]))).length = 40 := by decide +kernel

/-! ## A state that meets the hypotheses of each statement

Each theorem gives, clause by clause, a state and operands for the statement it names. -/

/-- RESET is asserted. -/
def underReset : State := { node with inReset := true }

/-- The node waits for its reset with these entries in the order list. -/
def waiting (order : List OrderEntry) : State := { node.agentTo .resetWait with lmp := { order } }

/-- A node whose port holds these entries. -/
def issued (order : List OrderEntry) : State := { node with lmp := { order } }

/-- An entry of the order list for a request of the Event Writer. -/
def entryOf (timer : Nat) (live : Bool) : OrderEntry := { request := eventRead, timer, live }

theorem witness_StepRunsTheFrontCommand :
    { node with pending := [.tick] }.pending = .tick :: [] ∧ node.pending = [] := by decide +kernel

theorem witness_PowerOnResetStopsAndRestartsThePart :
    underReset.inReset = true ∧ Instr.tick ≠ .resetAsserted ∧ ∀ n, Instr.tick ≠ .resetReleased n := by
  refine ⟨rfl, ?_, ?_⟩ <;> simp

theorem witness_NodeResetTakesEffectWhenQuiet :
    (waiting [entryOf 3 false]).inReset = false ∧ (waiting [entryOf 3 false]).ma.state = .resetWait ∧
    (∀ e ∈ (waiting [entryOf 3 false]).lmp.order, e.live = false) ∧
    (∃ e ∈ (waiting [entryOf 3 true]).lmp.order, e.live = true) := by decide +kernel

theorem witness_TickAdvancesTimeAndTimers : node.inReset = false := rfl

theorem witness_NodeTimeAndIdMoveOnlyAsStated :
    exec .tick node = .next (run .tick node) ∧ (∀ n, Instr.tick ≠ .resetReleased n) ∧
    exec .busAccept node = .next (run .busAccept node) ∧ Instr.busAccept ≠ .tick := by
  refine ⟨rfl, ?_, rfl, ?_⟩ <;> simp

/-- The two ends of the cycle: the requester after the pointer, and the pointer itself last; then each reason for no
grant, and a request that the bus can accept. -/
theorem witness_RequestIsGrantedInCycleOrderAndIssued :
    ({ node with lmp := { ctx := [eventRead] } }.lmp.line (Nat.repeat Requester.succ 1 .agt) = [eventRead]) ∧
    (∀ j, j < 4 → { node with lmp := { agt := [eventRead] } }.lmp.line (Nat.repeat Requester.succ (j + 1) .agt) = []) ∧
    ({ node with lmp := { agt := [eventRead] } }.lmp.line (Nat.repeat Requester.succ 5 .agt) = [eventRead]) ∧
    (node.ma.state ≠ .resetWait ∧ node.lmp.offered = none ∧ node.lmp.live < 16 ∧ node.lmp.order.length < 32) ∧
    (waiting []).ma.state = .resetWait ∧ { node with lmp := { offered := some eventRead } }.lmp.offered ≠ none ∧
    16 ≤ (issued (List.replicate 16 (entryOf 1 true))).lmp.live ∧
    32 ≤ (issued (List.replicate 32 (entryOf 1 false))).lmp.order.length ∧ node.lmp.line .ctx = [] ∧
    { node with lmp := { offered := some eventRead } }.lmp.offered = some eventRead := by decide +kernel

theorem witness_ResponseIsPairedWithTheHead :
    (waiting []).ma.state = .resetWait ∧ node.lmp.order = [] ∧
    (issued [entryOf 0 false]).lmp.order = entryOf 0 false :: [] ∧
    (entryOf 0 false).live = false ∧ (entryOf 1 true).live = true ∧ (entryOf 1 true).request.direction = .read ∧
    ([0] : List Byte).length = (entryOf 1 true).request.length ∧
    { (entryOf 1 true) with request := { eventRead with direction := .write } }.request.direction = .write := by
  decide +kernel

theorem witness_OldestExpiredRequestTimesOut :
    (issued [entryOf 0 false, entryOf 0 true]).lmp.order = [entryOf 0 false] ++ entryOf 0 true :: [] ∧
    (∀ x ∈ [entryOf 0 false], x.live = false ∨ x.timer ≠ 0) ∧
    (∀ x ∈ (issued [entryOf 1 true]).lmp.order, x.live = false ∨ x.timer ≠ 0) := by decide +kernel

theorem witness_SettleAtRestAddsNothing : node.AtRest where
  not_stopping := by decide +kernel
  not_unbinding := by decide +kernel
  list_empty := rfl
  not_newly_filled e v h := by
    have : ∀ e, node.entry e = .free := by decide +kernel
    rw [this e] at h
    cases h

theorem witness_SettleLeavesTheRestAlone :
    (waiting []).ma.state = .resetWait ∧ node.ma.state ≠ .resetWait := by decide +kernel

/-- An event of channel 7. -/
def anEvent : Event := { kind := .nocompl, subject := 7, detail := 0, tick := 3, aux := 0 }

theorem witness_RaisedEventJoinsTheQueueOrIsLost :
    State.reset.ew.state ≠ .on ∧ node.ma.state ≠ .resetWait ∧
    node.ew.enable.getLsbD EventKind.nocompl.code = true ∧ node.ew.state = .on ∧ node.ew.queue.length < 8 ∧
    8 ≤ { node with ew := { node.ew with queue := List.replicate 8 anEvent } }.ew.queue.length := by decide +kernel

/-- The Event Writer with one event and this access. -/
def serving (a : EventAccess) : State := { node with ew := { node.ew with queue := [anEvent], access := a } }

theorem witness_HeadEventIsServedAtTheRing :
    (serving .none).ew.queue ≠ [] ∧ (serving .none).ew.access = .none ∧ (serving .none).ew.state = .on ∧
    (serving (.ownerRead false)).ew.access = .ownerRead false ∧ (serving (.ownerRead false)).ma.state ≠ .resetWait ∧
    (serving (.ownerRead false)).ew.queue = anEvent :: [] ∧ (0 : Byte) ≠ 1 ∧
    (serving (.recordWrite false)).ew.access = .recordWrite false ∧ Answer.timeout ≠ .ok ∧
    (serving (.ownerRead true)).ew.access = .ownerRead true := by decide +kernel

/-- A header of zeros with its check, and one without. -/
theorem witness_DelineationIsFoundConfirmedAndLost :
    node.cf.delineation = .hunt ∧ headerCheck (List.replicate 7 0) = 0x60 ∧ headerCheck (List.replicate 7 0) ≠ 0 ∧
    { node with cf := { delineation := .presync, goodRun := 1 } }.cf.goodRun ≠ 7 ∧
    goodHeader emptyCell.bytes.toList = true ∧ goodHeader (Vector.replicate 48 (0 : Byte)).toList = false ∧
    synced.cf.delineation = .sync ∧ synced.cf.badRun ≠ 4 ∧
    { synced with cf := { synced.cf with badRun := 4 } }.cf.badRun = 4 := by decide +kernel

/-- A cell with a must-be-zero bit, an EMPTY cell, a cell of this node, cells for node 6 with 4 hops and with none, and
a broadcast command. -/
theorem witness_CellNotForThisNodeIsDisposedOf :
    goodHeader { data .first 0 40 with fill := 41 }.bytes.toList = true ∧
    malformed { data .first 0 40 with fill := 41 }.bytes = true ∧ malformed emptyCell.bytes = false ∧
    (Cell.ofBytes emptyCell.bytes).kind = .empty ∧ malformed { data .first 0 40 with dest := 6, src := 5 }.bytes = false ∧
    (Cell.ofBytes { data .first 0 40 with dest := 6, src := 5 }.bytes).src = synced.ma.nodeId ∧
    malformed { data .first 0 40 with dest := 6 }.bytes = false ∧
    (Cell.ofBytes { data .first 0 40 with dest := 6 }.bytes).hops ≠ 0 ∧
    (Cell.ofBytes { data .first 0 40 with dest := 6 }.bytes).dest ≠ synced.ma.nodeId ∧
    malformed { data .first 0 40 with dest := 6, hops := 0 }.bytes = false ∧
    (Cell.ofBytes { data .first 0 40 with dest := 6, hops := 0 }.bytes).hops = 0 ∧
    malformed { command 1 [] with dest := 63 }.bytes = false ∧
    (Cell.ofBytes { command 1 [] with dest := 63 }.bytes).kind = .mgmtCmd ∧ synced.ma.nodeId ≠ 63 := by decide +kernel

theorem witness_DataCellIsLookedUpOnItsLabel :
    synced.inReset = false ∧ synced.cf.delineation = .sync ∧ goodHeader (data .first 0 40).bytes.toList = true ∧
    malformed (data .first 0 40).bytes = false ∧ synced.ma.nodeId ≠ 63 ∧
    (Cell.ofBytes (data .first 0 40).bytes).kind = .data ∧
    (Cell.ofBytes (data .first 0 40).bytes).dest = synced.ma.nodeId := by decide +kernel

/-- A response cell for node 5 with n fill bytes. -/
def response (n : Nat) : Cell := Cell.build .mgmtRsp .only 0 5 9 0 4 (List.replicate n 0xAB)

theorem witness_LocalPartIsHeldForItsChannel :
    (waiting []).ma.state = .resetWait ∧
    State.reset.ma.nodeState ≠ .running ∧ node.ma.nodeState = .running ∧ node.ma.state ≠ .resetWait ∧
    (node.chan 7).binding ≠ .bound ∧ ((cached {}).chan 7).binding = .bound ∧
    ((cached {}).pool ((cached {}).chan 7).pool).state ≠ .faulted ∧
    (((cached {}).onPool 0 fun x => { x with state := .faulted }).pool 0).state = .faulted ∧
    node.cc.rspChannel = none ∧ { node with cc := { rspChannel := some 7 } }.cc.rspChannel = some 7 ∧
    (holding node (data .first 0 40)).re.hold.length < 64 ∧
    64 ≤ { node with re := { hold := List.replicate 64 { channel := 7, cell := emptyCell } } }.re.hold.length ∧
    (node.chan 7).pendingAbort = .none ∧
    ((node.onChan 7 fun ch => { ch with pendingAbort := .timeout }).chan 7).pendingAbort ≠ .none ∧
    (let raw := (response 3).bytes
     goodHeader raw.toList = true ∧ malformed raw = false ∧ (Cell.ofBytes raw).kind = .mgmtRsp ∧
     (Cell.ofBytes raw).dest = synced.ma.nodeId ∧ synced.ma.nodeId ≠ 63 ∧ synced.cf.delineation = .sync ∧
     synced.inReset = false) := by decide +kernel

/-- The state with a START and, behind it, a NODE_RESET of the listed manager in the command queue; the manager has no
command memory, or the NODE_RESET's tag is the one stored. -/
def resetQueued (s : State) (memory : Option StoredResponse) : State :=
  { s with ma := { s.ma with
      queue := [command 0x40 [], command 0x42 []], managers := [{ node := 9, memory }] } }

/-- A queued NODE_RESET goes out of turn exactly as its tag is not the one stored; the START before it does not. -/
theorem resetQueued_gives (s : State) (h : s.ma.nodeId = 5) :
    (resetQueued s none).GivesWay (command 0x42 []) [command 0x40 []] ∧
    (resetQueued s (some { tag := 0x1234, payload := [] })).NoneOutOfTurn := by
  have start : (command 0x40 []).code ≠ 0x42 := by decide
  refine ⟨⟨[command 0x40 []], [], rfl, rfl, ⟨by decide, ?_, ?_, ⟨_, List.mem_singleton.2 rfl, by decide +kernel⟩, .inr ?_⟩, ?_⟩, ?_⟩
  · show s.ma.nodeId ≠ 63
    rw [h]; decide
  · show _ = s.ma.nodeId
    rw [h]; decide +kernel
  · intro m hm
    cases hm
  · intro x hx hq
    rw [List.mem_singleton.1 hx] at hq
    exact start hq.1
  · intro q hq ho
    rcases List.mem_cons.1 hq with rfl | hq
    · exact start ho.1
    · rw [List.mem_singleton.1 hq] at ho
      rcases ho.2.2.2.2 with h0 | h1
      · exact absurd h0 (by decide +kernel)
      · exact h1 _ rfl (by decide +kernel)

/-- The agent works on a READ_CONTEXT, node 9 is listed, and a NODE_RESET arrives behind a START, or with its stored
tag. -/
theorem witness_CommandCellJoinsTheQueueOrResetsTheNode :
    ((resetQueued node none).GivesWay (command 0x42 []) [command 0x40 []] ∧
      (resetQueued node (some { tag := 0x1234, payload := [] })).NoneOutOfTurn) ∧
    goodHeader (command 1 []).bytes.toList = true ∧ malformed (command 1 []).bytes = false ∧
    (Cell.ofBytes (command 1 []).bytes).kind = .mgmtCmd ∧ (Cell.ofBytes (command 1 []).bytes).dest = synced.ma.nodeId ∧
    synced.ma.queue.length < 4 ∧ synced.ma.state = .ready ∧
    4 ≤ { synced with ma := { synced.ma with queue := List.replicate 4 emptyCell } }.ma.queue.length ∧
    (let s : State := { node with ma := { node.ma with
       state := .working (command 0x33 []) true
       managers := [{ node := 9, memory := none }]
       queue := [command 0x40 []] } }
     s.ma.queue.length < 4 ∧ s.ma.queue ++ [command 0x42 []] = [command 0x40 []] ++ command 0x42 [] :: [] ∧
     (command 0x42 []).code = 0x42 ∧ s.ma.nodeId ≠ 63 ∧ (command 0x42 []).dest = s.ma.nodeId ∧
     (∃ m ∈ s.ma.managers, m.node = (command 0x42 []).src) ∧ s.memoryOf 9 = none ∧ (command 0x40 []).code ≠ 0x42) ∧
    (let s : State := { node with ma := { node.ma with managers :=
      [{ node := 9, memory := some { tag := 0x1234, payload := [] } }] } }
     s.memoryOf 9 = some { tag := 0x1234, payload := [] } ∧ (command 0x42 []).tag = 0x1234) :=
  ⟨resetQueued_gives node rfl, by decide +kernel⟩

/-- Node 5 with one departure position owed and this at its head. -/
def owing (d : Departure) : State := { node with cf := { transit := [d] } }

/-- Ring 1 with one staged cell, two of its weight left or none. -/
def stagedRing (run : Nat) : State :=
  { ringed.onRing 1 fun x => { x with fifo := [data .first 0 40] } with ia := { pointer := 1, runCount := run } }

/-- The response to a NODE_RESET. -/
def resetResponse : QueuedResponse := { cell := responseCell 5 (command 0x42 []) [], reset := true }

theorem witness_OutboundPositionCarriesWhatItOwesOrIsFilled :
    (owing (.passed emptyCell)).cf.positionDue = true ∧ (owing (.passed emptyCell)).cf.transit = .passed emptyCell :: [] ∧
    (owing (.forwarded emptyCell)).cf.transit = .forwarded emptyCell :: [] ∧
    (owing .free).cf.transit.head? = some .free ∧ node.cf.transit.head? = none ∧ node.cf.positionDue = true ∧
    { node with ia := { responses := [resetResponse] } }.ia.responses = resetResponse :: [] ∧
    node.ma.state ≠ .resetSent ∧ resetResponse.reset = true ∧ (node.agentTo .resetSent).ma.state = .resetSent ∧
    (stagedRing 1).chooseClass = some (1, 2) ∧ ((stagedRing 1).ring 1).fifo = data .first 0 40 :: [] ∧
    synced.cf.positionDue = false ∧
    { synced with cf := { synced.cf with transit := List.replicate 4 .free } }.cf.positionDue = true ∧
    node.ia.responses = [] ∧ ∀ r, (node.ring r).fifo = [] := by decide +kernel

/-- A run that goes on, and one that ends with the current class examined last. -/
theorem witness_RoundRobinRunsByWeight :
    (stagedRing 1).ia.runCount < ((stagedRing 1).ring (stagedRing 1).ia.pointer).weight ∧
    ((stagedRing 2).ring (stagedRing 2).ia.pointer).weight ≤ (stagedRing 2).ia.runCount ∧ 4 ∈ [1, 2, 3, 4] ∧
    1 = (stagedRing 2).ia.pointer + Fin.ofNat 4 4 ∧
    (∀ j < 4, 1 ≤ j → ((stagedRing 2).ring ((stagedRing 2).ia.pointer + Fin.ofNat 4 j)).fifo = []) ∧
    (owing (.passed emptyCell)).cf.transit.head? = some (.passed emptyCell) := by decide +kernel

theorem witness_OldestApplicableCellIsApplied :
    (let s := holding (cached {}) (data .first 0 40)
     (∀ c, (s.chan c).pendingAbort ≠ .none → s.ready c = false) ∧
     s.re.hold = [] ++ { channel := 7, cell := data .first 0 40 } :: [] ∧
     s.applicable { channel := 7, cell := data .first 0 40 } = true ∧ (s.chan 7).residence = .cached 0 ∧
     s.entry 0 = .valid { channel := 7, ctx := {}, dirty := false, newlyFilled := false }) ∧
    (∀ x ∈ (holding node emptyCell).re.hold, (holding node emptyCell).applicable x = false) ∧
    (let s := assembling.onChan 7 fun ch => { ch with pendingAbort := .holdfull }
     (s.chan 7).pendingAbort ≠ .none ∧ s.ready 7 = true) := by decide +kernel

/-- A MIDDLE, and an ONLY cell with fill 0, for an IDLE channel. -/
theorem witness_StrayCellIsCounted :
    (let s := holding (cached {}) (data .middle 0 40)
     (∀ c, (s.chan c).pendingAbort ≠ .none → s.ready c = false) ∧
     s.re.hold = [] ++ { channel := 7, cell := data .middle 0 40 } :: [] ∧
     s.applicable { channel := 7, cell := data .middle 0 40 } = true ∧ (s.chan 7).residence = .cached 0 ∧
     s.entry 0 = .valid { channel := 7, ctx := {}, dirty := false, newlyFilled := false }) ∧
    (data .only 0 0).position = .only ∧ (data .only 0 0).fill = 0 := by decide +kernel

/-- The channel with this operation outstanding. -/
def pendingOp (s : State) (op : ChanOp) : State := s.onChan 7 fun ch => { ch with op := some op }

/-- Channel 7 FAULTED, or UNBINDING, with this operation outstanding. -/
def pendingAs (binding : Binding) (op : ChanOp) : State :=
  (cached {}).onChan 7 fun ch => { ch with binding, op := some op }

/-- A channel whose limit is 36 bytes meets a cell of 40 and one of 40 within it (max_body 36); a response cell with
fill bytes and one without, for a closed channel and for an open one. -/
theorem witness_StartOfAMessageOpensItOrDiscardsIt :
    (cached {}).context 7 = some {} ∧ (data .first 0 40).kind = .data ∧
    (((cached {}).onChan 7 fun ch => { ch with maxBody := 35 }).chan 7).maxBody.toNat + 4 < (data .first 0 40).fill.toNat ∧
    (data .first 0 40).fill.toNat ≤ (((cached {}).onChan 7 fun ch => { ch with maxBody := 36 }).chan 7).maxBody.toNat + 4 ∧
    ((pendingOp (cached {}) (.reserve (data .first 0 40))).chan 7).op = some (.reserve (data .first 0 40)) ∧
    ((pendingOp (cached {}) (.take (data .first 0 40) true)).chan 7).op = some (.take (data .first 0 40) true) ∧
    ((cached {}).chan 7).InUse ∧ (data .first 0 40).fill ≠ 0 ∧ ¬ (node.chan 7).InUse ∧
    ((pendingAs .faulted (.reserve (data .first 0 40))).chan 7).op = some (.reserve (data .first 0 40)) ∧
    ((pendingAs .faulted (.take (data .first 0 40) true)).chan 7).op = some (.take (data .first 0 40) true) ∧
    (let s := (cached {}).onPool 0 fun x => { x with reserved := 1 }
     (s.pool (s.chan 7).pool).state = .active ∧ (s.pool (s.chan 7).pool).reserved ≠ 0) ∧
    assembling.context 7 = some opened ∧ (assembling.chan 7).msgOpen = true ∧ (response 0).kind = .mgmtRsp ∧
    (response 0).fill = 0 ∧ (response 12).kind = .mgmtRsp ∧ (response 12).fill ≠ 0 ∧
    ((pendingOp (cached {}) (.reserve (response 12))).chan 7).op = some (.reserve (response 12)) ∧
    ((pendingOp (cached {}) (.take (response 0) true)).chan 7).op = some (.take (response 0) true) := by decide +kernel

/-- 104 bytes are the limit of max_body 100; the buffer holds 512. -/
theorem witness_CellOfAnOpenMessageIsTestedInOrder :
    assembling.context 7 = some opened ∧ opened.state = .assembling ∧ (data .first 0 40).kind = .data ∧
    ((pendingAs .bound (.take (data .middle 3 40) false)).chan 7).op = some (.take (data .middle 3 40) false) ∧
    ((pendingAs .bound (.take (data .middle 3 40) false)).chan 7).InUse ∧
    (data .only 3 0).fill = 0 ∧ (data .middle 4 40).seq ≠ opened.expectedSeq ∧
    (data .last 3 0).seq = opened.expectedSeq ∧ (data .last 3 0).fill = 0 ∧
    (let x := { opened with bytesSoFar := 80 }
     (assembling.chan 7).maxBody.toNat + 4 < x.bytesSoFar.toNat + (data .last 3 25).fill.toNat ∧
     ¬ (assembling.chan 7).maxBody.toNat + 4 < x.bytesSoFar.toNat + (data .last 3 24).fill.toNat) ∧
    (let x := { opened with offset := 480, buffers := List.replicate 8 { cookie := 0, used := 0, addr := 0 } }
     (assembling.pool (assembling.chan 7).pool).bufSize - x.offset.toNat < (data .middle 3 40).fill.toNat ∧
     x.buffers.length = 8) ∧
    ¬ (assembling.pool (assembling.chan 7).pool).bufSize - opened.offset.toNat < (data .middle 3 40).fill.toNat := by
  decide +kernel

/-- A last buffer that takes every byte; one with 12 bytes left and one that is exactly full, with a further buffer
asked for. -/
theorem witness_CellIsWrittenInTheLastBuffer :
    (assembling.chan 7).residence = .cached 0 ∧
    assembling.entry 0 = .valid { channel := 7, ctx := opened, dirty := false, newlyFilled := false } ∧
    opened.buffers = [] ++ [{ cookie := 9, used := 40, addr := 0x8000 }] ∧ (data .middle 3 40).valid ≠ [] ∧
    (response 12).kind = .mgmtRsp ∧ (response 12).valid ≠ [] ∧
    (let s := pendingOp (cached { opened with offset := 500 }) (.take (data .middle 3 40) false)
     (s.chan 7).op = some (.take (data .middle 3 40) false) ∧ (s.chan 7).InUse ∧
     (s.chan 7).residence = .cached 0 ∧ s.entry 0 =
       .valid { channel := 7, ctx := { opened with offset := 500 }, dirty := false, newlyFilled := false } ∧
     (s.pool (s.chan 7).pool).bufSize - 500 = 12 ∧ 12 < (data .middle 3 40).valid.length) ∧
    ((cached {}).pool ((cached {}).chan 7).pool).bufSize - ({ opened with offset := 512 } : Context).offset.toNat = 0 ∧
    ((pendingOp assembling (.write (data .middle 3 40) none none)).chan 7).op =
      some (.write (data .middle 3 40) none none) := by decide +kernel

theorem witness_AnsweredWriteGoesOnOrFinishes :
    (let s := pendingOp assembling (.write (data .last 3 40) none (some .ok))
     (s.chan 7).op = some (if false then .write (data .last 3 40) (some .ok) none
       else .write (data .last 3 40) none (some .ok)) ∧ (s.chan 7).InUse ∧
     (s.chan 7).poolReset = false ∧ s.context 7 = some opened) ∧
    4 ≤ opened.bytesSoFar.toNat ∧ opened.crc ≠ 0xC704DD7B ∧ { opened with bytesSoFar := 3 }.bytesSoFar.toNat < 4 ∧
    { opened with bytesSoFar := 4, crc := 0xC704DD7B }.crc = 0xC704DD7B ∧ Answer.error ≠ .ok ∧
    (let s := pendingOp assembling (.write (response 12) (some .error) none)
     (s.chan 7).op = some (if true then .write (response 12) (some .error) none
       else .write (response 12) none (some .error)) ∧ (response 12).kind = .mgmtRsp) ∧
    (let s := pendingAs .faulted (.write (data .last 3 40) none (some .ok))
     (s.chan 7).op = some (if false then .write (data .last 3 40) (some .ok) none
       else .write (data .last 3 40) none (some .ok)) ∧ ¬ (s.chan 7).InUse) ∧
    (data .middle 3 40).position ≠ .last ∧ (data .middle 3 40).position ≠ .only ∧
    (let s := (pendingOp assembling (.write (data .last 3 40) none (some .ok))).onChan 7 fun ch =>
       { ch with poolReset := true }
     (s.chan 7).poolReset = true ∧ (s.chan 7).residence = .cached 0 ∧
     s.entry 0 = .valid { channel := 7, ctx := opened, dirty := false, newlyFilled := false }) := by decide +kernel

theorem witness_CheckBytesLeaveTheResidue : ([0, 0, 0, 0] : List Byte).length = 4 := rfl

theorem witness_CloseWritesACompletionAndEmptiesTheContext :
    assembling.context 7 = some opened ∧ RxStatus.seq ≠ .ok ∧ (data .last 3 40).kind = .data ∧
    ((pendingOp assembling (.close .seq (.cell (data .last 3 40)))).chan 7).op =
      some (.close .seq (.cell (data .last 3 40))) ∧ (assembling.chan 7).InUse ∧
    ((pendingAs .faulted (.close .timeout .owner)).chan 7).op = some (.close .timeout .owner) ∧
    ¬ ((pendingAs .faulted (.close .timeout .owner)).chan 7).InUse ∧
    (response 0).kind = .mgmtRsp ∧ (response 0).fill = 0 ∧
    ((pendingOp assembling (.close .holdfull .abort)).chan 7).op = some (.close .holdfull .abort) ∧
    ((pendingOp assembling (.close .timeout .owner)).chan 7).op = some (.close .timeout .owner) ∧
    ((pendingOp assembling (.close .nolast (.resume (data .first 0 40)))).chan 7).op =
      some (.close .nolast (.resume (data .first 0 40))) := by decide +kernel

/-- A deadline that is just reached, and one a tick away. -/
theorem witness_PendingAbortIsApplied :
    (let s := assembling.onChan 7 fun ch => { ch with pendingAbort := .timeout, deadline := 100 }
     s.ready 7 = true ∧ (s.chan 7).residence = .cached 0 ∧ (s.chan 7).pendingAbort = .timeout ∧
     (s.chan 7).msgOpen = true ∧ (s.chan 7).limit ≠ 0 ∧ (s.ma.nodeTime - (s.chan 7).deadline).msb = false ∧
     s.entry 0 = .valid { channel := 7, ctx := opened, dirty := false, newlyFilled := false }) ∧
    (assembling.ma.nodeTime - (101 : Word)).msb = true ∧
    ((assembling.onChan 7 fun ch => { ch with pendingAbort := .holdfull }).chan 7).pendingAbort = .holdfull := by
  decide +kernel

theorem witness_ExpiredMessageTimesOut :
    (let s : State := { assembling.onChan 7 fun ch => { ch with deadline := 100 } with
      re := { (assembling.onChan 7 fun ch => { ch with deadline := 100 }).re with scanOpen := true } }
     s.ma.nodeState = .running ∧ s.re.scanOpen = true ∧ 7 ∉ s.re.scanned ∧ (s.chan 7).binding = .bound ∧
     (s.chan 7).msgOpen = true ∧ (s.chan 7).limit ≠ 0 ∧ (s.ma.nodeTime - (s.chan 7).deadline).msb = false ∧
     s.ready 7 = true ∧ (s.chan 7).pendingAbort = .none ∧ (pendingOp s (.reserve emptyCell)).ready 7 = false ∧
     ((pendingOp s (.reserve emptyCell)).chan 7).residence ≠ .stored ∧
     (s.onChan 7 fun ch => { ch with residence := .stored }).ready 7 = false ∧
     ((s.onChan 7 fun ch => { ch with pendingAbort := .holdfull }).chan 7).pendingAbort ≠ .none ∧
     (let t := s.onChan 7 fun ch => { ch with pendingAbort := .timeout, residence := .stored }
      (t.chan 7).pendingAbort ≠ .none ∧ (t.chan 7).residence = .stored ∧ (t.chan 7).msgOpen = true)) ∧
    (node.chan 7).binding ≠ .bound := by decide +kernel

/-- The cache entry of channel 7 made dirty, or with its synchronising write in flight. -/
def dirtied (syncing : Bool) : State :=
  (cached opened).setEntry 0 (.valid { channel := 7, ctx := opened, dirty := true, newlyFilled := false, syncing })

/-- Channel 7 UNBINDING with UNBIND_CHANNEL in hand. -/
def unbinding (s : State) : State :=
  (s.onChan 7 fun ch => { ch with binding := .unbinding }).agentTo (.working (command 0x31 [7]) true)

theorem witness_FinishedUnbindMakesTheChannelUnbound :
    (unbinding node).ma.state = .working (command 0x31 [7]) true ∧ (command 0x31 [7]).code = 0x31 ∧
    ((unbinding node).chan 7).binding = .unbinding ∧ ((unbinding node).chan 7).msgOpen = false ∧
    ((unbinding node).chan 7).op = none ∧ ((unbinding node).chan 7).residence = .stored ∧
    ((unbinding (cached {})).chan 7).residence ≠ .stored ∧ ((unbinding assembling).chan 7).msgOpen = true ∧
    ((unbinding assembling).chan 7).op = none ∧
    ((unbinding assembling).pool ((unbinding assembling).chan 7).pool).state = .active ∧
    (((unbinding assembling).onPool 0 fun x => { x with state := .faulted }).pool 0).state ≠ .active ∧
    (((unbinding assembling).onChan 7 fun ch => { ch with residence := .stored }).chan 7).residence = .stored ∧
    ((unbinding (cached {})).chan 7).residence = .cached 0 ∧
    (unbinding (cached {})).entry 0 = .valid { channel := 7, ctx := {}, dirty := false, newlyFilled := false } ∧
    (unbinding (dirtied false)).entry 0 =
      .valid { channel := 7, ctx := opened, dirty := true, newlyFilled := false } ∧
    (let s := (unbinding node).agentTo .ready
     (s.chan 7).binding = .unbinding ∧ (s.chan 7).residence = .stored ∧ (s.chan 7).msgOpen = false ∧
     (s.chan 7).op = none ∧ s.ma.state = .ready) := by decide +kernel

/-- Pool 0 with this request at its head. -/
def asked (r : DuRequest) : State := pooled.onPool 0 fun x => { x with requests := [r] }

/-- Pool 0 with this access in flight. -/
def accessing (a : DuAccess) : State := (cached {}).onPool 0 fun x => { x with access := some a }

theorem witness_ReserveCountsCompletionSlots :
    ((asked (.reserve 7)).pool 0).requests = .reserve 7 :: [] ∧ ((asked (.reserve 7)).pool 0).access = none ∧
    ((asked (.reserve 7)).pool 0).state = .active ∧
    ((asked (.reserve 7)).pool 0).knownFree ≤ ((asked (.reserve 7)).pool 0).reserved ∧
    ((asked (.reserve 7)).pool 0).knownFree ≠ ((asked (.reserve 7)).pool 0).complSize ∧
    (((asked (.reserve 7)).onPool 0 fun x => { x with knownFree := 1 }).pool 0).reserved < 1 ∧
    (((asked (.reserve 7)).onPool 0 fun x => { x with knownFree := 8, reserved := 8 }).pool 0).knownFree = 8 ∧
    (((asked (.reserve 7)).onPool 0 fun x => { x with state := .faulted }).pool 0).state ≠ .active ∧
    ((accessing (.ownerRead 7)).pool 0).access = some (.ownerRead 7) ∧ byteAt [1] 0 = 1 ∧ byteAt [0] 0 ≠ 1 := by
  decide +kernel

/-- A buffer that ends at the top of the address space fits, and the next aligned one does not. -/
theorem witness_TakeReadsTheFreeDescriptor :
    ((asked (.take 7)).pool 0).requests = .take 7 :: [] ∧ ((asked (.take 7)).pool 0).state = .active ∧
    (((asked (.take 7)).onPool 0 fun x => { x with state := .faulted }).pool 0).state ≠ .active ∧
    ((accessing (.freeRead 7 0)).pool 0).access = some (.freeRead 7 0) ∧ byteAt [0] 0 ≠ 1 ∧ byteAt [1] 0 = 1 ∧
    (wordAt [1, 0, 0, 0, 0, 0, 0, 32] 4).toNat % 64 ≠ 0 ∧
    (let a := wordAt [1, 0, 0, 0, 0xFF, 0xFF, 0xFE, 0x00] 4
     a.toNat % 64 = 0 ∧ a.toNat + ((accessing (.freeRead 7 0)).pool 0).bufSize ≤ 0x100000000) ∧
    (let a := wordAt [1, 0, 0, 0, 0xFF, 0xFF, 0xFE, 0x40] 4
     a.toNat % 64 = 0 ∧ 0x100000000 < a.toNat + ((accessing (.freeRead 7 0)).pool 0).bufSize) ∧
    ((accessing (.freeTaken 7 9 0x8000)).pool 0).access = some (.freeTaken 7 9 0x8000) ∧
    ((accessing (.freeRejected 7 7 1)).pool 0).access = some (.freeRejected 7 7 1) ∧
    7 < ((accessing (.freeRejected 7 7 1)).pool 0).freeSize ∧
    ((accessing (.freeRejected 7 8 1)).pool 0).freeSize ≤ 8 := by decide +kernel

theorem witness_CompletionIsWrittenAtWritePos :
    (let s := (cached {}).onPool 0 fun x => { x with requests := [.complete 7 []] }
     (s.pool 0).requests = .complete 7 [] :: [] ∧ (s.pool 0).access = none ∧ (s.pool 0).state = .active ∧
     (s.chan 7).InUse ∧ ((s.onPool 0 fun x => { x with state := .faulted }).pool 0).state ≠ .active) ∧
    ((pendingAs .faulted (.close .seq .abort)).pool 0).state = .active ∧
    ((pendingAs .faulted (.close .seq .abort)).chan 7).op = some (.close .seq .abort) ∧
    ¬ ((pendingAs .faulted (.close .seq .abort)).chan 7).InUse ∧
    ((accessing (.recordWrite 7)).pool 0).access = some (.recordWrite 7) := by decide +kernel

/-- Pool 0 with a channel that uses it, ready for the drop or with a write outstanding, and one that does not. -/
theorem witness_FailedPoolAccessFaultsThePool :
    (accessing (.recordWrite 7)).ma.state ≠ .resetWait ∧ Answer.timeout ≠ .ok ∧
    ((accessing (.freeRead 7 0)).pool 0).access = some (.freeRead 7 0) ∧
    ((accessing (.freeTaken 7 9 0x8000)).pool 0).access = some (.freeTaken 7 9 0x8000) ∧
    ((accessing (.freeRejected 7 1 2)).pool 0).access = some (.freeRejected 7 1 2) ∧
    ((accessing (.ownerRead 7)).pool 0).access = some (.ownerRead 7) ∧
    ((accessing (.recordWrite 7)).pool 0).access = some (.recordWrite 7) ∧
    (assembling.usesPool 0 7 = true ∧ (assembling.chan 7).op = none ∧ (assembling.chan 7).residence = .cached 0 ∧
      assembling.entry 0 = .valid { channel := 7, ctx := opened, dirty := false, newlyFilled := false }) ∧
    ((pendingOp assembling (.take (data .first 0 40) true)).chan 7).op ≠ none ∧
    assembling.usesPool 0 8 = false ∧ (assembling.chan 8).poolReset = false ∧
    (assembling.chan 7).binding = .bound ∧ (assembling.chan 7).poolReset = false ∧
    ((assembling.onChan 7 fun ch => { ch with poolReset := true }).chan 7).poolReset = true ∧
    ((assembling.onChan 7 fun ch => { ch with binding := .faulted }).chan 7).binding = .faulted := by decide +kernel

/-- The cache with no FREE entry, and channel 7's entry VALID in it. -/
def busyCache : State :=
  (cached {}).onXc fun xc => { xc with entries := xc.entries.map fun x => if x = .free then .filling 9 else x }

/-- A FREE entry; an eligible entry without held cells; one with them; and none to choose. -/
theorem witness_VictimIsChosenInOrder :
    (cached {}).chooseEntry = some 1 ∧ busyCache.chooseEntry = some 0 ∧ busyCache.unheldEntry 0 = true ∧
    (holding busyCache emptyCell).chooseEntry = some 0 ∧ (holding busyCache emptyCell).unheldEntry 0 = false ∧
    (pendingOp busyCache (.reserve emptyCell)).chooseEntry = none := by decide +kernel

/-- R73: a head that no longer needs its context keeps its place while no entry can be chosen, and leaves the list once
one can. -/
theorem test_stale_head_keeps_its_place :
    (((pendingOp busyCache (.reserve emptyCell)).joinWaitList 9).serveWaitList 1).xc.waitList = [9] ∧
    ((busyCache.joinWaitList 9).serveWaitList 1).xc.waitList = [] := by decide +kernel

theorem witness_ChosenEntryIsUsedByItsState :
    (cached {}).entry 1 = .free ∧ ((cached {}).chan 8).fresh = false ∧
    (((cached {}).onChan 8 fun ch => { ch with fresh := true }).chan 8).fresh = true ∧
    (cached {}).entry 0 = .valid { channel := 7, ctx := {}, dirty := false, newlyFilled := false } ∧ (7 : Chan) ≠ 8 ∧
    ((cached {}).setEntry 0 (.valid { channel := 7, ctx := {}, dirty := true, newlyFilled := false })).entry 0 =
      .valid { channel := 7, ctx := {}, dirty := true, newlyFilled := false } ∧
    (node.chan 8).binding = .unbound ∧ ((cached {}).chan 7).residence = .cached 0 ∧
    (let s := (cached {}).onChan 8 fun ch => { ch with binding := .bound }
     (s.chan 8).binding = .bound ∧ (s.chan 8).residence = .stored ∧ s.xc.waitList = [] ∧ s.chooseEntry = some 1 ∧
     ((s.onChan 8 fun ch => { ch with residence := .writeback }).chan 8).residence = .writeback ∧
     8 ∈ (s.joinWaitList 8).xc.waitList ∧ 8 ∉ (s.joinWaitList 9).xc.waitList ∧ (s.joinWaitList 9).xc.waitList ≠ []) ∧
    (pendingOp busyCache (.reserve emptyCell)).chooseEntry = none ∧
    (let s := holding (busyCache.joinWaitList 7) emptyCell
     s.xc.waitList = 7 :: [] ∧ s.needsContext 7 = true ∧ s.chooseEntry = some 0 ∧
     (pendingOp s (.reserve emptyCell)).chooseEntry = none) ∧ (busyCache.joinWaitList 7).needsContext 7 = false ∧
    (busyCache.joinWaitList 7).xc.waitList = 7 :: [] ∧ (busyCache.joinWaitList 7).chooseEntry = some 0 ∧
    ((cached {}).entry 1 = .free ∧ busyCache.entry 1 ≠ .free ∧ busyCache.eligible 1 = false) := by decide +kernel

/-- The entry being written from channel 7 for this claimant. -/
def writing (claimant : Option Chan) (note : Bool) : State := (cached {}).setEntry 0 (.writing 7 claimant note)

/-- The manual's worked sequence of a full cache, step 4: the claimant's read, then the read of the victim that has work
again. -/
theorem test_claimant_is_read_before_the_victim :
    ((writing (some 8) true).writeBackAnswered 0 7 .ok).lmp.ctx.map (·.tag) = [.fill 0 8, .fill 1 7] := by
  decide +kernel

/-- A READ_CONTEXT of channel 7's last part that waits for this. -/
def readingContext (s : State) (stage : CtxReadStage) : State :=
  { s.agentTo (.working (command 0x33 [7, 3]) true) with xc := { s.xc with
    ctxRead := some { channel := 7, part := 3, stage } } }

/-- Channel 7's entry is being filled, or written. -/
theorem witness_FilledImageIsCheckedAndInstalled :
    ((cached {}).setEntry 0 (.filling 7)).entry 0 = .filling 7 ∧ ((cached {}).chan 7).poolReset = false ∧
    (((cached {}).onChan 7 fun ch => { ch with poolReset := true }).chan 7).poolReset = true ∧
    ((cached {}).ma.state ≠ .resetWait) ∧
    (Image.ofBytes (Context.image {})).failedTest false 512 = none ∧
    ({ Image.ofBytes opened.image with count := 9 }.failedTest true 512 = some 1 ∧
     { Image.ofBytes opened.image with discard := true }.failedTest true 512 = some 2 ∧
     { Image.ofBytes opened.image with count := 0 }.failedTest true 512 = some 3 ∧
     { Image.ofBytes opened.image with offset := 513 }.failedTest true 512 = some 4 ∧
     { Image.ofBytes opened.image with expectedSeq := 16 }.failedTest true 512 = some 5 ∧
     (Image.ofBytes opened.image).failedTest false 512 = some 6 ∧
     (Image.ofBytes (Context.image {})).failedTest true 512 = some 7) ∧
    (Image.ofBytes opened.image).dropMessage.failedTest false 512 = none ∧ Answer.error ≠ .ok ∧
    (cached {}).xc.ctxRead = none ∧
    (let s := readingContext (cached {}) .fill
     s.xc.ctxRead = some { channel := 7, part := 3, stage := .fill } ∧
     s.ma.state = .working (command 0x33 [7, 3]) true ∧ (command 0x33 [7, 3]).code = 0x33) ∧
    ((cached {}).onChan 7 fun ch => { ch with fresh := true }).isFree 1 = true ∧
    (writing none false).entry 0 = .writing 7 none false ∧ (writing (some 8) true).entry 0 = .writing 7 (some 8) true ∧
    ((writing (some 8) true).chan 8).fresh = false ∧
    (((writing (some 8) true).onChan 8 fun ch => { ch with fresh := true }).chan 8).fresh = true ∧
    (writing none false).holds 7 = false ∧ (holding (writing none false) emptyCell).holds 7 = true ∧
    (let s := (readingContext (cached {}) .fill).agentTo .ready
     s.xc.ctxRead = some { channel := 7, part := 3, stage := .fill } ∧ s.ma.state = .ready) ∧
    (readingContext (cached {}) .writeBack).xc.ctxRead = some { channel := 7, part := 3, stage := .writeBack } := by
  decide +kernel

theorem witness_FaultedChannelLosesItsMessageAndCells :
    (assembling.chan 7).binding = .bound ∧ assembling.xc.ctxRead = none ∧ (8 : Chan) ≠ 7 ∧
    (assembling.chan 7).msgOpen = true ∧ (assembling.pool (assembling.chan 7).pool).state ≠ .faulted ∧
    assembling.ma.state ≠ .resetWait ∧ assembling.ew.enable.getLsbD 6 = true ∧ assembling.ew.state = .on ∧
    assembling.ew.queue.length < 8 ∧ ((unbinding assembling).chan 7).binding = .unbinding ∧
    (unbinding assembling).xc.ctxRead = none ∧
    (unbinding assembling).ma.state = .working (command 0x31 [7]) true ∧ (command 0x31 [7]).code = 0x31 ∧
    (readingContext assembling .fill).xc.ctxRead = some { channel := 7, part := 3, stage := .fill } ∧
    (readingContext assembling .writeBack).xc.ctxRead = some { channel := 7, part := 3, stage := .writeBack } ∧
    ((readingContext assembling .fill).chan 7).binding = .bound := by
  decide +kernel

theorem witness_ContextIsRebuiltFromItsImage :
    opened.buffers.length ≤ 8 ∧ opened.state = .assembling ∧ opened.buffers ≠ [] ∧
    { opened with buffers := List.replicate 8 { cookie := 0, used := 0, addr := 0 } }.buffers.length = 8 ∧
    (Image.ofBytes (Context.image { state := .discarding })).discard = true ∧
    (Image.ofBytes opened.image).discard = false ∧ (Image.ofBytes opened.image).count ≠ 0 ∧
    (Image.ofBytes (Context.image {})).count = 0 ∧ { Image.ofBytes opened.image with discard := true }.discard = true := by
  decide +kernel

/-- Ring 1 with this access in flight and this descriptor. -/
def reading (a : TxAccess) (d : TxDesc) : State := ringed.onRing 1 fun x => { x with access := some a, desc := some d }

/-- A descriptor for slot k with a body of n bytes. -/
def desc (k : Byte) (n : Half) : TxDesc := { slot := k, notifyThis := false, length := n, addr := 0 }

theorem witness_PollReadsTheHeadsOfIdleRings :
    (let s : State := { ringed with su := { ringed.su with txPoll := 3 } }
     s.ma.nodeState = .running ∧ s.su.txPoll ≠ 0 ∧ s.su.countdown = 0 ∧ s.ma.state ≠ .resetWait) ∧
    State.reset.ma.nodeState ≠ .running ∧ (ringed.ring 1).state = .idle ∧ (ringed.ring 1).access = none ∧
    (ringed.ring 0).state ≠ .idle ∧ ((reading .ownerRead (desc 0 0)).ring 1).access ≠ none := by decide +kernel

/-- Slot 63 enabled, of either kind; bodies of 1, 40, 41, 16,000 and 16,001 bytes; slot numbers 63 and 64; a slot that
is free, and one that is held. -/
theorem witness_HeadDescriptorIsReadAndTested :
    ((reading .ownerRead (desc 0 0)).ring 1).access = some .ownerRead ∧ byteAt [0] 0 ≠ 1 ∧ byteAt [1] 0 = 1 ∧
    (reading .addrRead (desc 63 40)).ma.nodeState = .running ∧ (reading .addrRead (desc 63 40)).ma.state ≠ .resetWait ∧
    ((reading .addrRead (desc 63 40)).onMa fun ma => { ma with nodeState := .stopping }).ma.nodeState ≠ .running ∧
    ((reading .addrRead (desc 63 40)).ring 1).access = some .addrRead ∧
    ((reading .addrRead (desc 63 40)).ring 1).desc = some (desc 63 40) ∧ 16000 < (desc 0 16001).length.toNat ∧
    ¬ ((desc 0 16000).length.toNat = 0 ∨ 16000 < (desc 0 16000).length.toNat) ∧ 64 ≤ (desc 64 1).slot.toNat ∧
    (desc 63 1).slot.toNat = (63 : SlotId).val ∧ ((reading .addrRead (desc 63 40)).slot 63).enabled = false ∧
    (let s := (reading .addrRead (desc 63 41)).onSlot 63 fun x => { x with enabled := true, kind := .mgmt }
     (s.slot 63).enabled = true ∧ (s.slot 63).kind = .mgmt ∧ 40 < (desc 63 41).length.toNat) ∧
    0x100000000 < (0xFFFFFFD8 : Word).toNat + (desc 63 41).length.toNat ∧
    (0xFFFFFFD8 : Word).toNat + (desc 63 40).length.toNat ≤ 0x100000000 ∧
    (ringed.slot 63).holder = none ∧ (ringed.slot 63).lockQueue = [] ∧
    ((ringed.onSlot 63 fun x => { x with holder := some 3 }).slot 63).holder ≠ none := by decide +kernel

/-- Ring 1 SENDING on slot 3, which it holds with ring 3 in its lock queue or alone. -/
def sending (m : TxMsg) (queue : List RingId) : State :=
  ((ringed.onSlot 3 fun x => { x with holder := some 1, lockQueue := queue }).onRing 3 fun x =>
    { x with state := .waitSlot }).onRing 1 fun x =>
    { x with state := .sending, msg := some m, desc := some (desc 3 77) }

/-- The slot of either kind; a body of 77 bytes, whose second cell has room for 3 check bytes; a read that can be made,
and one that cannot. -/
theorem witness_DataCellIsStagedWithTheSlotsHeader :
    (ringed.slot ({ slot := 3 } : TxMsg).slot).kind = .data ∧
    ((ringed.onSlot 3 fun x => { x with kind := .mgmt }).slot ({ slot := 3 } : TxMsg).slot).kind = .mgmt ∧
    (let m : TxMsg := { slot := 3, nextRead := 3, nextBuild := 3 }
     ((sending m []).ring 1).msg = some m ∧ ((sending m []).ring 1).desc = some (desc 3 77) ∧ m.ended = none ∧
     m.nextBuild = ((desc 3 77).length.toNat + 39) / 40 + 1 ∧
     ((desc 3 77).length.toNat + 43) / 40 = ((desc 3 77).length.toNat + 39) / 40 + 1 ∧
     ((sending m []).ring 1).fifo.length < 4 ∧ ¬ m.nextRead ≤ ((desc 3 77).length.toNat + 39) / 40) ∧
    (let m : TxMsg := { slot := 3, nextRead := 2 }
     ¬ m.nextBuild = ((desc 3 77).length.toNat + 39) / 40 + 1 ∧ m.nextRead ≤ ((desc 3 77).length.toNat + 39) / 40 ∧
     ((sending m []).ring 1).fifo.length + (m.nextRead - m.nextBuild) < 4 ∧
     (sending m []).ma.state ≠ .resetWait ∧ ((sending m []).ring 1).gen ≠ 1) := by decide +kernel

theorem witness_MessageIsWrittenBack :
    (let s := ringed.onRing 1 fun x => { x with msg := some { slot := 3 } }
     (s.ring 1).msg = some { slot := 3 } ∧ (data .last 3 40).position = .last ∧ (data .first 3 40).position = .first) ∧
    ((reading (.tickWrite .done) (desc 3 40)).ring 1).access = some (.tickWrite .done) ∧
    (let s := ((reading .ownerWrite (desc 3 40)).onRing 1 fun x => { x with
       state := .sending, msg := some { slot := 3 } }).onSlot 3 fun x => { x with holder := some 1 }
     (s.ring 1).access = some .ownerWrite ∧ (s.ring 1).state = .sending ∧ (s.ring 1).msg = some { slot := 3 } ∧
     (s.slot 3).holder = some 1 ∧ (s.slot 3).lockQueue = [] ∧ s.ma.state ≠ .resetWait) ∧
    (let s := sending { slot := 3 } [3]
     (s.ring 1).msg = some { slot := 3 } ∧ (s.slot 3).holder = some 1 ∧ (s.slot 3).lockQueue = 3 :: [] ∧
     (s.ring 1).desc = some (desc 3 77) ∧ (s.ring 1).access = none ∧ (s.slot 3).kind = .data ∧
     s.ma.state ≠ .resetWait) ∧
    Answer.timeout ≠ .ok ∧ ((reading .ownerWrite (desc 3 40)).ring 1).access = some .ownerWrite ∧
    ((reading .ownerWrite (desc 3 40)).ring 1).state ≠ .sending ∧ 0 < ({ slot := 3, sent := 1 } : TxMsg).sent ∧
    ({ slot := 3 } : TxMsg).sent = 0 ∧ ({ slot := 3, ended := some .cut } : TxMsg).ended ≠ none ∧
    ((ringed.onSlot 3 fun x => { x with kind := .mgmt }).slot 3).kind ≠ .data := by decide +kernel

/-- The agent in READY with this command queued and node 9 listed with a stored response. -/
def queued (c : Cell) : State :=
  { node with ma := { node.ma with
      queue := [c], managers := [{ node := 9, memory := some { tag := 0x1234, payload := [] } }] } }

theorem witness_CommandIsScreenedAndAuthorized :
    (queued (command 1 [])).ma.state = .ready ∧ (queued (command 1 [])).ma.queue = command 1 [] :: [] ∧
    { command 1 [] with src := 63 }.src = 63 ∧ (command 1 []).src ≠ 63 ∧ { command 0x40 [] with dest := 63 }.dest = 63 ∧
    { command 0x40 [] with dest := 63 }.code ≠ 1 ∧ (command 1 []).dest ≠ 63 ∧
    (∃ m ∈ (queued (command 1 [])).ma.managers, m.node = (command 1 []).src) ∧ (command 1 []).tag ≠ 0 ∧
    (queued (command 1 [])).memoryOf 9 = some { tag := 0x1234, payload := [] } ∧ (command 1 []).tag = 0x1234 ∧
    { command 1 [] with src := 10 }.code = 1 ∧ ¬ (∃ m ∈ (queued (command 1 [])).ma.managers, m.node = 10) ∧
    ((queued (command 0x42 [])).agentTo .resetSent).ma.state ≠ .ready ∧ node.ma.queue = [] ∧
    (command 1 []).code ∈ knownCodes ∧ (command 0x43 []).code ∉ knownCodes ∧ (command 0x40 []).code ≠ 1 ∧
    (command 0x40 []).code ≠ 2 := by decide +kernel

theorem witness_ResponseIsHandedOver :
    (node.answering (command 0x30 [7]) 0 []).ma.state =
      .answering { cmd := command 0x30 [7], payload := [0x12, 0x34, 0x30, 0], executed := true } ∧
    node.ia.responses.length < 8 ∧ byteAt [0x12, 0x34, 0x30, 0] 3 = 0 ∧ (command 0x30 [7]).code = 0x30 ∧
    ((command 0x30 [7]).arg8 3).toNat = 7 ∧ (command 0x01 []).code = 0x01 ∧
    (node.answering (command 0x02 []) 3 []).ma.state =
      .answering { cmd := command 0x02 [], payload := [0x12, 0x34, 0x02, 3], executed := true } ∧
    byteAt [0x12, 0x34, 0x02, 3] 3 ≠ 0 ∧
    8 ≤ { node with ia := { responses := List.replicate 8 resetResponse } }.ia.responses.length := by decide +kernel

theorem witness_ReadingCommandsReport :
    (hand node 0x01 []).InHand 0x01 (command 0x01 []) ∧
    (hand node 0x21 [7, 0xFF]).InHand 0x21 (command 0x21 [7, 0xFF]) ∧
    ((command 0x21 [7, 0xFF]).arg16 3).toNat = 2047 ∧ ((command 0x21 [8, 0]).arg16 3).toNat = 2048 ∧
    (hand node 0x32 [7]).InHand 0x32 (command 0x32 [7]) ∧ (hand node 0x50 [1, 1]).InHand 0x50 (command 0x50 [1, 1]) ∧
    (command 0x50 [1, 1]).arg8 3 = 1 ∧ (command 0x50 [1, 1]).arg8 4 = 1 ∧ (command 0x50 [0, 0]).arg8 3 = 0 ∧
    (command 0x50 [0, 0]).arg8 4 = 0 ∧
    1 < ((command 0x50 [0, 2]).arg8 4).toNat := by
  decide +kernel

theorem witness_ManagerListIsEdited :
    (hand node 0x02 []).InHand 0x02 (command 0x02 []) ∧ (hand node 0x03 []).InHand 0x03 (command 0x03 []) ∧
    (hand node 0x04 [0, 62]).InHand 0x04 (command 0x04 [0, 62]) ∧
    ((command 0x02 []).src ∉ node.ma.managers.map (·.node)) ∧
    ((command 0x02 []).src ∈ (queued (command 1 [])).ma.managers.map (·.node)) ∧
    (command 0x04 [0, 62]).arg8 3 = 0 ∧ ((command 0x04 [0, 62]).arg8 4).toNat ≤ 62 ∧ node.ma.managers.length < 4 ∧
    (command 0x04 [1, 9]).arg8 3 = 1 ∧ ((command 0x04 [1, 9]).arg8 4).setWidth 6 = (9 : Node) ∧
    62 < ((command 0x04 [0, 63]).arg8 4).toNat := by
  decide +kernel

/-- SET_LOCAL_MAP with the store at its highest base and a ring of 16; a ring of 15; a store off its alignment; and a
ring that crosses the top. -/
theorem witness_LocalMapIsSet :
    (let args : List Byte := [0xFF, 0xFF, 0x80, 0, 0, 0, 0x20, 0, 0, 16, 5]
     (hand State.reset 0x10 args).InHand 0x10 (command 0x10 args) ∧
     ((command 0x10 args).arg32 3).toNat + 0x8000 = 0x100000000 ∧ ((command 0x10 args).arg32 3).toNat % 128 = 0 ∧
     ((command 0x10 args).arg32 7).toNat % 16 = 0 ∧ ((command 0x10 args).arg16 11).toNat = 16 ∧
     (command 0x10 args).arg8 13 ≠ 0) ∧
    State.reset.ma.nodeState = .unconfigured ∧ node.ma.nodeState = .running ∧
    ((command 0x10 [0, 0, 0, 0, 0, 0, 0x20, 0, 0, 15, 5]).arg16 11).toNat = 15 ∧
    ((command 0x10 [0, 0, 0, 64, 0, 0, 0x20, 0, 0, 16, 5]).arg32 3).toNat % 128 ≠ 0 ∧
    0x100000000 < ((command 0x10 [0, 0, 0, 0, 0xFF, 0xFF, 0xFF, 0xF0, 0, 16, 5]).arg32 7).toNat + 16 * 16 := by
  decide +kernel

/-- Pool 3 and ring 3 with their smallest rings at the top of the address space; then each test that refuses. -/
theorem witness_PoolsAndRingsAreConfigured :
    (let args : List Byte := [3, 0xFF, 0xFF, 0xFF, 0x80, 0, 8, 0xFF, 0xFF, 0xFE, 0, 0, 8, 2, 0, 1]
     (hand node 0x11 args).InHand 0x11 (command 0x11 args) ∧ ((command 0x11 args).arg8 3).toNat = (3 : PoolId).val ∧
     ((command 0x11 args).arg8 18).toNat ≤ 1 ∧ ((command 0x11 args).arg16 8).toNat = 8 ∧
     ((command 0x11 args).arg16 14).toNat = 8 ∧ ((command 0x11 args).arg16 16).toNat = 512 ∧
     ((command 0x11 args).arg32 4).toNat + 16 * 8 = 0x100000000 ∧ ((command 0x11 args).arg32 4).toNat % 16 = 0 ∧
     ((command 0x11 args).arg32 10).toNat + 64 * 8 = 0x100000000 ∧ ((command 0x11 args).arg32 10).toNat % 64 = 0 ∧
     (∀ c, (node.chan c).binding ≠ .bound ∧ (node.chan c).binding ≠ .unbinding) ∧ (node.pool 3).access = none) ∧
    (let args : List Byte := [0, 0, 0, 0, 0, 0, 0, 0, 0, 0, 0, 0, 0, 0, 0, 2]
     ((command 0x11 args).arg16 8).toNat = 0 ∧ ((command 0x11 args).arg16 14).toNat = 0 ∧
     1 < ((command 0x11 args).arg8 18).toNat) ∧
    ((command 0x11 [0, 0, 0, 0, 0, 0, 8]).arg16 8).toNat ≠ 0 ∧ ((command 0x11 [0, 0, 0, 0, 0, 0, 8]).arg16 14).toNat = 0 ∧
    State.reset.ma.nodeState = .unconfigured ∧ ((cached {}).chan 7).binding = .bound ∧ ((cached {}).chan 7).pool = 0 ∧
    ((cached {}).pool 0).state ≠ .faulted ∧ 3 < ((command 0x11 [4]).arg8 3).toNat ∧
    ((command 0x11 [0, 0, 0, 0, 0, 0, 7, 0, 0, 0, 0, 0, 8, 2, 0, 0]).arg16 8).toNat < 8 ∧
    ((command 0x11 [0, 0, 0, 0, 8, 0, 8, 0, 0, 0, 0, 0, 8, 2, 0, 0]).arg32 4).toNat % 16 ≠ 0 ∧
    0x100000000 < ((command 0x11 [0, 0xFF, 0xFF, 0xFF, 0x90, 0, 8]).arg32 4).toNat + 16 * 8 ∧
    (let args : List Byte := [3, 0xFF, 0xFF, 0xFF, 0, 0, 8, 15, 1]
     (hand node 0x12 args).InHand 0x12 (command 0x12 args) ∧ ((command 0x12 args).arg8 3).toNat = (3 : RingId).val ∧
     ((command 0x12 args).arg16 8).toNat = 8 ∧ ((command 0x12 args).arg8 10).toNat = 15 ∧
     ((command 0x12 args).arg32 4).toNat + 32 * 8 = 0x100000000 ∧ ((command 0x12 args).arg32 4).toNat % 32 = 0 ∧
     ((command 0x12 args).arg8 11).toNat ≤ 1 ∧ (node.ring 3).state = .unconfigured ∧ (node.ring 3).access = none) ∧
    ((sending { slot := 3 } []).ring 1).state = .sending ∧ 3 < ((command 0x12 [4]).arg8 3).toNat ∧
    1 < ((command 0x12 [0, 0, 0, 0, 0, 0, 8, 1, 2]).arg8 11).toNat ∧
    ((command 0x12 [0, 0, 0, 0, 16, 0, 8, 1, 0]).arg32 4).toNat % 32 ≠ 0 ∧
    0x100000000 < ((command 0x12 [0, 0xFF, 0xFF, 0xFF, 0x20, 0, 8, 1, 0]).arg32 4).toNat + 32 * 8 := by
  decide +kernel

/-- Slot 63, free; slot 3, held by ring 1 with ring 3 waiting, its header kept or not, enabled and then not. -/
theorem witness_SettingsAreWritten :
    (let args : List Byte := [63, 1, 63, 7, 0xFF, 15, 1, 1]
     (hand node 0x13 args).InHand 0x13 (command 0x13 args) ∧ ((command 0x13 args).arg8 3).toNat = (63 : SlotId).val ∧
     (node.slot 63).holder = none ∧ sendRefusal (node.slot 63) (command 0x13 args) = none ∧
     (node.slot 63).enabled = false ∧ (command 0x13 args).arg8 9 = 1) ∧
    1 < ((command 0x13 [63, 2]).arg8 4).toNat ∧ 63 < ((command 0x13 [64]).arg8 3).toNat ∧
    (let s := (sending { slot := 3 } [3]).onSlot 3 fun x => { x with enabled := true }
     let cmd := command 0x13 [3, 0, 0, 0, 0, 0, 0, 0]
     (s.slot 3).holder = some 1 ∧ (s.slot 3).lockQueue = [3] ∧ (s.slot 3).enabled = true ∧ cmd.arg8 9 = 0 ∧
     cmd.arg8 10 = 0 ∧ (s.slot 3).kind = .data ∧ (s.slot 3).dest = (cmd.arg8 5).setWidth 6 ∧
     (s.slot 3).label = (cmd.arg16 6).setWidth 11 ∧ (s.slot 3).hops = (cmd.arg8 8).setWidth 4 ∧
     (s.slot 3).dest ≠ ((command 0x13 [3, 0, 1]).arg8 5).setWidth 6) ∧
    (hand node 0x14 [0, 2]).InHand 0x14 (command 0x14 [0, 2]) ∧
    (hand node 0x15 [3, 0, 255]).InHand 0x15 (command 0x15 [3, 0, 255]) ∧
    ((command 0x15 [3, 0, 255]).arg16 4).toNat = (255 : Chan).val ∧ (command 0x15 [3, 0xFF, 0xFF]).arg16 4 = 0xFFFF ∧
    255 < ((command 0x15 [3, 1, 0]).arg16 4).toNat ∧
    (let args : List Byte := [7, 0xFF, 4, 255, 62, 7, 0xFF, 1]
     (hand node 0x20 args).InHand 0x20 (command 0x20 args) ∧ CircuitAction.block.code = (command 0x20 args).arg8 5) ∧
    4 < ((command 0x20 [7, 0xFF, 5]).arg8 5).toNat := by
  decide +kernel

theorem witness_ChannelsAreBoundAndUnbound :
    ((let s := resetQueued (hand (cached {}) 0x31 [7]) none
      s.GivesWay (command 0x42 []) [command 0x40 []] ∧ s.InHand 0x31 (command 0x31 [7]) ∧
        (s.chan 7).binding = .bound ∧ (s.onChan 7 fun ch => { ch with binding := .unbinding }).chan 7 =
          { s.chan 7 with binding := .unbinding }) ∧
     (resetQueued (hand (cached {}) 0x31 [7]) (some { tag := 0x1234, payload := [] })).NoneOutOfTurn) ∧
    (let args : List Byte := [7, 0, 0x3E, 0x80, 0, 50]
     (hand pooled 0x30 args).InHand 0x30 (command 0x30 args) ∧ ((command 0x30 args).arg8 4).toNat = (0 : PoolId).val ∧
     ((command 0x30 args).arg16 5).toNat = 16000 ∧ (pooled.chan 7).binding = .unbound ∧ (pooled.chan 7).op = none ∧
     (pooled.pool 0).state = .active) ∧
    16000 < ((command 0x30 [7, 0, 0x3E, 0x81]).arg16 5).toNat ∧ (node.pool 0).state ≠ .active ∧
    (hand (cached {}) 0x31 [7]).InHand 0x31 (command 0x31 [7]) ∧ ((cached {}).chan 7).binding = .bound ∧
    ((node.onChan 7 fun ch => { ch with binding := .faulted }).chan 7).binding = .faulted ∧
    ((node.onChan 7 fun ch => { ch with binding := .unbinding }).chan 7).binding = .unbinding ∧
    (node.chan 7).binding = .unbound := by
  obtain ⟨h, k⟩ := resetQueued_gives (hand (cached {}) 0x31 [7]) rfl
  exact ⟨⟨⟨h, by decide +kernel⟩, k⟩, by decide +kernel⟩

theorem witness_ContextsAreReadAndSynchronised :
    ((let s := resetQueued (hand node 0x33 [7, 3]) none
      s.GivesWay (command 0x42 []) [command 0x40 []] ∧ s.InHand 0x33 (command 0x33 [7, 3]) ∧
        (s.chan 7).residence = .stored) ∧
     (let s := resetQueued (hand (dirtied false) 0x34 []) none
      s.GivesWay (command 0x42 []) [command 0x40 []] ∧ s.InHand 0x34 (command 0x34 []) ∧
        s.dirtyEntries = (0, 7) :: []) ∧
     (resetQueued (hand node 0x33 [7, 3]) (some { tag := 0x1234, payload := [] })).NoneOutOfTurn) ∧
    (hand assembling 0x33 [7, 3]).InHand 0x33 (command 0x33 [7, 3]) ∧
    ((command 0x33 [7, 3]).arg8 4).toNat = (3 : Fin 4).val ∧ assembling.ma.nodeState ≠ .unconfigured ∧
    (assembling.chan 7).residence = .cached 0 ∧
    assembling.entry 0 = .valid { channel := 7, ctx := opened, dirty := false, newlyFilled := false } ∧
    (node.chan 7).residence = .stored ∧ (node.chan 7).binding ≠ .bound ∧
    (let s := node.onChan 7 fun ch => { ch with binding := .bound, fresh := true }
     (s.chan 7).residence = .stored ∧ (s.chan 7).binding = .bound ∧ (s.chan 7).fresh = true ∧ s.xc.waitList = [] ∧
     s.entry 0 = .free ∧ ∀ f : EntryId, ¬ f.val < (0 : EntryId).val) ∧
    ((node.onChan 7 fun ch => { ch with residence := .fetching }).chan 7).residence = .fetching ∧
    ((node.onChan 7 fun ch => { ch with residence := .writeback }).chan 7).residence = .writeback ∧
    3 < ((command 0x33 [7, 4]).arg8 4).toNat ∧ State.reset.ma.nodeState = .unconfigured ∧
    (node.agentTo (.working (command 0x33 [7, 3]) true)).ma.state = .working (command 0x33 [7, 3]) true ∧
    (command 0x33 [7, 3]).code = 0x33 ∧ (hand node 0x34 []).InHand 0x34 (command 0x34 []) ∧
    node.ma.nodeState = .running ∧ node.dirtyEntries = [] ∧ (dirtied false).dirtyEntries = (0, 7) :: [] ∧
    (dirtied false).entry 0 = .valid { channel := 7, ctx := opened, dirty := true, newlyFilled := false } ∧
    State.reset.ma.nodeState ≠ .running ∧ Answer.error ≠ .ok ∧
    (dirtied true).entry 0 = .valid { channel := 7, ctx := opened, dirty := true, newlyFilled := false, syncing := true } ∧
    (node.agentTo (.working (command 0x34 []) true)).ma.state = .working (command 0x34 []) true ∧
    (command 0x34 []).code = 0x34 ∧ node.ma.state = .ready := by
  obtain ⟨h, k⟩ := resetQueued_gives (hand node 0x33 [7, 3]) rfl
  have h' := (resetQueued_gives (hand (dirtied false) 0x34 []) rfl).1
  exact ⟨⟨⟨h, by decide +kernel⟩, ⟨h', by decide +kernel⟩, k⟩, by decide +kernel⟩

/-- The node STOPPING with its STOP in hand. -/
def stopping : State :=
  { node with ma := { node.ma with nodeState := .stopping, state := .working (command 0x41 []) true } }

theorem witness_NodeStateCommandsMoveTheNode :
    ((let s := resetQueued (hand node 0x41 []) none
      s.GivesWay (command 0x42 []) [command 0x40 []] ∧ s.InHand 0x41 (command 0x41 []) ∧
        s.ma.nodeState = .running) ∧
     (resetQueued (hand node 0x41 []) (some { tag := 0x1234, payload := [] })).NoneOutOfTurn) ∧
    (hand node 0x40 []).InHand 0x40 (command 0x40 []) ∧
    { node with ma := { node.ma with nodeState := .stopped } }.ma.nodeState = .stopped ∧ node.ma.nodeState ≠ .stopped ∧
    (hand node 0x41 []).InHand 0x41 (command 0x41 []) ∧ node.ma.nodeState = .running ∧
    (∀ c, (node.chan c).msgOpen = false) ∧ stopping.ma.state = .working (command 0x41 []) true ∧
    (command 0x41 []).code = 0x41 ∧ stopping.ma.nodeState = .stopping ∧ (∀ e, stopping.entry e = .free) ∧
    stopping.xc.waitList = [] ∧ (∀ r, (stopping.ring r).state ≠ .sending ∧ (stopping.ring r).access = none) ∧
    (hand node 0x42 []).InHand 0x42 (command 0x42 []) ∧
    (let s : State := { assembling with ma := stopping.ma }
     (s.chan 7).binding = .bound ∧ s.ma.nodeState = .stopping ∧ (s.chan 7).msgOpen = true ∧ (s.chan 7).op = none ∧
     (s.chan 7).residence = .cached 0 ∧ s.entry 0 =
       .valid { channel := 7, ctx := opened, dirty := false, newlyFilled := false } ∧
     (s.pool (s.chan 7).pool).state = .active ∧
     ((s.onPool 0 fun x => { x with state := .faulted }).pool (s.chan 7).pool).state ≠ .active ∧
     ((s.onChan 7 fun ch => { ch with residence := .stored }).chan 7).residence = .stored) ∧
    (∀ c, (stopping.chan c).msgOpen = false ∧ (stopping.chan c).op = none) ∧
    (dirtied false).entry 0 = .valid { channel := 7, ctx := opened, dirty := true, newlyFilled := false } := by
  obtain ⟨h, k⟩ := resetQueued_gives (hand node 0x41 []) rfl
  exact ⟨⟨⟨h, by decide +kernel⟩, k⟩, by decide +kernel⟩

theorem witness_NodeStateMovesOnlyAsStated : exec .tick node = .next (run .tick node) := rfl

/-- A busy part: 7 responses queued, a full command queue and a full event queue. -/
def crowded : State :=
  { synced with
    ia := { responses := List.replicate 8 resetResponse, pointer := 3, runCount := 15 }
    ma := { synced.ma with queue := List.replicate 4 (command 1 []), managers := [{ node := 9, memory := none }] }
    ew := { synced.ew with queue := List.replicate 8 anEvent, lost := 65535 }
    lmp := { order := List.replicate 16 (entryOf 1 true) ++ List.replicate 16 (entryOf 0 false) }
    pending := [.outboundPosition] }

/-- The fullest legal queues of the part, and a step from there. -/
theorem witness_EveryStepKeepsTheLegalRanges :
    crowded.Legal ∧ step crowded = .next (run .outboundPosition { crowded with pending := [] }) := by
  have pools : ∀ p, (crowded.pool p).freeSize = 0 ∧ (crowded.pool p).complSize = 0 ∧ (crowded.pool p).reserved = 0 ∧
      (crowded.pool p).knownFree = 0 ∧ (crowded.pool p).access = none := by decide +kernel
  have entries : ∀ e, crowded.entry e = .free := by decide +kernel
  have stored : ∀ c, (crowded.chan c).residence = .stored := by decide +kernel
  have rings : ∀ r, (crowded.ring r).weight ≤ 15 ∧
      (0 < (crowded.ring r).size → (crowded.ring r).head < (crowded.ring r).size) ∧ (crowded.ring r).fifo = [] ∧
      (crowded.ring r).msg = none ∧ (crowded.ring r).access = none := by decide +kernel
  have reads : ∀ r g, crowded.lmp.bodyReads r g = 0 := fun r g => List.countP_eq_zero.2 fun q hq => by
    have standing : ∀ q ∈ crowded.lmp.standing, q.tag = .event := by decide +kernel
    rw [standing q hq]; exact Bool.false_ne_true
  have slots : ∀ k, (crowded.slot k).lockQueue = [] ∧ (crowded.slot k).holder = none := by decide +kernel
  refine ⟨{ framer := ?_, hold := ?_, cache := ?_, entries := ?_, pools := fun p => ?_,
            rings := fun r => ?_, staged := fun r => ?_, locks := ?_, arbiter := ?_, port := ?_, agent := ?_, writer := ?_ }, rfl⟩
  · exact ⟨rfl, rfl, by decide⟩
  · decide
  · refine ⟨List.nodup_nil, fun e => ?_, List.nodup_nil⟩
    rw [show tget crowded.xc.entries e = .free from entries e]
    constructor
    · intro h; cases h
    · rintro ⟨v, h⟩; cases h
  · exact { named := fun e c r h => by rw [entries e] at h; cases h
            naming := fun c h => absurd (stored c) h
            once := fun c d e r q h => by rw [entries d] at h; cases h
            listed := fun c _ => stored c, unused := fun c _ => stored c }
  · obtain ⟨h1, h2, h3, h4, h5⟩ := pools p
    exact { free_pos := fun h => absurd h (by omega), write_pos := fun h => absurd h (by omega)
            reserved_le := by omega, known_le := by omega, reading := fun c h => by rw [h5] at h; cases h
            inactive := fun _ => ⟨h3, h4, h5⟩ }
  · obtain ⟨h1, h2, h3, h4, h5⟩ := rings r
    exact { weight_le := h1, head_lt := h2, staged_le := by rw [h3]; exact Nat.zero_le 4, resting := fun _ => ⟨h3, h4⟩
            reading := fun h => by rw [h5] at h; rcases h with h | h <;> cases h
            waiting := fun _ => h5 }
  · obtain ⟨_, _, _, h4, _⟩ := rings r
    exact { none_to_come := fun g _ => reads r g, under_way := fun m h => by rw [h4] at h; cases h
            ended := fun m h => by rw [h4] at h; cases h
            in_order := fun m d h => by rw [h4] at h; cases h }
  · exact { nodup := fun k => by rw [(slots k).1]; exact List.nodup_nil
            waiting := fun k r h => by rw [(slots k).1] at h; cases h
            once := fun j k r h => by rw [(slots j).1] at h; cases h
            holding := fun k r h => by rw [(slots k).2] at h; cases h
            held := fun k h => absurd (slots k).1 h }
  · exact ⟨by decide +kernel, by decide +kernel⟩
  · exact ⟨by decide +kernel, by decide +kernel⟩
  · refine ⟨by decide +kernel, by decide +kernel, by decide +kernel, fun cmd h => ?_⟩
    cases h
  · exact ⟨by decide +kernel, by decide +kernel⟩

theorem witness_OnlyConfigurationChangesSettings :
    exec .tick node = .next (run .tick node) ∧ Instr.configures .tick = false := ⟨rfl, rfl⟩

theorem witness_CellAndBytesAgree :
    goodHeader (data .last 7 3).bytes.toList = true ∧ reservedBitSet (data .last 7 3).bytes.toList = false ∧
    (data .first 0 40).fill.toNat ≤ 40 ∧ (data .first 0 40).fill = 40 ∧ (data .first 0 40).kind ≠ .empty ∧
    (data .first 0 40).dest ≠ 63 ∧ (command 1 []).position = .only ∧
    goodHeader { data .first 0 40 with dest := 63 }.bytes.toList = true ∧
    malformed { data .first 0 40 with dest := 63 }.bytes = true ∧
    malformed (data .first 0 40).bytes = false := by decide +kernel

end Sys2Proof.Tests
end

section
/-! What APPLY_CELL does with the oldest applicable held cell, and the stray cell of R42. -/

namespace Sys2Proof.Machine

/-! ### The oldest applicable cell is taken -/

/-- No abort is due iff no channel with a pending abort is ready (R37, R38). -/
theorem State.abortDue_eq_false_iff (s : State) :
    s.abortDue = false ↔ ∀ c, (s.chan c).pendingAbort ≠ .none → s.ready c = false := by
  simp [State.abortDue]

theorem State.halted_eq_false_iff (s : State) : s.halted = false ↔ s.ma.state ≠ .resetWait := by
  simp [State.halted]

/-- APPLY_CELL outside RESET applies a held cell and settles. -/
theorem exec_applyCell_of_not_inReset {s : State} (hreset : s.inReset = false) :
    exec .applyCell s = .next (s.applyHeld.settle s) := by
  show s.liveSettled State.applyHeld = _
  simp [State.liveSettled, State.live, hreset]

/-- The first held cell that can be applied is taken off the queue, and its application begins (R37). -/
theorem State.applyHeld_of_oldest {s : State} {pre post : List HeldCell} {h : HeldCell} (hlive : s.halted = false)
    (hdue : s.abortDue = false) (hhold : s.re.hold = pre ++ h :: post) (hh : s.applicable h = true)
    (hpre : ∀ x ∈ pre, s.applicable x = false) :
    s.applyHeld =
      ((s.onRe fun re => { re with hold := pre ++ post }).touch h.channel).applyTo h.channel h.cell := by
  have found : s.re.hold.find? s.applicable = some h :=
    List.find?_eq_some_iff_append.2 ⟨hh, pre, post, hhold, fun x hx => by simp [hpre x hx]⟩
  have left : s.re.hold.eraseP s.applicable = pre ++ post := by
    rw [hhold, List.eraseP_append_right _ fun x hx => by simp [hpre x hx], List.eraseP_cons_of_pos hh]
  simp [State.applyHeld, State.onRe, hlive, hdue, found, left]

/-! ### The engine's work on a cached channel -/

/-- Of two writes to one table entry the later one stands. -/
@[simp] theorem tset_tset {α : Type} {n : Nat} (v : Vector α n) (i : Fin n) (x y : α) :
    tset (tset v i x) i y = tset v i y := Vector.set_set x i.isLt

@[simp] theorem State.touch_chan (s : State) (c d : Chan) : (s.touch c).chan d = s.chan d := by
  unfold State.touch
  repeat' split
  all_goals rfl

section Cached

variable {s : State} {c : Chan} {e : EntryId} {v : ValidEntry} {f : Context → Context}

/-- Work begun on a cached channel makes its entry most recent and ends its being newly filled (R64, R67). -/
theorem State.touch_of_valid (hres : (s.chan c).residence = .cached e) (hentry : s.entry e = .valid v) :
    s.touch c = (s.setEntry e (.valid { v with newlyFilled := false })).onXc fun xc =>
      { xc with recency := xc.recency.filter (· != e) ++ [e] } := by
  simp only [State.touch, hres, hentry]

theorem State.touch_entry_of_valid (hres : (s.chan c).residence = .cached e) (hentry : s.entry e = .valid v) :
    (s.touch c).entry e = .valid { v with newlyFilled := false } := by
  rw [State.touch_of_valid hres hentry]
  exact tget_tset_self _ _ _

/-- The on-chip context of a cached channel is that of its own entry. -/
theorem State.context_of_valid (hres : (s.chan c).residence = .cached e) (hentry : s.entry e = .valid v)
    (hown : v.channel = c) : s.context c = some v.ctx := by
  simp only [State.context, hres, hentry, hown, if_true]

/-- A change that alters the context of a cached channel makes its entry dirty and marks it changed (R39, R79). -/
theorem State.modContext_of_ne (hres : (s.chan c).residence = .cached e) (hentry : s.entry e = .valid v)
    (hown : v.channel = c) (hne : f v.ctx ≠ v.ctx) :
    s.modContext c f = s.setEntry e (.valid { v with ctx := f v.ctx, dirty := true, changed := true }) := by
  have hbne : (f v.ctx != v.ctx) = true := bne_iff_ne.2 hne
  simp only [State.modContext, hres, hentry, hown, if_true, hbne, Bool.or_true]

/-- Work begun on a cached channel that alters its context: what the cache holds afterwards (R39, R64, R67, R79). -/
theorem State.modContext_touch_of_ne (hres : (s.chan c).residence = .cached e) (hentry : s.entry e = .valid v)
    (hown : v.channel = c) (hne : f v.ctx ≠ v.ctx) :
    (s.touch c).modContext c f = { s with
      xc := { s.xc with
        entries := tset s.xc.entries e (.valid { v with
          ctx := f v.ctx, dirty := true, changed := true, newlyFilled := false })
        recency := s.xc.recency.filter (· != e) ++ [e] } } := by
  have hres' : ((s.touch c).chan c).residence = .cached e := by rw [State.touch_chan, hres]
  rw [State.modContext_of_ne hres' (State.touch_entry_of_valid hres hentry) hown hne,
    State.touch_of_valid hres hentry]
  simp [State.setEntry, State.onXc]

end Cached

/-! ### The stray cell -/

/-- A cell of the forms R42 names starts no message. -/
theorem Cell.starts_eq_false_of_stray {cell : Cell}
    (h : cell.position = .middle ∨ cell.position = .last ∨ (cell.position = .only ∧ cell.fill = 0)) :
    cell.starts = false := by
  obtain hp | hp | ⟨hp, hfill⟩ := h
  · simp [Cell.starts, hp]
  · simp [Cell.starts, hp]
  · simp [Cell.starts, hp, hfill]

/-- Counting a stray cell alters the context even where the count wraps, so the entry is always left dirty. -/
theorem Context.countStray_ne (x : Context) : { x with strayCells := x.strayCells + 1 } ≠ x := by
  intro h
  have hcount : x.strayCells + 1 = x.strayCells := congrArg Context.strayCells h
  bv_omega

/-- A DATA cell that starts nothing, applied to a context with no open message, is only counted (R42). -/
theorem State.applyTo_of_stray {s : State} {c : Chan} {cell : Cell} {x : Context} (hctx : s.context c = some x)
    (hstate : x.state ≠ .assembling) (hdata : cell.kind = .data) (hstarts : cell.starts = false) :
    s.applyTo c cell = s.modContext c fun x => { x with strayCells := x.strayCells + 1 } := by
  simp [State.applyTo, State.applyClosed, hctx, hstate, hdata, hstarts]

/-- A cached channel whose context has no open message: a stray cell taken for it changes its own cache entry and the
recency order, and nothing else (R42, R64). -/
theorem State.applyTo_touch_of_stray {s : State} {c : Chan} {e : EntryId} {v : ValidEntry} {cell : Cell}
    (hres : (s.chan c).residence = .cached e) (hentry : s.entry e = .valid v) (hown : v.channel = c)
    (hstate : v.ctx.state ≠ .assembling) (hdata : cell.kind = .data) (hstarts : cell.starts = false) :
    (s.touch c).applyTo c cell = { s with
      xc := { s.xc with
        entries := tset s.xc.entries e (.valid { v with
          ctx := { v.ctx with strayCells := v.ctx.strayCells + 1 }, dirty := true, changed := true
          newlyFilled := false })
        recency := s.xc.recency.filter (· != e) ++ [e] } } := by
  have hres' : ((s.touch c).chan c).residence = .cached e := by rw [State.touch_chan, hres]
  have hctx : (s.touch c).context c = some v.ctx :=
    State.context_of_valid (v := { v with newlyFilled := false }) hres' (State.touch_entry_of_valid hres hentry) hown
  rw [State.applyTo_of_stray hctx hstate hdata hstarts,
    State.modContext_touch_of_ne hres hentry hown (Context.countStray_ne v.ctx)]

/-- Settles O23: the stray cell is the one APPLY_CELL takes (R37), and counting it is all that its application does. -/
theorem strayCellIsCounted : Obligations.StrayCellIsCounted := by
  intro s pre h post e v hreset hlive hdue hhold hh hpre hres hentry hown hstate hdata hform
  have hclosed : v.ctx.state ≠ .assembling := by
    obtain hs | hs := hstate <;> simp [hs]
  have hcounted := State.applyTo_touch_of_stray (s := s.onRe fun re => { re with hold := pre ++ post }) hres hentry hown
    hclosed hdata (Cell.starts_eq_false_of_stray hform)
  rw [exec_applyCell_of_not_inReset hreset,
    State.applyHeld_of_oldest (s.halted_eq_false_iff.2 hlive) (s.abortDue_eq_false_iff.2 hdue) hhold hh hpre, hcounted]
  rfl

end Sys2Proof.Machine
end

section
/-! The image of a context and its reading back: the bytes of R75, the rules of R76, and the check of R77. -/

namespace Sys2Proof.Machine

/-! ### Values read out of a list of bytes -/

theorem byteAt_drop (l : List Byte) (k j : Nat) : byteAt (l.drop k) j = byteAt l (k + j) := by
  simp [byteAt, List.getD_eq_getElem?_getD]

/-- A 16-bit value is read where its two bytes stand. -/
theorem halfAt_of_drop {l m : List Byte} {k : Nat} {x : Half} (h : l.drop k = be16 x ++ m) : halfAt l k = x := by
  have high : byteAt l k = (x >>> 8).setWidth 8 := by rw [← Nat.add_zero k, ← byteAt_drop, h]; rfl
  have low : byteAt l (k + 1) = x.setWidth 8 := by rw [← byteAt_drop, h]; rfl
  rw [halfAt, high, low]
  ext i hi
  simp only [BitVec.getElem_append]
  grind

/-- The two halves of a 32-bit value are its bytes. -/
theorem be32_eq_be16_append (x : Word) : be32 x = be16 ((x >>> 16).setWidth 16) ++ be16 (x.setWidth 16) := by
  have first : (x >>> 24).setWidth 8 = ((x >>> 16).setWidth 16 >>> 8).setWidth 8 := by ext i hi; grind
  have second : (x >>> 16).setWidth 8 = ((x >>> 16).setWidth 16).setWidth 8 := by ext i hi; grind
  have third : (x >>> 8).setWidth 8 = (x.setWidth 16 >>> 8).setWidth 8 := by ext i hi; grind
  have fourth : x.setWidth 8 = (x.setWidth 16).setWidth 8 := by ext i hi; grind
  rw [be32, first, second, third, fourth]
  rfl

/-- A 32-bit value is read where its four bytes stand. -/
theorem wordAt_of_drop {l m : List Byte} {k : Nat} {x : Word} (h : l.drop k = be32 x ++ m) : wordAt l k = x := by
  have high : halfAt l k = (x >>> 16).setWidth 16 :=
    halfAt_of_drop (h.trans (by rw [be32_eq_be16_append, List.append_assoc]))
  have low : halfAt l (k + 2) = x.setWidth 16 :=
    halfAt_of_drop (m := m) (by rw [← List.drop_drop, h, be32_eq_be16_append]; rfl)
  rw [wordAt, high, low]
  ext i hi
  simp only [BitVec.getElem_append]
  grind

/-- What follows a 32-bit value stands four bytes on. -/
theorem drop_four_of_drop {l m : List Byte} {k : Nat} {x : Word} (h : l.drop k = be32 x ++ m) :
    l.drop (k + 4) = m := by
  rw [← List.drop_drop, h]
  rfl

/-! ### Tables of records of one length -/

section Records

variable {α : Type} {f : α → List Byte} {n : Nat}

/-- Records of n bytes each: the table's bytes from n * i on are those of its records from i on. -/
theorem drop_flatMap_of_length (hf : ∀ a, (f a).length = n) (l : List α) (i : Nat) :
    (l.flatMap f).drop (n * i) = (l.drop i).flatMap f := by
  induction i generalizing l with
  | zero => rfl
  | succ i ih =>
    cases l with
    | nil => simp
    | cons a l =>
      have past : n * (i + 1) = (f a).length + n * i := by rw [hf, Nat.mul_succ, Nat.add_comm]
      rw [List.flatMap_cons, past, ← List.drop_drop, List.drop_left, ih, List.drop_succ_cons]

theorem length_flatMap_of_length (hf : ∀ a, (f a).length = n) (l : List α) :
    (l.flatMap f).length = n * l.length := by
  simp [List.length_flatMap, hf, Nat.mul_comm]

/-- Record i of a table that begins at byte k and is followed by other bytes stands at k + n * i. -/
theorem drop_of_drop_eq_flatMap (hf : ∀ a, (f a).length = n) {bytes rest : List Byte} {k : Nat} {l : List α}
    (h : bytes.drop k = l.flatMap f ++ rest) {i : Nat} (hi : i < l.length) :
    bytes.drop (k + n * i) = f l[i] ++ ((l.drop (i + 1)).flatMap f ++ rest) := by
  have within : n * i ≤ (l.flatMap f).length := by
    rw [length_flatMap_of_length hf]
    exact Nat.mul_le_mul_left n hi.le
  rw [← List.drop_drop, h, List.drop_append_of_le_length within, drop_flatMap_of_length hf,
    List.drop_eq_getElem_cons hi, List.flatMap_cons, List.append_assoc]

end Records

/-! ### The buffer list of an image -/

@[simp] theorem length_eightBuffers (bs : List Buffer) : (eightBuffers bs).length = 8 := by simp [eightBuffers]

/-- The buffers a context has, at most eight, are the first of the eight of its image. -/
theorem take_length_eightBuffers {bs : List Buffer} (h : bs.length ≤ 8) : (eightBuffers bs).take bs.length = bs := by
  rw [eightBuffers, List.take_take, Nat.min_eq_left h, List.take_left]

@[simp] theorem length_bufferEntries (bs : List Buffer) : (bufferEntries bs).length = 48 :=
  (length_flatMap_of_length (n := 6) (fun _ => rfl) _).trans (by simp)

@[simp] theorem length_bufferAddrs (bs : List Buffer) : (bufferAddrs bs).length = 32 :=
  (length_flatMap_of_length (n := 4) (fun _ => rfl) _).trans (by simp)

theorem Context.length_image (x : Context) : x.image.length = 112 := by
  simp [Context.image, be16, be32]

theorem Context.drop_image_entries (x : Context) : x.image.drop 32 = bufferEntries x.buffers ++ bufferAddrs x.buffers :=
  rfl

theorem Context.drop_image_addrs (x : Context) : x.image.drop 80 = bufferAddrs x.buffers := by
  rw [show 80 = 32 + 48 from rfl, ← List.drop_drop, x.drop_image_entries]
  exact List.drop_left' (length_bufferEntries _)

/-- List entry i of a context's image is read back from its two places (R75). -/
theorem imageBuffer_image (x : Context) {i : Nat} (hi : i < (eightBuffers x.buffers).length) :
    imageBuffer x.image i = (eightBuffers x.buffers)[i] := by
  have entry := (drop_of_drop_eq_flatMap (n := 6) (fun _ => rfl) x.drop_image_entries hi).trans
    (List.append_assoc _ _ _)
  have addr := drop_of_drop_eq_flatMap (n := 4) (rest := []) (fun _ => rfl)
    (x.drop_image_addrs.trans (List.append_nil _).symm) hi
  have place : 36 + 6 * i = 32 + 6 * i + 4 := by omega
  rw [imageBuffer, place, wordAt_of_drop entry, halfAt_of_drop (drop_four_of_drop entry), wordAt_of_drop addr]

theorem map_imageBuffer_image (x : Context) : (List.range 8).map (imageBuffer x.image) = eightBuffers x.buffers :=
  List.ext_getElem (by simp) fun i hi hi' => by simp [imageBuffer_image x hi']

/-! ### The fields of an image -/

/-- The fields read from a context's image are the context's, its state told by the discard bit and the buffer count
(R75). -/
theorem Image.ofBytes_image (x : Context) : Image.ofBytes x.image =
    { discard := decide (x.state = .discarding), expectedSeq := x.expectedSeq.setWidth 8
      count := BitVec.ofNat 16 x.buffers.length, bytesSoFar := x.bytesSoFar, crc := x.crc, offset := x.offset
      lastCode := x.lastCode, msgsOk := x.msgsOk, msgsBad := x.msgsBad, strayCells := x.strayCells
      cellsAccepted := x.cellsAccepted, buffers := eightBuffers x.buffers } := by
  have discard : (byteAt x.image 0).getLsbD 0 = decide (x.state = .discarding) := by
    show (if x.state = .discarding then (1 : Byte) else 0).getLsbD 0 = _
    split <;> simp [*]
  have expectedSeq : byteAt x.image 1 = x.expectedSeq.setWidth 8 := rfl
  rw [Image.ofBytes, discard, expectedSeq, map_imageBuffer_image, halfAt_of_drop (k := 2) rfl,
    wordAt_of_drop (k := 4) rfl, wordAt_of_drop (k := 8) rfl, halfAt_of_drop (k := 12) rfl,
    halfAt_of_drop (k := 14) rfl, wordAt_of_drop (k := 16) rfl, wordAt_of_drop (k := 20) rfl,
    wordAt_of_drop (k := 24) rfl, wordAt_of_drop (k := 28) rfl]

/-! ### The state by the first of the rules of R76 -/

theorem Image.state_of_discard {i : Image} (h : i.discard = true) : i.state = .discarding := by
  rw [Image.state, if_pos h]

theorem Image.state_of_count_ne {i : Image} (h : i.discard = false) (hcount : i.count ≠ 0) : i.state = .assembling := by
  rw [Image.state, if_neg (by simp [h]), if_neg hcount]

theorem Image.state_of_count_eq {i : Image} (h : i.discard = false) (hcount : i.count = 0) : i.state = .idle := by
  rw [Image.state, if_neg (by simp [h]), if_pos hcount]

/-- Where the state of a context agrees with its buffer list, its image is rebuilt to that state (R76). -/
theorem Image.state_ofBytes_image {x : Context} (hlen : x.buffers.length ≤ 8)
    (hassembling : x.state = .assembling → x.buffers ≠ []) (hidle : x.state = .idle → x.buffers = []) :
    (Image.ofBytes x.image).state = x.state := by
  have hdiscard : (Image.ofBytes x.image).discard = decide (x.state = .discarding) := by rw [Image.ofBytes_image]
  have hcount : (Image.ofBytes x.image).count = BitVec.ofNat 16 x.buffers.length := by rw [Image.ofBytes_image]
  cases hstate : x.state with
  | discarding => exact Image.state_of_discard (by rw [hdiscard, hstate]; rfl)
  | assembling =>
    have hpos : 0 < x.buffers.length := List.length_pos_of_ne_nil (hassembling hstate)
    exact Image.state_of_count_ne (by rw [hdiscard, hstate]; rfl) (by rw [hcount]; bv_omega)
  | idle => exact Image.state_of_count_eq (by rw [hdiscard, hstate]; rfl) (by rw [hcount, hidle hstate]; rfl)

/-- A context in range whose state agrees with its buffer list is rebuilt from its image. -/
theorem Image.context_ofBytes_image {x : Context} (hlen : x.buffers.length ≤ 8)
    (hassembling : x.state = .assembling → x.buffers ≠ []) (hidle : x.state = .idle → x.buffers = []) :
    (Image.ofBytes x.image).context = x := by
  have hstate := Image.state_ofBytes_image hlen hassembling hidle
  have hcount : (BitVec.ofNat 16 x.buffers.length).toNat = x.buffers.length :=
    Nat.mod_eq_of_lt (by omega)
  have hseq : (x.expectedSeq.setWidth 8).setWidth 4 = x.expectedSeq := by simp
  rw [Image.context, hstate, Image.ofBytes_image]
  simp only [hcount, hseq, take_length_eightBuffers hlen]

/-- An image with the discard bit and a buffer list fails the check, by test 1 or test 2 (R77). -/
theorem Image.failedTest_of_discard_of_count_ne {i : Image} (msgOpen : Bool) (bufSize : Nat) (h : i.discard = true)
    (hcount : i.count ≠ 0) : (i.failedTest msgOpen bufSize).isSome = true := by
  have htest : (i.discard && i.count != 0) = true := by rw [h, bne_iff_ne.2 hcount]; rfl
  by_cases hmany : 8 < i.count.toNat
  · rw [Image.failedTest, if_pos hmany]; rfl
  · rw [Image.failedTest, if_neg hmany, if_pos htest]; rfl

/-- Settles O41: the round trip through the bytes of R75, the rules of R76 in order, and the image no rule of R76 has
to tell apart, which the check of R77 refuses. -/
theorem contextIsRebuiltFromItsImage : Obligations.ContextIsRebuiltFromItsImage := by
  refine ⟨fun x hlen _ hassembling hidle => ⟨x.length_image, Image.context_ofBytes_image hlen hassembling hidle⟩,
    fun i => ⟨Image.state_of_discard, Image.state_of_count_ne, Image.state_of_count_eq, rfl, rfl, rfl, rfl, rfl, rfl,
      rfl, rfl, rfl, rfl⟩,
    fun i msgOpen bufSize => Image.failedTest_of_discard_of_count_ne msgOpen bufSize⟩

end Sys2Proof.Machine
end

section
/-! What an outbound position does with the arbiter's round robin: the choice of R133 and what leaves it alone. -/

namespace Sys2Proof.Machine

/-! ### The choice of a class -/

theorem State.staged_iff (s : State) (r : RingId) : s.staged r = true ↔ (s.ring r).fifo ≠ [] := by
  simp [State.staged]

theorem State.staged_eq_false_iff (s : State) (r : RingId) : s.staged r = false ↔ (s.ring r).fifo = [] := by
  simp [State.staged]

theorem State.staged_of_cons {s : State} {r : RingId} {c : Cell} {rest : List Cell} (h : (s.ring r).fifo = c :: rest) :
    s.staged r = true := (s.staged_iff r).2 (h ▸ List.cons_ne_nil c rest)

/-- The order in which the classes are examined when a run ends: the k-th of them is pointer + k (R133). -/
theorem searchOrder_eq_map (p : RingId) : [p + 1, p + 2, p + 3, p] = (List.range' 1 4).map (p + Fin.ofNat 4 ·) := by
  have last : p + Fin.ofNat 4 4 = p := add_zero p
  change _ = [p + 1, p + 2, p + 3, p + Fin.ofNat 4 4]
  rw [last]

/-- The run goes on: the current class has a cell and its run is below its weight (R133). -/
theorem State.chooseClass_of_run {s : State} (hstaged : s.staged s.ia.pointer = true)
    (hrun : s.ia.runCount < (s.ring s.ia.pointer).weight) :
    s.chooseClass = some (s.ia.pointer, s.ia.runCount + 1) := by
  simp [State.chooseClass, hstaged, hrun]

/-- The run ends: the first class with a cell, in the order of R133, begins a run of its own. -/
theorem State.chooseClass_of_runEnds {s : State} {k : Nat}
    (hend : s.staged s.ia.pointer = false ∨ (s.ring s.ia.pointer).weight ≤ s.ia.runCount) (hk : k ∈ List.range' 1 4)
    (hbefore : ∀ j, 1 ≤ j → j < k → s.staged (s.ia.pointer + Fin.ofNat 4 j) = false)
    (hstaged : s.staged (s.ia.pointer + Fin.ofNat 4 k) = true) :
    s.chooseClass = some (s.ia.pointer + Fin.ofNat 4 k, 1) := by
  have ends : (s.staged s.ia.pointer && decide (s.ia.runCount < (s.ring s.ia.pointer).weight)) = false := by
    obtain h | h := hend <;> simp [h]
  have first : (List.range' 1 4).find? (fun j => s.staged (s.ia.pointer + Fin.ofNat 4 j)) = some k :=
    List.find?_range'_eq_some.2 ⟨hstaged, hk, fun j hj hlt => by rw [hbefore j hj hlt]; rfl⟩
  have found : [s.ia.pointer + 1, s.ia.pointer + 2, s.ia.pointer + 3, s.ia.pointer].find? s.staged =
      some (s.ia.pointer + Fin.ofNat 4 k) := by
    rw [searchOrder_eq_map, List.find?_map]
    exact congrArg (Option.map _) first
  simp only [State.chooseClass, ends, found, Bool.false_eq_true, if_false]

/-- With no cell staged anywhere no class is chosen (R132). -/
theorem State.chooseClass_eq_none {s : State} (hempty : ∀ r, s.staged r = false) : s.chooseClass = none := by
  simp [State.chooseClass, hempty]

/-! ### A free position and the round robin -/

/-- The departure of a staged cell is no business of the arbiter or of Trunk-Out: the choice and the cell stand. -/
theorem State.placeStaged_of_fifo {s : State} {r : RingId} {run : Nat} {c : Cell} {rest : List Cell}
    (hfifo : (s.ring r).fifo = c :: rest) :
    (s.placeStaged r run).ia = { s.ia with pointer := r, runCount := run } ∧
      (s.placeStaged r run).cf.trunkOut = some c.bytes := by
  have moves := State.moves_departed (State.Moves.refl (((s.onIa fun ia =>
    { ia with pointer := r, runCount := run }).onRing r fun x => { x with fifo := rest }).place c)) r c
  simp only [State.placeStaged, hfifo]
  exact ⟨moves.ia, congrArg Framer.trunkOut moves.cf⟩

/-- With no response waiting, the head cell of the class chosen fills the position (R132). -/
theorem State.fillFree_of_chooseClass {s : State} {r : RingId} {run : Nat} {c : Cell} {rest : List Cell}
    (hnone : s.ia.responses = []) (hchosen : s.chooseClass = some (r, run)) (hfifo : (s.ring r).fifo = c :: rest) :
    s.fillFree.ia.pointer = r ∧ s.fillFree.ia.runCount = run ∧ s.fillFree.cf.trunkOut = some c.bytes := by
  have filled : s.fillFree = s.placeStaged r run := by simp only [State.fillFree, hnone, hchosen]
  obtain ⟨hia, htrunk⟩ := State.placeStaged_of_fifo (run := run) hfifo
  rw [filled, hia]
  exact ⟨rfl, rfl, htrunk⟩

/-- State t has the pointer and the run count of state s. -/
def State.SameRun (s t : State) : Prop := t.ia.pointer = s.ia.pointer ∧ t.ia.runCount = s.ia.runCount

theorem State.SameRun.of_ia {s t : State} (h : t.ia = s.ia) : s.SameRun t := by
  rw [State.SameRun, h]
  exact ⟨rfl, rfl⟩

/-- A position that a response fills leaves the round robin, and so does the wait that the response to NODE_RESET
begins (R133, R172). -/
theorem State.sameRun_fillFree_of_response {s : State} (h : s.ia.responses ≠ []) : s.SameRun s.fillFree := by
  obtain ⟨q, rest, hq⟩ := List.exists_cons_of_ne_nil h
  simp only [State.fillFree, hq]
  split
  case isTrue => exact ⟨rfl, rfl⟩
  case isFalse => exact ⟨rfl, rfl⟩

/-- A position that nothing but a response can claim leaves the round robin (R133). -/
theorem State.sameRun_fillFree_of_unstaged {s : State} (hempty : ∀ r, s.staged r = false) : s.SameRun s.fillFree := by
  by_cases hq : s.ia.responses = []
  · have filled : s.fillFree = s.send emptyCell := by
      simp only [State.fillFree, hq, State.chooseClass_eq_none hempty]
    rw [filled]
    exact .of_ia rfl
  · exact State.sameRun_fillFree_of_response hq

/-! ### The outbound position -/

/-- The departure position at hand is done with. -/
def State.dropTransit (s : State) : State := s.onCf fun cf => { cf with transit := cf.transit.tail }

theorem State.dropTransit_of_nil {s : State} (h : s.cf.transit = []) : s.dropTransit = s := by
  have same : ({ s.cf with transit := s.cf.transit.tail } : Framer) = s.cf := by
    rw [h, List.tail_nil, ← h]
  simp only [State.dropTransit, State.onCf, same]

theorem exec_outboundPosition_of_not_inReset {s : State} (hreset : s.inReset = false) :
    exec .outboundPosition s = .next s.outbound := by
  show s.live State.outbound = _
  simp [State.live, hreset]

/-- A position that is owed to no cell is filled as a free one (R14, R132). -/
theorem State.outbound_of_free {s : State} (hdue : s.cf.positionDue = true)
    (hfree : s.cf.transit.head? = none ∨ s.cf.transit.head? = some .free) : s.outbound = s.dropTransit.fillFree := by
  obtain hnone | hsome := hfree
  · have hnil : s.cf.transit = [] := List.head?_eq_none_iff.1 hnone
    rw [State.dropTransit_of_nil hnil]
    simp only [State.outbound, hdue, hnil, if_true]
  · obtain ⟨rest, hcons⟩ := List.head?_eq_some_iff.1 hsome
    simp only [State.outbound, State.dropTransit, State.onCf, hdue, hcons, List.tail_cons, if_true]

/-- A position that carries a passing or a forwarded cell is not offered to the arbiter (R133). -/
theorem State.outbound_ia_of_owed {s : State} {c : Cell}
    (howed : s.cf.transit.head? = some (.passed c) ∨ s.cf.transit.head? = some (.forwarded c)) :
    s.outbound.ia = s.ia := by
  by_cases hdue : s.cf.positionDue = true
  · obtain hpassed | hforwarded := howed
    · obtain ⟨rest, hcons⟩ := List.head?_eq_some_iff.1 hpassed
      simp only [State.outbound, hdue, hcons, if_true]
      rfl
    · obtain ⟨rest, hcons⟩ := List.head?_eq_some_iff.1 hforwarded
      simp only [State.outbound, hdue, hcons, if_true]
      rfl
  · simp only [State.outbound, hdue, Bool.false_eq_true, if_false]

/-- A free position or one that is owed to a cell: what leaves the round robin when it is free does so in either. -/
theorem State.sameRun_outbound {s : State} (hdue : s.cf.positionDue = true)
    (hfill : s.dropTransit.SameRun s.dropTransit.fillFree) : s.SameRun s.outbound := by
  match hhead : s.cf.transit.head? with
  | none => rw [State.outbound_of_free hdue (.inl hhead)]; exact hfill
  | some .free => rw [State.outbound_of_free hdue (.inr hhead)]; exact hfill
  | some (.passed _) => exact .of_ia (State.outbound_ia_of_owed (.inl hhead))
  | some (.forwarded _) => exact .of_ia (State.outbound_ia_of_owed (.inr hhead))

/-- Settles O21: at a free position without a response the choice of R133 is what is placed, and every other position
leaves the pointer and the run count. -/
theorem roundRobinRunsByWeight : Obligations.RoundRobinRunsByWeight := by
  intro s hreset hdue
  refine ⟨s.outbound, exec_outboundPosition_of_not_inReset hreset, fun hfree hnone => ?_, ?_⟩
  · rw [State.outbound_of_free hdue hfree]
    refine ⟨fun c rest hfifo hrun => ?goesOn, fun k q c rest hend hk hq hbefore hfifo => ?ends⟩
    case goesOn =>
      have hstaged := State.staged_of_cons hfifo
      exact State.fillFree_of_chooseClass hnone (State.chooseClass_of_run (s := s.dropTransit) hstaged hrun) hfifo
    case ends =>
      subst hq
      have hchosen := State.chooseClass_of_runEnds (s := s.dropTransit) (hend.imp_left (s.staged_eq_false_iff _).2) hk
        (fun j hj hlt => (s.staged_eq_false_iff _).2 (hbefore j hj hlt)) (State.staged_of_cons hfifo)
      exact State.fillFree_of_chooseClass hnone hchosen hfifo
  · rintro (hresponse | hempty | ⟨c, howed⟩)
    · exact State.sameRun_outbound hdue (State.sameRun_fillFree_of_response hresponse)
    · exact State.sameRun_outbound hdue
        (State.sameRun_fillFree_of_unstaged fun r => (s.staged_eq_false_iff r).2 (hempty r))
    · exact State.SameRun.of_ia (State.outbound_ia_of_owed howed)

end Sys2Proof.Machine
end

section
/-! What one step of the part is, and what every step keeps: the queue of waiting commands, the node's own data and the
settings. -/

namespace Sys2Proof.Machine

open Host (Outcome)

/-! ### The outcome of a step -/

/-- A step answers a next state which stands in this relation. -/
def Next (o : Outcome State Fault Refusal) (P : State → Prop) : Prop := ∃ t, o = .next t ∧ P t

theorem Next.of_eq {o : Outcome State Fault Refusal} {P : State → Prop} (h : Next o P) {t : State}
    (e : o = .next t) : P t := by
  obtain ⟨u, hu, hP⟩ := h
  cases hu.symm.trans e
  exact hP

theorem State.live_of_not_inReset {s : State} {f : State → State} (h : s.inReset = false) :
    s.live f = .next (f s) := by
  simp [State.live, h]

/-- With RESET released a step is what its command makes of the state (R171). -/
theorem State.next_of_not_inReset {s a b : State} (h : s.inReset = false) :
    Outcome.next (φ := Fault) (ρ := Refusal) (if s.inReset then a else b) = .next b :=
  congrArg Outcome.next (if_neg (by rw [h]; exact Bool.false_ne_true))

theorem State.live_of_inReset {s : State} {f : State → State} (h : s.inReset = true) : s.live f = .next s := by
  simp [State.live, h]

theorem State.liveSettled_of_not_inReset {s : State} {f : State → State} (h : s.inReset = false) :
    s.liveSettled f = .next ((f s).settle s) := by
  rw [State.liveSettled, State.live_of_not_inReset h]

/-- What holds of the state itself and of what the step makes of it holds after a step (R171). -/
theorem State.next_live {s : State} {f : State → State} {P : State → Prop} (hrest : P s) (hf : P (f s)) :
    Next (s.live f) P := by
  refine ⟨_, rfl, ?_⟩
  split
  · exact hrest
  · exact hf

theorem State.next_liveSettled {s : State} {f : State → State} {P : State → Prop} (hrest : P s)
    (hf : P ((f s).settle s)) : Next (s.liveSettled f) P :=
  State.next_live (f := fun s => (f s).settle s) hrest hf

/-! ### The command in hand -/

/-- The command handed to its owner is the one the agent is WORKING on, and has this code (R162). -/
theorem State.handed_eq_some_iff {s : State} {code : Byte} {cmd : Cell} :
    s.handed code = some cmd ↔ s.ma.state = .working cmd false ∧ cmd.code = code := by
  rw [State.handed]
  split
  case h_1 c hstate => simp only [hstate]; grind
  all_goals simp_all

/-- What a command's owner does holds what holds of the state itself and of each command in hand. -/
theorem State.command_rec {s : State} {code : Byte} {f : Cell → State → State} {P : State → Prop} (hrest : P s)
    (hf : ∀ cmd, s.ma.state = .working cmd false → cmd.code = code → P (f cmd s)) : P (s.command code f) := by
  rw [State.command]
  split
  case h_1 cmd h =>
    obtain ⟨hstate, hcode⟩ := State.handed_eq_some_iff.1 h
    exact hf cmd hstate hcode
  case h_2 => exact hrest

theorem State.command_of_inHand {s : State} {code : Byte} {cmd : Cell} {f : Cell → State → State}
    (h : s.InHand code cmd) : s.command code f = f cmd s := by
  obtain ⟨-, hstate, hcode⟩ := h
  rw [State.command, State.handed_eq_some_iff.2 ⟨hstate, hcode⟩]

/-- A management command in hand is run by its owner. -/
theorem State.live_command_of_inHand {s : State} {code : Byte} {cmd : Cell} {f : Cell → State → State}
    (h : s.InHand code cmd) : (s.live fun s => s.command code f) = .next (f cmd s) := by
  rw [State.live_of_not_inReset h.1, State.command_of_inHand h]

/-- A management command in hand that may move the engine or the cache is run by its owner. -/
theorem State.liveSettled_command_of_inHand {s : State} {code : Byte} {cmd : Cell} {f : Cell → State → State}
    (h : s.InHand code cmd) : (s.liveSettled fun s => s.command code f) = .next ((f cmd s).settle s) := by
  rw [State.liveSettled_of_not_inReset h.1, State.command_of_inHand h]

/-! ### What a step keeps -/

/-- The queue of waiting commands and the node's own data are as they were. -/
structure State.SameNode (s t : State) : Prop where
  pending : t.pending = s.pending
  nodeId : t.ma.nodeId = s.ma.nodeId
  nodeTime : t.ma.nodeTime = s.ma.nodeTime
  nodeState : t.ma.nodeState = s.ma.nodeState

/-- The queue, the node's own data and every setting are as they were. -/
structure State.Keeps (s t : State) : Prop extends s.SameNode t where
  settings : t.settings = s.settings

theorem State.Keeps.refl (s : State) : s.Keeps s := ⟨⟨rfl, rfl, rfl, rfl⟩, rfl⟩

theorem State.SameNode.refl (s : State) : s.SameNode s := ⟨rfl, rfl, rfl, rfl⟩

theorem State.SameNode.trans {a b c : State} (h : a.SameNode b) (k : b.SameNode c) : a.SameNode c :=
  ⟨k.pending.trans h.pending, k.nodeId.trans h.nodeId, k.nodeTime.trans h.nodeTime, k.nodeState.trans h.nodeState⟩

theorem State.Keeps.trans {a b c : State} (h : a.Keeps b) (k : b.Keeps c) : a.Keeps c :=
  ⟨h.toSameNode.trans k.toSameNode, k.settings.trans h.settings⟩

theorem State.Moves.keeps {s t : State} (h : s.Moves t) : s.Keeps t where
  pending := h.pending
  nodeId := congrArg Settings.nodeId h.settings
  nodeTime := h.nodeTime
  nodeState := h.nodeState
  settings := h.settings

section Updates

variable {o s : State}

/-- An update of parts that no setting stands in. -/
theorem State.Keeps.same {t : State} (h : o.Keeps s) (hpending : t.pending = s.pending) (hma : t.ma = s.ma)
    (hsettings : t.settings = s.settings) : o.Keeps t :=
  h.trans ⟨⟨hpending, by rw [hma], by rw [hma], by rw [hma]⟩, hsettings⟩

theorem State.keeps_onCf (h : o.Keeps s) (f : Framer → Framer) : o.Keeps (s.onCf f) := h.same rfl rfl rfl

theorem State.keeps_onIa (h : o.Keeps s) (f : Arbiter → Arbiter) : o.Keeps (s.onIa f) := h.same rfl rfl rfl

theorem State.keeps_onCounters (h : o.Keeps s) (f : Counters → Counters) : o.Keeps (s.onCounters f) :=
  h.same rfl rfl rfl

theorem State.keeps_onRe (h : o.Keeps s) (f : Reassembly → Reassembly) (hf : (f s.re).channels = s.re.channels) :
    o.Keeps (s.onRe f) :=
  h.same rfl rfl (by simp [State.settings, State.chan, State.circuit, State.pool, State.ring, State.slot, hf])

theorem State.keeps_onSu (h : o.Keeps s) (f : Segmentation → Segmentation) (hrings : (f s.su).rings = s.su.rings)
    (hslots : (f s.su).slots = s.su.slots) (hpoll : (f s.su).txPoll = s.su.txPoll) : o.Keeps (s.onSu f) :=
  h.same rfl rfl (by simp [State.settings, State.ring, State.slot, hrings, hslots, hpoll])

theorem State.keeps_onLmp (h : o.Keeps s) (f : Port → Port) (hf : (f s.lmp).memTimeout = s.lmp.memTimeout) :
    o.Keeps (s.onLmp f) :=
  h.same rfl rfl (by simp [State.settings, hf])

theorem State.keeps_onMa (h : o.Keeps s) (f : Agent → Agent) (hid : (f s.ma).nodeId = s.ma.nodeId)
    (htime : (f s.ma).nodeTime = s.ma.nodeTime) (hstate : (f s.ma).nodeState = s.ma.nodeState)
    (hmanagers : (f s.ma).managers.map (·.node) = s.ma.managers.map (·.node)) : o.Keeps (s.onMa f) :=
  h.trans ⟨⟨rfl, hid, htime, hstate⟩, by simp [State.settings, hid, hmanagers]⟩

theorem State.keeps_agentTo (h : o.Keeps s) (a : AgentState) : o.Keeps (s.agentTo a) :=
  State.keeps_onMa h _ rfl rfl rfl rfl

theorem State.keeps_answer (h : o.Keeps s) (cmd : Cell) (st : MgmtStatus) (r : List Byte) :
    o.Keeps (s.answer cmd st r) :=
  State.keeps_agentTo h _

theorem State.keeps_raise (h : o.Keeps s) (k : EventKind) (x d : Nat) (w : Word) : o.Keeps (s.raise k x d w) :=
  h.trans (State.moves_raise (.refl s) k x d w).keeps

end Updates

end Sys2Proof.Machine
end

section
/-! The trunk, the agent and the commands of the part keep the queue, the node's own data and, but for the
configuration commands, the settings. -/

namespace Sys2Proof.Machine

/-! ### The agent -/

section Agent

variable {o s : State}

theorem State.keeps_executeNodeReset (h : o.Keeps s) (cmd : Cell) : o.Keeps (s.executeNodeReset cmd) :=
  State.keeps_answer h _ _ _

theorem State.keeps_examineQueue (h : o.Keeps s) : o.Keeps s.examineQueue := by
  rw [State.examineQueue]
  split
  · split
    · exact State.keeps_executeNodeReset (State.keeps_onMa h _ rfl rfl rfl rfl) _
    · exact h
  all_goals exact h

theorem State.keeps_goLong (h : o.Keeps s) (cmd : Cell) : o.Keeps (s.goLong cmd) :=
  State.keeps_examineQueue (State.keeps_agentTo h _)

theorem State.keeps_joinCommands (h : o.Keeps s) (cmd : Cell) : o.Keeps (s.joinCommands cmd) := by
  rw [State.joinCommands]
  split
  · exact State.keeps_examineQueue (State.keeps_onMa h _ rfl rfl rfl rfl)
  · exact State.keeps_onCounters h _

theorem State.keeps_executeCommand (h : o.Keeps s) (cmd : Cell) : o.Keeps (s.executeCommand cmd) := by
  rw [State.executeCommand]
  split
  · exact State.keeps_agentTo h _
  · exact State.keeps_answer h _ _ _

theorem State.keeps_authorize (h : o.Keeps s) (cmd : Cell) : o.Keeps (s.authorize cmd) := by
  rw [State.authorize]
  split
  · split
    · exact State.keeps_agentTo h _
    · exact State.keeps_executeCommand h _
  · split
    · exact State.keeps_executeCommand h _
    · exact State.keeps_agentTo (State.keeps_onCounters h _) _

theorem State.keeps_screen (h : o.Keeps s) (cmd : Cell) : o.Keeps (s.screen cmd) := by
  rw [State.screen]
  split
  · exact State.keeps_onCounters h _
  · split
    · exact State.keeps_onCounters h _
    · exact State.keeps_authorize h _

theorem State.keeps_takeCommand (h : o.Keeps s) : o.Keeps s.takeCommand := by
  rw [State.takeCommand]
  split
  · split
    · exact h
    · exact State.keeps_screen (State.keeps_onMa h _ rfl rfl rfl rfl) _
  · exact h

/-- Storing a response leaves the nodes of the manager list (R161). -/
@[simp] theorem map_node_storeFor (ms : List Manager) (n : Node) (m : StoredResponse) :
    (storeFor ms n m).map (·.node) = ms.map (·.node) := by
  rw [storeFor, List.map_map]
  refine List.map_congr_left fun x _ => ?_
  show (if x.node = n then _ else x : Manager).node = x.node
  split <;> rfl

theorem State.keeps_storeResponse (h : o.Keeps s) (r : Reply) : o.Keeps (s.storeResponse r) := by
  rw [State.storeResponse]
  split
  · exact State.keeps_onMa h _ rfl rfl rfl (map_node_storeFor _ _ _)
  · exact h

theorem State.keeps_raiseConfig (h : o.Keeps s) (r : Reply) : o.Keeps (s.raiseConfig r) := by
  rw [State.raiseConfig]
  split
  · split
    · exact State.keeps_raise h _ _ _ _
    · exact h
  · exact h

theorem State.keeps_handOver (h : o.Keeps s) (r : Reply) : o.Keeps (s.handOver r) :=
  State.keeps_agentTo (State.keeps_raiseConfig (State.keeps_storeResponse (State.keeps_onIa h _) _) _) _

end Agent

/-! ### The inbound trunk -/

section Inbound

variable {o s : State}

theorem State.keeps_depart (h : o.Keeps s) (d : Departure) : o.Keeps (s.depart d) := State.keeps_onCf h _

theorem State.keeps_hopExpire (h : o.Keeps s) : o.Keeps s.hopExpire :=
  State.keeps_depart (State.keeps_onCounters h _) _

theorem State.keeps_pass (h : o.Keeps s) (c : Cell) : o.Keeps (s.pass c) := by
  rw [State.pass]
  split
  · exact State.keeps_hopExpire h
  · exact State.keeps_depart h _

theorem State.keeps_forward (h : o.Keeps s) (x : Circuit) (c : Cell) : o.Keeps (s.forward x c) := by
  rw [State.forward]
  split
  · exact State.keeps_hopExpire h
  · exact State.keeps_depart h _

theorem State.keeps_fetchRequest (h : o.Keeps s) (c : Chan) : o.Keeps (s.fetchRequest c) :=
  h.trans (State.moves_fetchRequest (.refl s) c).keeps

theorem State.keeps_holdCell (h : o.Keeps s) (c : Chan) (cell : Cell) : o.Keeps (s.holdCell c cell) := by
  simp only [State.holdCell]
  split
  · split
    · exact State.keeps_fetchRequest (State.keeps_onRe h _ rfl) _
    · exact State.keeps_onRe h _ rfl
  · split
    · have hmark := State.moves_onChan (.refl (s.onCounters fun k => { k with holdOverflow := k.holdOverflow + 1 })) c
        (fun ch => { ch with pendingAbort := .holdfull }) fun _ => rfl
      exact State.keeps_raise ((State.keeps_onCounters h _).trans hmark.keeps) _ _ _ _
    · exact State.keeps_onCounters h _

theorem State.keeps_deliver (h : o.Keeps s) (c : Chan) (cell : Cell) : o.Keeps (s.deliver c cell) := by
  rw [State.deliver]
  split
  · exact State.keeps_onCounters h _
  · split
    · exact State.keeps_onCounters h _
    · split
      · exact State.keeps_onCounters h _
      · exact State.keeps_holdCell h _ _

/-- The matched counter is no setting (R18, R20). -/
theorem State.keeps_countMatched (h : o.Keeps s) (label : BitVec 11) : o.Keeps (s.countMatched label) := by
  refine h.same rfl rfl ?_
  have hcircuit : ∀ l, ((s.countMatched label).circuit l).setting = (s.circuit l).setting := fun l => by
    rw [State.circuit, State.countMatched, State.onCc_cc, tget_tmod]
    split <;> rfl
  simp only [State.settings, hcircuit]
  rfl

theorem State.keeps_lookup (h : o.Keeps s) (c : Cell) : o.Keeps (s.lookup c) := by
  simp only [State.lookup]
  split
  · exact State.keeps_depart (State.keeps_onCounters h _) _
  · exact State.keeps_depart (State.keeps_countMatched h _) _
  · exact State.keeps_depart (State.keeps_deliver (State.keeps_countMatched h _) _ _) _
  · exact State.keeps_forward (State.keeps_countMatched h _) _ _
  · exact State.keeps_forward (State.keeps_deliver (State.keeps_countMatched h _) _ _) _ _

theorem State.keeps_discardResponse (h : o.Keeps s) : o.Keeps s.discardResponse := State.keeps_onCounters h _

theorem State.keeps_routeResponse (h : o.Keeps s) (cell : Cell) : o.Keeps (s.routeResponse cell) := by
  rw [State.routeResponse]
  split
  · exact State.keeps_discardResponse h
  · split
    · exact State.keeps_discardResponse h
    · split
      · exact State.keeps_discardResponse h
      · split
        · exact State.keeps_discardResponse h
        · exact State.keeps_holdCell h _ _

theorem State.keeps_handOn (h : o.Keeps s) (c : Cell) : o.Keeps (s.handOn c) := by
  rw [State.handOn]
  split
  · exact State.keeps_depart h _
  · exact State.keeps_lookup h _
  · exact State.keeps_depart (State.keeps_joinCommands h _) _
  · exact State.keeps_depart (State.keeps_routeResponse h _) _

theorem State.keeps_dispose (h : o.Keeps s) (c : Cell) : o.Keeps (s.dispose c) := by
  rw [State.dispose]
  split
  · exact State.keeps_depart h _
  · split
    · exact State.keeps_handOn h _
    · split
      · exact State.keeps_pass (State.keeps_joinCommands h _) _
      · split
        · exact State.keeps_depart (State.keeps_onCounters h _) _
        · exact State.keeps_pass h _

theorem State.keeps_headerError (h : o.Keeps s) : o.Keeps s.headerError := by
  simp only [State.headerError]
  have hcounted := State.keeps_depart
    (State.keeps_onCounters h fun k => { k with hdrErrors := k.hdrErrors + 1 }) .free
  split
  · exact State.keeps_raise (State.keeps_onCf hcounted _) _ _ _ _
  · exact State.keeps_onCf hcounted _

theorem State.keeps_syncArrival (h : o.Keeps s) (raw : RawCell) : o.Keeps (s.syncArrival raw) := by
  simp only [State.syncArrival]
  split
  · have hread := State.keeps_onCf (State.keeps_onCf h Framer.firstInSync) fun cf =>
      { cf with badRun := 0, streamPos := cf.streamPos + 48 }
    split
    · exact State.keeps_depart (State.keeps_onCounters hread _) _
    · exact State.keeps_dispose hread _
  · exact State.keeps_headerError (State.keeps_onCf h _)

end Inbound

/-! ### The outbound trunk -/

section Outbound

variable {o s : State}

theorem State.keeps_place (h : o.Keeps s) (c : Cell) : o.Keeps (s.place c) :=
  State.keeps_onCounters (State.keeps_onCf h _) _

theorem State.keeps_enterResetWait (h : o.Keeps s) : o.Keeps s.enterResetWait := by
  have hport := State.keeps_onLmp (State.keeps_agentTo h .resetWait) (fun p =>
    { p with ctx := [], dlv := [], seg := [], evt := [], agt := [], offered := none }) rfl
  refine hport.same rfl rfl ?_
  simp only [State.settings, State.enterResetWait, State.ring, State.onSu_su, tget_map]
  rfl

theorem State.keeps_placeStaged (h : o.Keeps s) (r : RingId) (run : Nat) : o.Keeps (s.placeStaged r run) := by
  rw [State.placeStaged]
  split
  · exact h
  case h_2 cell rest _ =>
    have hunstaged := h.trans <| (State.keeps_onIa (.refl s) fun ia => { ia with pointer := r, runCount := run }).trans
      (State.moves_onRing (.refl _) r (fun x => { x with fifo := rest }) fun _ => rfl).keeps
    exact (State.keeps_place hunstaged cell).trans (State.moves_departed (.refl _) r cell).keeps

theorem State.keeps_fillFree (h : o.Keeps s) : o.Keeps s.fillFree := by
  rw [State.fillFree]
  split
  · simp only []
    have hplaced := fun ia (q : QueuedResponse) => State.keeps_place (State.keeps_onIa h ia) q.cell
    split
    · exact State.keeps_enterResetWait (hplaced _ _)
    · exact hplaced _ _
  · split
    · exact State.keeps_placeStaged h _ _
    · exact State.keeps_onCf h _

theorem State.keeps_outbound (h : o.Keeps s) : o.Keeps s.outbound := by
  rw [State.outbound]
  split
  · split
    · exact State.keeps_fillFree h
    · simp only []
      split
      · exact State.keeps_fillFree (State.keeps_onCf h _)
      · exact State.keeps_onCounters (State.keeps_onCf (State.keeps_onCf h _) _) _
      · exact State.keeps_onCounters (State.keeps_onCf (State.keeps_onCf h _) _) _
  · exact h

end Outbound

/-! ### Time, the port and the engine -/

section Rest

variable {o s : State}

theorem State.keeps_settle (h : o.Keeps s) (b : State) : o.Keeps (s.settle b) :=
  h.trans (State.moves_settle (.refl s) b).keeps

theorem State.keeps_scanChannel (h : o.Keeps s) (c : Chan) : o.Keeps (s.scanChannel c) := by
  simp only [State.scanChannel]
  split
  · exact h
  · have hscanned := State.keeps_onRe h (fun re => { re with scanned := c :: re.scanned }) rfl
    split
    · exact hscanned.trans (State.moves_deadlineFound (.refl _) c).keeps
    · exact hscanned

theorem State.keeps_give (h : o.Keeps s) (tag : RequestTag) (a : Answer) (bytes : List Byte) :
    o.Keeps (s.give tag a bytes) :=
  h.trans (State.moves_give (.refl s) tag a bytes).keeps

theorem State.keeps_respond (h : o.Keeps s) (r : Request) (result : BusResult) (data : List Byte) :
    o.Keeps (s.respond r result data) := by
  rw [State.respond.eq_def]
  split
  · exact State.keeps_give (State.keeps_onCounters h _) _ _ _
  · split
    · exact State.keeps_give h _ _ _
    · simp only []
      split
      · exact State.keeps_give (h.same (t := { s with freeReads := s.freeReads + 1 }) rfl rfl rfl) _ _ _
      · exact State.keeps_give h _ _ _

theorem State.keeps_paired (h : o.Keeps s) (result : BusResult) (data : List Byte) :
    o.Keeps (s.paired result data) := by
  rw [State.paired]
  split
  · exact h
  · simp only []
    split
    · exact State.keeps_respond (State.keeps_onLmp h _ rfl) _ _ _
    · exact State.keeps_onLmp h _ rfl

theorem State.keeps_expireRequest (h : o.Keeps s) : o.Keeps s.expireRequest := by
  rw [State.expireRequest]
  split
  · exact State.keeps_give (State.keeps_onCounters (State.keeps_onLmp h _ rfl) _) _ _ _
  · exact h

theorem State.keeps_beginUnbind (h : o.Keeps s) (c : Chan) : o.Keeps (s.beginUnbind c) := by
  have hunbinding := State.moves_onChan (.refl s) c
    (fun ch => { ch with binding := .unbinding, pendingAbort := .none }) fun _ => rfl
  exact h.trans (State.moves_onCounters (State.moves_dropHeld hunbinding (· == c)) fun k =>
    { k with nochannel := k.nochannel + s.heldCount (· == c) }).keeps

theorem State.keeps_stopReceive (h : o.Keeps s) : o.Keeps s.stopReceive := by
  have hheld : o.Keeps s.stopHolding := by
    have hdropped := h.trans (State.moves_dropHeld (State.moves_onCounters (.refl s) fun k =>
      { k with datapathOff := k.datapathOff + s.heldCount fun _ => true }) fun _ => true).keeps
    refine State.Keeps.trans ?_ (State.moves_endNewlyFilled (.refl _)).keeps
    refine hdropped.same rfl rfl ?_
    simp only [State.settings, State.chan, State.onRe_re, tget_map]
    rfl
  refine hheld.trans (State.moves_forAll 256 _ (fun c u hu => ?_) (.refl _)).keeps
  split
  · exact State.moves_fetchRequest hu c
  · exact hu

theorem State.keeps_serveContextRead (h : o.Keeps s) (cmd : Cell) (c : Chan) (part : Fin 4) :
    o.Keeps (s.serveContextRead cmd c part) := by
  have hawait : ∀ u : State, o.Keeps u → ∀ stage, o.Keeps (u.awaitContext c part stage) := fun u hu stage =>
    hu.trans (State.moves_onXc (.refl u) _ rfl).keeps
  rw [State.serveContextRead]
  split
  · split
    · exact State.keeps_answer h _ _ _
    · exact h
  · exact State.keeps_goLong (hawait _ h _) _
  · exact State.keeps_goLong (hawait _ h _) _
  · split
    · exact State.keeps_examineQueue (State.keeps_fetchRequest (hawait _ (State.keeps_agentTo h _) _) _)
    · exact State.keeps_goLong (h.trans (State.moves_readStore (.refl s) c part).keeps) _

end Rest

end Sys2Proof.Machine
end

section
/-! What every command keeps of the queue, the node's own data and the settings, said once for each command; and the
statements about them. -/

namespace Sys2Proof.Machine

/-! ### The commands that neither configure nor move the node -/

/-- What a command keeps of the queue, the node's own data and the settings: node time moves at ticks, the node state by
the table of R166, a setting at a configuration command, and all of them at the resets. -/
structure StepKeeps (c : Instr) (s t : State) : Prop where
  pending : t.pending = s.pending
  nodeId : (∀ n, c ≠ .resetReleased n) → t.ma.nodeId = s.ma.nodeId
  nodeTime : (∀ n, c ≠ .resetReleased n) → c ≠ .tick → t.ma.nodeTime = s.ma.nodeTime
  ticked : c = .tick → t.ma.nodeTime = if s.inReset then s.ma.nodeTime else s.ma.nodeTime + 1
  nodeState : t.ma.nodeState = s.ma.nodeState ∨
    (c = .setLocalMap ∧ s.ma.nodeState = .unconfigured ∧ t.ma.nodeState = .stopped) ∨
    (c = .start ∧ s.ma.nodeState = .stopped ∧ t.ma.nodeState = .running) ∨
    (c = .stop ∧ s.ma.nodeState = .running ∧ t.ma.nodeState = .stopping) ∨
    (c = .stopDrainComplete ∧ s.ma.nodeState = .stopping ∧ t.ma.nodeState = .stopped) ∨
    (((∃ n, c = .resetReleased n) ∨ c = .nodeResetTakesEffect) ∧ t.ma.nodeState = .unconfigured)
  settings : Instr.configures c = false → t.settings = s.settings

section

variable {c : Instr} {s : State}

theorem State.Keeps.stepKeeps {t : State} (h : s.Keeps t) (hc : c ≠ .tick) : StepKeeps c s t where
  pending := h.pending
  nodeId _ := h.nodeId
  nodeTime _ _ := h.nodeTime
  ticked e := absurd e hc
  nodeState := .inl h.nodeState
  settings _ := h.settings

/-- A configuration command may change settings and keeps the rest. -/
theorem State.SameNode.stepKeeps {t : State} (h : s.SameNode t) (hc : Instr.configures c = true) : StepKeeps c s t where
  pending := h.pending
  nodeId _ := h.nodeId
  nodeTime _ _ := h.nodeTime
  ticked e := by subst e; simp [Instr.configures] at hc
  nodeState := .inl h.nodeState
  settings e := absurd hc (by simp [e])

theorem next_live_keeps {f : State → State} (hc : c ≠ .tick) (hf : s.Keeps (f s)) :
    Next (s.live f) (StepKeeps c s) :=
  State.next_live ((State.Keeps.refl s).stepKeeps hc) (hf.stepKeeps hc)

theorem next_liveSettled_keeps {f : State → State} (hc : c ≠ .tick) (hf : s.Keeps (f s)) :
    Next (s.liveSettled f) (StepKeeps c s) :=
  State.next_liveSettled ((State.Keeps.refl s).stepKeeps hc) ((State.keeps_settle hf s).stepKeeps hc)

theorem next_command_keeps {code : Byte} {f : Cell → State → State} (hc : c ≠ .tick)
    (hf : ∀ cmd, s.Keeps (f cmd s)) : Next (s.live fun s => s.command code f) (StepKeeps c s) :=
  next_live_keeps hc (State.command_rec (P := s.Keeps) (.refl s) fun cmd _ _ => hf cmd)

theorem next_settledCommand_keeps {code : Byte} {f : Cell → State → State} (hc : c ≠ .tick)
    (hf : ∀ cmd, s.Keeps (f cmd s)) : Next (s.liveSettled fun s => s.command code f) (StepKeeps c s) :=
  next_liveSettled_keeps hc (State.command_rec (P := s.Keeps) (.refl s) fun cmd _ _ => hf cmd)

/-- A configuration command in hand, of which every outcome keeps the queue and the node's own data. -/
theorem next_configure_keeps {code : Byte} {f : Cell → State → State} (hc : Instr.configures c = true)
    (hf : ∀ cmd, s.SameNode (f cmd s)) : Next (s.live fun s => s.command code f) (StepKeeps c s) :=
  State.next_live ((State.SameNode.refl s).stepKeeps hc)
    (State.command_rec ((State.SameNode.refl s).stepKeeps hc) fun cmd _ _ => (hf cmd).stepKeeps hc)

end

section Commands

variable (s : State)

theorem execHuntTrial_keeps (header : Vector Byte 8) :
    Next (execHuntTrial header s) (StepKeeps (.huntTrial header) s) := by
  rw [execHuntTrial]
  refine next_live_keeps (c := (.huntTrial header)) (by simp) ?_
  split
  · exact State.keeps_onCf (.refl s) _
  · exact .refl s

theorem execPresyncCell_keeps (cell : RawCell) :
    Next (execPresyncCell cell s) (StepKeeps (.presyncCell cell) s) := by
  rw [execPresyncCell]
  refine next_live_keeps (c := (.presyncCell cell)) (by simp) ?_
  have hread := State.keeps_onCf (.refl s) fun cf => { cf with goodRun := cf.goodRun + 1, streamPos := cf.streamPos + 48 }
  split
  · split
    · simp only []
      split
      · exact State.keeps_raise (State.keeps_onCf hread _) _ _ _ _
      · exact hread
    · exact State.keeps_onCf (.refl s) _
  · exact .refl s

theorem execSyncCell_keeps (cell : RawCell) : Next (execSyncCell cell s) (StepKeeps (.syncCell cell) s) := by
  rw [execSyncCell]
  refine next_liveSettled_keeps (c := (.syncCell cell)) (by simp) ?_
  split
  · exact State.keeps_syncArrival (.refl s) _
  · exact .refl s

theorem execReserve_keeps (p : PoolId) : Next (execReserve p s) (StepKeeps (.reserve p) s) := by
  rw [execReserve]
  refine next_liveSettled_keeps (c := (.reserve p)) (by simp) ?_
  split
  · exact (State.moves_takeReserve (State.moves_popRequest (.refl s) p) p _).keeps
  all_goals exact .refl s

theorem execTake_keeps (p : PoolId) : Next (execTake p s) (StepKeeps (.take p) s) := by
  rw [execTake]
  refine next_liveSettled_keeps (c := (.take p)) (by simp) ?_
  split
  · exact (State.moves_takeTake (State.moves_popRequest (.refl s) p) p _).keeps
  all_goals exact .refl s

theorem execCompletionWrite_keeps (p : PoolId) :
    Next (execCompletionWrite p s) (StepKeeps (.completionWrite p) s) := by
  rw [execCompletionWrite]
  refine next_liveSettled_keeps (c := (.completionWrite p)) (by simp) ?_
  split
  · exact (State.moves_takeComplete (State.moves_popRequest (.refl s) p) p _ _).keeps
  all_goals exact .refl s

theorem execRequestGrant_keeps : Next (execRequestGrant s) (StepKeeps .requestGrant s) := by
  rw [execRequestGrant]
  refine next_live_keeps (c := .requestGrant) (by simp) ?_
  split
  · split
    · exact State.keeps_onLmp (.refl s) _ (Port.setLine_memTimeout _ _ _)
    · exact .refl s
  · exact .refl s

theorem execBusAccept_keeps : Next (execBusAccept s) (StepKeeps .busAccept s) := by
  rw [execBusAccept]
  refine next_live_keeps (c := .busAccept) (by simp) ?_
  split
  · exact State.keeps_onLmp (.refl s) _ rfl
  · exact .refl s

theorem execIntervalPoll_keeps : Next (execIntervalPoll s) (StepKeeps .intervalPoll s) := by
  rw [execIntervalPoll]
  refine next_live_keeps (c := .intervalPoll) (by simp) ?_
  split
  · exact .refl s
  · exact State.keeps_onSu (State.moves_pollAll (.refl s)).keeps _ rfl rfl rfl

theorem execAttnEdge_keeps : Next (execAttnEdge s) (StepKeeps .attnEdge s) := by
  rw [execAttnEdge]
  exact next_live_keeps (c := .attnEdge) (by simp)
    (State.moves_pollAll (State.moves_onEw (.refl s) (fun ew => { ew with lint := false }) rfl rfl rfl id)).keeps

theorem execEventServe_keeps : Next (execEventServe s) (StepKeeps .eventServe s) := by
  rw [execEventServe]
  refine next_live_keeps (c := .eventServe) (by simp) ?_
  split
  · exact .refl s
  · split
    · exact (State.moves_requestRead (State.moves_onEw (.refl s) (fun ew => { ew with access := .ownerRead false })
        rfl rfl rfl id) _ _ _ _).keeps
    · exact .refl s

theorem execChannelUnbound_keeps (c : Chan) :
    Next (execChannelUnbound c s) (StepKeeps (.channelUnbound c) s) := by
  rw [execChannelUnbound]
  refine next_liveSettled_keeps (c := (.channelUnbound c)) (by simp) ?_
  split
  · exact .refl s
  · exact (State.moves_finishLong (State.moves_becomeUnbound (.refl s) c) _ _ _).keeps

theorem execResponseHandover_keeps : Next (execResponseHandover s) (StepKeeps .responseHandover s) := by
  rw [execResponseHandover]
  refine next_live_keeps (c := .responseHandover) (by simp) ?_
  split
  · split
    · exact State.keeps_handOver (.refl s) _
    · exact .refl s
  all_goals exact .refl s

theorem execReadCounters_keeps : Next (execReadCounters s) (StepKeeps .readCounters s) := by
  rw [execReadCounters]
  refine next_command_keeps (c := .readCounters) (by simp) fun cmd => ?_
  simp only []
  split
  · exact State.keeps_answer (.refl s) _ _ _
  · split
    · exact State.keeps_answer (State.keeps_onCounters (.refl s) _) _ _ _
    · exact State.keeps_answer (.refl s) _ _ _

theorem execReadCircuit_keeps : Next (execReadCircuit s) (StepKeeps .readCircuit s) := by
  rw [execReadCircuit]
  refine next_command_keeps (c := .readCircuit) (by simp) fun cmd => ?_
  simp only []
  split <;> exact State.keeps_answer (.refl s) _ _ _

theorem execUnbindChannel_keeps : Next (execUnbindChannel s) (StepKeeps .unbindChannel s) := by
  rw [execUnbindChannel]
  refine next_settledCommand_keeps (c := .unbindChannel) (by simp) fun cmd => ?_
  simp only []
  split
  · exact State.keeps_answer (.refl s) _ _ _
  · exact State.keeps_goLong (State.keeps_beginUnbind (.refl s) _) _
  · exact State.keeps_goLong (.refl s) _
  · exact State.keeps_answer (State.moves_becomeUnbound (.refl s) _).keeps _ _ _

theorem execReadContext_keeps : Next (execReadContext s) (StepKeeps .readContext s) := by
  rw [execReadContext]
  refine next_settledCommand_keeps (c := .readContext) (by simp) fun cmd => ?_
  split
  · exact State.keeps_answer (.refl s) _ _ _
  · split
    · exact State.keeps_answer (.refl s) _ _ _
    · exact State.keeps_serveContextRead (.refl s) _ _ _

theorem execSyncContexts_keeps : Next (execSyncContexts s) (StepKeeps .syncContexts s) := by
  rw [execSyncContexts]
  refine next_settledCommand_keeps (c := .syncContexts) (by simp) fun cmd => ?_
  split
  · exact State.keeps_answer (.refl s) _ _ _
  · exact State.keeps_examineQueue
      ((State.keeps_agentTo (.refl s) _).trans (State.moves_syncNext (.refl _) _).keeps)

/-! ### Ticks, the resets and the commands that move the node -/

theorem execResetAsserted_keeps : Next (execResetAsserted s) (StepKeeps .resetAsserted s) := by
  rw [execResetAsserted]
  have hkeeps := State.keeps_onLmp ((State.Keeps.refl s).same (t := { s with inReset := true }) rfl rfl rfl) (fun p =>
    { p with ctx := [], dlv := [], seg := [], evt := [], agt := [], offered := none, order := [] }) rfl
  exact ⟨_, rfl, hkeeps.stepKeeps (c := .resetAsserted) (by simp)⟩

theorem execResetReleased_keeps (n : Node) :
    Next (execResetReleased n s) (StepKeeps (.resetReleased n) s) := by
  rw [execResetReleased]
  refine ⟨_, rfl, ?_⟩
  split
  · exact { pending := rfl, nodeId h := absurd rfl (h n), nodeTime h := absurd rfl (h n), ticked h := by simp at h
            nodeState := by simp, settings h := by simp [Instr.configures] at h }
  · exact (State.Keeps.refl s).stepKeeps (c := (.resetReleased n)) (by simp)

theorem execNodeResetTakesEffect_keeps :
    Next (execNodeResetTakesEffect s) (StepKeeps .nodeResetTakesEffect s) := by
  rw [execNodeResetTakesEffect]
  refine State.next_live ((State.Keeps.refl s).stepKeeps (c := .nodeResetTakesEffect) (by simp)) ?_
  split
  · exact { pending := rfl, nodeId _ := rfl, nodeTime _ _ := rfl, ticked h := by simp at h
            nodeState := by simp [State.afterNodeReset], settings h := by simp [Instr.configures] at h }
  · exact (State.Keeps.refl s).stepKeeps (c := .nodeResetTakesEffect) (by simp)

theorem execTick_keeps : Next (execTick s) (StepKeeps .tick s) := by
  rw [execTick]
  refine ⟨_, rfl, ?_⟩
  cases hreset : s.inReset
  · exact { pending := rfl, nodeId _ := rfl, nodeTime _ h := absurd rfl h
            ticked _ := by simp [State.ticked, hreset], nodeState := .inl rfl, settings _ := rfl }
  · exact { pending := by simp, nodeId _ := by simp, nodeTime _ h := absurd rfl h, ticked _ := by simp [hreset]
            nodeState := .inl (by simp), settings _ := by simp }

/-- A move of the node state keeps all else of the agent (R166). -/
theorem State.nodeTo_ma (s : State) (n : NodeState) : (s.nodeTo n).ma = { s.ma with nodeState := n } := by
  unfold State.nodeTo State.raise
  split_ifs <;> rfl

@[simp] theorem State.nodeTo_nodeId (s : State) (n : NodeState) : (s.nodeTo n).ma.nodeId = s.ma.nodeId := by
  rw [State.nodeTo_ma]

@[simp] theorem State.nodeTo_nodeTime (s : State) (n : NodeState) : (s.nodeTo n).ma.nodeTime = s.ma.nodeTime := by
  rw [State.nodeTo_ma]

@[simp] theorem State.nodeTo_nodeState (s : State) (n : NodeState) : (s.nodeTo n).ma.nodeState = n := by
  rw [State.nodeTo_ma]

theorem State.nodeTo_settings (s : State) (n : NodeState) : (s.nodeTo n).settings = s.settings :=
  (State.moves_raise (.refl (s.onMa fun ma => { ma with nodeState := n })) _ _ _ _).settings

theorem State.nodeTo_pending (s : State) (n : NodeState) : (s.nodeTo n).pending = s.pending :=
  (State.moves_raise (.refl (s.onMa fun ma => { ma with nodeState := n })) _ _ _ _).pending

theorem execStart_keeps : Next (execStart s) (StepKeeps .start s) := by
  rw [execStart]
  refine State.next_live ((State.Keeps.refl s).stepKeeps (c := .start) (by simp))
    (State.command_rec ((State.Keeps.refl s).stepKeeps (c := .start) (by simp)) fun cmd _ _ => ?_)
  split
  · exact (State.keeps_answer (.refl s) _ _ _).stepKeeps (c := .start) (by simp)
  case isFalse hstopped =>
    have hpolled := State.keeps_answer (State.moves_pollAll (.refl (s.nodeTo .running))).keeps cmd .ok []
    exact {
      pending := hpolled.pending.trans (s.nodeTo_pending _)
      nodeId _ := hpolled.nodeId.trans (s.nodeTo_nodeId _)
      nodeTime _ _ := hpolled.nodeTime.trans (s.nodeTo_nodeTime _)
      ticked h := by simp at h
      nodeState := .inr (.inr (.inl ⟨rfl, not_not.1 hstopped, hpolled.nodeState.trans (s.nodeTo_nodeState _)⟩))
      settings _ := hpolled.settings.trans (s.nodeTo_settings _) }

theorem execStop_keeps : Next (execStop s) (StepKeeps .stop s) := by
  rw [execStop]
  refine State.next_liveSettled ((State.Keeps.refl s).stepKeeps (c := .stop) (by simp)) (State.command_rec (P := fun u =>
    StepKeeps .stop s (u.settle s)) ((State.keeps_settle (.refl s) s).stepKeeps (c := .stop) (by simp)) fun cmd _ _ => ?_)
  split
  · exact (State.keeps_settle (State.keeps_answer (.refl s) _ _ _) s).stepKeeps (c := .stop) (by simp)
  case isFalse hrunning =>
    have hstopped := State.keeps_settle (State.keeps_goLong (State.keeps_stopReceive
      (State.moves_leaveLockQueues (.refl (s.onMa fun ma => { ma with nodeState := .stopping }))).keeps) cmd) s
    exact {
      pending := hstopped.pending
      nodeId _ := hstopped.nodeId
      nodeTime _ _ := hstopped.nodeTime
      ticked h := by simp at h
      nodeState := .inr (.inr (.inr (.inl ⟨rfl, not_not.1 hrunning, hstopped.nodeState⟩)))
      settings _ := hstopped.settings }

theorem execStopDrainComplete_keeps : Next (execStopDrainComplete s) (StepKeeps .stopDrainComplete s) := by
  rw [execStopDrainComplete]
  refine State.next_live ((State.Keeps.refl s).stepKeeps (c := .stopDrainComplete) (by simp)) ?_
  split
  · split
    case h_1.isTrue hdrained =>
      exact {
        pending := s.nodeTo_pending _
        nodeId _ := s.nodeTo_nodeId _
        nodeTime _ _ := s.nodeTo_nodeTime _
        ticked h := by simp at h
        nodeState := .inr (.inr (.inr (.inr (.inl ⟨rfl, hdrained.1, s.nodeTo_nodeState _⟩))))
        settings _ := s.nodeTo_settings _ }
    · exact (State.Keeps.refl s).stepKeeps (c := .stopDrainComplete) (by simp)
  · exact (State.Keeps.refl s).stepKeeps (c := .stopDrainComplete) (by simp)

/-! ### The configuration commands -/

theorem execClaim_keeps : Next (execClaim s) (StepKeeps .claim s) := by
  rw [execClaim]
  refine next_configure_keeps (c := .claim) rfl fun cmd => ?_
  split <;> exact ⟨rfl, rfl, rfl, rfl⟩

theorem execManager_keeps : Next (execManager s) (StepKeeps .manager s) := by
  rw [execManager]
  refine next_configure_keeps (c := .manager) rfl fun cmd => ?_
  simp only []
  split
  · exact ⟨rfl, rfl, rfl, rfl⟩
  · split
    · split <;> exact ⟨rfl, rfl, rfl, rfl⟩
    · split <;> exact ⟨rfl, rfl, rfl, rfl⟩

theorem execSetLocalMap_keeps : Next (execSetLocalMap s) (StepKeeps .setLocalMap s) := by
  rw [execSetLocalMap]
  refine State.next_live ((State.SameNode.refl s).stepKeeps (c := .setLocalMap) rfl)
    (State.command_rec ((State.SameNode.refl s).stepKeeps (c := .setLocalMap) rfl) fun cmd _ _ => ?_)
  simp only []
  split
  · exact State.SameNode.stepKeeps (c := .setLocalMap) ⟨rfl, rfl, rfl, rfl⟩ rfl
  · split
    case h_2.isTrue hunconfigured =>
      refine {
        pending := State.nodeTo_pending _ _
        nodeId _ := State.nodeTo_nodeId _ _
        nodeTime _ _ := State.nodeTo_nodeTime _ _
        ticked h := by simp at h
        nodeState := .inr (.inl ⟨rfl, hunconfigured, State.nodeTo_nodeState _ _⟩)
        settings h := by simp [Instr.configures] at h }
    · exact State.SameNode.stepKeeps (c := .setLocalMap) ⟨rfl, rfl, rfl, rfl⟩ rfl

theorem execSetPool_keeps : Next (execSetPool s) (StepKeeps .setPool s) := by
  rw [execSetPool]
  refine State.next_liveSettled ((State.SameNode.refl s).stepKeeps (c := .setPool) rfl) (State.SameNode.stepKeeps ?_ rfl)
  refine State.SameNode.trans (b := s.command codeSetPool _) ?_ (State.keeps_settle (.refl _) s).toSameNode
  refine State.command_rec (.refl s) fun cmd _ _ => ?_
  split
  · exact ⟨rfl, rfl, rfl, rfl⟩
  · simp only []
    split
    · exact ⟨rfl, rfl, rfl, rfl⟩
    · split <;> exact ⟨rfl, rfl, rfl, rfl⟩

theorem execSetTxring_keeps : Next (execSetTxring s) (StepKeeps .setTxring s) := by
  rw [execSetTxring]
  refine next_configure_keeps (c := .setTxring) rfl fun cmd => ?_
  split
  · exact ⟨rfl, rfl, rfl, rfl⟩
  · simp only []
    split <;> exact ⟨rfl, rfl, rfl, rfl⟩

theorem execSetSend_keeps : Next (execSetSend s) (StepKeeps .setSend s) := by
  rw [execSetSend]
  refine next_configure_keeps (c := .setSend) rfl fun cmd => ?_
  split
  · exact ⟨rfl, rfl, rfl, rfl⟩
  case h_2 k _ =>
    split
    · exact ⟨rfl, rfl, rfl, rfl⟩
    · simp only []
      split
      · have hdisabled := (State.moves_disableSlot (.refl (s.onSlot k fun x => x.configured cmd)) k).keeps
        exact State.SameNode.trans (b := s.onSlot k fun x => x.configured cmd) ⟨rfl, rfl, rfl, rfl⟩
          (State.keeps_answer hdisabled cmd .ok []).toSameNode
      · exact ⟨rfl, rfl, rfl, rfl⟩

theorem execSetNode_keeps : Next (execSetNode s) (StepKeeps .setNode s) := by
  rw [execSetNode]
  refine next_configure_keeps (c := .setNode) rfl fun cmd => ?_
  simp only []
  split <;> exact ⟨rfl, rfl, rfl, rfl⟩

theorem execWriteCircuit_keeps : Next (execWriteCircuit s) (StepKeeps .writeCircuit s) := by
  rw [execWriteCircuit]
  refine next_configure_keeps (c := .writeCircuit) rfl fun cmd => ?_
  simp only []
  split
  · exact ⟨rfl, rfl, rfl, rfl⟩
  · split <;> exact ⟨rfl, rfl, rfl, rfl⟩

theorem execBindChannel_keeps : Next (execBindChannel s) (StepKeeps .bindChannel s) := by
  rw [execBindChannel]
  refine next_configure_keeps (c := .bindChannel) rfl fun cmd => ?_
  simp only []
  split
  · exact ⟨rfl, rfl, rfl, rfl⟩
  · split
    · exact ⟨rfl, rfl, rfl, rfl⟩
    · split
      · exact ⟨rfl, rfl, rfl, rfl⟩
      · split <;> exact ⟨rfl, rfl, rfl, rfl⟩

/-! ### Every command -/

/-- Every command answers a next state, which keeps what `StepKeeps` says. -/
theorem exec_keeps (c : Instr) : Next (exec c s) (StepKeeps c s) := by
  cases c with
  | resetAsserted => exact execResetAsserted_keeps s
  | resetReleased n => exact execResetReleased_keeps s n
  | tick => exact execTick_keeps s
  | deadlineReached c => exact next_liveSettled_keeps (c := .deadlineReached c) (f := fun s => s.scanChannel c) (by simp) (State.keeps_scanChannel (.refl s) c)
  | intervalPoll => exact execIntervalPoll_keeps s
  | requestTimeout => exact next_liveSettled_keeps (c := .requestTimeout) (by simp) (State.keeps_expireRequest (.refl s))
  | attnEdge => exact execAttnEdge_keeps s
  | huntTrial header => exact execHuntTrial_keeps s header
  | presyncCell cell => exact execPresyncCell_keeps s cell
  | syncCell cell => exact execSyncCell_keeps s cell
  | outboundPosition => exact next_live_keeps (c := .outboundPosition) (by simp) (State.keeps_outbound (.refl s))
  | applyCell => exact next_liveSettled_keeps (c := .applyCell) (by simp) (State.moves_applyHeld (.refl s)).keeps
  | applyPendingAbort c => exact next_liveSettled_keeps (c := .applyPendingAbort c) (f := fun s => s.applyAbort c) (by simp) (State.moves_applyAbort (.refl s) c).keeps
  | reserve p => exact execReserve_keeps s p
  | take p => exact execTake_keeps s p
  | completionWrite p => exact execCompletionWrite_keeps s p
  | requestGrant => exact execRequestGrant_keeps s
  | busAccept => exact execBusAccept_keeps s
  | memoryResponse r d => exact next_liveSettled_keeps (c := .memoryResponse r d) (f := fun s => s.paired r d) (by simp) (State.keeps_paired (.refl s) r d)
  | channelUnbound c => exact execChannelUnbound_keeps s c
  | eventServe => exact execEventServe_keeps s
  | commandTake => exact next_live_keeps (c := .commandTake) (by simp) (State.keeps_takeCommand (.refl s))
  | responseHandover => exact execResponseHandover_keeps s
  | ident => exact next_command_keeps (c := .ident) (by simp) fun _ => State.keeps_answer (.refl s) _ _ _
  | claim => exact execClaim_keeps s
  | release => exact next_configure_keeps (c := .release) rfl fun _ => ⟨rfl, rfl, rfl, rfl⟩
  | manager => exact execManager_keeps s
  | setLocalMap => exact execSetLocalMap_keeps s
  | setPool => exact execSetPool_keeps s
  | setTxring => exact execSetTxring_keeps s
  | setSend => exact execSetSend_keeps s
  | setEvents => exact next_configure_keeps (c := .setEvents) rfl fun _ => ⟨rfl, rfl, rfl, rfl⟩
  | setNode => exact execSetNode_keeps s
  | writeCircuit => exact execWriteCircuit_keeps s
  | readCircuit => exact execReadCircuit_keeps s
  | bindChannel => exact execBindChannel_keeps s
  | unbindChannel => exact execUnbindChannel_keeps s
  | readChannel => exact next_command_keeps (c := .readChannel) (by simp) fun _ => State.keeps_answer (.refl s) _ _ _
  | readContext => exact execReadContext_keeps s
  | syncContexts => exact execSyncContexts_keeps s
  | start => exact execStart_keeps s
  | stop => exact execStop_keeps s
  | stopDrainComplete => exact execStopDrainComplete_keeps s
  | nodeReset => exact next_command_keeps (c := .nodeReset) (by simp) fun _ => State.keeps_executeNodeReset (.refl s) _
  | nodeResetTakesEffect => exact execNodeResetTakesEffect_keeps s
  | readCounters => exact execReadCounters_keeps s

end Commands

/-! ### The statements -/

/-- Settles O59: a command that does not configure keeps the settings. -/
theorem onlyConfigurationChangesSettings : Obligations.OnlyConfigurationChangesSettings :=
  fun c s _ h => ((exec_keeps s c).of_eq h).settings

/-- Settles O2: every command answers a next state, with the queue as it was. -/
theorem everyCommandAnswersNext : Obligations.EveryCommandAnswersNext := fun c s => by
  obtain ⟨t, h, hkeeps⟩ := exec_keeps s c
  exact ⟨t, h, hkeeps.pending⟩

/-- Settles O7: node time moves at ticks and the release of RESET, the node id at that release. -/
theorem nodeTimeAndIdMoveOnlyAsStated : Obligations.NodeTimeAndIdMoveOnlyAsStated := fun c s _ h =>
  have hkeeps := (exec_keeps s c).of_eq h
  ⟨hkeeps.nodeId, hkeeps.nodeTime, hkeeps.ticked⟩

/-- Settles O56: the node state moves by the table of R166. -/
theorem nodeStateMovesOnlyAsStated : Obligations.NodeStateMovesOnlyAsStated :=
  fun c s _ h => ((exec_keeps s c).of_eq h).nodeState

/-- Settles O1: a step is `exec` of the command at the front of the queue. -/
theorem stepRunsTheFrontCommand : Obligations.StepRunsTheFrontCommand :=
  ⟨fun _ _ _ h => by rw [step, h], fun _ h => by rw [step, h]⟩

end Sys2Proof.Machine
end

section
/-! The transmit side leaves the receive pools alone, and every answer given at the port keeps their counts in range. -/

namespace Sys2Proof.Machine

section Transmit

variable (s : State) (r : RingId)

@[simp] theorem State.request_du (q : Request) : (s.request q).du = s.du := rfl

@[simp] theorem State.requestRead_du (q : Requester) (addr : Word) (n : Nat) (t : RequestTag) :
    (s.requestRead q addr n t).du = s.du := rfl

@[simp] theorem State.requestWrite_du (q : Requester) (addr : Word) (d : List Byte) (t : RequestTag) :
    (s.requestWrite q addr d t).du = s.du := rfl

@[simp] theorem State.assertLint_du : s.assertLint.du = s.du := rfl

@[simp] theorem State.setTxAccess_du (x : Option TxAccess) : (s.setTxAccess r x).du = s.du := rfl

@[simp] theorem State.beginWriteBack_du (status : TxStatus) (n : Nat) : (s.beginWriteBack r status n).du = s.du := rfl

@[simp] theorem State.stageData_du (k : SlotId) (position : Position) (bytes : List Byte) :
    (s.stageData r k position bytes).du = s.du := rfl

@[simp] theorem State.raise_du (k : EventKind) (x d : Nat) (w : Word) : (s.raise k x d w).du = s.du := by
  unfold State.raise
  split_ifs <;> rfl

@[simp] theorem State.poll_du : (s.poll r).du = s.du := by
  unfold State.poll
  split_ifs <;> simp

@[simp] theorem State.foldl_du {β : Type} {f : State → β → State} (hf : ∀ s b, (f s b).du = s.du) (l : List β) :
    ∀ s, (l.foldl f s).du = s.du := by
  induction l with
  | nil => exact fun _ => rfl
  | cons b l ih => exact fun s => (ih (f s b)).trans (hf s b)

@[simp] theorem State.pollAll_du : s.pollAll.du = s.du := State.foldl_du (fun s r => s.poll_du r) _ s

@[simp] theorem State.issueReads_du (n : Nat) : ∀ s : State, (s.issueReads r n).du = s.du := by
  induction n with
  | zero => exact fun _ => rfl
  | succ n ih =>
    intro s
    rw [State.issueReads]
    split
    · split
      · rw [ih]; rfl
      · rfl
    all_goals rfl

@[simp] theorem State.stageTrailer_du : (s.stageTrailer r).du = s.du := by
  unfold State.stageTrailer
  split
  · dsimp only
    split <;> simp
  all_goals rfl

@[simp] theorem State.buildCell_du (m : TxMsg) (d : TxDesc) (bytes : List Byte) :
    (s.buildCell r m d bytes).du = s.du := by
  unfold State.buildCell
  dsimp only
  split <;> simp

@[simp] theorem State.endEarly_du (status : TxStatus) : (s.endEarly r status).du = s.du := by
  unfold State.endEarly
  split
  · split
    · dsimp only
      split <;> simp
    · rfl
  · rfl

@[simp] theorem State.bodyAnswered_du (gen : Nat) (a : Answer) (bytes : List Byte) :
    (s.bodyAnswered r gen a bytes).du = s.du := by
  unfold State.bodyAnswered
  split
  · split
    · split <;> simp
    all_goals rfl
  · rfl

@[simp] theorem State.startMessage_du (k : SlotId) : (s.startMessage r k).du = s.du := by
  simp [State.startMessage]

@[simp] theorem State.requestLock_du (k : SlotId) : (s.requestLock r k).du = s.du := by
  unfold State.requestLock
  split <;> simp

@[simp] theorem State.releaseLock_du : (s.releaseLock r).du = s.du := by
  unfold State.releaseLock
  split
  · split
    · split <;> simp
    · rfl
  · rfl

@[simp] theorem State.validated_du (d : TxDesc) : (s.validated r d).du = s.du := by
  unfold State.validated
  dsimp only
  split <;> simp

@[simp] theorem State.ringRests_du (z : RingState) : (s.ringRests r z).du = s.du := by
  rw [State.ringRests, State.onRing_du]
  split <;> simp

@[simp] theorem State.ringFault_du (detail : Nat) (a : Answer) : (s.ringFault r detail a).du = s.du := by
  simp [State.ringFault]

@[simp] theorem State.writeBackDone_du : (s.writeBackDone r).du = s.du := by
  simp only [State.writeBackDone]
  split <;> simp

@[simp] theorem State.descriptorAnswered_du (a : Answer) (bytes : List Byte) :
    (s.descriptorAnswered r a bytes).du = s.du := by
  unfold State.descriptorAnswered
  split
  case h_1 => split_ifs <;> simp
  case h_2 =>
    split
    · simp
    · split
      · split <;> simp
      · simp
  case h_3 => split_ifs <;> simp
  case h_4 => split_ifs <;> simp
  case h_5 => rfl

@[simp] theorem State.departed_du (cell : Cell) : (s.departed r cell).du = s.du := by
  unfold State.departed
  split
  · dsimp only
    split <;> simp
  · rfl

@[simp] theorem State.slotOff_du : (s.slotOff r).du = s.du := rfl

@[simp] theorem State.disableSlot_du (k : SlotId) : (s.disableSlot k).du = s.du := by
  have hfold := State.foldl_du (f := State.slotOff) (fun s r => s.slotOff_du r) (s.slot k).lockQueue
    (s.onSlot k fun x => { x with lockQueue := [] })
  unfold State.disableSlot
  dsimp only
  split
  · rw [State.endEarly_du, hfold, State.onSlot_du]
  · rw [hfold, State.onSlot_du]

@[simp] theorem State.eventAnswered_du (a : Answer) (bytes : List Byte) : (s.eventAnswered a bytes).du = s.du := by
  have howner : ∀ (u : State) b, (u.ownerKnown b).du = u.du := fun u b => by
    unfold State.ownerKnown
    split
    · rfl
    · split <;> rfl
  unfold State.eventAnswered
  dsimp only
  split
  · split_ifs
    · rfl
    · rw [howner]; rfl
    · rfl
  · split_ifs <;> rfl
  · rfl

end Transmit

theorem State.pools_ctxReadAnswered {s : State} (h : s.PoolsLegal) (a : Answer) (bytes : List Byte) :
    (s.ctxReadAnswered a bytes).PoolsLegal := by
  unfold State.ctxReadAnswered
  dsimp only
  split <;> exact State.pools_finishLong (State.pools_onXc h _) _ _ _

/-- Each requester's own operation keeps the pools' counts in range, so every answer does (R147). -/
theorem State.pools_give {s : State} (h : s.PoolsLegal) (tag : RequestTag) (a : Answer) (bytes : List Byte) :
    (s.give tag a bytes).PoolsLegal := by
  unfold State.give
  split
  · exact h
  · cases tag with
    | fill e c => exact State.pools_fillAnswered h e c a bytes
    | writeBack e c => exact State.pools_writeBackAnswered h e c a
    | syncWrite e c => exact State.pools_syncAnswered h e c a
    | pool p => exact State.pools_poolAnswered h p a bytes
    | payload c second => exact State.pools_payloadAnswered h c second a
    | descriptor r => exact State.pools_same h (s.descriptorAnswered_du r a bytes)
    | body r gen => exact State.pools_same h (s.bodyAnswered_du r gen a bytes)
    | event => exact State.pools_same h (s.eventAnswered_du a bytes)
    | ctxRead => exact State.pools_ctxReadAnswered h a bytes

end Sys2Proof.Machine
end

section
/-! The legal ranges and the agreement of the blocks under the updates of single blocks, under whole operations of the
receive and the transmit side, and under an answer given at the port. -/

namespace Sys2Proof.Machine

/-- The legal ranges, with body reads counted beside those that stand at the port: the read whose answer is being given
stands there no longer (R120, R144). -/
structure State.LegalWith (s : State) (x : RingId → Nat → Nat) : Prop where
  framer : s.cf.Legal
  hold : s.re.hold.length ≤ 64
  cache : s.xc.Legal
  entries : s.EntriesAgree
  pools : s.PoolsLegal
  transmit : s.TxLegal x
  arbiter : s.ia.Legal
  port : s.lmp.Legal
  agent : s.ma.Legal
  writer : s.ew.Legal

theorem State.legalWith_noRead_iff (s : State) : s.LegalWith noRead ↔ s.Legal := by
  constructor
  · intro h
    obtain ⟨hrings, hstaged, hlocks⟩ := s.txLegal_iff.1 h.transmit
    exact ⟨h.framer, h.hold, h.cache, h.entries, h.pools, hrings, hstaged, hlocks, h.arbiter, h.port, h.agent,
      h.writer⟩
  · intro h
    exact ⟨h.framer, h.hold, h.cache, h.entries, h.pools, s.txLegal_iff.2 ⟨h.rings, h.staged, h.locks⟩, h.arbiter,
      h.port, h.agent, h.writer⟩

section Updates

variable {s t : State} {x y : RingId → Nat → Nat}

/-- An update that leaves the channels, the cache, the pools, the rings and the slots, and adds no body read. -/
theorem State.LegalWith.update (h : s.LegalWith x) (hcf : t.cf.Legal) (hhold : t.re.hold.length ≤ 64)
    (hchannels : t.re.channels = s.re.channels) (hxc : t.xc = s.xc) (hdu : t.du = s.du)
    (hrings : t.su.rings = s.su.rings) (hslots : t.su.slots = s.su.slots)
    (hreads : ∀ q g, t.lmp.bodyReads q g + y q g ≤ s.lmp.bodyReads q g + x q g)
    (hia : t.ia.Legal) (hport : t.lmp.Legal) (hma : t.ma.Legal) (hew : t.ew.Legal) : t.LegalWith y where
  framer := hcf
  hold := hhold
  cache := hxc ▸ h.cache
  entries := t.agreesAs_none.1 <| h.entries.as.alike
    { names := fun e => by rw [State.entry, hxc]; rfl
      residence := fun c => by rw [State.chan, hchannels]; rfl
      binding := fun c => by rw [State.chan, hchannels]; rfl
      waitList := by rw [hxc] }
  pools := State.pools_same h.pools hdu
  transmit := h.transmit.reads ⟨hrings, hslots⟩ hreads
  arbiter := hia
  port := hport
  agent := hma
  writer := hew

theorem State.LegalWith.same (h : s.LegalWith x) (hcf : t.cf = s.cf) (hre : t.re = s.re) (hxc : t.xc = s.xc)
    (hdu : t.du = s.du) (hsu : t.su = s.su) (hia : t.ia = s.ia) (hlmp : t.lmp = s.lmp) (hma : t.ma = s.ma)
    (hew : t.ew = s.ew) : t.LegalWith x :=
  h.update (hcf ▸ h.framer) (hre ▸ h.hold) (by rw [hre]) hxc hdu (by rw [hsu]) (by rw [hsu])
    (fun _ _ => by rw [hlmp]) (hia ▸ h.arbiter) (hlmp ▸ h.port) (hma ▸ h.agent) (hew ▸ h.writer)

theorem State.LegalWith.onCf (h : s.LegalWith x) (f : Framer → Framer) (hf : (f s.cf).Legal) :
    (s.onCf f).LegalWith x :=
  h.update hf h.hold rfl rfl rfl rfl rfl (fun _ _ => Nat.le_refl _) h.arbiter h.port h.agent h.writer

theorem State.LegalWith.onCc (h : s.LegalWith x) (f : Classifier → Classifier) : (s.onCc f).LegalWith x :=
  h.update h.framer h.hold rfl rfl rfl rfl rfl (fun _ _ => Nat.le_refl _) h.arbiter h.port h.agent h.writer

theorem State.LegalWith.onCounters (h : s.LegalWith x) (f : Counters → Counters) : (s.onCounters f).LegalWith x :=
  h.update h.framer h.hold rfl rfl rfl rfl rfl (fun _ _ => Nat.le_refl _) h.arbiter h.port h.agent h.writer

theorem State.LegalWith.onRe (h : s.LegalWith x) (f : Reassembly → Reassembly)
    (hchannels : (f s.re).channels = s.re.channels) (hhold : (f s.re).hold.length ≤ 64) : (s.onRe f).LegalWith x :=
  h.update h.framer hhold hchannels rfl rfl rfl rfl (fun _ _ => Nat.le_refl _) h.arbiter h.port h.agent h.writer

theorem State.LegalWith.onSu (h : s.LegalWith x) (f : Segmentation → Segmentation)
    (hrings : (f s.su).rings = s.su.rings) (hslots : (f s.su).slots = s.su.slots) : (s.onSu f).LegalWith x :=
  h.update h.framer h.hold rfl rfl rfl hrings hslots (fun _ _ => Nat.le_refl _) h.arbiter h.port h.agent h.writer

theorem State.LegalWith.onIa (h : s.LegalWith x) (f : Arbiter → Arbiter) (hf : (f s.ia).Legal) :
    (s.onIa f).LegalWith x :=
  h.update h.framer h.hold rfl rfl rfl rfl rfl (fun _ _ => Nat.le_refl _) hf h.port h.agent h.writer

theorem State.LegalWith.onLmp (h : s.LegalWith x) (f : Port → Port) (hf : (f s.lmp).Legal)
    (hreads : ∀ q g, (f s.lmp).bodyReads q g + y q g ≤ s.lmp.bodyReads q g + x q g) : (s.onLmp f).LegalWith y :=
  h.update h.framer h.hold rfl rfl rfl rfl rfl hreads h.arbiter hf h.agent h.writer

theorem State.LegalWith.onMa (h : s.LegalWith x) (f : Agent → Agent) (hf : (f s.ma).Legal) : (s.onMa f).LegalWith x :=
  h.update h.framer h.hold rfl rfl rfl rfl rfl (fun _ _ => Nat.le_refl _) h.arbiter h.port hf h.writer

theorem State.LegalWith.onEw (h : s.LegalWith x) (f : EventWriter → EventWriter) (hf : (f s.ew).Legal) :
    (s.onEw f).LegalWith x :=
  h.update h.framer h.hold rfl rfl rfl rfl rfl (fun _ _ => Nat.le_refl _) h.arbiter h.port h.agent hf

/-- The agent's ranges hold in each of its states but that of a command handed over, which a CLAIM restricts. -/
theorem Agent.Legal.to {ma : Agent} (h : ma.Legal) {a : AgentState} (ha : ∀ cmd, a ≠ .working cmd false) :
    Agent.Legal { ma with state := a } := by
  obtain ⟨hqueue, hmanagers, hnodup, -⟩ := h
  exact ⟨hqueue, hmanagers, hnodup, fun cmd e _ => absurd e (ha cmd)⟩

theorem State.LegalWith.agentTo (h : s.LegalWith x) (a : AgentState) (ha : ∀ cmd, a ≠ .working cmd false) :
    (s.agentTo a).LegalWith x :=
  h.onMa _ (h.agent.to ha)

theorem State.LegalWith.answer (h : s.LegalWith x) (cmd : Cell) (st : MgmtStatus) (r : List Byte) :
    (s.answer cmd st r).LegalWith x :=
  h.agentTo _ (by simp)

end Updates

/-! ### Whole operations -/

section Operations

variable {o s t : State} {x y : RingId → Nat → Nat}

/-- The port's limits speak of the order list and the request offered alone (R142, R143). -/
theorem Port.Legal.congr {p q : Port} (h : p.Legal) (horder : q.order = p.order) (hoffered : q.offered = p.offered) :
    q.Legal := by
  unfold Port.Legal Port.live at *
  rwa [horder, hoffered]

theorem Agent.Legal.of_moves (h : o.ma.Legal) (m : o.Moves s) : s.ma.Legal := by
  obtain ⟨hqueue, hmanagers, hnodup, hclaim⟩ := h
  refine ⟨m.queue ▸ hqueue, m.managers ▸ hmanagers, m.managers ▸ hnodup, fun cmd hcmd hcode => ?_⟩
  obtain hsame | ⟨r, hanswering⟩ := m.agent
  · rw [m.managers]; exact hclaim cmd (hsame ▸ hcmd) hcode
  · rw [hanswering] at hcmd; cases hcmd

/-- An operation of the datapath keeps the ranges of the blocks that it leaves alone. -/
theorem State.LegalWith.of_moves (h : o.LegalWith x) (m : o.Moves s) (cache : o.KeepsCache s) (entries : s.EntriesAgree)
    (pools : s.PoolsLegal) (transmit : s.TxLegal y) : s.LegalWith y where
  framer := m.cf ▸ h.framer
  hold := m.hold.length_le.trans h.hold
  cache := cache h.cache
  entries := entries
  pools := pools
  transmit := transmit
  arbiter := m.ia ▸ h.arbiter
  port := h.port.congr m.order m.offered
  agent := h.agent.of_moves m
  writer := m.writer h.writer

/-- An operation of the receive side. -/
theorem State.LegalWith.of_receives (h : o.LegalWith x) (m : o.Moves s) (cache : o.KeepsCache s) (r : o.Receives s)
    (pools : s.PoolsLegal) : s.LegalWith x :=
  h.of_moves m cache (r.agree h.entries) pools (h.transmit.aside r.toAside)

/-- An operation of the transmit side. -/
theorem State.LegalWith.of_beside (h : o.LegalWith x) (m : o.Moves s) (b : o.Beside s) (hdu : s.du = o.du)
    (transmit : s.TxLegal y) : s.LegalWith y :=
  h.of_moves m (fun l => b.xc ▸ l) (b.agree h.entries) (State.pools_same h.pools hdu) transmit

theorem State.keepsCache_refl (s : State) : s.KeepsCache s := id

theorem State.LegalWith.raise (h : s.LegalWith x) (k : EventKind) (a d : Nat) (w : Word) :
    (s.raise k a d w).LegalWith x :=
  h.of_receives (State.moves_raise (.refl s) k a d w) (State.cache_raise s.keepsCache_refl k a d w)
    (State.receives_raise (.refl s) k a d w) (State.pools_raise h.pools k a d w)

theorem State.LegalWith.nodeTo (h : s.LegalWith x) (n : NodeState) : (s.nodeTo n).LegalWith x :=
  State.LegalWith.raise (h.onMa (fun ma => { ma with nodeState := n }) h.agent) _ _ _ _

theorem State.LegalWith.settle (h : s.LegalWith x) (b : State) : (s.settle b).LegalWith x :=
  h.of_receives (State.moves_settle (.refl s) b) (State.cache_settle s.keepsCache_refl b)
    (State.receives_settle (.refl s) h.cache b) (State.pools_settle h.pools b)

theorem State.LegalWith.fetchRequest (h : s.LegalWith x) (c : Chan) : (s.fetchRequest c).LegalWith x :=
  h.of_receives (State.moves_fetchRequest (.refl s) c) (State.cache_fetchRequest s.keepsCache_refl c)
    (State.receives_fetchRequest (.refl s) c) (State.pools_fetchRequest h.pools c)

theorem State.LegalWith.holdCell (h : s.LegalWith x) (c : Chan) (cell : Cell) : (s.holdCell c cell).LegalWith x := by
  simp only [State.holdCell]
  split
  case isTrue hroom =>
    have hheld := h.onRe (fun re => { re with hold := re.hold ++ [{ channel := c, cell }] }) rfl (by simp; omega)
    split
    · exact hheld.fetchRequest c
    · exact hheld
  case isFalse hfull =>
    have hcounted := h.onCounters fun k => { k with holdOverflow := k.holdOverflow + 1 }
    split
    · refine State.LegalWith.raise (hcounted.of_receives ?_ ?_ ?_ ?_) _ _ _ _
      · exact State.moves_onChan (.refl _) c _ fun _ => rfl
      · exact State.cache_onChan (State.keepsCache_refl _) c _
      · exact State.receives_onChan (.refl _) c _ (fun _ => rfl) fun _ => rfl
      · exact State.pools_onChan hcounted.pools c _
    · exact hcounted

theorem State.LegalWith.becomeUnbound (h : s.LegalWith x) (c : Chan) (hc : (s.chan c).residence = .stored) :
    (s.becomeUnbound c).LegalWith x :=
  h.of_receives (State.moves_becomeUnbound (.refl s) c) (State.cache_becomeUnbound s.keepsCache_refl c)
    (State.receives_becomeUnbound (.refl s) c hc) (State.pools_same h.pools rfl)

theorem State.LegalWith.finishLong (h : s.LegalWith x) (code : Byte) (st : MgmtStatus) (r : List Byte) :
    (s.finishLong code st r).LegalWith x := by
  rw [State.finishLong]
  split
  · exact h.answer _ _ _
  · exact h

/-- The answer of a request, given while its body read is counted no longer at the port (R144, R147). -/
theorem State.LegalWith.give {tag : RequestTag} (h : s.LegalWith tag.read) (a : Answer) (bytes : List Byte) :
    (s.give tag a bytes).LegalWith noRead :=
  h.of_moves (State.moves_give (.refl s) tag a bytes) (State.cache_give s.keepsCache_refl tag a bytes)
    (State.give_agree h.entries tag a bytes) (State.pools_give h.pools tag a bytes) (State.give_legal tag h.transmit a bytes)

theorem State.LegalWith.forget (h : s.LegalWith x) : s.LegalWith noRead :=
  { h with transmit := h.transmit.forget }

theorem State.LegalWith.pollAll (h : s.LegalWith noRead) : s.pollAll.LegalWith noRead := by
  have hpolled : ∀ (l : List RingId) (u : State), u.TxLegal noRead →
      (l.foldl (fun u r => u.poll r) u).TxLegal noRead := fun l => by
    induction l with
    | nil => exact fun _ hu => hu
    | cons r l ih => exact fun u hu => ih _ (hu.poll r)
  exact h.of_beside (State.moves_pollAll (.refl s)) (State.beside_pollAll (.refl s)) s.pollAll_du (hpolled _ s h.transmit)

end Operations

end Sys2Proof.Machine
end

section
/-! The agent, the trunk and the port keep the legal ranges. -/

namespace Sys2Proof.Machine

variable {s : State} {x : RingId → Nat → Nat}

/-! ### The agent -/

/-- A shorter command queue keeps the agent's ranges. -/
theorem Agent.Legal.dequeue {ma : Agent} (h : ma.Legal) {q : List Cell} (hq : q.length ≤ 4) :
    Agent.Legal { ma with queue := q } := by
  obtain ⟨-, hmanagers, hnodup, hclaim⟩ := h
  exact ⟨hq, hmanagers, hnodup, hclaim⟩

theorem State.LegalWith.examineQueue (h : s.LegalWith x) : s.examineQueue.LegalWith x := by
  rw [State.examineQueue]
  split
  · split
    · exact (h.onMa _ (h.agent.dequeue (List.eraseP_sublist.length_le.trans h.agent.1))).answer _ _ _
    · exact h
  all_goals exact h

theorem State.LegalWith.goLong (h : s.LegalWith x) (cmd : Cell) : (s.goLong cmd).LegalWith x :=
  (h.agentTo _ (by simp)).examineQueue

theorem State.LegalWith.joinCommands (h : s.LegalWith x) (cmd : Cell) : (s.joinCommands cmd).LegalWith x := by
  rw [State.joinCommands]
  split
  · exact (h.onMa _ (h.agent.dequeue (by simp; omega))).examineQueue
  · exact h.onCounters _

/-- A node is listed when the manager list names it. -/
theorem State.listed_iff (s : State) (n : Node) : s.listed n = true ↔ n ∈ s.ma.managers.map (·.node) := by
  simp [State.listed, List.any_eq_true, List.mem_map]

/-- A command is handed to its owner: a CLAIM only from a listed node or with an empty list (R157). -/
theorem State.LegalWith.executeCommand (h : s.LegalWith x) (cmd : Cell)
    (hclaim : cmd.code = codeClaim → s.listed cmd.src = true ∨ s.ma.managers = []) :
    (s.executeCommand cmd).LegalWith x := by
  rw [State.executeCommand]
  split
  · refine h.onMa _ ?_
    obtain ⟨hqueue, hmanagers, hnodup, -⟩ := h.agent
    refine ⟨hqueue, hmanagers, hnodup, fun c hc hcode => ?_⟩
    cases hc
    exact (hclaim hcode).imp_left (s.listed_iff _).1
  · exact h.answer _ _ _

theorem State.LegalWith.authorize (h : s.LegalWith x) (cmd : Cell) : (s.authorize cmd).LegalWith x := by
  rw [State.authorize]
  split
  case isTrue hlisted =>
    split
    · exact h.agentTo _ (by simp)
    · exact h.executeCommand _ fun _ => .inl hlisted
  · split
    case isTrue hcode =>
      refine h.executeCommand _ fun hclaim => .inr ?_
      obtain hident | ⟨-, hnone⟩ := hcode
      · rw [hclaim] at hident; exact absurd hident (by decide)
      · exact hnone
    · exact (h.onCounters _).agentTo _ (by simp)

theorem State.LegalWith.screen (h : s.LegalWith x) (cmd : Cell) : (s.screen cmd).LegalWith x := by
  rw [State.screen]
  split
  · exact h.onCounters _
  · split
    · exact h.onCounters _
    · exact h.authorize _

theorem State.LegalWith.takeCommand (h : s.LegalWith x) : s.takeCommand.LegalWith x := by
  rw [State.takeCommand]
  split
  · split
    · exact h
    case h_2 cmd rest hqueue =>
      refine (h.onMa _ (h.agent.dequeue ?_)).screen _
      have := h.agent.1
      rw [hqueue, List.length_cons] at this
      omega
  · exact h

theorem State.LegalWith.storeResponse (h : s.LegalWith x) (r : Reply) : (s.storeResponse r).LegalWith x := by
  rw [State.storeResponse]
  split
  · refine h.onMa _ ?_
    obtain ⟨hqueue, hmanagers, hnodup, hclaim⟩ := h.agent
    refine ⟨hqueue, by simpa [storeFor] using hmanagers, by simpa using hnodup, fun cmd hcmd hcode => ?_⟩
    exact (hclaim cmd hcmd hcode).imp (fun hmem => by simpa only [map_node_storeFor] using hmem)
      fun hnone => by simp [storeFor, hnone]
  · exact h

theorem State.LegalWith.raiseConfig (h : s.LegalWith x) (r : Reply) : (s.raiseConfig r).LegalWith x := by
  rw [State.raiseConfig]
  split
  · split
    · exact h.raise _ _ _ _
    · exact h
  · exact h

theorem State.LegalWith.handOver (h : s.LegalWith x) (r : Reply) (hroom : s.ia.responses.length < 8) :
    (s.handOver r).LegalWith x := by
  refine (((h.onIa _ ⟨?_, h.arbiter.2⟩).storeResponse r).raiseConfig r).agentTo _ ?_
  · rw [List.length_append, List.length_singleton]; omega
  · intro cmd; split <;> simp

/-- The manager list is replaced by one within its ranges, and the command in hand is answered (R158). -/
theorem State.LegalWith.answerManagers (h : s.LegalWith x) {ms : List Manager} (hlen : ms.length ≤ 4)
    (hnodup : (ms.map (·.node)).Nodup) (cmd : Cell) :
    ((s.onMa fun ma => { ma with managers := ms }).answerCount cmd).LegalWith x :=
  (h.onMa (fun ma => { ma with managers := ms, state := .ready })
    ⟨h.agent.1, hlen, hnodup, fun _ e _ => by cases e⟩).answer cmd .ok [BitVec.ofNat 8 ms.length]

/-- A node that is not listed joins a list with room (R158). -/
theorem State.LegalWith.answerAdd (h : s.LegalWith x) {n : Node} (hroom : s.ma.managers.length < 4)
    (hnew : s.listed n = false) (cmd : Cell) : ((s.addManager n).answerCount cmd).LegalWith x := by
  have hn : n ∉ s.ma.managers.map (·.node) := fun hmem => by simp [(s.listed_iff n).2 hmem] at hnew
  refine h.answerManagers (ms := s.ma.managers ++ [{ node := n, memory := none }]) ?_ ?_ cmd
  · rw [List.length_append, List.length_singleton]; omega
  · rw [List.map_append]
    exact h.agent.2.2.1.append (List.nodup_singleton _) (by simpa using hn)

theorem State.LegalWith.answerRemove (h : s.LegalWith x) (n : Node) (cmd : Cell) :
    ((s.removeManager n).answerCount cmd).LegalWith x :=
  h.answerManagers (List.length_filter_le _ _ |>.trans h.agent.2.1)
    (h.agent.2.2.1.sublist (List.filter_sublist.map _)) cmd

/-! ### The inbound trunk -/

theorem State.LegalWith.depart (h : s.LegalWith x) (d : Departure) : (s.depart d).LegalWith x := h.onCf _ h.framer

theorem State.LegalWith.hopExpire (h : s.LegalWith x) : s.hopExpire.LegalWith x := (h.onCounters _).depart _

theorem State.LegalWith.pass (h : s.LegalWith x) (c : Cell) : (s.pass c).LegalWith x := by
  rw [State.pass]
  split
  · exact h.hopExpire
  · exact h.depart _

theorem State.LegalWith.forward (h : s.LegalWith x) (e : Circuit) (c : Cell) : (s.forward e c).LegalWith x := by
  rw [State.forward]
  split
  · exact h.hopExpire
  · exact h.depart _

theorem State.LegalWith.deliver (h : s.LegalWith x) (c : Chan) (cell : Cell) : (s.deliver c cell).LegalWith x := by
  rw [State.deliver]
  split
  · exact h.onCounters _
  · split
    · exact h.onCounters _
    · split
      · exact h.onCounters _
      · exact h.holdCell _ _

theorem State.LegalWith.lookup (h : s.LegalWith x) (c : Cell) : (s.lookup c).LegalWith x := by
  have hmatched : (s.countMatched c.label).LegalWith x := h.onCc _
  simp only [State.lookup]
  split
  · exact (h.onCounters _).depart _
  · exact hmatched.depart _
  · exact (hmatched.deliver _ _).depart _
  · exact hmatched.forward _ _
  · exact (hmatched.deliver _ _).forward _ _

theorem State.LegalWith.routeResponse (h : s.LegalWith x) (cell : Cell) : (s.routeResponse cell).LegalWith x := by
  have hdiscarded : s.discardResponse.LegalWith x := h.onCounters _
  rw [State.routeResponse]
  split
  · exact hdiscarded
  · split
    · exact hdiscarded
    · split
      · exact hdiscarded
      · split
        · exact hdiscarded
        · exact h.holdCell _ _

theorem State.LegalWith.handOn (h : s.LegalWith x) (c : Cell) : (s.handOn c).LegalWith x := by
  rw [State.handOn]
  split
  · exact h.depart _
  · exact h.lookup _
  · exact (h.joinCommands _).depart _
  · exact (h.routeResponse _).depart _

theorem State.LegalWith.dispose (h : s.LegalWith x) (c : Cell) : (s.dispose c).LegalWith x := by
  rw [State.dispose]
  split
  · exact h.depart _
  · split
    · exact h.handOn _
    · split
      · exact (h.joinCommands _).pass _
      · split
        · exact (h.onCounters _).depart _
        · exact h.pass _

/-- The framer's ranges speak of its delineation, its alignment and its two run counts. -/
theorem Framer.Legal.congr {a b : Framer} (h : a.Legal) (hd : b.delineation = a.delineation)
    (ha : b.alignment = a.alignment) (hg : b.goodRun = a.goodRun) (hb : b.badRun = a.badRun) : b.Legal := by
  unfold Framer.Legal at *
  rwa [hd, ha, hg, hb]

theorem Framer.legal_firstInSync {cf : Framer} (h : cf.Legal) : cf.firstInSync.Legal := by
  unfold Framer.firstInSync
  split <;> exact h

theorem Framer.firstInSync_delineation (cf : Framer) : cf.firstInSync.delineation = cf.delineation := by
  unfold Framer.firstInSync
  split <;> rfl

theorem Framer.legal_lost (cf : Framer) : cf.lost.Legal := ⟨rfl, rfl, rfl⟩

theorem Framer.legal_sync_iff {cf : Framer} (hsync : cf.delineation = .sync) :
    cf.Legal ↔ cf.alignment.isSome = true ∧ cf.goodRun = 8 ∧ cf.badRun < 5 := by
  unfold Framer.Legal
  rw [hsync]

theorem State.LegalWith.headerError (h : s.LegalWith x) (hsync : s.cf.delineation = .sync) :
    s.headerError.LegalWith x := by
  simp only [State.headerError]
  have hcounted := (h.onCounters fun k => { k with hdrErrors := k.hdrErrors + 1 }).depart .free
  split
  · exact (hcounted.onCf _ (Framer.legal_lost _)).raise _ _ _ _
  case isFalse hrun =>
    obtain ⟨halign, hgood, hbad⟩ := (Framer.legal_sync_iff hsync).1 h.framer
    have hne : s.cf.badRun + 1 ≠ 5 := hrun
    refine hcounted.onCf _ ((Framer.legal_sync_iff ?_).2 ⟨halign, hgood, ?_⟩)
    · exact hsync
    · show s.cf.badRun + 1 < 5
      omega

theorem State.LegalWith.syncArrival (h : s.LegalWith x) (hsync : s.cf.delineation = .sync) (raw : RawCell) :
    (s.syncArrival raw).LegalWith x := by
  have hfirst : (s.onCf Framer.firstInSync).LegalWith x := h.onCf _ (Framer.legal_firstInSync h.framer)
  have hsync' : (s.onCf Framer.firstInSync).cf.delineation = .sync := (Framer.firstInSync_delineation _).trans hsync
  simp only [State.syncArrival]
  split
  · obtain ⟨halign, hgood, -⟩ := (Framer.legal_sync_iff hsync').1 hfirst.framer
    have hread := hfirst.onCf (fun cf => { cf with badRun := 0, streamPos := cf.streamPos + 48 })
      ((Framer.legal_sync_iff (by exact hsync')).2 ⟨halign, hgood, Nat.zero_lt_succ 4⟩)
    split
    · exact (hread.onCounters _).depart _
    · exact hread.dispose _
  · exact hfirst.headerError hsync'

/-! ### The outbound trunk -/

theorem State.LegalWith.send (h : s.LegalWith x) (c : Cell) : (s.send c).LegalWith x := h.onCf _ h.framer

theorem State.LegalWith.place (h : s.LegalWith x) (c : Cell) : (s.place c).LegalWith x := (h.send c).onCounters _

theorem State.LegalWith.enterResetWait (h : s.LegalWith noRead) : s.enterResetWait.LegalWith noRead := by
  have hport : Port.Legal { s.lmp with ctx := [], dlv := [], seg := [], evt := [], agt := [], offered := none } := by
    obtain ⟨hlive, hlist⟩ := h.port
    exact ⟨(Nat.le_add_right _ _).trans hlive, (Nat.le_add_right _ _).trans hlist⟩
  exact {
    framer := h.framer
    hold := h.hold
    cache := h.cache
    entries := State.Beside.agree (o := s) ⟨rfl, rfl⟩ h.entries
    pools := State.pools_same h.pools rfl
    transmit := State.enterResetWait_legal h.transmit
    arbiter := h.arbiter
    port := hport
    agent := h.agent.to (by simp)
    writer := h.writer }

/-- A class is chosen for a run no longer than its weight, or anew (R133). -/
theorem State.chooseClass_run_le (hw : ∀ r, (s.ring r).weight ≤ 15) {r : RingId} {run : Nat}
    (h : s.chooseClass = some (r, run)) : run ≤ 15 := by
  simp only [State.chooseClass] at h
  split at h
  case isTrue hrun =>
    simp only [Bool.and_eq_true, decide_eq_true_eq] at hrun
    cases h
    have := hw s.ia.pointer
    omega
  · split at h
    · cases h; decide
    · cases h

theorem State.LegalWith.placeStaged (h : s.LegalWith noRead) (r : RingId) (run : Nat) (hrun : run ≤ 15) :
    (s.placeStaged r run).LegalWith noRead := by
  have htransmit := State.placeStaged_legal h.transmit r run
  rw [State.placeStaged] at *
  split at *
  · exact h
  case h_2 cell rest hfifo =>
    let u := (s.onIa fun ia => { ia with pointer := r, runCount := run }).onRing r fun y => { y with fifo := rest }
    have hu : u.LegalWith noRead := by
      refine (h.onIa (fun ia => { ia with pointer := r, runCount := run }) ⟨h.arbiter.1, hrun⟩).of_beside
        (State.moves_onRing (.refl _) r _ fun _ => rfl) (State.beside_onRing (.refl _) r _) rfl ?_
      refine State.TxLegal.unstage (s := s.onIa fun ia => { ia with pointer := r, runCount := run })
        (h.transmit.same ⟨rfl, rfl⟩ rfl) r rest ?_
      rw [State.onIa_ring, hfifo]
      exact Nat.le_succ _
    exact (hu.place cell).of_beside (State.moves_departed (.refl _) r cell) (State.beside_departed (.refl _) r cell)
      (State.departed_du _ r cell) htransmit

theorem State.LegalWith.fillFree (h : s.LegalWith noRead) : s.fillFree.LegalWith noRead := by
  rw [State.fillFree]
  split
  case h_1 q rest hresponses =>
    have hplaced := (h.onIa (fun ia => { ia with responses := rest }) ⟨by
      have := h.arbiter.1
      rw [hresponses, List.length_cons] at this
      exact (Nat.le_succ _).trans this, h.arbiter.2⟩).place q.cell
    dsimp only
    split
    · exact hplaced.enterResetWait
    · exact hplaced
  · split
    case h_1 r run hchosen =>
      exact h.placeStaged r run (State.chooseClass_run_le (fun r => (h.transmit.rings r).weight_le) hchosen)
    · exact h.send _

theorem State.LegalWith.outbound (h : s.LegalWith noRead) : s.outbound.LegalWith noRead := by
  rw [State.outbound]
  split
  · split
    · exact h.fillFree
    case h_2 d rest _ =>
      have hdue := h.onCf (fun cf => { cf with transit := rest }) h.framer
      dsimp only
      split
      · exact hdue.fillFree
      · exact (hdue.send _).onCounters _
      · exact (hdue.send _).onCounters _
  · exact h

/-! ### The port -/

/-- A LIVE head of the order list is one of the body reads that stand at the port, if it is one (R143). -/
theorem Port.bodyReads_of_head {p : Port} {e : OrderEntry} {rest : List OrderEntry} (h : p.order = e :: rest)
    (r : RingId) (g : Nat) : p.bodyReads r g =
      Port.bodyReads { p with order := rest } r g + if e.live then e.request.tag.read r g else 0 := by
  unfold Port.bodyReads Port.standing
  rw [h]
  cases hlive : e.live <;>
    simp [hlive, List.countP_append, List.countP_cons, RequestTag.read]
  omega

theorem Port.legal_tail {p : Port} (h : p.Legal) {e : OrderEntry} {rest : List OrderEntry} (ho : p.order = e :: rest) :
    Port.Legal { p with order := rest } := by
  unfold Port.Legal Port.live at *
  rw [ho, List.countP_cons, List.length_cons] at h
  obtain ⟨hlive, hlist⟩ := h
  exact ⟨by dsimp only; omega, by dsimp only; omega⟩

theorem State.LegalWith.respond {r : Request} (h : s.LegalWith r.tag.read) (result : BusResult) (data : List Byte) :
    (s.respond r result data).LegalWith noRead := by
  cases result with
  | error => exact (h.onCounters _).give _ _
  | ok =>
    rw [State.respond.eq_def]
    dsimp only
    split
    · exact h.give _ _
    · split
      · exact (h.same (t := { s with freeReads := s.freeReads + 1 }) rfl rfl rfl rfl rfl rfl rfl rfl rfl).give _ _
      · exact h.give _ _

theorem State.LegalWith.paired (h : s.LegalWith noRead) (result : BusResult) (data : List Byte) :
    (s.paired result data).LegalWith noRead := by
  rw [State.paired]
  split
  · exact h
  case h_2 e rest horder =>
    have hpaired : (s.onLmp fun p => { p with order := rest }).LegalWith
        fun r g => if e.live then e.request.tag.read r g else 0 :=
      h.onLmp _ (Port.legal_tail h.port horder) fun r g => (Port.bodyReads_of_head horder r g).ge
    dsimp only
    split
    case isTrue hlive =>
      simp only [hlive, if_true] at hpaired
      exact hpaired.respond result data
    case isFalse => exact hpaired.forget

/-- The first due entry becomes EXPIRED in its place (R145). -/
theorem expireFirst_append {pre post : List OrderEntry} {e : OrderEntry} (hpre : ∀ x ∈ pre, x.due = false)
    (hdue : e.due = true) : expireFirst (pre ++ e :: post) = pre ++ { e with live := false } :: post := by
  induction pre with
  | nil => exact if_pos hdue
  | cons a pre ih =>
    obtain ⟨ha, hrest⟩ := List.forall_mem_cons.1 hpre
    rw [List.cons_append, expireFirst, if_neg (by simp [ha]), ih hrest, List.cons_append]

theorem expireFirst_of_find? {l : List OrderEntry} {e : OrderEntry} (h : l.find? OrderEntry.due = some e) :
    ∃ pre post, l = pre ++ e :: post ∧ expireFirst l = pre ++ { e with live := false } :: post ∧ e.live = true := by
  obtain ⟨hdue, pre, post, rfl, hpre⟩ := List.find?_eq_some_iff_append.1 h
  exact ⟨pre, post, rfl, expireFirst_append (fun x hx => by simpa using hpre x hx) hdue, (Bool.and_eq_true_iff.1 hdue).1⟩

theorem State.LegalWith.expireRequest (h : s.LegalWith noRead) : s.expireRequest.LegalWith noRead := by
  rw [State.expireRequest]
  split
  case h_2 => exact h
  case h_1 e hfound =>
    obtain ⟨pre, post, horder, hexpired, hlive⟩ := expireFirst_of_find? hfound
    have hout : (s.onLmp fun p => { p with order := expireFirst p.order }).LegalWith e.request.tag.read := by
      refine h.onLmp _ ?_ fun r g => ?_
      · have hport := h.port
        unfold Port.Legal Port.live at *
        dsimp only
        rw [hexpired]
        rw [horder] at hport
        simp only [List.countP_append, List.countP_cons, List.length_append, List.length_cons] at hport ⊢
        simp only [hlive, if_true, Bool.false_eq_true, if_false] at hport ⊢
        omega
      · unfold Port.bodyReads Port.standing
        dsimp only
        rw [hexpired, horder]
        simp [hlive, List.countP_append, List.countP_cons, RequestTag.read]
        omega
    exact (hout.onCounters _).give _ _

/-- The request that is granted leaves its line and is offered (R142). -/
theorem Port.bodyReads_grant (p : Port) (q : Requester) (hoffered : p.offered = none) (r : RingId) (g : Nat) :
    (p.grant q).bodyReads r g = p.bodyReads r g := by
  unfold Port.bodyReads Port.standing Port.grant
  cases q <;>
    simp only [Port.setLine, Port.line, hoffered, Option.toList_none, List.countP_append, List.countP_nil]
  case ctx =>
    cases p.ctx <;> simp [List.countP_cons]
    omega
  case dlv =>
    cases p.dlv <;> simp [List.countP_cons]
    omega
  case seg =>
    cases p.seg <;> simp [List.countP_cons]
    omega
  case evt =>
    cases p.evt <;> simp [List.countP_cons]
    omega
  case agt =>
    cases p.agt <;> simp [List.countP_cons]
    omega

theorem Port.legal_grant {p : Port} (h : p.live < 16 ∧ p.order.length < 32) (q : Requester) : (p.grant q).Legal := by
  have horder : (p.grant q).order = p.order := Port.setLine_order _ _ _
  obtain ⟨hlive, hlist⟩ := h
  unfold Port.Legal Port.live at *
  rw [horder]
  constructor <;> split <;> omega

end Sys2Proof.Machine
end

section
/-! Every command keeps the legal ranges. -/

namespace Sys2Proof.Machine

/-! ### The power-on values -/

/-- Every block holds its power-on values but for the framer and the node's id and time. -/
theorem State.legalWith_of_powerOn {s : State} (hcf : s.cf.Legal) (hre : s.re = {}) (hxc : s.xc = {})
    (hdu : s.du = Vector.replicate 4 {}) (hsu : s.su = {}) (hia : s.ia = {}) (hlmp : s.lmp = {})
    (hma : s.ma = { nodeId := s.ma.nodeId, nodeTime := s.ma.nodeTime }) (hew : s.ew = {}) : s.LegalWith noRead := by
  have hchan : ∀ c, s.chan c = {} := fun c => by rw [State.chan, hre]; exact tget_replicate _ _
  have hentry : ∀ e, s.entry e = .free := fun e => by rw [State.entry, hxc]; exact tget_replicate _ _
  have hring : ∀ r, s.ring r = {} := fun r => by rw [State.ring, hsu]; exact tget_replicate _ _
  have hslot : ∀ k, s.slot k = {} := fun k => by rw [State.slot, hsu]; exact tget_replicate _ _
  have hpool : ∀ p, s.pool p = {} := fun p => by rw [State.pool, hdu]; exact tget_replicate _ _
  exact {
    framer := hcf
    hold := by rw [hre]; exact Nat.zero_le _
    cache := by rw [hxc]; exact ⟨List.nodup_nil, fun e => by simp, List.nodup_nil⟩
    entries := by constructor <;> simp [hchan, hentry, hxc, CacheEntry.names]
    pools := fun p => by rw [hpool]; constructor <;> simp
    transmit := {
      rings := fun r => by rw [hring]; constructor <;> simp
      staged := fun r => by rw [hring, hlmp]; constructor <;> simp [Port.bodyReads, Port.standing, noRead]
      locks := by constructor <;> simp [hslot] }
    arbiter := by rw [hia]; simp [Arbiter.Legal]
    port := by rw [hlmp]; simp [Port.Legal, Port.live]
    agent := by rw [hma]; simp [Agent.Legal]
    writer := by rw [hew]; simp [EventWriter.Legal] }

theorem Framer.legal_powerOn : Framer.Legal {} := ⟨rfl, rfl, rfl⟩

/-- Settles O57: the power-on values are in their ranges. -/
theorem legalAfterReset : Obligations.LegalAfterReset :=
  (State.legalWith_noRead_iff _).1 (State.legalWith_of_powerOn Framer.legal_powerOn rfl rfl rfl rfl rfl rfl rfl rfl)

section Commands

variable {s : State}

theorem next_live_legal {f : State → State} (h : s.LegalWith noRead) (hf : (f s).LegalWith noRead) :
    Next (s.live f) fun t => t.LegalWith noRead :=
  State.next_live h hf

theorem next_liveSettled_legal {f : State → State} (h : s.LegalWith noRead) (hf : (f s).LegalWith noRead) :
    Next (s.liveSettled f) fun t => t.LegalWith noRead :=
  State.next_liveSettled h (hf.settle s)

theorem next_command_legal {code : Byte} {f : Cell → State → State} (h : s.LegalWith noRead)
    (hf : ∀ cmd, s.ma.state = .working cmd false → cmd.code = code → (f cmd s).LegalWith noRead) :
    Next (s.live fun s => s.command code f) fun t => t.LegalWith noRead :=
  next_live_legal h (State.command_rec (P := fun u => u.LegalWith noRead) h hf)

theorem next_settledCommand_legal {code : Byte} {f : Cell → State → State} (h : s.LegalWith noRead)
    (hf : ∀ cmd, s.ma.state = .working cmd false → cmd.code = code → (f cmd s).LegalWith noRead) :
    Next (s.liveSettled fun s => s.command code f) fun t => t.LegalWith noRead :=
  next_liveSettled_legal h (State.command_rec (P := fun u => u.LegalWith noRead) h hf)

/-! ### Resets and time -/

theorem execResetAsserted_legal (h : s.LegalWith noRead) :
    Next (execResetAsserted s) fun t => t.LegalWith noRead := by
  have hhalted : { s with inReset := true }.LegalWith noRead := h.same rfl rfl rfl rfl rfl rfl rfl rfl rfl
  exact ⟨_, rfl, hhalted.onLmp _ (by simp [Port.Legal, Port.live])
    fun q g => by simp [Port.bodyReads, Port.standing]⟩

theorem execResetReleased_legal (h : s.LegalWith noRead) (n : Node) :
    Next (execResetReleased n s) fun t => t.LegalWith noRead := by
  refine ⟨_, rfl, ?_⟩
  split
  · exact State.legalWith_of_powerOn Framer.legal_powerOn rfl rfl rfl rfl rfl rfl rfl rfl
  · exact h

theorem execNodeResetTakesEffect_legal (h : s.LegalWith noRead) :
    Next (execNodeResetTakesEffect s) fun t => t.LegalWith noRead := by
  rw [execNodeResetTakesEffect]
  refine next_live_legal h ?_
  split
  · exact State.legalWith_of_powerOn (s := s.afterNodeReset) h.framer rfl rfl rfl rfl rfl rfl rfl rfl
  · exact h

@[simp] theorem OrderEntry.tick_live (e : OrderEntry) : e.tick.live = e.live := by
  unfold OrderEntry.tick
  split <;> rfl

@[simp] theorem OrderEntry.tick_request (e : OrderEntry) : e.tick.request = e.request := by
  unfold OrderEntry.tick
  split <;> rfl

/-- A tick moves the timers alone: what stands at the port stays (R145). -/
theorem Port.standing_tick (p : Port) :
    Port.standing { p with order := p.order.map OrderEntry.tick } = p.standing := by
  simp [Port.standing, List.filter_map, Function.comp_def]

theorem Port.legal_tick {p : Port} (h : p.Legal) : Port.Legal { p with order := p.order.map OrderEntry.tick } := by
  simpa [Port.Legal, Port.live, List.countP_map, Function.comp_def] using h

theorem execTick_legal (h : s.LegalWith noRead) : Next (execTick s) fun t => t.LegalWith noRead :=
  next_live_legal h <| h.update h.framer h.hold rfl rfl rfl rfl rfl
    (fun q g => by
      show Port.bodyReads { s.lmp with order := s.lmp.order.map OrderEntry.tick } q g + _ ≤ _
      rw [Port.bodyReads, Port.standing_tick]
      exact Nat.le_refl _)
    h.arbiter (Port.legal_tick h.port) h.agent h.writer

theorem execIntervalPoll_legal (h : s.LegalWith noRead) :
    Next (execIntervalPoll s) fun t => t.LegalWith noRead := by
  rw [execIntervalPoll]
  refine next_live_legal h ?_
  split
  · exact h
  · exact h.pollAll.onSu _ rfl rfl

theorem execAttnEdge_legal (h : s.LegalWith noRead) : Next (execAttnEdge s) fun t => t.LegalWith noRead := by
  rw [execAttnEdge]
  exact next_live_legal h (h.onEw _ h.writer).pollAll

theorem State.LegalWith.scanChannel {x : RingId → Nat → Nat} (h : s.LegalWith x) (c : Chan) :
    (s.scanChannel c).LegalWith x := by
  simp only [State.scanChannel]
  split
  · exact h
  · have hscanned := h.onRe (fun re => { re with scanned := c :: re.scanned }) rfl h.hold
    split
    · exact hscanned.of_receives (State.moves_deadlineFound (.refl _) c)
        (State.cache_deadlineFound (State.keepsCache_refl _) c) (State.receives_deadlineFound (.refl _) c)
        (State.pools_deadlineFound hscanned.pools c)
    · exact hscanned

/-! ### The trunk -/

theorem execHuntTrial_legal (h : s.LegalWith noRead) (header : Vector Byte 8) :
    Next (execHuntTrial header s) fun t => t.LegalWith noRead := by
  rw [execHuntTrial]
  refine next_live_legal h ?_
  split
  case isTrue hhunt =>
    have hcf := h.framer
    simp only [Framer.Legal, hhunt] at hcf
    obtain ⟨halign, hgood, hbad⟩ := hcf
    refine h.onCf _ ?_
    split
    · exact ⟨rfl, Nat.le_refl 1, Nat.one_lt_succ_succ 6, hbad⟩
    · simp only [Framer.Legal, hhunt]
      exact ⟨halign, hgood, hbad⟩
  · exact h

theorem execPresyncCell_legal (h : s.LegalWith noRead) (raw : RawCell) :
    Next (execPresyncCell raw s) fun t => t.LegalWith noRead := by
  rw [execPresyncCell]
  refine next_live_legal h ?_
  split
  case isTrue hpresync =>
    have hcf := h.framer
    simp only [Framer.Legal, hpresync] at hcf
    obtain ⟨halign, hpos, hlt, hbad⟩ := hcf
    split
    · dsimp only
      split
      case isTrue heighth =>
        have hsync := h.onCf (fun cf => { cf with
          goodRun := cf.goodRun + 1, streamPos := cf.streamPos + 48, delineation := .sync, badRun := 0
          changeover := true }) ⟨halign, heighth, Nat.zero_lt_succ 4⟩
        exact hsync.raise _ _ _ _
      case isFalse hearlier =>
        have hne : s.cf.goodRun + 1 ≠ 8 := hearlier
        refine h.onCf _ ?_
        simp only [Framer.Legal, hpresync]
        exact ⟨halign, by omega, by omega, hbad⟩
    · exact h.onCf _ (Framer.legal_lost _)
  · exact h

theorem execSyncCell_legal (h : s.LegalWith noRead) (raw : RawCell) :
    Next (execSyncCell raw s) fun t => t.LegalWith noRead := by
  rw [execSyncCell]
  refine next_liveSettled_legal h ?_
  split
  case isTrue hsync => exact h.syncArrival hsync raw
  · exact h

/-! ### The engine and the Delivery Unit -/

theorem execApplyCell_legal (h : s.LegalWith noRead) : Next (execApplyCell s) fun t => t.LegalWith noRead :=
  next_liveSettled_legal h <| h.of_receives (State.moves_applyHeld (.refl s))
    (State.cache_applyHeld s.keepsCache_refl) (State.receives_applyHeld (.refl s)) (State.pools_applyHeld h.pools)

theorem execApplyPendingAbort_legal (h : s.LegalWith noRead) (c : Chan) :
    Next (execApplyPendingAbort c s) fun t => t.LegalWith noRead :=
  next_liveSettled_legal (f := fun s => s.applyAbort c) h <| h.of_receives (State.moves_applyAbort (.refl s) c)
    (State.cache_applyAbort s.keepsCache_refl c) (State.receives_applyAbort (.refl s) c)
    (State.pools_applyAbort h.pools c)

/-- The head of a pool's requests is taken. -/
theorem State.LegalWith.popRequest {x : RingId → Nat → Nat} (h : s.LegalWith x) (p : PoolId) :
    (s.popRequest p).LegalWith x :=
  h.of_receives (State.moves_popRequest (.refl s) p) (State.cache_popRequest s.keepsCache_refl p)
    (State.receives_popRequest (.refl s) p) (State.pools_pop h.pools p)

theorem execReserve_legal (h : s.LegalWith noRead) (p : PoolId) :
    Next (execReserve p s) fun t => t.LegalWith noRead := by
  rw [execReserve]
  refine next_liveSettled_legal h ?_
  split
  · have hpop := h.popRequest p
    exact hpop.of_receives (State.moves_takeReserve (.refl _) p _) (State.cache_takeReserve (State.keepsCache_refl _) p _)
      (State.receives_takeReserve (.refl _) p _) (State.pools_takeReserve hpop.pools p _)
  all_goals exact h

theorem execTake_legal (h : s.LegalWith noRead) (p : PoolId) : Next (execTake p s) fun t => t.LegalWith noRead := by
  rw [execTake]
  refine next_liveSettled_legal h ?_
  split
  · have hpop := h.popRequest p
    exact hpop.of_receives (State.moves_takeTake (.refl _) p _) (State.cache_takeTake (State.keepsCache_refl _) p _)
      (State.receives_takeTake (.refl _) p _) (State.pools_takeTake hpop.pools p _)
  all_goals exact h

theorem execCompletionWrite_legal (h : s.LegalWith noRead) (p : PoolId) :
    Next (execCompletionWrite p s) fun t => t.LegalWith noRead := by
  rw [execCompletionWrite]
  refine next_liveSettled_legal h ?_
  split
  · have hpop := h.popRequest p
    exact hpop.of_receives (State.moves_takeComplete (.refl _) p _ _)
      (State.cache_takeComplete (State.keepsCache_refl _) p _ _) (State.receives_takeComplete (.refl _) p _ _)
      (State.pools_takeComplete hpop.pools p _ _)
  all_goals exact h

theorem execChannelUnbound_legal (h : s.LegalWith noRead) (c : Chan) :
    Next (execChannelUnbound c s) fun t => t.LegalWith noRead := by
  rw [execChannelUnbound]
  refine next_liveSettled_legal h ?_
  split
  · exact h
  case isFalse hready =>
    simp only [State.unbindReady, Bool.or_eq_true, Bool.not_eq_true', not_or, Bool.not_eq_true, Bool.not_eq_false,
      Bool.and_eq_true, beq_iff_eq] at hready
    obtain ⟨-, -, hstored⟩ := hready
    exact (h.becomeUnbound c hstored).finishLong _ _ _

/-! ### The port and the Event Writer -/

theorem execRequestGrant_legal (h : s.LegalWith noRead) : Next (execRequestGrant s) fun t => t.LegalWith noRead := by
  rw [execRequestGrant]
  refine next_live_legal h ?_
  split
  case isTrue hmay =>
    simp only [State.mayGrant, Bool.and_eq_true, Option.isNone_iff_eq_none, decide_eq_true_eq] at hmay
    obtain ⟨⟨⟨hoffered, hlive⟩, hlist⟩, -⟩ := hmay
    split
    · exact h.onLmp _ (Port.legal_grant ⟨hlive, hlist⟩ _) fun r g => (Port.bodyReads_grant _ _ hoffered r g).le
    · exact h
  · exact h

theorem execBusAccept_legal (h : s.LegalWith noRead) : Next (execBusAccept s) fun t => t.LegalWith noRead := by
  rw [execBusAccept]
  refine next_live_legal h ?_
  split
  case h_1 r hoffered =>
    refine h.onLmp _ ?_ fun q g => ?_
    · have hport := h.port
      simp only [Port.Legal, Port.live, hoffered, Option.isSome_some, if_true] at hport
      simpa [Port.Legal, Port.live] using hport
    · simp [Port.bodyReads, Port.standing, hoffered, List.countP_cons]
  · exact h

theorem execEventServe_legal (h : s.LegalWith noRead) : Next (execEventServe s) fun t => t.LegalWith noRead := by
  rw [execEventServe]
  refine next_live_legal h ?_
  split
  · exact h
  · split
    · have hserved := h.onEw (fun ew => { ew with access := .ownerRead false }) h.writer
      exact hserved.of_receives (State.moves_requestRead (.refl _) _ _ _ _)
        (State.cache_requestRead (State.keepsCache_refl _) _ _ _ _)
        (State.receives_requestRead (.refl _) _ _ _ _ (by simp)) (State.pools_requestRead hserved.pools _ _ _ _)
    · exact h

/-! ### The agent, and the commands that configure nothing -/

theorem execResponseHandover_legal (h : s.LegalWith noRead) :
    Next (execResponseHandover s) fun t => t.LegalWith noRead := by
  rw [execResponseHandover]
  refine next_live_legal h ?_
  split
  · split
    case isTrue hroom => exact h.handOver _ hroom
    · exact h
  all_goals exact h

theorem execReadCounters_legal (h : s.LegalWith noRead) :
    Next (execReadCounters s) fun t => t.LegalWith noRead := by
  rw [execReadCounters]
  refine next_command_legal h fun cmd _ _ => ?_
  split
  · exact h.answer _ _ _
  · dsimp only
    split
    · exact (h.onCounters _).answer _ _ _
    · exact h.answer _ _ _

theorem execReadCircuit_legal (h : s.LegalWith noRead) : Next (execReadCircuit s) fun t => t.LegalWith noRead := by
  rw [execReadCircuit]
  refine next_command_legal h fun cmd _ _ => ?_
  dsimp only
  split <;> exact h.answer _ _ _

/-- An unbind begins: an UNBINDING channel is one in use (R56). -/
theorem State.LegalWith.beginUnbind {x : RingId → Nat → Nat} (h : s.LegalWith x) (c : Chan) :
    (s.beginUnbind c).LegalWith x := by
  have hmark : (s.onChan c fun ch => { ch with binding := .unbinding, pendingAbort := .none }).LegalWith x := by
    refine h.of_moves (State.moves_onChan (.refl s) c _ fun _ => rfl) (State.cache_onChan s.keepsCache_refl c _) ?_
      (State.pools_onChan h.pools c _) (h.transmit.same ⟨rfl, rfl⟩ rfl)
    refine (State.agreesAs_none _).1 (h.entries.as.congr (fun _ => rfl) (fun d => ?_) (fun d hd => .inl ?_)
      fun _ hd => .inl hd)
    · rw [State.onChan_chan]; split <;> rfl
    · rw [State.onChan_chan]; split
      · exact .inr rfl
      · exact hd
  have hdropped : State.LegalWith (State.dropHeld _ (· == c)) x :=
    hmark.of_receives (State.moves_dropHeld (.refl _) (· == c)) (State.cache_dropHeld (State.keepsCache_refl _) _)
      (State.receives_dropHeld (.refl _) _) (State.pools_dropHeld hmark.pools _)
  exact hdropped.onCounters fun k => { k with nochannel := k.nochannel + s.heldCount (· == c) }

theorem execUnbindChannel_legal (h : s.LegalWith noRead) :
    Next (execUnbindChannel s) fun t => t.LegalWith noRead := by
  rw [execUnbindChannel]
  refine next_settledCommand_legal h fun cmd _ _ => ?_
  dsimp only
  split
  · exact h.answer _ _ _
  · exact (h.beginUnbind _).goLong _
  · exact h.goLong _
  case h_4 hfaulted =>
    have hstored := h.entries.unused (cmd.chanArg 3) (by simp [Channel.InUse, hfaulted])
    exact (h.becomeUnbound _ hstored).answer _ _ _

theorem State.LegalWith.awaitContext {x : RingId → Nat → Nat} (h : s.LegalWith x) (c : Chan) (part : Fin 4)
    (stage : CtxReadStage) : (s.awaitContext c part stage).LegalWith x :=
  h.of_receives (State.moves_onXc (.refl s) _ rfl) (State.cache_onXc s.keepsCache_refl _ rfl rfl rfl)
    (State.receives_onXc (.refl s) _ rfl rfl) (State.pools_onXc h.pools _)

theorem State.LegalWith.readStore {x : RingId → Nat → Nat} (h : s.LegalWith x) (c : Chan) (part : Fin 4) :
    (s.readStore c part).LegalWith x := by
  refine (h.awaitContext c part .store).of_receives (State.moves_requestRead (.refl _) _ _ _ _)
    (State.cache_requestRead (State.keepsCache_refl _) _ _ _ _)
    (State.receives_requestRead (.refl _) _ _ _ _ (by simp)) (State.pools_requestRead (State.pools_onXc h.pools _) _ _ _ _)

theorem State.LegalWith.serveContextRead {x : RingId → Nat → Nat} (h : s.LegalWith x) (cmd : Cell) (c : Chan)
    (part : Fin 4) : (s.serveContextRead cmd c part).LegalWith x := by
  rw [State.serveContextRead]
  split
  · split
    · exact h.answer _ _ _
    · exact h
  · exact (h.awaitContext _ _ _).goLong _
  · exact (h.awaitContext _ _ _).goLong _
  · split
    · exact (((h.agentTo _ (by simp)).awaitContext _ _ _).fetchRequest _).examineQueue
    · exact (h.readStore _ _).goLong _

theorem execReadContext_legal (h : s.LegalWith noRead) : Next (execReadContext s) fun t => t.LegalWith noRead := by
  rw [execReadContext]
  refine next_settledCommand_legal h fun cmd _ _ => ?_
  split
  · exact h.answer _ _ _
  · split
    · exact h.answer _ _ _
    · exact h.serveContextRead _ _ _

theorem execSyncContexts_legal (h : s.LegalWith noRead) : Next (execSyncContexts s) fun t => t.LegalWith noRead := by
  rw [execSyncContexts]
  refine next_settledCommand_legal h fun cmd _ _ => ?_
  split
  · exact h.answer _ _ _
  · have hlong := h.agentTo (.working cmd true) (by simp)
    exact (hlong.of_receives (State.moves_syncNext (.refl _) _) (State.cache_syncNext (State.keepsCache_refl _) _)
      (State.receives_syncNext (.refl _) _) (State.pools_syncNext hlong.pools _)).examineQueue

/-! ### The commands that move the node -/

theorem execStart_legal (h : s.LegalWith noRead) : Next (execStart s) fun t => t.LegalWith noRead := by
  rw [execStart]
  refine next_command_legal h fun cmd _ _ => ?_
  split
  · exact h.answer _ _ _
  · exact (h.nodeTo _).pollAll.answer _ _ _

/-- Every pending abort becomes none and the scan ends, with no channel's residence or binding moved (R58). -/
theorem State.LegalWith.stopHolding {x : RingId → Nat → Nat} (h : s.LegalWith x) : s.stopHolding.LegalWith x := by
  have hdropped : State.LegalWith (State.dropHeld (s.onCounters fun k =>
      { k with datapathOff := k.datapathOff + s.heldCount fun _ => true }) fun _ => true) x :=
    (h.onCounters _).of_receives (State.moves_dropHeld (.refl _) _) (State.cache_dropHeld (State.keepsCache_refl _) _)
      (State.receives_dropHeld (.refl _) _) (State.pools_dropHeld (State.pools_onCounters h.pools _) _)
  have hcleared : State.LegalWith (State.onRe (State.dropHeld (s.onCounters fun k =>
      { k with datapathOff := k.datapathOff + s.heldCount fun _ => true }) fun _ => true) fun re => { re with
      channels := re.channels.map fun ch => { ch with pendingAbort := .none }, scanOpen := false, scanned := [] }) x := {
    framer := h.framer
    hold := hdropped.hold
    cache := h.cache
    entries := (State.agreesAs_none _).1 <| hdropped.entries.as.alike
      { names := fun _ => rfl
        residence := fun c => by rw [State.chan, State.onRe_re, tget_map]; rfl
        binding := fun c => by rw [State.chan, State.onRe_re, tget_map]; rfl
        waitList := rfl }
    pools := State.pools_same h.pools rfl
    transmit := h.transmit.same ⟨rfl, rfl⟩ rfl
    arbiter := h.arbiter
    port := h.port
    agent := h.agent
    writer := h.writer }
  exact hcleared.of_receives (State.moves_endNewlyFilled (.refl _)) (State.cache_endNewlyFilled (State.keepsCache_refl _))
    (State.receives_endNewlyFilled (.refl _)) (State.pools_same hcleared.pools rfl)

theorem State.LegalWith.foldl {β : Type} {x : RingId → Nat → Nat} {f : State → β → State}
    (hf : ∀ u b, u.LegalWith x → (f u b).LegalWith x) (l : List β) :
    ∀ u : State, u.LegalWith x → (l.foldl f u).LegalWith x := by
  induction l with
  | nil => exact fun _ hu => hu
  | cons b l ih => exact fun u hu => ih _ (hf u b hu)

theorem State.LegalWith.stopReceive {x : RingId → Nat → Nat} (h : s.LegalWith x) : s.stopReceive.LegalWith x := by
  refine State.LegalWith.foldl (fun u c hu => ?_) _ _ h.stopHolding
  dsimp only
  split
  · exact hu.fetchRequest c
  · exact hu

theorem State.LegalWith.leaveLockQueues (h : s.LegalWith noRead) : s.leaveLockQueues.LegalWith noRead :=
  h.of_beside (State.moves_leaveLockQueues (.refl s)) ⟨rfl, rfl⟩ rfl (State.leaveLockQueues_legal h.transmit)

theorem execStop_legal (h : s.LegalWith noRead) : Next (execStop s) fun t => t.LegalWith noRead := by
  rw [execStop]
  refine next_settledCommand_legal h fun cmd _ _ => ?_
  split
  · exact h.answer _ _ _
  · exact (h.onMa _ h.agent).leaveLockQueues.stopReceive.goLong _

theorem execStopDrainComplete_legal (h : s.LegalWith noRead) :
    Next (execStopDrainComplete s) fun t => t.LegalWith noRead := by
  rw [execStopDrainComplete]
  refine next_live_legal h ?_
  split
  · split
    · exact (h.nodeTo _).answer _ _ _
    · exact h
  · exact h

/-! ### The configuration commands -/

/-- A CLAIM in hand of a node that is not listed finds the list empty (R157, R158). -/
theorem execClaim_legal (h : s.LegalWith noRead) : Next (execClaim s) fun t => t.LegalWith noRead := by
  rw [execClaim]
  refine next_command_legal h fun cmd hstate hcode => ?_
  split
  · exact h.answer _ _ _
  case isFalse hnew =>
    obtain hlisted | hnone := h.agent.2.2.2 cmd hstate hcode
    · exact absurd ((s.listed_iff _).2 hlisted) hnew
    · exact h.answerAdd (by rw [hnone]; decide) (Bool.eq_false_iff.2 hnew) cmd

theorem execManager_legal (h : s.LegalWith noRead) : Next (execManager s) fun t => t.LegalWith noRead := by
  rw [execManager]
  refine next_command_legal h fun cmd _ _ => ?_
  dsimp only
  split
  · exact h.answer _ _ _
  · split
    · split
      · exact h.answer _ _ _
      case isFalse hroom =>
        obtain ⟨hnew, hlen⟩ := not_or.1 hroom
        exact h.answerAdd (by omega) (Bool.eq_false_iff.2 hnew) cmd
    · split
      · exact h.answerRemove _ _
      · exact h.answer _ _ _

theorem execSetLocalMap_legal (h : s.LegalWith noRead) : Next (execSetLocalMap s) fun t => t.LegalWith noRead := by
  rw [execSetLocalMap]
  refine next_command_legal h fun cmd _ _ => ?_
  dsimp only
  split
  · exact h.answer _ _ _
  · have hstore : (s.onXc fun xc => { xc with storeBase := cmd.arg32 3 }).LegalWith noRead := {
      framer := h.framer
      hold := h.hold
      cache := State.cache_onXc s.keepsCache_refl _ rfl rfl rfl h.cache
      entries := (State.receives_onXc (.refl s) _ rfl rfl).agree h.entries
      pools := State.pools_onXc h.pools _
      transmit := h.transmit.same ⟨rfl, rfl⟩ rfl
      arbiter := h.arbiter
      port := h.port
      agent := h.agent
      writer := h.writer }
    have hmap := (hstore.onLmp (y := noRead) (fun p => { p with memTimeout := cmd.arg8 13 }) h.port
      fun _ _ => Nat.le_refl _)
    have hring : State.LegalWith (State.handRing _ (cmd.arg32 7) (cmd.arg16 11).toNat) noRead := hmap.onEw _ (by
      refine ⟨?_, Nat.zero_le _⟩
      dsimp only
      split
      · exact Nat.zero_le _
      · exact h.writer.1)
    split
    · exact (hring.nodeTo _).answer _ _ _
    · exact hring.answer _ _ _

/-- A pool that SET_POOL does not refuse has no access in flight: it is not BUSY, or it is FAULTED (R107, R105). -/
theorem State.LegalWith.noAccess_of_poolRefusal {x : RingId → Nat → Nat} (h : s.LegalWith x) {p : PoolId}
    {freeBase complBase : Word} {freeSize complSize bufSize : Nat}
    (hnone : s.poolRefusal p freeBase freeSize complBase complSize bufSize = none) :
    (s.pool p).access = none ∧ (freeSize ≠ 0 → 0 < complSize) := by
  simp only [State.poolRefusal] at hnone
  have hfaulted := (h.pools p).inactive
  split at hnone
  · cases hnone
  · split at hnone
    · cases hnone
    · split at hnone
      · split at hnone
        · cases hnone
        · grind
      · split at hnone
        · cases hnone
        · grind

theorem execSetPool_legal (h : s.LegalWith noRead) : Next (execSetPool s) fun t => t.LegalWith noRead := by
  rw [execSetPool]
  refine next_settledCommand_legal h fun cmd _ _ => ?_
  split
  · exact h.answer _ _ _
  case h_2 p _ =>
    dsimp only
    split
    · exact h.answer _ _ _
    · split
      · exact h.answer _ _ _
      case h_2 hnone =>
        obtain ⟨haccess, hsize⟩ := h.noAccess_of_poolRefusal hnone
        refine State.LegalWith.answer ?_ _ _ _
        exact {
          framer := h.framer
          hold := h.hold
          cache := h.cache
          entries := (State.receives_onPool (.refl s) p _).agree h.entries
          pools := State.pools_one h.pools p _ (by
            split
            · constructor <;> simp [haccess]
            · constructor <;> simp [haccess])
          transmit := h.transmit.same ⟨rfl, rfl⟩ rfl
          arbiter := h.arbiter
          port := h.port
          agent := h.agent
          writer := h.writer }

/-- A ring that SET_TXRING does not refuse neither waits for a lock nor sends, and its weight is in range (R128). -/
theorem State.ringRefusal_eq_none {r : RingId} {base : Word} {size weight : Nat} {notify : Byte}
    (hnone : s.ringRefusal r base size weight notify = none) :
    (s.ring r).state ≠ .waitSlot ∧ (s.ring r).state ≠ .sending ∧ (size ≠ 0 → weight ≤ 15) := by
  simp only [State.ringRefusal] at hnone
  split at hnone
  · cases hnone
  · split at hnone
    · cases hnone
    · grind

theorem execSetTxring_legal (h : s.LegalWith noRead) : Next (execSetTxring s) fun t => t.LegalWith noRead := by
  rw [execSetTxring]
  refine next_command_legal h fun cmd _ _ => ?_
  split
  · exact h.answer _ _ _
  case h_2 r _ =>
    dsimp only
    split
    · exact h.answer _ _ _
    case h_2 hnone =>
      obtain ⟨hwait, hsend, hweight⟩ := State.ringRefusal_eq_none hnone
      refine State.LegalWith.answer ?_ _ _ _
      exact {
        framer := h.framer
        hold := h.hold
        cache := h.cache
        entries := State.Beside.agree (o := s) ⟨rfl, rfl⟩ h.entries
        pools := State.pools_same h.pools rfl
        transmit := by
          refine h.transmit.configure r _ ?_ ?_ ?_ hwait hsend
          · split
            · constructor <;> simp
            case isFalse hsize => constructor <;> simp [hweight hsize]
          · split <;> rfl
          · split <;> rfl
        arbiter := h.arbiter
        port := h.port
        agent := h.agent
        writer := h.writer }

theorem execSetSend_legal (h : s.LegalWith noRead) : Next (execSetSend s) fun t => t.LegalWith noRead := by
  rw [execSetSend]
  refine next_command_legal h fun cmd _ _ => ?_
  split
  · exact h.answer _ _ _
  case h_2 k _ =>
    split
    · exact h.answer _ _ _
    · have hwritten : (s.onSlot k fun y => y.configured cmd).LegalWith noRead := {
        framer := h.framer
        hold := h.hold
        cache := h.cache
        entries := State.Beside.agree (o := s) ⟨rfl, rfl⟩ h.entries
        pools := State.pools_same h.pools rfl
        transmit := h.transmit.onSlot k _ fun _ => ⟨rfl, rfl⟩
        arbiter := h.arbiter
        port := h.port
        agent := h.agent
        writer := h.writer }
      dsimp only
      split
      · exact (hwritten.of_beside (State.moves_disableSlot (.refl _) k) (State.beside_disableSlot (.refl _) k)
          (State.disableSlot_du _ k) (State.disableSlot_legal hwritten.transmit k)).answer _ _ _
      · exact hwritten.answer _ _ _

theorem execSetNode_legal (h : s.LegalWith noRead) : Next (execSetNode s) fun t => t.LegalWith noRead := by
  rw [execSetNode]
  refine next_command_legal h fun cmd _ _ => ?_
  dsimp only
  split
  · exact h.answer _ _ _
  · exact ((h.onSu _ rfl rfl).onCc _).answer _ _ _

theorem execWriteCircuit_legal (h : s.LegalWith noRead) : Next (execWriteCircuit s) fun t => t.LegalWith noRead := by
  rw [execWriteCircuit]
  refine next_command_legal h fun cmd _ _ => ?_
  dsimp only
  split
  · exact h.answer _ _ _
  · split
    · exact h.answer _ _ _
    · exact (h.onCc _).answer _ _ _

theorem execBindChannel_legal (h : s.LegalWith noRead) : Next (execBindChannel s) fun t => t.LegalWith noRead := by
  rw [execBindChannel]
  refine next_command_legal h fun cmd _ _ => ?_
  dsimp only
  split
  · exact h.answer _ _ _
  · split
    · exact h.answer _ _ _
    · split
      · exact h.answer _ _ _
      · split
        · exact h.answer _ _ _
        · refine State.LegalWith.answer ?_ _ _ _
          exact {
            framer := h.framer
            hold := h.hold
            cache := h.cache
            entries := (State.agreesAs_none _).1 <| h.entries.as.congr (fun _ => rfl)
              (fun d => by rw [State.onChan_chan]; split <;> rfl)
              (fun d hd => .inl (by
                rw [State.onChan_chan]
                split
                · exact .inl rfl
                · exact hd))
              fun _ hd => .inl hd
            pools := State.pools_same h.pools rfl
            transmit := h.transmit.same ⟨rfl, rfl⟩ rfl
            arbiter := h.arbiter
            port := h.port
            agent := h.agent
            writer := h.writer }

/-! ### Every command -/

/-- Every command keeps the legal ranges. -/
theorem exec_legal (h : s.LegalWith noRead) (c : Instr) : Next (exec c s) fun t => t.LegalWith noRead := by
  cases c with
  | resetAsserted => exact execResetAsserted_legal h
  | resetReleased n => exact execResetReleased_legal h n
  | tick => exact execTick_legal h
  | deadlineReached c => exact next_liveSettled_legal (f := fun s => s.scanChannel c) h (h.scanChannel c)
  | intervalPoll => exact execIntervalPoll_legal h
  | requestTimeout => exact next_liveSettled_legal (f := State.expireRequest) h h.expireRequest
  | attnEdge => exact execAttnEdge_legal h
  | huntTrial header => exact execHuntTrial_legal h header
  | presyncCell cell => exact execPresyncCell_legal h cell
  | syncCell cell => exact execSyncCell_legal h cell
  | outboundPosition => exact next_live_legal (f := State.outbound) h h.outbound
  | applyCell => exact execApplyCell_legal h
  | applyPendingAbort c => exact execApplyPendingAbort_legal h c
  | reserve p => exact execReserve_legal h p
  | take p => exact execTake_legal h p
  | completionWrite p => exact execCompletionWrite_legal h p
  | requestGrant => exact execRequestGrant_legal h
  | busAccept => exact execBusAccept_legal h
  | memoryResponse r d => exact next_liveSettled_legal (f := fun s => s.paired r d) h (h.paired r d)
  | channelUnbound c => exact execChannelUnbound_legal h c
  | eventServe => exact execEventServe_legal h
  | commandTake => exact next_live_legal (f := State.takeCommand) h h.takeCommand
  | responseHandover => exact execResponseHandover_legal h
  | ident => exact next_command_legal h fun _ _ _ => h.answer _ _ _
  | claim => exact execClaim_legal h
  | release => exact next_command_legal h fun _ _ _ => h.answerRemove _ _
  | manager => exact execManager_legal h
  | setLocalMap => exact execSetLocalMap_legal h
  | setPool => exact execSetPool_legal h
  | setTxring => exact execSetTxring_legal h
  | setSend => exact execSetSend_legal h
  | setEvents => exact next_command_legal h fun _ _ _ => (h.onEw _ h.writer).answer _ _ _
  | setNode => exact execSetNode_legal h
  | writeCircuit => exact execWriteCircuit_legal h
  | readCircuit => exact execReadCircuit_legal h
  | bindChannel => exact execBindChannel_legal h
  | unbindChannel => exact execUnbindChannel_legal h
  | readChannel => exact next_command_legal h fun _ _ _ => h.answer _ _ _
  | readContext => exact execReadContext_legal h
  | syncContexts => exact execSyncContexts_legal h
  | start => exact execStart_legal h
  | stop => exact execStop_legal h
  | stopDrainComplete => exact execStopDrainComplete_legal h
  | nodeReset => exact next_command_legal h fun _ _ _ => h.answer _ _ _
  | nodeResetTakesEffect => exact execNodeResetTakesEffect_legal h
  | readCounters => exact execReadCounters_legal h

end Commands

/-- Settles O58: the command at the front of the queue keeps the legal ranges, and an idle step leaves them. -/
theorem everyStepKeepsTheLegalRanges : Obligations.EveryStepKeepsTheLegalRanges := by
  intro s t h hstep
  have hwith := (State.legalWith_noRead_iff s).2 h
  rw [step] at hstep
  split at hstep
  · cases hstep
    exact h
  case h_2 c rest hpending =>
    have hrest : { s with pending := rest }.LegalWith noRead := hwith.same rfl rfl rfl rfl rfl rfl rfl rfl rfl
    exact (State.legalWith_noRead_iff t).1 ((exec_legal hrest c).of_eq hstep)

end Sys2Proof.Machine
end

section
/-! Power-on and node reset, the tick, the port and the Event Writer. -/

namespace Sys2Proof.Machine

/-! ### Resets -/

/-- Settles O3: each value is the default that the block is declared with. -/
theorem resetHoldsPowerOnValues : Obligations.ResetHoldsPowerOnValues := by
  have hchan : ∀ c, State.reset.chan c = {} := fun c => tget_replicate _ _
  have hcircuit : ∀ l, State.reset.circuit l = {} := fun l => tget_replicate _ _
  have hentry : ∀ e, State.reset.entry e = .free := fun e => tget_replicate _ _
  have hpool : ∀ p, State.reset.pool p = {} := fun p => tget_replicate _ _
  have hring : ∀ r, State.reset.ring r = {} := fun r => tget_replicate _ _
  have hslot : ∀ k, State.reset.slot k = {} := fun k => tget_replicate _ _
  have hline : ∀ q, State.reset.lmp.line q = [] := fun q => by cases q <;> rfl
  have henable : ∀ k : EventKind, State.reset.ew.enable.getLsbD k.code = true := fun k => by cases k <;> rfl
  exact ⟨⟨rfl, rfl, rfl, rfl, rfl⟩, hcircuit, rfl, hchan, rfl, hentry, rfl, rfl, rfl, hpool,
    fun r => by rw [hring]; exact ⟨rfl, rfl, rfl, rfl⟩, hslot, ⟨rfl, rfl⟩, ⟨rfl, rfl, rfl⟩, ⟨hline, rfl, rfl, rfl⟩,
    ⟨rfl, rfl, rfl, rfl, rfl⟩, ⟨rfl, rfl, rfl, rfl, rfl, rfl, rfl, rfl, henable⟩, rfl⟩

/-- Every command but the two of RESET waits for the release of RESET (R171). -/
theorem exec_of_inReset {c : Instr} (hasserted : c ≠ .resetAsserted) (hreleased : ∀ n, c ≠ .resetReleased n) {s : State}
    (h : s.inReset = true) : exec c s = .next s := by
  cases c with
  | resetAsserted => exact absurd rfl hasserted
  | resetReleased n => exact absurd rfl (hreleased n)
  | _ => exact congrArg Host.Outcome.next (if_pos h)

/-- Settles O4: the two commands of RESET act as they are written, and any other leaves the state while it stands. -/
theorem powerOnResetStopsAndRestartsThePart : Obligations.PowerOnResetStopsAndRestartsThePart := by
  refine ⟨⟨fun _ => rfl, fun n s h => ?_⟩, fun c s h hasserted hreleased => exec_of_inReset hasserted hreleased h⟩
  exact congrArg Host.Outcome.next (if_pos h)

theorem State.halted_iff (s : State) : s.halted = true ↔ s.ma.state = .resetWait := beq_iff_eq

theorem State.halted_of_ne {s : State} (h : s.ma.state ≠ .resetWait) : s.halted = false :=
  s.halted_eq_false_iff.2 h

theorem State.quiet_iff (s : State) : s.quiet = true ↔ ∀ e ∈ s.lmp.order, e.live = false := by
  simp [State.quiet]

/-- Settles O5: the reset takes effect when the agent waits for it and the port is quiet. -/
theorem nodeResetTakesEffectWhenQuiet : Obligations.NodeResetTakesEffectWhenQuiet := by
  intro s hreset hwait
  have hexec : exec .nodeResetTakesEffect s = .next (if s.halted && s.quiet then s.afterNodeReset else s) :=
    State.next_of_not_inReset hreset
  rw [hexec, s.halted_iff.2 hwait, Bool.true_and]
  refine ⟨fun hquiet => ?_, fun ⟨e, he, hlive⟩ => ?_⟩
  · rw [if_pos (s.quiet_iff.2 hquiet)]
    rfl
  · rw [if_neg fun hquiet => by simp [s.quiet_iff.1 hquiet e he] at hlive]

/-! ### Time -/

/-- Settles O6: what a tick does is written out. -/
theorem tickAdvancesTimeAndTimers : Obligations.TickAdvancesTimeAndTimers :=
  fun _ hreset => State.next_of_not_inReset hreset

/-! ### The port -/

/-- The cycle from a requester is its five successors in order, itself the last (R142). -/
theorem Requester.cycle_eq_map (q : Requester) :
    q.cycle = (List.range' 0 5).map fun k => Nat.repeat Requester.succ (k + 1) q := by
  cases q <;> rfl

/-- The requester that is granted: the first in the cycle whose line holds a request (R142). -/
theorem Port.nextRequester_eq {p : Port} {k : Nat} (hk : k < 5)
    (hempty : ∀ j, j < k → p.line (Nat.repeat Requester.succ (j + 1) p.pointer) = [])
    (hline : p.line (Nat.repeat Requester.succ (k + 1) p.pointer) ≠ []) :
    p.nextRequester = some (Nat.repeat Requester.succ (k + 1) p.pointer) := by
  have hfirst : (List.range' 0 5).find? (fun j => !(p.line (Nat.repeat Requester.succ (j + 1) p.pointer)).isEmpty) =
      some k :=
    List.find?_range'_eq_some.2 ⟨by simpa using hline, by simpa using hk, fun j _ hj => by simp [hempty j hj]⟩
  rw [Port.nextRequester, Requester.cycle_eq_map, List.find?_map]
  exact congrArg (Option.map _) hfirst

theorem Port.nextRequester_eq_none {p : Port} (hempty : ∀ q, p.line q = []) : p.nextRequester = none := by
  rw [Port.nextRequester, List.find?_eq_none]
  simp [hempty]

theorem exec_requestGrant_of_not_inReset {s : State} (hreset : s.inReset = false) :
    exec .requestGrant s = .next (if s.mayGrant then
      match s.lmp.nextRequester with
      | some q => s.onLmp fun p => p.grant q
      | none => s
    else s) :=
  State.next_of_not_inReset hreset

theorem State.mayGrant_iff (s : State) : s.mayGrant = true ↔
    s.lmp.offered = none ∧ s.lmp.live < 16 ∧ s.lmp.order.length < 32 ∧ s.ma.state ≠ .resetWait := by
  simp [State.mayGrant, State.halted, and_assoc]

/-- Settles O8: a grant by the cycle, each of its bars, and the acceptance. -/
theorem requestIsGrantedInCycleOrderAndIssued : Obligations.RequestIsGrantedInCycleOrderAndIssued := by
  refine ⟨⟨?granted, ?barred⟩, ?accepted⟩
  case granted =>
    intro s k q r rest hreset hwait hoffered hlive hlist hk hq hempty hline
    subst hq
    have hnext := Port.nextRequester_eq hk hempty (by rw [hline]; exact List.cons_ne_nil _ _)
    rw [exec_requestGrant_of_not_inReset hreset, if_pos (s.mayGrant_iff.2 ⟨hoffered, hlive, hlist, hwait⟩), hnext]
    simp only [State.onLmp, Port.grant, hline, List.tail_cons, List.head?_cons]
  case barred =>
    intro s hreset hbar
    rw [exec_requestGrant_of_not_inReset hreset]
    split
    case isFalse => rfl
    case isTrue hmay =>
      obtain ⟨hoffered, hlive, hlist, hwait⟩ := s.mayGrant_iff.1 hmay
      obtain h | h | h | h | h := hbar
      · exact absurd h hwait
      · exact absurd hoffered h
      · omega
      · omega
      · rw [Port.nextRequester_eq_none h]
  case accepted =>
    intro s r hreset hoffered
    refine (State.next_of_not_inReset hreset).trans ?_
    dsimp only
    rw [hoffered]
    rfl

/-- A response with as many bytes as were asked for gives exactly those (R140). -/
theorem readBytes_of_length {n : Nat} {data : List Byte} (h : data.length = n) (serial : Nat) :
    readBytes n data serial = data := by
  subst h
  refine List.ext_getElem (by simp [readBytes]) fun i hi hj => ?_
  simp [readBytes, List.getD_eq_getElem?_getD, List.getElem?_eq_getElem hj]

theorem exec_memoryResponse_of_not_inReset {s : State} (hreset : s.inReset = false) (result : BusResult)
    (data : List Byte) : exec (.memoryResponse result data) s = .next ((s.paired result data).settle s) :=
  State.next_of_not_inReset hreset

/-- The answer of a LIVE head is given to its requester (R144). -/
theorem State.paired_of_live {s : State} {e : OrderEntry} {rest : List OrderEntry} (horder : s.lmp.order = e :: rest)
    (hlive : e.live = true) (result : BusResult) (data : List Byte) :
    s.paired result data = (s.onLmp fun p => { p with order := rest }).respond e.request result data := by
  rw [State.paired, horder]
  exact if_pos hlive

theorem State.give_of_resetWait {s : State} (h : s.ma.state = .resetWait) (tag : RequestTag) (a : Answer)
    (bytes : List Byte) : s.give tag a bytes = s := by
  unfold State.give
  rw [s.halted_iff.2 h, if_pos rfl]

/-- Settles O9: the head of the order list by its state, the answer by the direction of its request. -/
theorem responseIsPairedWithTheHead : Obligations.ResponseIsPairedWithTheHead := by
  refine ⟨fun s res d hreset horder => ?_, fun s res d e rest hreset horder hlive => ?_,
    fun s d e rest hreset horder hlive => ?_, fun s d e rest hreset horder hlive hdir => ?_,
    fun s d e rest hreset horder hlive hdir hlen => ?_, fun _ _ _ _ h => State.give_of_resetWait h _ _ _⟩
  · rw [exec_memoryResponse_of_not_inReset hreset, State.paired, horder]
  · rw [exec_memoryResponse_of_not_inReset hreset, State.paired, horder]
    simp only [hlive, Bool.false_eq_true, if_false]
    rfl
  · rw [exec_memoryResponse_of_not_inReset hreset, State.paired_of_live horder hlive]
    rfl
  · rw [exec_memoryResponse_of_not_inReset hreset, State.paired_of_live horder hlive, State.respond.eq_def]
    simp only [hdir]
    rfl
  · rw [exec_memoryResponse_of_not_inReset hreset, State.paired_of_live horder hlive, State.respond.eq_def]
    simp only [hdir, hlen, lt_irrefl, if_false, readBytes_of_length hlen]
    rfl

theorem OrderEntry.due_iff (e : OrderEntry) : e.due = true ↔ e.live = true ∧ e.timer = 0 := by
  simp [OrderEntry.due]

theorem OrderEntry.due_eq_false_iff (e : OrderEntry) : e.due = false ↔ e.live = false ∨ e.timer ≠ 0 := by
  rw [← Bool.not_eq_true, e.due_iff, not_and_or, Bool.not_eq_true]

theorem exec_requestTimeout_of_not_inReset {s : State} (hreset : s.inReset = false) :
    exec .requestTimeout s = .next (s.expireRequest.settle s) :=
  State.next_of_not_inReset hreset

/-- Settles O10: the first due entry is the one that expires. -/
theorem oldestExpiredRequestTimesOut : Obligations.OldestExpiredRequestTimesOut := by
  refine ⟨fun s pre e post hreset horder hlive htimer hpre => ?_, fun s hreset hnone => ?_⟩
  · have hdue := e.due_iff.2 ⟨hlive, htimer⟩
    have hbefore : ∀ x ∈ pre, x.due = false := fun x hx => x.due_eq_false_iff.2 (hpre x hx)
    have hfound : s.lmp.order.find? OrderEntry.due = some e :=
      List.find?_eq_some_iff_append.2 ⟨hdue, pre, post, horder, fun x hx => by rw [hbefore x hx]; rfl⟩
    rw [exec_requestTimeout_of_not_inReset hreset, State.expireRequest, hfound]
    simp only [State.onLmp, horder, expireFirst_append hbefore hdue]
    rfl
  · have hfound : s.lmp.order.find? OrderEntry.due = none :=
      List.find?_eq_none.2 fun x hx => by rw [x.due_eq_false_iff.2 (hnone x hx)]; exact Bool.false_ne_true
    rw [exec_requestTimeout_of_not_inReset hreset, State.expireRequest, hfound]

/-! ### Events -/

theorem State.raise_dropped {s : State} {k : EventKind} (h : s.ma.state = .resetWait ∨
    s.ew.enable.getLsbD k.code = false ∨ s.ew.state ≠ .on) (subject detail : Nat) (aux : Word) :
    s.raise k subject detail aux = s := by
  rw [State.raise]
  split_ifs with h1 h2 h3
  · rfl
  · rfl
  · rfl
  · exact absurd h (by simp [h1, h2, h3])
  · exact absurd h (by simp [h1, h2, h3])

theorem State.raise_admitted {s : State} {k : EventKind} (hwait : s.ma.state ≠ .resetWait)
    (henabled : s.ew.enable.getLsbD k.code = true) (hon : s.ew.state = .on) (subject detail : Nat) (aux : Word) :
    s.raise k subject detail aux = if 8 ≤ s.ew.queue.length then s.loseEvent else s.onEw fun ew =>
      { ew with queue := ew.queue ++ [{ kind := k, subject := BitVec.ofNat 16 subject
                                        detail := BitVec.ofNat 16 detail, tick := s.ma.nodeTime, aux }] } := by
  rw [State.raise, if_neg hwait, if_neg (by rw [henabled]; exact Bool.noConfusion), if_neg (not_not.2 hon)]

/-- Settles O13: the tests of an event in their order. -/
theorem raisedEventJoinsTheQueueOrIsLost : Obligations.RaisedEventJoinsTheQueueOrIsLost := by
  refine fun s k subject detail aux => ⟨fun h => State.raise_dropped h _ _ _, fun hwait henabled hon => ?_⟩
  rw [State.raise_admitted hwait henabled hon]
  refine ⟨fun hroom => ?_, fun hfull => ?_⟩
  · rw [if_neg (Nat.not_le.2 hroom)]
    rfl
  · rw [if_pos hfull]
    rfl

theorem State.give_event {s : State} (hwait : s.ma.state ≠ .resetWait) (a : Answer) (bytes : List Byte) :
    s.give .event a bytes = s.eventAnswered a bytes := by
  unfold State.give
  rw [State.halted_of_ne hwait]
  rfl

section Serve

variable {s : State}

theorem State.ownerKnown_device {e : Event} {rest : List Event} (h : s.ew.queue = e :: rest) :
    s.ownerKnown 1 = (s.onEw fun ew => { ew with access := .recordWrite false, lost := 0 }).requestWrite .evt
      s.ew.slotAddr (eventRecord e s.ew.lost) .event := by
  rw [State.ownerKnown, h]
  exact if_pos rfl

theorem State.ownerKnown_other {e : Event} {rest : List Event} (h : s.ew.queue = e :: rest) {b : Byte} (hb : b ≠ 1) :
    s.ownerKnown b = (s.onEw fun ew => { ew with queue := rest }).loseEvent := by
  rw [State.ownerKnown, h]
  exact if_neg hb

theorem State.eventAnswered_ownerRead (h : s.ew.access = .ownerRead false) (bytes : List Byte) :
    s.eventAnswered .ok bytes = (s.onEw fun ew => { ew with access := .none }).ownerKnown (byteAt bytes 0) := by
  rw [State.eventAnswered, h]
  rfl

theorem State.eventAnswered_recordWrite (h : s.ew.access = .recordWrite false) (bytes : List Byte) :
    s.eventAnswered .ok bytes = (s.onEw fun ew => { ew with access := .none }).recordKept := by
  rw [State.eventAnswered, h]
  rfl

theorem State.eventAnswered_failed (h : s.ew.access = .ownerRead false ∨ s.ew.access = .recordWrite false) {a : Answer}
    (ha : a ≠ .ok) (bytes : List Byte) :
    s.eventAnswered a bytes = (s.onEw fun ew => { ew with access := .none }).writerFault := by
  obtain h | h := h <;>
  · rw [State.eventAnswered, h]
    exact if_neg ha

theorem State.eventAnswered_stale (h : s.ew.access = .ownerRead true ∨ s.ew.access = .recordWrite true) (a : Answer)
    (bytes : List Byte) : s.eventAnswered a bytes = s.onEw fun ew => { ew with access := .none } := by
  obtain h | h := h <;>
  · rw [State.eventAnswered, h]
    rfl

end Serve

/-- Settles O14: the writer's access by its kind, its answer and whether its ring has been replaced. -/
theorem headEventIsServedAtTheRing : Obligations.HeadEventIsServedAtTheRing := by
  refine ⟨fun s hreset hwait hon haccess hqueue => ?serve, fun s e rest hwait haccess hqueue => ?device,
    fun s e rest b hwait haccess hqueue hb => ?lost, fun s e rest bytes hwait haccess hqueue => ?kept,
    fun s a bytes hwait haccess ha => ?failed, fun s a bytes hwait haccess => ?stale⟩
  case serve =>
    refine (State.next_of_not_inReset hreset).trans ?_
    dsimp only
    rw [State.halted_of_ne hwait, if_neg Bool.false_ne_true, if_pos ⟨hon, haccess, hqueue⟩]
    rfl
  case device =>
    rw [State.give_event hwait, State.eventAnswered_ownerRead haccess]
    exact State.ownerKnown_device (s := s.onEw fun ew => { ew with access := .none }) hqueue
  case lost =>
    rw [State.give_event hwait, State.eventAnswered_ownerRead haccess]
    exact State.ownerKnown_other (s := s.onEw fun ew => { ew with access := .none }) hqueue hb
  case kept =>
    rw [State.give_event hwait, State.eventAnswered_recordWrite haccess, State.recordKept]
    simp only [State.onEw, hqueue, List.tail_cons]
    rfl
  case failed => rw [State.give_event hwait, State.eventAnswered_failed haccess ha]; rfl
  case stale => rw [State.give_event hwait, State.eventAnswered_stale haccess]; rfl

end Sys2Proof.Machine
end

section
/-! The end of a step: what it leaves alone beside what `State.Moves` says, and when it adds nothing. -/

namespace Sys2Proof.Machine

/-- What no work of the end of a step touches: the transmit side, the events, the counters, the held cells, a channel's
binding, message flag, deadline and pending abort, and a pool but for its requests. -/
structure State.Serves (a s : State) : Prop where
  su : s.su = a.su
  ew : s.ew = a.ew
  counters : s.counters = a.counters
  hold : s.re.hold = a.re.hold
  chan : ∀ c, (s.chan c).binding = (a.chan c).binding ∧ (s.chan c).msgOpen = (a.chan c).msgOpen ∧
    (s.chan c).deadline = (a.chan c).deadline ∧ (s.chan c).pendingAbort = (a.chan c).pendingAbort
  pool : ∀ p, { s.pool p with requests := [] } = { a.pool p with requests := [] }

theorem State.Serves.refl (s : State) : s.Serves s :=
  ⟨rfl, rfl, rfl, rfl, fun _ => ⟨rfl, rfl, rfl, rfl⟩, fun _ => rfl⟩

theorem State.Serves.trans {a b c : State} (h : a.Serves b) (k : b.Serves c) : a.Serves c where
  su := k.su.trans h.su
  ew := k.ew.trans h.ew
  counters := k.counters.trans h.counters
  hold := k.hold.trans h.hold
  chan d := by
    obtain ⟨h1, h2, h3, h4⟩ := h.chan d
    obtain ⟨k1, k2, k3, k4⟩ := k.chan d
    exact ⟨k1.trans h1, k2.trans h2, k3.trans h3, k4.trans h4⟩
  pool p := (k.pool p).trans (h.pool p)

section Updates

variable {o s : State}

theorem State.serves_onChan (h : o.Serves s) (c : Chan) (f : Channel → Channel)
    (hf : ∀ x, (f x).binding = x.binding ∧ (f x).msgOpen = x.msgOpen ∧ (f x).deadline = x.deadline ∧
      (f x).pendingAbort = x.pendingAbort) : o.Serves (s.onChan c f) := by
  refine h.trans ⟨rfl, rfl, rfl, rfl, fun d => ?_, fun _ => rfl⟩
  rw [State.onChan_chan]
  split
  · exact hf _
  · exact ⟨rfl, rfl, rfl, rfl⟩

theorem State.serves_onXc (h : o.Serves s) (f : Cache → Cache) : o.Serves (s.onXc f) :=
  h.trans ⟨rfl, rfl, rfl, rfl, fun _ => ⟨rfl, rfl, rfl, rfl⟩, fun _ => rfl⟩

theorem State.serves_request (h : o.Serves s) (q : Request) : o.Serves (s.request q) :=
  h.trans ⟨rfl, rfl, rfl, rfl, fun _ => ⟨rfl, rfl, rfl, rfl⟩, fun _ => rfl⟩

theorem State.serves_agentTo (h : o.Serves s) (a : AgentState) : o.Serves (s.agentTo a) :=
  h.trans ⟨rfl, rfl, rfl, rfl, fun _ => ⟨rfl, rfl, rfl, rfl⟩, fun _ => rfl⟩

theorem State.serves_askPool (h : o.Serves s) (c : Chan) (r : DuRequest) : o.Serves (s.askPool c r) := by
  refine h.trans ⟨rfl, rfl, rfl, rfl, fun _ => ⟨rfl, rfl, rfl, rfl⟩, fun p => ?_⟩
  rw [State.askPool, State.onPool_pool]
  split <;> rfl

theorem State.serves_finishLong (h : o.Serves s) (code : Byte) (st : MgmtStatus) (r : List Byte) :
    o.Serves (s.finishLong code st r) := by
  rw [State.finishLong]
  split
  · exact State.serves_agentTo h _
  · exact h

theorem State.serves_reside (h : o.Serves s) (c : Chan) (r : Residence) : o.Serves (s.reside c r) :=
  State.serves_onChan h c _ fun _ => ⟨rfl, rfl, rfl, rfl⟩

theorem State.serves_contextArrived (h : o.Serves s) (c : Chan) (x : Context) : o.Serves (s.contextArrived c x) := by
  rw [State.contextArrived]
  split
  · exact State.serves_finishLong (State.serves_onXc h _) _ _ _
  · exact h

theorem State.serves_install (h : o.Serves s) (e : EntryId) (c : Chan) (x : Context) (dirty : Bool) :
    o.Serves (s.install e c x dirty) :=
  State.serves_contextArrived (State.serves_reside (State.serves_onXc (State.serves_onXc h _) _) _ _) _ _

theorem State.serves_startFill (h : o.Serves s) (e : EntryId) (c : Chan) : o.Serves (s.startFill e c) := by
  rw [State.startFill]
  split
  · rw [State.installFresh]
    have hbuilt := State.serves_onChan h c (fun ch => { ch with fresh := false, poolReset := false })
      fun _ => ⟨rfl, rfl, rfl, rfl⟩
    exact State.serves_install hbuilt e c {} true
  · exact State.serves_request (State.serves_onXc h _) _

theorem State.serves_startWriteBack (h : o.Serves s) (e : EntryId) (c : Chan) (x : Context) (d : Option Chan) :
    o.Serves (s.startWriteBack e c x d) :=
  State.serves_request (State.serves_reside (State.serves_onXc (State.serves_onXc h _) _) _ _) _

theorem State.serves_evictClean (h : o.Serves s) (e : EntryId) (c : Chan) : o.Serves (s.evictClean e c) :=
  State.serves_reside (State.serves_onXc (State.serves_onXc h _) _) _ _

theorem State.serves_useEntry (h : o.Serves s) (e : EntryId) (c : Chan) : o.Serves (s.useEntry e c) := by
  have hfetching := State.serves_reside h c .fetching
  simp only [State.useEntry]
  split
  · exact State.serves_startFill hfetching e c
  · split
    · exact State.serves_startWriteBack hfetching e _ _ _
    · exact State.serves_startFill (State.serves_evictClean hfetching e _) e c
  · exact hfetching
  · exact hfetching

theorem State.serves_fetchRequest (h : o.Serves s) (c : Chan) : o.Serves (s.fetchRequest c) := by
  rw [State.fetchRequest]
  split
  · split
    · exact h
    · exact h
    · exact State.serves_onXc h _
    · split
      · exact h
      · split
        · exact State.serves_onXc h _
        · split
          · exact State.serves_useEntry h _ c
          · exact State.serves_onXc h _
  · exact h

theorem State.serves_freeEntry (h : o.Serves s) (e : EntryId) : o.Serves (s.freeEntry e) := by
  rw [State.freeEntry]
  split
  · split
    · exact State.serves_startWriteBack h e _ _ _
    · exact State.serves_evictClean h e _
  all_goals exact h

theorem State.serves_touch (h : o.Serves s) (c : Chan) : o.Serves (s.touch c) := by
  rw [State.touch]
  split
  · split
    · exact State.serves_onXc (State.serves_onXc h _) _
    all_goals exact h
  all_goals exact h

theorem State.serves_beginClose (h : o.Serves s) (c : Chan) (status : RxStatus) (cause : CloseCause) :
    o.Serves (s.beginClose c status cause) := by
  rw [State.beginClose]
  split
  · exact State.serves_onChan (State.serves_askPool h c _) c _ fun _ => ⟨rfl, rfl, rfl, rfl⟩
  · exact h

theorem State.serves_owedWork (h : o.Serves s) (c : Chan) : o.Serves (s.owedWork c) := by
  simp only [State.owedWork]
  split
  · exact h
  · split
    · split
      · split
        · exact State.serves_beginClose (State.serves_touch h c) c _ _
        · exact h
      · exact State.serves_fetchRequest h c
      · exact h
      · exact h
    · split
      · split
        · exact State.serves_freeEntry h _
        all_goals exact h
      · exact h

theorem State.serves_foldl {β : Type} {f : State → β → State} (hf : ∀ u b, o.Serves u → o.Serves (f u b))
    (l : List β) : ∀ u, o.Serves u → o.Serves (l.foldl f u) := by
  induction l with
  | nil => exact fun _ hu => hu
  | cons b l ih => exact fun u hu => ih _ (hf u b hu)

theorem State.serves_freeAll (h : o.Serves s) : o.Serves s.freeAll := by
  rw [State.freeAll]
  split
  · exact State.serves_foldl (fun u e hu => State.serves_freeEntry hu e) _ s h
  · exact h

theorem State.serves_serveWaitList (n : Nat) : ∀ s, o.Serves s → o.Serves (s.serveWaitList n) := by
  induction n with
  | zero => exact fun _ h => h
  | succ n ih =>
    intro s h
    rw [State.serveWaitList]
    split
    · exact h
    · split
      · split
        · exact ih _ (State.serves_useEntry (State.serves_onXc h _) _ _)
        · exact ih _ (State.serves_onXc h _)
      · exact h

theorem State.serves_settle (h : o.Serves s) (b : State) : o.Serves (s.settle b) := by
  rw [State.settle]
  split
  · exact h
  · have hmarked : o.Serves s.endNewlyFilled := State.serves_onXc h _
    have hfreed : o.Serves (forAll 256 (fun c u => u.owedWork c) s.endNewlyFilled).freeAll :=
      State.serves_freeAll (State.serves_foldl (fun u c hu => State.serves_owedWork hu c) (allOf 256) _ hmarked)
    rw [State.serveIfFreed]
    split
    · exact State.serves_serveWaitList _ _ hfreed
    · exact hfreed

end Updates

/-- Settles O12: the frame of the end of a step, and its definition written out. -/
theorem settleLeavesTheRestAlone : Obligations.SettleLeavesTheRestAlone := by
  intro s b t
  have hmoves : s.Moves t := State.moves_settle (.refl s) b
  have hserves : s.Serves t := State.serves_settle (.refl s) b
  have hsettings := hmoves.settings
  refine ⟨⟨hmoves.inReset, hmoves.cf, hmoves.cc, hserves.su, hmoves.ia, hserves.ew, hserves.counters, hmoves.freeReads,
    hmoves.pending⟩, ⟨hserves.hold, hmoves.scanOpen, hmoves.scanned⟩, ⟨hmoves.order, hmoves.offered, hmoves.pointer,
    congrArg Settings.memTimeout hsettings⟩, ⟨hmoves.queue, hmoves.managers, hmoves.nodeState,
    congrArg Settings.nodeId hsettings, hmoves.nodeTime⟩, fun c => ?_, hserves.pool, fun hwait => ?_, fun hwait => ?_⟩
  · obtain ⟨hbinding, hopen, hdeadline, habort⟩ := hserves.chan c
    exact ⟨hbinding, congrFun (congrArg Settings.channel hsettings) c, hopen, hdeadline, habort⟩
  · show s.settle b = s
    rw [State.settle, s.halted_iff.2 hwait, if_pos rfl]
  · show s.settle b = _
    rw [State.settle, State.halted_of_ne hwait, if_neg Bool.false_ne_true]
    rfl

/-! ### At rest -/

section Rest

variable {s : State}

theorem State.AtRest.endNewlyFilled (h : s.AtRest) : s.endNewlyFilled = s := by
  have hentries : s.endNewlyFilled.xc.entries = s.xc.entries := by
    refine Vector.ext fun i hi => ?_
    have hentry := h.not_newly_filled ⟨i, hi⟩
    simp only [State.entry, tget] at hentry
    simp only [State.endNewlyFilled, State.onXc, Vector.getElem_map]
    split
    case h_1 v hv => rw [hentry v hv, Bool.false_and, hv]; congr 1; rw [← hentry v hv]
    all_goals simp_all
  show { s with xc := { s.xc with entries := s.endNewlyFilled.xc.entries } } = s
  rw [hentries]

theorem State.AtRest.closeOwed (h : s.AtRest) (c : Chan) : s.closeOwed c = false := by
  simp [State.closeOwed, h.not_stopping, h.not_unbinding c]

theorem State.AtRest.owedWork (h : s.AtRest) (c : Chan) : s.owedWork c = s := by
  simp [State.owedWork, h.closeOwed c, h.not_unbinding c]

theorem foldl_of_fixed {α β : Type} {f : α → β → α} {a : α} (h : ∀ b, f a b = a) (l : List β) : l.foldl f a = a := by
  induction l with
  | nil => rfl
  | cons b l ih => rw [List.foldl_cons, h, ih]

end Rest

/-- Settles O11: each part of the end of a step finds nothing to do. -/
theorem settleAtRestAddsNothing : Obligations.SettleAtRestAddsNothing := by
  intro s b h
  have hwork : forAll 256 (fun c s => s.owedWork c) s = s := foldl_of_fixed h.owedWork _
  have hfree : s.freeAll = s := by rw [State.freeAll, if_neg fun hstop => h.not_stopping hstop.1]
  have hserve : s.serveIfFreed b = s := by
    rw [State.serveIfFreed, h.list_empty]
    exact ite_self _
  rw [State.settle, h.endNewlyFilled, hwork, hfree, hserve, ite_self]

end Sys2Proof.Machine
end

section
/-! The CRC-32 register over a body and its check bytes: a register shift is linear and one to one, so four bytes bring the
register to the residue exactly if they are the complement of what it held. -/

namespace Sys2Proof.Machine

/-! ### The register shift -/

section Shift

variable {w : Nat} (poly : BitVec w)

theorem crcShift_xor (a b : BitVec w) : crcShift poly (a ^^^ b) = crcShift poly a ^^^ crcShift poly b := by
  unfold crcShift
  rw [BitVec.msb_xor, BitVec.shiftLeft_xor_distrib]
  cases a.msb <;> cases b.msb
  · rfl
  · exact (BitVec.xor_assoc _ _ _)
  · show (a <<< 1 ^^^ b <<< 1) ^^^ poly = (a <<< 1 ^^^ poly) ^^^ b <<< 1
    rw [BitVec.xor_assoc, BitVec.xor_comm (b <<< 1), ← BitVec.xor_assoc]
  · show a <<< 1 ^^^ b <<< 1 = (a <<< 1 ^^^ poly) ^^^ (b <<< 1 ^^^ poly)
    rw [BitVec.xor_comm (b <<< 1) poly, BitVec.xor_assoc, ← BitVec.xor_assoc poly, BitVec.xor_self, BitVec.zero_xor]

/-- A shift that brings in a bit at the low end loses nothing: only the register of zeros is shifted to zeros. -/
theorem eq_zero_of_crcShift_eq_zero (hpoly : poly.getLsbD 0 = true) {a : BitVec w} (h : crcShift poly a = 0) : a = 0 := by
  unfold crcShift at h
  split at h
  case isTrue =>
    have hlow := congrArg (BitVec.getLsbD · 0) h
    simp [hpoly] at hlow
  case isFalse hmsb =>
    refine BitVec.eq_of_getLsbD_eq fun i hi => ?_
    by_cases htop : i + 1 < w
    · have hbit := congrArg (BitVec.getLsbD · (i + 1)) h
      simpa [htop, BitVec.getLsbD_eq_getElem hi] using hbit
    · rw [BitVec.msb_eq_getLsbD_last, show w - 1 = i by omega] at hmsb
      simpa using hmsb

theorem crcShift_injective (hpoly : poly.getLsbD 0 = true) : Function.Injective (crcShift poly) := fun a b h => by
  refine BitVec.xor_eq_zero_iff.1 (eq_zero_of_crcShift_eq_zero poly hpoly ?_)
  rw [crcShift_xor, h, BitVec.xor_self]
  rfl

theorem crcShift8_xor (a b : BitVec w) : crcShift8 poly (a ^^^ b) = crcShift8 poly a ^^^ crcShift8 poly b := by
  simp only [crcShift8, crcShift_xor]

theorem crcShift8_injective (hpoly : poly.getLsbD 0 = true) : Function.Injective (crcShift8 poly) :=
  have h := crcShift_injective poly hpoly
  h.comp (h.comp (h.comp (h.comp (h.comp (h.comp (h.comp h))))))

end Shift

/-! ### Four bytes -/

/-- A byte that stands below the top of the register moves up without feedback. -/
theorem crcShift_byte (poly : Word) (b : Byte) {n : Nat} (hn : n < 24) :
    crcShift poly (b.setWidth 32 <<< n) = b.setWidth 32 <<< (n + 1) := by
  have hmsb : (b.setWidth 32 <<< n).msb = false := by
    rw [BitVec.msb_eq_getLsbD_last, BitVec.getLsbD_shiftLeft, BitVec.getLsbD_setWidth,
      BitVec.getLsbD_of_ge b _ (by omega)]
    simp
  rw [crcShift, hmsb, if_neg Bool.false_ne_true, ← BitVec.shiftLeft_add]

theorem crcShift8_byte (poly : Word) (b : Byte) {n : Nat} (hn : n ≤ 16) :
    crcShift8 poly (b.setWidth 32 <<< n) = b.setWidth 32 <<< (n + 8) := by
  rw [crcShift8]
  iterate 8 rw [crcShift_byte _ _ (by omega)]

/-- The register after 32 shifts. -/
def crcShift32 (reg : Word) : Word :=
  crcShift8 0x04C11DB7 (crcShift8 0x04C11DB7 (crcShift8 0x04C11DB7 (crcShift8 0x04C11DB7 reg)))

theorem crcShift32_injective : Function.Injective crcShift32 :=
  have h := crcShift8_injective (0x04C11DB7 : Word) rfl
  h.comp (h.comp (h.comp h))

/-- Four bytes taken in one by one are taken in as one word before 32 shifts. -/
theorem crc32_four (reg : Word) (a b c d : Byte) : crc32 reg [a, b, c, d] = crcShift32 (reg ^^^
    (a.setWidth 32 <<< 24 ^^^ b.setWidth 32 <<< 16 ^^^ c.setWidth 32 <<< 8 ^^^ d.setWidth 32 <<< 0)) := by
  simp only [crc32, List.foldl_cons, List.foldl_nil, crc32Byte, crcShift32, crcShift8_xor, BitVec.xor_assoc]
  rw [crcShift8_byte _ b (n := 16) (by omega), crcShift8_byte _ c (n := 8) (by omega),
    crcShift8_byte _ c (n := 8 + 8) (by omega), crcShift8_byte _ d (n := 0) (by omega),
    crcShift8_byte _ d (n := 0 + 8) (by omega), crcShift8_byte _ d (n := 0 + 8 + 8) (by omega)]

/-- The word of four bytes, most significant first, is their sum in the register. -/
theorem append_eq_xor (a b c d : Byte) : (a ++ b : BitVec 16) ++ (c ++ d : BitVec 16) =
    a.setWidth 32 <<< 24 ^^^ b.setWidth 32 <<< 16 ^^^ c.setWidth 32 <<< 8 ^^^ d.setWidth 32 <<< 0 := by
  refine BitVec.eq_of_getLsbD_eq fun i hi => ?_
  simp only [BitVec.getLsbD_append, BitVec.getLsbD_xor, BitVec.getLsbD_shiftLeft, BitVec.getLsbD_setWidth, hi,
    decide_true, Bool.true_and]
  by_cases h8 : i < 8
  · simp [h8, show i < 16 by omega, show i < 24 by omega, show i < 32 by omega]
  · by_cases h16 : i < 16
    · simp [h8, h16, show i < 24 by omega, show i - 8 < 32 by omega, BitVec.getLsbD_of_ge d i (by omega)]
    · by_cases h24 : i < 24
      · simp [h8, h16, h24, show i - 16 < 8 by omega, show i - 16 < 32 by omega, BitVec.getLsbD_of_ge d i (by omega),
          BitVec.getLsbD_of_ge c (i - 8) (by omega)]
      · simp [h8, h16, h24, show ¬ i - 16 < 8 by omega, show i - 24 < 32 by omega, show i - 16 - 8 = i - 24 by omega,
          BitVec.getLsbD_of_ge d i (by omega), BitVec.getLsbD_of_ge c (i - 8) (by omega),
          BitVec.getLsbD_of_ge b (i - 16) (by omega)]

/-- Four bytes are those of a word exactly if they spell it. -/
theorem eq_be32_iff (a b c d : Byte) (x : Word) :
    [a, b, c, d] = be32 x ↔ (a ++ b : BitVec 16) ++ (c ++ d : BitVec 16) = x := by
  constructor
  · intro h
    exact wordAt_of_drop (l := [a, b, c, d]) (m := []) (k := 0) (by rw [h]; rfl)
  · rintro rfl
    have hbyte : ∀ {n} {x : Word} {y : Byte}, (∀ i < 8, x.getLsbD (n + i) = y.getLsbD i) →
        y = (x >>> n).setWidth 8 := fun h => BitVec.eq_of_getLsbD_eq fun i hi => by
      rw [BitVec.getLsbD_setWidth, BitVec.getLsbD_ushiftRight, h i hi]
      simp [hi]
    simp only [be32, List.cons.injEq, and_true]
    refine ⟨hbyte ?_, hbyte ?_, hbyte ?_, (hbyte (n := 0) ?_).trans (by rw [BitVec.ushiftRight_zero])⟩ <;>
    · intro i hi
      grind

/-- The residue is what 32 shifts make of a register of ones. -/
theorem crcShift32_allOnes : crcShift32 (BitVec.allOnes 32) = crcResidue := by decide +kernel

/-- Settles O28: the four bytes bring the register to the residue exactly if they are the complement of what it held. -/
theorem checkBytesLeaveTheResidue : Obligations.CheckBytesLeaveTheResidue := by
  intro body check hlen
  obtain ⟨a, b, c, d, rfl⟩ : ∃ a b c d, check = [a, b, c, d] := List.length_eq_four.1 hlen
  have happend : crc32 crcPreset (body ++ [a, b, c, d]) = crc32 (crc32 crcPreset body) [a, b, c, d] :=
    List.foldl_append
  rw [happend, crc32_four, ← append_eq_xor, ← crcShift32_allOnes, crcShift32_injective.eq_iff, trailer, eq_be32_iff]
  generalize (a ++ b : BitVec 16) ++ (c ++ d : BitVec 16) = x
  generalize crc32 crcPreset body = reg
  constructor
  · intro h
    rw [← BitVec.xor_allOnes, ← h, ← BitVec.xor_assoc, BitVec.xor_self, BitVec.zero_xor]
  · rintro rfl
    rw [← BitVec.xor_allOnes, ← BitVec.xor_assoc, BitVec.xor_self, BitVec.zero_xor]

end Sys2Proof.Machine
end

section
/-! The choice of a cache entry, and a channel fault. -/

namespace Sys2Proof.Machine

/-! ### The choice of an entry (R67) -/

theorem State.isFree_iff (s : State) (e : EntryId) : s.isFree e = true ↔ s.entry e = .free := beq_iff_eq

theorem State.eligible_iff (s : State) (e : EntryId) : s.eligible e = true ↔ ∃ v, s.entry e = .valid v ∧
    (s.chan v.channel).op = none ∧ v.syncing = false ∧ v.newlyFilled = false := by
  rw [State.eligible]
  split
  case h_1 v h => simp [h, Channel.waiting, and_assoc]
  all_goals simp [*]

theorem State.holds_eq_false_iff (s : State) (c : Chan) : s.holds c = false ↔ ∀ h ∈ s.re.hold, h.channel ≠ c := by
  simp [State.holds]

theorem State.unheldEntry_iff (s : State) (e : EntryId) : s.unheldEntry e = true ↔ ∃ v, s.entry e = .valid v ∧
    ∀ h ∈ s.re.hold, h.channel ≠ v.channel := by
  rw [State.unheldEntry]
  split
  case h_1 v h => simp [h, s.holds_eq_false_iff]
  all_goals simp [*]

/-- The first index of a table that passes a test is the lowest one that does. -/
theorem find?_allOf_eq_some_iff {n : Nat} {p : Fin n → Bool} {i : Fin n} :
    (allOf n).find? p = some i ↔ p i = true ∧ ∀ j, j < i → p j = false := by
  rw [List.find?_eq_some_iff_getElem]
  constructor
  · rintro ⟨hp, k, hk, hki, hbefore⟩
    have hval : k = i.val := by simpa [allOf, Fin.ext_iff] using hki
    refine ⟨hp, fun j hj => ?_⟩
    simpa [allOf] using hbefore j (by omega)
  · rintro ⟨hp, hbefore⟩
    refine ⟨hp, i, by simp [allOf], by simp [allOf], fun j hj => ?_⟩
    have hjn : j < n := hj.trans i.isLt
    simpa [allOf] using hbefore ⟨j, hjn⟩ (Fin.mk_lt_of_lt_val hj)

theorem find?_allOf_eq_none_iff {n : Nat} {p : Fin n → Bool} : (allOf n).find? p = none ↔ ∀ j, p j = false := by
  simp [List.find?_eq_none]

/-- The first alternative that answers is the one taken. -/
theorem orElse_eq_some_iff {α : Type} {a b : Option α} {x : α} :
    (a <|> b) = some x ↔ a = some x ∨ a = none ∧ b = some x := by
  cases a <;> simp

theorem find?_eq_some_iff_split {α : Type} {p : α → Bool} {l : List α} {a : α} : l.find? p = some a ↔
    ∃ pre post, l = pre ++ a :: post ∧ p a = true ∧ ∀ x ∈ pre, p x = false := by
  rw [List.find?_eq_some_iff_append]
  constructor
  · rintro ⟨hp, pre, post, hl, hpre⟩
    exact ⟨pre, post, hl, hp, fun x hx => by simpa using hpre x hx⟩
  · rintro ⟨pre, post, hl, hp, hpre⟩
    exact ⟨hp, pre, post, hl, fun x hx => by simp [hpre x hx]⟩

/-- Settles O37: the three searches are tried in order, each finding its first. -/
theorem victimIsChosenInOrder : Obligations.VictimIsChosenInOrder := by
  refine ⟨fun s e => ?_, fun s e => ⟨s.eligible_iff e, s.unheldEntry_iff e⟩⟩
  have hused : ∀ j, s.isFree j = false ↔ s.entry j ≠ .free := fun j => by
    rw [← Bool.not_eq_true, s.isFree_iff]
  rw [State.chooseEntry, orElse_eq_some_iff, orElse_eq_some_iff, find?_allOf_eq_some_iff, find?_allOf_eq_none_iff,
    find?_eq_some_iff_split, find?_eq_some_iff_split, List.find?_eq_none]
  simp only [s.isFree_iff, hused, Bool.and_eq_true, and_assoc, Bool.and_eq_false_iff, not_and, Bool.not_eq_true,
    and_or_left]
  simp only [imp_iff_not_or, Bool.not_eq_true]

/-! ### A channel fault (R61) -/

section Frames

variable (s : State)

theorem State.raise_cases (k : EventKind) (x d : Nat) (w : Word) :
    s.raise k x d w = s ∨ s.raise k x d w = s.loseEvent ∨ ∃ f, s.raise k x d w = s.onEw f := by
  rw [State.raise]
  split_ifs
  · exact .inl rfl
  · exact .inl rfl
  · exact .inl rfl
  · exact .inr (.inl rfl)
  · exact .inr (.inr ⟨_, rfl⟩)

/-- What does not look at the Event Writer or at events_lost is the same after an event is raised. -/
theorem State.raise_same {α : Sort*} {g : State → α} (hew : ∀ f, g (s.onEw f) = g s) (hlost : g s.loseEvent = g s)
    (k : EventKind) (x d : Nat) (w : Word) : g (s.raise k x d w) = g s := by
  obtain h | h | ⟨f, h⟩ := s.raise_cases k x d w
  · rw [h]
  · rw [h, hlost]
  · rw [h, hew]

@[simp] theorem State.raise_re (k : EventKind) (x d : Nat) (w : Word) : (s.raise k x d w).re = s.re :=
  s.raise_same (g := State.re) (fun _ => rfl) rfl k x d w

@[simp] theorem State.raise_ma (k : EventKind) (x d : Nat) (w : Word) : (s.raise k x d w).ma = s.ma :=
  s.raise_same (g := State.ma) (fun _ => rfl) rfl k x d w

@[simp] theorem State.raise_lmp (k : EventKind) (x d : Nat) (w : Word) : (s.raise k x d w).lmp = s.lmp :=
  s.raise_same (g := State.lmp) (fun _ => rfl) rfl k x d w

@[simp] theorem State.raise_nochannel (k : EventKind) (x d : Nat) (w : Word) :
    (s.raise k x d w).counters.nochannel = s.counters.nochannel :=
  s.raise_same (g := fun t => t.counters.nochannel) (fun _ => rfl) rfl k x d w

theorem State.finishLong_cases (code : Byte) (st : MgmtStatus) (r : List Byte) :
    s.finishLong code st r = s ∨ ∃ cmd, s.finishLong code st r = s.answer cmd st r := by
  rw [State.finishLong]
  split
  · exact .inr ⟨_, rfl⟩
  · exact .inl rfl

/-- What does not look at the agent is the same after a long command has ended. -/
theorem State.finishLong_same {α : Sort*} {g : State → α} (hma : ∀ f, g (s.onMa f) = g s) (code : Byte)
    (st : MgmtStatus) (r : List Byte) : g (s.finishLong code st r) = g s := by
  obtain h | ⟨cmd, h⟩ := s.finishLong_cases code st r
  · rw [h]
  · rw [h]
    exact hma fun ma => { ma with state := _ }

theorem State.longInHand_eq_some_iff (code : Byte) (cmd : Cell) :
    s.longInHand code = some cmd ↔ s.ma.state = .working cmd true ∧ cmd.code = code := by
  rw [State.longInHand]
  split
  case h_1 c hstate => simp only [hstate]; grind
  all_goals simp_all

theorem State.finishLong_of_working {code : Byte} {cmd : Cell} (hstate : s.ma.state = .working cmd true)
    (hcode : cmd.code = code) (st : MgmtStatus) (r : List Byte) : s.finishLong code st r = s.answer cmd st r := by
  rw [State.finishLong, (s.longInHand_eq_some_iff _ _).2 ⟨hstate, hcode⟩]

theorem State.finishLong_of_none {code : Byte} (h : ∀ cmd, s.ma.state = .working cmd true → cmd.code ≠ code)
    (st : MgmtStatus) (r : List Byte) : s.finishLong code st r = s := by
  rw [State.finishLong]
  split
  case h_1 cmd hcmd =>
    obtain ⟨hstate, hcode⟩ := (s.longInHand_eq_some_iff _ _).1 hcmd
    exact absurd hcode (h cmd hstate)
  case h_2 => rfl

theorem State.contextStored_of_awaiting {c : Chan} {part : Fin 4} {stage : CtxReadStage}
    (h : s.xc.ctxRead = some { channel := c, part, stage }) : s.contextStored c stage = s.readStore c part := by
  rw [State.contextStored, State.awaiting, h]
  simp

theorem State.contextStored_of_not_awaiting {c : Chan} {stage : CtxReadStage}
    (h : ∀ r, s.xc.ctxRead = some r → r.channel ≠ c ∨ r.stage ≠ stage) : s.contextStored c stage = s := by
  rw [State.contextStored, State.awaiting]
  split
  case h_2 => rfl
  case h_1 part hpart =>
    split at hpart
    case h_2 => cases hpart
    case h_1 r hr =>
      rw [if_neg fun hboth => (h r hr).elim (· hboth.1) (· hboth.2)] at hpart
      cases hpart

/-- What does not look at the READ_CONTEXT under way or at the port is the same after a channel is STORED. -/
theorem State.contextStored_same {α : Sort*} {g : State → α} (c : Chan) (stage : CtxReadStage)
    (hread : ∀ part, g (s.readStore c part) = g s) : g (s.contextStored c stage) = g s := by
  rw [State.contextStored]
  split
  · exact hread _
  · rfl

end Frames

/-- Channel c has lost its held cells, its place on the Fetch Wait List and its message, and is FAULTED or UNBOUND. -/
def State.dropsChannel (s : State) (c : Chan) : State :=
  ((((s.onCounters fun k => { k with nochannel := k.nochannel + s.heldCount (· == c) }).dropHeld (· == c)).onXc fun xc =>
    { xc with waitList := xc.waitList.filter (· != c) }).onChan c fun ch =>
    { ch with residence := .stored, msgOpen := false, pendingAbort := .none }).onChan c fun ch =>
    if ch.binding = .unbinding then { ch with binding := .unbound, fresh := false, poolReset := false }
    else { ch with binding := .faulted }

/-- What channel c loses, the reservation of an open message with it. -/
def State.losesMessage (s : State) (c : Chan) : State :=
  (if (s.chan c).msgOpen then s.release c else s).dropsChannel c

/-- A channel fault: the loss, its event, the READ_CONTEXT that awaited the channel, the UNBIND_CHANNEL of an
UNBINDING one. -/
theorem State.channelFault_eq (s : State) (c : Chan) (detail : Nat) (aux : Word) : s.channelFault c detail aux =
    let t := ((s.losesMessage c).raise .channelFault c.val detail aux).contextStored c .fill
    if (s.chan c).binding = .unbinding then t.finishLong codeUnbindChannel .ok [] else t :=
  rfl

section Loss

variable (s : State) (c : Chan)

theorem State.dropsChannel_chan (d : Chan) : (s.dropsChannel c).chan d =
    if c = d then
      if (s.chan c).binding = .unbinding then { s.chan c with
        residence := .stored, msgOpen := false, pendingAbort := .none, binding := .unbound, fresh := false
        poolReset := false }
      else { s.chan c with residence := .stored, msgOpen := false, pendingAbort := .none, binding := .faulted }
    else s.chan d := by
  rw [State.dropsChannel, State.onChan_chan, State.onChan_chan]
  by_cases hd : c = d
  · subst hd
    rw [if_pos rfl, if_pos rfl, if_pos rfl]
    rfl
  · rw [if_neg hd, if_neg hd, if_neg hd]
    rfl

/-- What does not look at the pools is the same after the release of the reservation of an open message. -/
theorem State.losesMessage_same {α : Sort*} {g : State → α}
    (hpool : ∀ p f, g ((s.onPool p f).dropsChannel c) = g (s.dropsChannel c)) :
    g (s.losesMessage c) = g (s.dropsChannel c) := by
  rw [State.losesMessage]
  split
  · exact hpool _ _
  · rfl

@[simp] theorem State.losesMessage_ma : (s.losesMessage c).ma = s.ma := s.losesMessage_same c fun _ _ => rfl

@[simp] theorem State.losesMessage_ew : (s.losesMessage c).ew = s.ew := s.losesMessage_same c fun _ _ => rfl

@[simp] theorem State.losesMessage_lmp : (s.losesMessage c).lmp = s.lmp := s.losesMessage_same c fun _ _ => rfl

theorem State.losesMessage_xc :
    (s.losesMessage c).xc = { s.xc with waitList := s.xc.waitList.filter (· != c) } :=
  s.losesMessage_same c fun _ _ => rfl

theorem State.losesMessage_re : (s.losesMessage c).re = (s.dropsChannel c).re := s.losesMessage_same c fun _ _ => rfl

theorem State.losesMessage_nochannel :
    (s.losesMessage c).counters.nochannel = s.counters.nochannel + s.heldCount (· == c) :=
  s.losesMessage_same c (g := fun t => t.counters.nochannel) fun _ _ => rfl

theorem State.losesMessage_reserved (hopen : (s.chan c).msgOpen = true)
    (hpool : (s.pool (s.chan c).pool).state ≠ .faulted) :
    ((s.losesMessage c).pool (s.chan c).pool).reserved = (s.pool (s.chan c).pool).reserved - 1 := by
  have h : ((s.losesMessage c).pool (s.chan c).pool) = (s.release c).pool (s.chan c).pool := by
    rw [State.losesMessage, hopen]
    rfl
  rw [h, State.release, State.onPool_pool_self]
  split
  case isTrue hnone =>
    obtain hfaulted | hzero := hnone
    · exact absurd hfaulted hpool
    · rw [hzero]
  case isFalse => rfl

end Loss

/-- A fault's end, which touches the agent, the READ_CONTEXT under way and the port alone. -/
theorem State.channelFault_same {α : Sort*} {g : State → α} (s : State) (c : Chan) (detail : Nat) (aux : Word)
    (hma : ∀ t f, g (State.onMa t f) = g t) (hread : ∀ t part, g (State.readStore t c part) = g t) :
    g (s.channelFault c detail aux) = g ((s.losesMessage c).raise .channelFault c.val detail aux) := by
  rw [State.channelFault_eq]
  dsimp only
  split
  · rw [State.finishLong_same _ (hma _), State.contextStored_same _ c .fill (hread _)]
  · rw [State.contextStored_same _ c .fill (hread _)]

theorem State.channelFault_re (s : State) (c : Chan) (detail : Nat) (aux : Word) :
    (s.channelFault c detail aux).re = (s.dropsChannel c).re := by
  rw [State.channelFault_same (g := State.re) s c detail aux (fun _ _ => rfl) fun _ _ => rfl, State.raise_re,
    State.losesMessage_re]

theorem State.channelFault_chan (s : State) (c d : Chan) (detail : Nat) (aux : Word) :
    (s.channelFault c detail aux).chan d = (s.dropsChannel c).chan d :=
  congrArg (fun re : Reassembly => tget re.channels d) (s.channelFault_re c detail aux)

/-- The agent is left to the end of an UNBIND_CHANNEL (R57). -/
theorem State.channelFault_ma (s : State) (c : Chan) (detail : Nat) (aux : Word) : (s.channelFault c detail aux).ma =
    if (s.chan c).binding = .unbinding then (s.finishLong codeUnbindChannel .ok []).ma else s.ma := by
  have hstored : (((s.losesMessage c).raise .channelFault c.val detail aux).contextStored c .fill).ma = s.ma := by
    rw [State.contextStored_same (g := State.ma) _ c .fill fun _ => rfl, State.raise_ma, State.losesMessage_ma]
  have hfinish : ∀ t u : State, t.ma = u.ma →
      (t.finishLong codeUnbindChannel .ok []).ma = (u.finishLong codeUnbindChannel .ok []).ma := by
    intro t u h
    simp only [State.finishLong, State.longInHand, h]
    split
    · simp only [State.answer, State.agentTo, State.onMa_ma, h]
    · exact h
  rw [State.channelFault_eq]
  dsimp only
  split
  · exact hfinish _ _ hstored
  · exact hstored

/-- The READ_CONTEXT under way and the port are left to a READ_CONTEXT that awaited the channel's fetch (R86). -/
theorem State.channelFault_read {α : Sort*} {g : State → α} (s : State) (c : Chan) (detail : Nat) (aux : Word)
    (hma : ∀ t f, g (State.onMa t f) = g t) : g (s.channelFault c detail aux) =
      g (((s.losesMessage c).raise .channelFault c.val detail aux).contextStored c .fill) := by
  rw [State.channelFault_eq]
  dsimp only
  split
  · exact State.finishLong_same _ (hma _) _ _ _
  · rfl

theorem State.channelFault_ew (s : State) (c : Chan) (detail : Nat) (aux : Word) :
    (s.channelFault c detail aux).ew = ((s.losesMessage c).raise .channelFault c.val detail aux).ew :=
  State.channelFault_same (g := State.ew) s c detail aux (fun _ _ => rfl) fun _ _ => rfl

theorem State.channelFault_waitList (s : State) (c : Chan) (detail : Nat) (aux : Word) :
    (s.channelFault c detail aux).xc.waitList = s.xc.waitList.filter (· != c) := by
  rw [State.channelFault_same (g := fun t => t.xc.waitList) s c detail aux (fun _ _ => rfl) fun _ _ => rfl,
    State.raise_xc, State.losesMessage_xc]

theorem State.channelFault_nochannel (s : State) (c : Chan) (detail : Nat) (aux : Word) :
    (s.channelFault c detail aux).counters.nochannel = s.counters.nochannel + s.heldCount (· == c) := by
  rw [State.channelFault_same (g := fun t => t.counters.nochannel) s c detail aux (fun _ _ => rfl) fun _ _ => rfl,
    State.raise_nochannel, State.losesMessage_nochannel]

theorem State.channelFault_pool (s : State) (c : Chan) (detail : Nat) (aux : Word) (p : PoolId) :
    (s.channelFault c detail aux).pool p = (s.losesMessage c).pool p := by
  rw [State.channelFault_same (g := fun t => t.pool p) s c detail aux (fun _ _ => rfl) fun _ _ => rfl]
  exact congrArg (fun du => tget du p) (State.raise_du ..)

/-- Settles O40: the loss gives what the channel and the queues become, the end of the fault what becomes of the agent
and of a READ_CONTEXT. -/
theorem faultedChannelLosesItsMessageAndCells : Obligations.FaultedChannelLosesItsMessageAndCells := by
  intro s c detail aux hbinding t
  have hchan : ∀ d, t.chan d = (s.dropsChannel c).chan d := fun d => s.channelFault_chan c d detail aux
  have hself : t.chan c = _ := (hchan c).trans ((s.dropsChannel_chan c c).trans (if_pos rfl))
  have hbound (h : (s.chan c).binding = .bound) : (s.chan c).binding ≠ .unbinding := by rw [h]; exact nofun
  have hfields : (t.chan c).residence = .stored ∧ (t.chan c).msgOpen = false ∧ (t.chan c).pendingAbort = .none ∧
      (t.chan c).op = (s.chan c).op := by
    rw [hself]
    split <;> exact ⟨rfl, rfl, rfl, rfl⟩
  obtain ⟨hresidence, hopen, habort, hop⟩ := hfields
  refine ⟨fun h => ?bound, fun h => ⟨?_, ?_, ?_, fun cmd hstate hcode => ?answered⟩, fun h => ?agent, hresidence, hopen,
    habort, hop, fun d hd => ?other, congrArg Reassembly.hold (s.channelFault_re c detail aux),
    s.channelFault_nochannel c detail aux, ?waitList, State.channelFault_entries c detail aux, fun h hpool => ?reserved,
    fun hwait henabled hon hroom => ?event, fun h => ?noRead, fun part h => ?read⟩
  case bound => rw [hself, if_neg (hbound h)]
  iterate 3 rw [hself, if_pos h]
  case answered =>
    rw [State.channelFault_ma, if_pos h, s.finishLong_of_working (code := codeUnbindChannel) hstate hcode]
    show AgentState.answering { cmd, payload := be16 cmd.tag ++ [cmd.code, 0] ++ [], executed := true } = _
    rw [hcode, List.append_nil]
  case agent =>
    rw [State.channelFault_ma]
    split
    case isFalse => rfl
    case isTrue hunbinding =>
      rw [s.finishLong_of_none (code := codeUnbindChannel) (h.resolve_left fun hb => hbound hb hunbinding)]
  case other => rw [hchan, State.dropsChannel_chan, if_neg (Ne.symm hd)]
  case waitList =>
    rw [State.channelFault_waitList]
    simp
  case reserved => rw [State.channelFault_pool, State.losesMessage_reserved s c h hpool]
  case event =>
    rw [State.channelFault_ew, State.raise_admitted (by rwa [State.losesMessage_ma]) (by rwa [State.losesMessage_ew])
      (by rwa [State.losesMessage_ew]), if_neg (by rw [State.losesMessage_ew]; omega), State.losesMessage_ma]
    show (s.losesMessage c).ew.queue ++ _ = _
    rw [State.losesMessage_ew]
  case noRead =>
    rw [State.channelFault_read (g := fun t => t.xc.ctxRead) s c detail aux fun _ _ => rfl,
      State.channelFault_read (g := State.lmp) s c detail aux fun _ _ => rfl,
      State.contextStored_of_not_awaiting _ (by rwa [State.raise_xc, State.losesMessage_xc])]
    simp [State.losesMessage_xc]
  case read =>
    rw [State.channelFault_read (g := fun t => t.xc.ctxRead) s c detail aux fun _ _ => rfl,
      State.channelFault_read (g := State.lmp) s c detail aux fun _ _ => rfl,
      State.contextStored_of_awaiting _ (part := part) (by rw [State.raise_xc, State.losesMessage_xc, h])]
    refine ⟨rfl, ?_⟩
    simp only [State.readStore, State.requestRead, State.request, State.onXc_lmp, State.onLmp_lmp, State.raise_lmp,
      State.losesMessage_lmp, State.raise_xc, State.losesMessage_xc]
    rfl

end Sys2Proof.Machine
end

section
/-! A cell and its 48 bytes: each field is read back from the byte that carries it, and each byte is put together again from
its fields where its must-be-zero bits are zero. -/

namespace Sys2Proof.Machine

/-! ### The codes -/

theorem Kind.ofCode_code (k : Kind) : Kind.ofCode k.code = k := by cases k <;> rfl

theorem Kind.code_ofCode : ∀ b : BitVec 2, (Kind.ofCode b).code = b := by decide

theorem Position.ofCode_code (p : Position) : Position.ofCode p.code = p := by cases p <;> rfl

theorem Position.code_ofCode : ∀ b : BitVec 2, (Position.ofCode b).code = b := by decide

theorem Kind.ofCode_eq_iff (b : BitVec 2) (k : Kind) : Kind.ofCode b = k ↔ b = k.code :=
  ⟨fun h => by rw [← h, Kind.code_ofCode], fun h => by rw [h, Kind.ofCode_code]⟩

theorem Position.ofCode_eq_iff (b : BitVec 2) (p : Position) : Position.ofCode b = p ↔ b = p.code :=
  ⟨fun h => by rw [← h, Position.code_ofCode], fun h => by rw [h, Position.ofCode_code]⟩

/-! ### The fields of a byte -/

section Bits

variable {w n : Nat}

theorem extractLsb'_two_append (k p : BitVec 2) (q : BitVec 4) : (k ++ p ++ q).extractLsb' 6 2 = k ∧
    (k ++ p ++ q).extractLsb' 4 2 = p ∧ (k ++ p ++ q).extractLsb' 0 4 = q := by
  refine ⟨?_, ?_, ?_⟩ <;>
  · refine BitVec.eq_of_getLsbD_eq fun i hi => ?_
    rw [BitVec.getLsbD_extractLsb']
    grind

theorem append_extractLsb' (b : Byte) : b.extractLsb' 6 2 ++ b.extractLsb' 4 2 ++ b.extractLsb' 0 4 = b := by
  refine BitVec.eq_of_getLsbD_eq fun i hi => ?_
  simp only [BitVec.getLsbD_append, BitVec.getLsbD_extractLsb']
  grind

theorem shiftRight_eq_zero_iff (b : BitVec w) : b >>> n = 0 ↔ b.toNat < 2 ^ n := by
  rw [BitVec.toNat_eq, BitVec.toNat_ushiftRight, Nat.shiftRight_eq_div_pow]
  simp [Nat.div_eq_zero_iff]

/-- A narrow field fills the low end of its byte and leaves the rest zero. -/
theorem setWidth_shiftRight (x : BitVec n) : (x.setWidth w) >>> n = 0 := by
  rw [shiftRight_eq_zero_iff, BitVec.toNat_setWidth]
  exact (Nat.mod_le _ _).trans_lt x.isLt

theorem setWidth_setWidth_self {x : BitVec n} (h : n ≤ w) : (x.setWidth w).setWidth n = x := by
  rw [BitVec.setWidth_setWidth_of_le _ h, BitVec.setWidth_eq]

theorem setWidth_setWidth_of_shiftRight {b : BitVec w} (h : b >>> n = 0) : (b.setWidth n).setWidth w = b := by
  rw [shiftRight_eq_zero_iff] at h
  apply BitVec.eq_of_toNat_eq
  rw [BitVec.toNat_setWidth, BitVec.toNat_setWidth, Nat.mod_eq_of_lt h, Nat.mod_eq_of_lt b.isLt]

/-- The high bits of a byte are zero exactly if nothing is left when the low ones are shifted out. -/
theorem extractLsb'_high_eq_zero_iff {k : Nat} (b : BitVec w) (h : w ≤ n + k) : b.extractLsb' n k = 0 ↔ b >>> n = 0 := by
  have hlt : b.toNat / 2 ^ n < 2 ^ k := by
    rw [Nat.div_lt_iff_lt_mul (by positivity), ← Nat.pow_add]
    exact b.isLt.trans_le (Nat.pow_le_pow_right (by omega) (by omega))
  rw [BitVec.toNat_eq, BitVec.toNat_eq, BitVec.extractLsb'_toNat, BitVec.toNat_ushiftRight, Nat.shiftRight_eq_div_pow,
    Nat.mod_eq_of_lt hlt]
  simp

/-- A label stands in two bytes, its three high bits first. -/
theorem label_bytes (x : BitVec 11) : (((x.setWidth 16 : Half) >>> 8).setWidth 8 ++ (x.setWidth 16 : Half).setWidth 8 :
    Half).setWidth 11 = x := by
  apply BitVec.eq_of_getLsbD_eq
  intro i hi
  grind

theorem label_high (x : BitVec 11) : (((x.setWidth 16 : Half) >>> 8).setWidth 8 : Byte) >>> 3 = 0 := by
  rw [shiftRight_eq_zero_iff]
  have hx := x.isLt
  simp [Nat.shiftRight_eq_div_pow]
  omega

theorem bytes_label {a b : Byte} (h : a >>> 3 = 0) :
    (((((a ++ b : Half).setWidth 11).setWidth 16 : Half) >>> 8).setWidth 8 : Byte) = a ∧
      ((((a ++ b : Half).setWidth 11).setWidth 16 : Half).setWidth 8 : Byte) = b := by
  have hhigh : ∀ i, 3 ≤ i → a.getLsbD i = false := fun i hi => by
    have := congrArg (BitVec.getLsbD · (i - 3)) h
    rw [BitVec.getLsbD_ushiftRight, show 3 + (i - 3) = i by omega] at this
    simpa using this
  refine ⟨BitVec.eq_of_getLsbD_eq fun i hi => ?_, BitVec.eq_of_getLsbD_eq fun i hi => ?_⟩ <;>
  · simp only [BitVec.getLsbD_setWidth, BitVec.getLsbD_ushiftRight, BitVec.getLsbD_append]
    grind

end Bits

/-! ### The bytes of a cell -/

theorem padTo_of_length {n : Nat} {l : List Byte} (h : l.length = n) : (padTo n l).toList = l := by
  subst h
  simp [padTo]

theorem padTo_toList {n : Nat} (v : Vector Byte n) : padTo n v.toList = v := by
  apply Vector.toList_inj.1
  rw [padTo_of_length v.length_toList]

section Header

variable (c : Cell)

theorem Cell.bytes_toList : c.bytes.toList = c.header ++ headerCheck c.header :: c.payload.toList := by
  rw [Cell.bytes, padTo_of_length]
  · simp
  · simp [Cell.header]

theorem Cell.ofBytes_bytes : Cell.ofBytes c.bytes = c := by
  obtain ⟨hkind, hposition, hseq⟩ := extractLsb'_two_append c.kind.code c.position.code c.seq
  have hpayload : padTo 40 (c.bytes.toList.drop 8) = c.payload := by
    rw [c.bytes_toList]
    exact padTo_toList c.payload
  unfold Cell.ofBytes
  dsimp only
  rw [hpayload, c.bytes_toList]
  have hlabel := label_bytes c.label
  cases c
  simp only [Cell.mk.injEq, and_true]
  exact ⟨hkind ▸ Kind.ofCode_code _, hposition ▸ Position.ofCode_code _, hseq, setWidth_setWidth_self (by omega),
    setWidth_setWidth_self (by omega), hlabel, setWidth_setWidth_self (by omega), setWidth_setWidth_self (by omega)⟩

theorem Cell.goodHeader_bytes : goodHeader c.bytes.toList = true := by
  rw [goodHeader, c.bytes_toList]
  exact beq_self_eq_true _

theorem reservedBitSet_eq_false_iff (l : List Byte) : reservedBitSet l = false ↔ byteAt l 1 >>> 6 = 0 ∧
    byteAt l 2 >>> 6 = 0 ∧ byteAt l 3 >>> 3 = 0 ∧ byteAt l 5 >>> 6 = 0 ∧ byteAt l 6 >>> 4 = 0 := by
  simp [reservedBitSet, and_assoc]

theorem Cell.reservedBitSet_bytes : reservedBitSet c.bytes.toList = false := by
  rw [reservedBitSet_eq_false_iff, c.bytes_toList]
  exact ⟨setWidth_shiftRight c.dest, setWidth_shiftRight c.src, label_high c.label, setWidth_shiftRight c.fill,
    setWidth_shiftRight c.hops⟩

end Header

/-- The bytes of a cell are its eight header bytes and its payload. -/
theorem RawCell.toList_eq (raw : RawCell) : ∃ b0 b1 b2 b3 b4 b5 b6 b7 : Byte, ∃ rest : List Byte, rest.length = 40 ∧
    raw.toList = b0 :: b1 :: b2 :: b3 :: b4 :: b5 :: b6 :: b7 :: rest := by
  have hlen : raw.toList.length = 48 := raw.length_toList
  generalize raw.toList = l at hlen
  match l, hlen with
  | b0 :: b1 :: b2 :: b3 :: b4 :: b5 :: b6 :: b7 :: rest, h =>
    exact ⟨b0, b1, b2, b3, b4, b5, b6, b7, rest, by simpa using h, rfl⟩

theorem bytes_ofBytes (raw : RawCell) (hgood : goodHeader raw.toList = true)
    (hreserved : reservedBitSet raw.toList = false) : (Cell.ofBytes raw).bytes = raw := by
  apply Vector.toList_inj.1
  rw [Cell.bytes_toList]
  obtain ⟨b0, b1, b2, b3, b4, b5, b6, b7, rest, hlen, hraw⟩ := RawCell.toList_eq raw
  obtain ⟨h1, h2, h3, h5, h6⟩ := (reservedBitSet_eq_false_iff _).1 hreserved
  rw [hraw] at hgood h1 h2 h3 h5 h6
  obtain ⟨hhigh, hlow⟩ := bytes_label (b := b4) h3
  have hheader : (Cell.ofBytes raw).header = [b0, b1, b2, b3, b4, b5, b6] := by
    unfold Cell.ofBytes Cell.header
    rw [hraw]
    simp only [Kind.code_ofCode, Position.code_ofCode, List.cons.injEq, and_true]
    exact ⟨append_extractLsb' b0, setWidth_setWidth_of_shiftRight h1, setWidth_setWidth_of_shiftRight h2, hhigh, hlow,
      setWidth_setWidth_of_shiftRight h5, setWidth_setWidth_of_shiftRight h6⟩
  have hpayload : (Cell.ofBytes raw).payload.toList = rest := by
    unfold Cell.ofBytes
    rw [hraw]
    exact padTo_of_length hlen
  rw [hheader, hpayload, hraw, show headerCheck [b0, b1, b2, b3, b4, b5, b6] = b7 from beq_iff_eq.1 hgood]
  rfl

/-! ### Malformed cells (R3) -/

theorem reservedBitSet_iff (l : List Byte) : reservedBitSet l = true ↔
    (byteAt l 1).extractLsb' 6 2 ≠ 0 ∨ (byteAt l 2).extractLsb' 6 2 ≠ 0 ∨ (byteAt l 3).extractLsb' 3 5 ≠ 0 ∨
      (byteAt l 5).extractLsb' 6 2 ≠ 0 ∨ (byteAt l 6).extractLsb' 4 4 ≠ 0 := by
  rw [← Bool.not_eq_false, reservedBitSet_eq_false_iff]
  simp only [ne_eq, extractLsb'_high_eq_zero_iff (n := 6) (k := 2) _ (Nat.le_refl 8), not_and_or,
    extractLsb'_high_eq_zero_iff (n := 3) (k := 5) _ (Nat.le_refl 8),
    extractLsb'_high_eq_zero_iff (n := 4) (k := 4) _ (Nat.le_refl 8)]

theorem any_take_ne_zero_iff (l : List Byte) (n : Nat) :
    (l.take n).any (· != 0) = true ↔ ∃ k < n, byteAt l k ≠ 0 := by
  rw [List.any_eq_true]
  constructor
  · rintro ⟨x, hx, hne⟩
    obtain ⟨k, hk, rfl⟩ := List.mem_iff_getElem.1 hx
    rw [List.length_take] at hk
    refine ⟨k, by omega, ?_⟩
    rw [byteAt, List.getD_eq_getElem _ _ (by omega)]
    simpa using hne
  · rintro ⟨k, hk, hne⟩
    have hlen : k < l.length := by
      by_contra hge
      exact hne (List.getD_eq_default _ _ (by omega))
    rw [byteAt, List.getD_eq_getElem _ _ hlen] at hne
    refine ⟨l[k], List.mem_take_iff_getElem.2 ⟨k, by omega, rfl⟩, by simpa using hne⟩

/-- The tests of a malformed cell, over the fields that the cell is read with. -/
theorem malformed_iff (raw : RawCell) : malformed raw = true ↔ let c := Cell.ofBytes raw
    reservedBitSet raw.toList = true ∨ 40 < c.fill.toNat ∨
      (c.kind ≠ .empty ∧ (c.position = .first ∨ c.position = .middle) ∧ c.fill ≠ 40) ∨
      (c.kind = .data ∧ c.dest = 63) ∨ (c.kind = .empty ∧ ∃ k < 7, byteAt raw.toList k ≠ 0) ∨
      ((c.kind = .mgmtCmd ∨ c.kind = .mgmtRsp) ∧ c.position ≠ .only) := by
  unfold malformed
  dsimp only
  simp only [Bool.or_eq_true, Bool.and_eq_true, any_take_ne_zero_iff, bne_iff_ne, beq_iff_eq, decide_eq_true_iff, or_assoc,
    and_assoc]

/-- Settles O60: the bytes of a cell and the cell of bytes, and the tests read off the bytes. -/
theorem cellAndBytesAgree : Obligations.CellAndBytesAgree := by
  refine ⟨fun c => ⟨c.ofBytes_bytes, c.goodHeader_bytes, c.reservedBitSet_bytes⟩, bytes_ofBytes,
    fun c hfill hfull hkind hdest honly => ?lawful, by decide +kernel, fun raw _ => ?tests⟩
  case lawful =>
    rw [← Bool.not_eq_true, malformed_iff, c.ofBytes_bytes, c.reservedBitSet_bytes]
    rintro (h | h | ⟨-, hposition, h⟩ | ⟨h, hd⟩ | ⟨h, -⟩ | ⟨h, hp⟩)
    · cases h
    · omega
    · exact h (hfull hposition)
    · exact hdest h hd
    · exact hkind h
    · exact hp (honly (by rintro hd; rw [hd] at h; exact h.elim nofun nofun))
  case tests =>
    dsimp only
    rw [malformed_iff, reservedBitSet_iff]
    simp only [Cell.ofBytes, Kind.ofCode_eq_iff, Position.ofCode_eq_iff, ne_eq,
      BitVec.setWidth_eq_extractLsb' (show 6 ≤ 8 by omega)]
    rfl

end Sys2Proof.Machine
end

section
/-! The trunk: delineation, the disposition of an arriving cell, lookup and local delivery. -/

namespace Sys2Proof.Machine

/-! ### Delineation (R8 to R10) -/

section Delineation

variable {s : State}

theorem exec_huntTrial_of_hunt (hreset : s.inReset = false) (h : s.cf.delineation = .hunt) (header : Vector Byte 8) :
    exec (.huntTrial header) s = .next (s.onCf fun cf =>
      if goodHeader header.toList then
        { cf with delineation := .presync, alignment := some cf.streamPos, goodRun := 1, streamPos := cf.streamPos + 48 }
      else { cf with streamPos := cf.streamPos + 1 }) := by
  refine (State.next_of_not_inReset hreset).trans ?_
  dsimp only
  rw [if_pos h]

theorem exec_presyncCell_of_good (hreset : s.inReset = false) (h : s.cf.delineation = .presync) {raw : RawCell}
    (hgood : goodHeader raw.toList = true) : exec (.presyncCell raw) s = .next (
      let t := s.onCf fun cf => { cf with goodRun := cf.goodRun + 1, streamPos := cf.streamPos + 48 }
      if s.cf.goodRun + 1 = 8 then
        (t.onCf fun cf => { cf with delineation := .sync, badRun := 0, changeover := true }).raise .syncGained 0 0 0
      else t) := by
  refine (State.next_of_not_inReset hreset).trans ?_
  dsimp only
  rw [if_pos h, if_pos hgood]
  rfl

theorem exec_presyncCell_of_bad (hreset : s.inReset = false) (h : s.cf.delineation = .presync) {raw : RawCell}
    (hbad : goodHeader raw.toList = false) : exec (.presyncCell raw) s = .next (s.onCf Framer.lost) := by
  refine (State.next_of_not_inReset hreset).trans ?_
  dsimp only
  rw [if_pos h, if_neg (by rw [hbad]; exact Bool.false_ne_true)]

theorem exec_syncCell_of_sync (hreset : s.inReset = false) (h : s.cf.delineation = .sync) (raw : RawCell) :
    exec (.syncCell raw) s = .next ((s.syncArrival raw).settle s) := by
  refine (State.next_of_not_inReset hreset).trans ?_
  dsimp only
  rw [if_pos h]

/-- The trial header is good exactly if its check is its last byte (R2). -/
theorem goodHeader_toList_iff (h : Vector Byte 8) : goodHeader h.toList = true ↔ headerCheck (h.toList.take 7) = h[7] := by
  have hbyte : byteAt h.toList 7 = h[7] := by
    rw [byteAt, List.getD_eq_getElem _ _ (by simp)]
    simp
  rw [goodHeader, beq_iff_eq, hbyte]

/-- The framer as an arriving cell's own position comes up, before its header is looked at (R14, R16). -/
theorem Framer.firstInSync_eq (cf : Framer) : cf.firstInSync = { cf with
    changeover := false, transit := if cf.changeover then cf.transit ++ [.free, .free, .free] else cf.transit } := by
  unfold Framer.firstInSync
  split
  case isTrue => rfl
  case isFalse h => rw [← Bool.eq_false_iff.2 h]

theorem State.syncArrival_of_bad {raw : RawCell} (hbad : goodHeader raw.toList = false) :
    s.syncArrival raw = (s.onCf Framer.firstInSync).headerError := by
  rw [State.syncArrival, if_neg (by rw [hbad]; exact Bool.false_ne_true)]

/-- A cell with a good header is malformed, or disposed of by its fields (R10, R11). -/
theorem State.syncArrival_of_good {raw : RawCell} (hgood : goodHeader raw.toList = true) :
    s.syncArrival raw =
      let t := { s with cf := s.cf.acted }
      if malformed raw then (t.onCounters fun k => { k with malformed := k.malformed + 1 }).depart .free
      else t.dispose (Cell.ofBytes raw) := by
  have hacted : (s.onCf Framer.firstInSync).onCf (fun cf => { cf with badRun := 0, streamPos := cf.streamPos + 48 }) =
      { s with cf := s.cf.acted } := by
    simp only [State.onCf, Framer.firstInSync_eq]
    rfl
  rw [State.syncArrival, if_pos hgood, hacted]

end Delineation

/-- Settles O15: a command of the framer in each of its states, with a good and with a bad header. -/
theorem delineationIsFoundConfirmedAndLost : Obligations.DelineationIsFoundConfirmedAndLost := by
  refine ⟨⟨fun s h hreset hhunt => ⟨fun hgood => ?_, fun hbad => ?_⟩, fun s raw hreset hpre hgood hrun => ?_,
    fun s raw hreset hpre hgood hrun => ?_, fun s raw hreset hpre hbad => ?_⟩,
    fun s raw hreset hsync hbad => ⟨fun hrun => ?_, fun hrun => ?_⟩⟩
  · rw [exec_huntTrial_of_hunt hreset hhunt, State.onCf, if_pos ((goodHeader_toList_iff h).2 hgood)]
  · rw [exec_huntTrial_of_hunt hreset hhunt, State.onCf, if_neg (mt (goodHeader_toList_iff h).1 hbad)]
  · rw [exec_presyncCell_of_good hreset hpre hgood, if_neg (by omega)]
    rfl
  · rw [exec_presyncCell_of_good hreset hpre hgood, if_pos (by omega)]
    simp only [State.onCf, hrun]
  · rw [exec_presyncCell_of_bad hreset hpre hbad]
    rfl
  · rw [exec_syncCell_of_sync hreset hsync, State.syncArrival_of_bad hbad, State.headerError,
      if_neg (by simp only [State.depart, State.onCf, State.onCounters, Framer.firstInSync_eq]; omega)]
    simp only [State.depart, State.onCf, State.onCounters, Framer.firstInSync_eq]
    rfl
  · rw [exec_syncCell_of_sync hreset hsync, State.syncArrival_of_bad hbad, State.headerError,
      if_pos (by simp only [State.depart, State.onCf, State.onCounters, Framer.firstInSync_eq]; omega)]
    simp only [State.depart, State.onCf, State.onCounters, Framer.firstInSync_eq]
    rfl

/-! ### Disposition (R11 to R13) -/

section Disposition

variable {s : State} {c : Cell}

theorem State.isOwn_iff (s : State) (n : Node) : s.isOwn n = true ↔ s.ma.nodeId ≠ 63 ∧ n = s.ma.nodeId := by
  simp [State.isOwn]

theorem State.isOwn_eq_false_iff (s : State) (n : Node) : s.isOwn n = false ↔ s.ma.nodeId = 63 ∨ n ≠ s.ma.nodeId := by
  rw [← Bool.not_eq_true, s.isOwn_iff, not_and_or, not_not]

theorem State.dispose_of_empty (h : c.kind = .empty) : s.dispose c = s.depart .free := by
  rw [State.dispose, if_pos h]

theorem State.dispose_of_own (hkind : c.kind ≠ .empty) (hid : s.ma.nodeId ≠ 63) (hdest : c.dest = s.ma.nodeId) :
    s.dispose c = s.handOn c := by
  rw [State.dispose, if_neg hkind, if_pos ((s.isOwn_iff _).2 ⟨hid, hdest⟩)]

theorem State.dispose_of_foreign (hkind : c.kind ≠ .empty) (hforeign : s.ma.nodeId = 63 ∨ c.dest ≠ s.ma.nodeId) :
    s.dispose c =
      if c.dest = 63 ∧ c.kind = .mgmtCmd ∧ s.ma.nodeId ≠ 63 ∧ s.isOwn c.src = false then (s.joinCommands c).pass c
      else if s.isOwn c.src then (s.onCounters fun k => { k with returned := k.returned + 1 }).depart .free
      else s.pass c := by
  rw [State.dispose, if_neg hkind,
    if_neg (by rw [(s.isOwn_eq_false_iff _).2 hforeign]; exact Bool.false_ne_true)]

/-- A well-formed cell that arrives in SYNC is disposed of. -/
theorem exec_syncCell_of_wellFormed {raw : RawCell} (hreset : s.inReset = false) (hsync : s.cf.delineation = .sync)
    (hgood : goodHeader raw.toList = true) (hformed : malformed raw = false) : exec (.syncCell raw) s = .next
      ((State.dispose { s with cf := s.cf.acted } (Cell.ofBytes raw)).settle s) := by
  rw [exec_syncCell_of_sync hreset hsync, State.syncArrival_of_good hgood, hformed]
  rfl

/-- A well-formed cell addressed to this node is handed on. -/
theorem exec_syncCell_of_own {raw : RawCell} (hreset : s.inReset = false) (hsync : s.cf.delineation = .sync)
    (hgood : goodHeader raw.toList = true) (hformed : malformed raw = false) (hkind : (Cell.ofBytes raw).kind ≠ .empty)
    (hid : s.ma.nodeId ≠ 63) (hdest : (Cell.ofBytes raw).dest = s.ma.nodeId) : exec (.syncCell raw) s = .next
      ((State.handOn { s with cf := s.cf.acted } (Cell.ofBytes raw)).settle s) := by
  rw [exec_syncCell_of_wellFormed hreset hsync hgood hformed, State.dispose_of_own (s := { s with cf := s.cf.acted }) hkind hid hdest]

end Disposition

/-- Settles O16: the tests of R11 in their order. -/
theorem cellNotForThisNodeIsDisposedOf : Obligations.CellNotForThisNodeIsDisposedOf := by
  intro s raw hreset hsync hgood c free broadcast
  refine ⟨fun hmal => ?malformed, fun hformed hkind => ?empty, fun hformed hkind hforeign =>
    ⟨fun hid hsrc => ?returned, fun hsrc hnot => ?passes, fun hsrc hbroad => ?broadcast⟩⟩
  case malformed =>
    rw [exec_syncCell_of_sync hreset hsync, State.syncArrival_of_good hgood, hmal]
    rfl
  case empty => rw [exec_syncCell_of_wellFormed hreset hsync hgood hformed, State.dispose_of_empty hkind]; rfl
  all_goals
    rw [exec_syncCell_of_wellFormed hreset hsync hgood hformed,
      State.dispose_of_foreign (s := { s with cf := s.cf.acted }) hkind hforeign]
  case returned =>
    have hown : State.isOwn { s with cf := s.cf.acted } c.src = true := (State.isOwn_iff _ _).2 ⟨hid, hsrc⟩
    rw [if_neg (by rw [hown]; simp), if_pos hown]
    rfl
  case passes =>
    have hown : State.isOwn { s with cf := s.cf.acted } c.src = false := (State.isOwn_eq_false_iff _ _).2 hsrc
    rw [if_neg fun ⟨hcmd, hdest, hid, _⟩ => hnot ⟨hcmd, hdest, hid⟩, if_neg (by rw [hown]; exact Bool.false_ne_true),
      State.pass]
    refine ⟨fun hhops => ?_, fun hhops => ?_⟩
    · rw [if_neg hhops]
      rfl
    · rw [if_pos hhops]
      rfl
  case broadcast =>
    have hown : State.isOwn { s with cf := s.cf.acted } c.src = false := (State.isOwn_eq_false_iff _ _).2 (.inr hsrc)
    obtain ⟨hcmd, hdest, hid⟩ := hbroad
    rw [if_pos ⟨hcmd, hdest, hid, hown⟩]

/-- Settles O17: the cell is handed on to the lookup, and the action of its label's entry decides. -/
theorem dataCellIsLookedUpOnItsLabel : Obligations.DataCellIsLookedUpOnItsLabel := by
  intro s raw hreset hsync hgood hformed hid hkind hdest c x counted sent free
  rw [exec_syncCell_of_own hreset hsync hgood hformed (by rw [hkind]; exact nofun) hid hdest, State.handOn, hkind]
  have hsent : ∀ t : State, t.forward x c = sent t := fun t => by
    rw [State.forward]
    by_cases hhops : c.hops = 0
    · rw [if_pos hhops]
      exact (if_pos hhops).symm
    · rw [if_neg hhops]
      exact (if_neg hhops).symm
  refine congrArg (fun t => Host.Outcome.next (State.settle t s)) ?_
  show State.lookup { s with cf := s.cf.acted } c = _
  have hentry : State.circuit { s with cf := s.cf.acted } c.label = x := rfl
  rw [State.lookup, hentry]
  cases hx : x.action with
  | unused => rfl
  | block => rfl
  | terminate => rfl
  | forward => exact hsent _
  | tap => exact hsent _

/-! ### Local delivery (R21, R27, R35, R36) -/

theorem State.halted_or_not_running_iff (s : State) : (s.halted || s.ma.nodeState != .running) = true ↔
    s.ma.state = .resetWait ∨ s.ma.nodeState ≠ .running := by
  rw [Bool.or_eq_true, s.halted_iff, bne_iff_ne]

section Delivery

variable {s : State} {c : Chan} {cell : Cell}

theorem State.deliver_of_off (h : s.ma.state = .resetWait ∨ s.ma.nodeState ≠ .running) :
    s.deliver c cell = s.onCounters fun k => { k with datapathOff := k.datapathOff + 1 } := by
  rw [State.deliver, if_pos (s.halted_or_not_running_iff.2 h)]

theorem State.deliver_of_on (hwait : s.ma.state ≠ .resetWait) (hrun : s.ma.nodeState = .running) :
    s.deliver c cell =
      if (s.chan c).binding ≠ .bound then s.onCounters fun k => { k with nochannel := k.nochannel + 1 }
      else if (s.pool (s.chan c).pool).state = .faulted then
        s.onCounters fun k => { k with poolDiscards := k.poolDiscards + 1 }
      else s.holdCell c cell := by
  rw [State.deliver, if_neg fun h => (s.halted_or_not_running_iff.1 h).elim hwait (· hrun)]

theorem State.routeResponse_of_none (h : s.cc.rspChannel = none) : s.routeResponse cell = s.discardResponse := by
  rw [State.routeResponse, h]

/-- A response is held for the response channel if the tests of a local part pass on it, and is discarded otherwise. -/
theorem State.routeResponse_of_some (h : s.cc.rspChannel = some c) : s.routeResponse cell =
    if s.ma.state ≠ .resetWait ∧ s.ma.nodeState = .running ∧ (s.chan c).binding = .bound ∧
      (s.pool (s.chan c).pool).state ≠ .faulted then s.holdCell c cell
    else s.discardResponse := by
  rw [State.routeResponse, h]
  dsimp only
  simp only [s.halted_or_not_running_iff]
  grind

end Delivery

/-- Settles O18: the tests of a local part in their order, and the two ways in which the hold queue takes a cell. -/
theorem localPartIsHeldForItsChannel : Obligations.LocalPartIsHeldForItsChannel := by
  refine ⟨fun s c cell hwait => ⟨fun hrun => ?off, fun hrun hunbound => ?nochannel,
      fun hrun hbound hfaulted => ?faulted, fun hrun hbound hpool => ?held, fun hnone => ?noRsp, fun hsome => ?rsp⟩,
    fun s c cell => ⟨fun hroom => ?room, fun hfull habort => ?full, fun hfull habort => ?overflow⟩,
    fun s c cell hwait => ⟨State.deliver_of_off (.inl hwait), ?waitRsp⟩,
    fun s raw hreset hsync hgood hformed hid hkind hdest => ?arrives⟩
  case off => rw [State.deliver_of_off (.inr hrun)]; rfl
  case nochannel => rw [State.deliver_of_on hwait hrun, if_pos hunbound]; rfl
  case faulted => rw [State.deliver_of_on hwait hrun, if_neg (not_not.2 hbound), if_pos hfaulted]; rfl
  case held => rw [State.deliver_of_on hwait hrun, if_neg (not_not.2 hbound), if_neg hpool]
  case noRsp => rw [State.routeResponse_of_none hnone]; rfl
  case rsp =>
    rw [State.routeResponse_of_some hsome]
    simp only [ne_eq, hwait, not_false_eq_true, true_and]
    rfl
  case room => rw [State.holdCell, if_pos hroom]; rfl
  case full => rw [State.holdCell, if_neg (Nat.not_lt.2 hfull)]; exact if_neg habort
  case overflow => rw [State.holdCell, if_neg (Nat.not_lt.2 hfull)]; exact if_pos habort
  case waitRsp =>
    cases hrsp : s.cc.rspChannel with
    | none => rw [State.routeResponse_of_none hrsp]; rfl
    | some d => rw [State.routeResponse_of_some hrsp, if_neg fun h => h.1 hwait]; rfl
  case arrives =>
    rw [exec_syncCell_of_own hreset hsync hgood hformed (by rw [hkind]; exact nofun) hid hdest, State.handOn, hkind]
    rfl

end Sys2Proof.Machine
end

section
/-! The command queue and the outbound positions. -/

namespace Sys2Proof.Machine

/-! ### Command cells (R154, R165) -/

section Queue

variable (s : State)

theorem State.duplicateOf_isNone_iff (q : Cell) : (s.duplicateOf q).isNone = true ↔
    q.tag = 0 ∨ ∀ m, s.memoryOf q.src = some m → m.tag ≠ q.tag := by
  rw [State.duplicateOf, Option.isNone_iff_eq_none]
  split
  case isTrue h => simp [h]
  case isFalse h => simp only [Option.filter_eq_none_iff, h, false_or, beq_iff_eq, ne_eq]

theorem State.outOfTurn_iff (q : Cell) : s.outOfTurn q = true ↔ s.OutOfTurn q := by
  simp only [State.outOfTurn, State.OutOfTurn, Bool.and_eq_true, beq_iff_eq, s.isOwn_iff, s.listed_iff,
    s.duplicateOf_isNone_iff, List.mem_map, codeNodeReset, and_assoc]

theorem State.outOfTurn_eq_false_iff (q : Cell) : s.outOfTurn q = false ↔ ¬ s.OutOfTurn q := by
  rw [← s.outOfTurn_iff, Bool.not_eq_true]

/-- An agent that is not WORKING on a long command leaves the queue as it is (R165). -/
theorem State.examineQueue_of_not_long {s : State} (h : ∀ cmd, s.ma.state ≠ .working cmd true) : s.examineQueue = s := by
  rw [State.examineQueue]
  split
  case h_1 cmd hstate => exact absurd hstate (h cmd)
  all_goals rfl

/-- The oldest NODE_RESET that is taken out of turn is executed, and the cells around it keep their order (R165, R172). -/
theorem State.examineQueue_of_givesWay {s : State} {cmd q : Cell} {rest : List Cell}
    (hstate : s.ma.state = .working cmd true) (h : s.GivesWay q rest) :
    s.examineQueue = State.answering { s with ma := { s.ma with queue := rest } } q 0 [] := by
  obtain ⟨pre, post, hqueue, rfl, hq, hpre⟩ := h
  have hbefore : ∀ x ∈ pre, s.outOfTurn x = false := fun x hx => (s.outOfTurn_eq_false_iff x).2 (hpre x hx)
  have hfound : s.ma.queue.find? s.outOfTurn = some q :=
    List.find?_eq_some_iff_append.2 ⟨(s.outOfTurn_iff q).2 hq, pre, post, hqueue, fun x hx => by simp [hbefore x hx]⟩
  have hleft : s.ma.queue.eraseP s.outOfTurn = pre ++ post := by
    rw [hqueue, List.eraseP_append_right _ fun x hx => by simp [hbefore x hx],
      List.eraseP_cons_of_pos ((s.outOfTurn_iff q).2 hq)]
  rw [State.examineQueue, hstate]
  dsimp only
  rw [hfound, ← hleft]
  rfl

theorem State.examineQueue_of_none {s : State} (h : s.NoneOutOfTurn) : s.examineQueue = s := by
  have hnone : s.ma.queue.find? s.outOfTurn = none :=
    List.find?_eq_none.2 fun x hx => by rw [(s.outOfTurn_eq_false_iff x).2 (h x hx)]; exact Bool.false_ne_true
  rw [State.examineQueue]
  split
  case h_1 cmd hstate => rw [hnone]
  all_goals rfl

/-- The queue is examined without a look at the framer. -/
theorem State.examineQueue_onCf (f : Framer → Framer) : (s.onCf f).examineQueue = s.examineQueue.onCf f := by
  have hsame : (s.onCf f).outOfTurn = s.outOfTurn := rfl
  rw [State.examineQueue, State.examineQueue, hsame]
  dsimp only [State.onCf_ma]
  split
  case h_1 cmd hstate => split <;> rfl
  all_goals rfl

theorem State.joinCommands_of_room {s : State} (h : s.ma.queue.length < 4) (c : Cell) :
    s.joinCommands c = (s.onMa fun ma => { ma with queue := ma.queue ++ [c] }).examineQueue := if_pos h

theorem State.joinCommands_of_full {s : State} (h : 4 ≤ s.ma.queue.length) (c : Cell) :
    s.joinCommands c = s.onCounters fun k => { k with mgmtQueueFull := k.mgmtQueueFull + 1 } := if_neg (Nat.not_lt.2 h)

theorem State.joinCommands_onCf (c : Cell) (f : Framer → Framer) :
    (s.onCf f).joinCommands c = (s.joinCommands c).onCf f := by
  rw [State.joinCommands, State.joinCommands]
  by_cases hroom : s.ma.queue.length < 4
  · rw [if_pos hroom]
    refine (if_pos hroom).trans ?_
    exact State.examineQueue_onCf (s.onMa fun ma => { ma with queue := ma.queue ++ [c] }) f
  · rw [if_neg hroom]
    exact if_neg hroom

end Queue

/-- Settles O19: the arrival joins the queue, and the queue is examined for a long command and as one is taken. -/
theorem commandCellJoinsTheQueueOrResetsTheNode : Obligations.CommandCellJoinsTheQueueOrResetsTheNode := by
  refine ⟨fun s raw hreset hsync hgood hformed hid hkind hdest => ?arrives, fun s cmd c hroom hlong =>
    ⟨fun pre q post hqueue hq hpre => ?takes, fun hnone => ?waits⟩, fun s cmd => ⟨fun q rest h => ?goesLong, fun h => ?stays⟩,
    fun s q => Iff.rfl⟩
  case arrives =>
    have hjoin : exec (.syncCell raw) s = .next (State.settle
        (State.joinCommands { s with cf := s.cf.arrived .free } (Cell.ofBytes raw)) s) := by
      rw [exec_syncCell_of_own hreset hsync hgood hformed (by rw [hkind]; exact nofun) hid hdest, State.handOn, hkind]
      exact congrArg (fun t => Host.Outcome.next (State.settle t s)) (State.joinCommands_onCf
        { s with cf := s.cf.acted } _ fun cf => { cf with transit := cf.transit ++ [.free] }).symm
    refine ⟨hjoin, fun hroom hlong => ?_, fun hfull => ?_⟩
    · rw [hjoin, State.joinCommands_of_room (s := { s with cf := s.cf.arrived .free }) hroom]
      exact congrArg (fun t => Host.Outcome.next (State.settle t s)) (State.examineQueue_of_not_long hlong)
    · rw [hjoin, State.joinCommands_of_full (s := { s with cf := s.cf.arrived .free }) hfull]
      rfl
  case takes =>
    rw [State.joinCommands_of_room hroom]
    exact State.examineQueue_of_givesWay hlong ⟨pre, post, hqueue, rfl, hq, hpre⟩
  case waits =>
    rw [State.joinCommands_of_room hroom]
    exact State.examineQueue_of_none hnone
  case goesLong => exact State.examineQueue_of_givesWay (s := s.agentTo (.working cmd true)) rfl h
  case stays => exact State.examineQueue_of_none (s := s.agentTo (.working cmd true)) h

/-! ### The outbound positions (R14, R132, R133) -/

section Outbound

variable {s : State}

theorem State.outbound_of_passed (hdue : s.cf.positionDue = true) {c : Cell} {rest : List Departure}
    (h : s.cf.transit = .passed c :: rest) : s.outbound =
      ((s.onCf fun cf => { cf with transit := rest }).send c).onCounters fun k =>
        { k with cellsPassed := k.cellsPassed + 1 } := by
  rw [State.outbound, if_pos hdue, h]

theorem State.outbound_of_forwarded (hdue : s.cf.positionDue = true) {c : Cell} {rest : List Departure}
    (h : s.cf.transit = .forwarded c :: rest) : s.outbound =
      ((s.onCf fun cf => { cf with transit := rest }).send c).onCounters fun k =>
        { k with cellsForwarded := k.cellsForwarded + 1 } := by
  rw [State.outbound, if_pos hdue, h]

theorem State.outbound_of_not_due (h : s.cf.positionDue = false) : s.outbound = s := by
  rw [State.outbound, if_neg (by rw [h]; exact Bool.false_ne_true)]

theorem State.fillFree_of_response {q : QueuedResponse} {rest : List QueuedResponse} (h : s.ia.responses = q :: rest) :
    s.fillFree =
      let t := (s.onIa fun ia => { ia with responses := rest }).place q.cell
      if q.reset ∧ s.ma.state = .resetSent then t.enterResetWait else t := by
  rw [State.fillFree, h]
  rfl

theorem State.fillFree_of_class {r : RingId} {n : Nat} {c : Cell} {rest : List Cell} (hnone : s.ia.responses = [])
    (hclass : s.chooseClass = some (r, n)) (hfifo : (s.ring r).fifo = c :: rest) : s.fillFree =
      (((s.onIa fun ia => { ia with pointer := r, runCount := n }).onRing r fun x => { x with fifo := rest }).place
        c).departed r c := by
  rw [State.fillFree, hnone]
  dsimp only
  rw [hclass]
  dsimp only
  rw [State.placeStaged, hfifo]

theorem State.fillFree_of_unstaged (hnone : s.ia.responses = []) (hempty : ∀ r, (s.ring r).fifo = []) :
    s.fillFree = s.send emptyCell := by
  rw [State.fillFree, hnone]
  dsimp only
  rw [State.chooseClass_eq_none fun r => (s.staged_eq_false_iff r).2 (hempty r)]

end Outbound

/-- Settles O20: what the position owes, or what the arbiter places in it. -/
theorem outboundPositionCarriesWhatItOwesOrIsFilled : Obligations.OutboundPositionCarriesWhatItOwesOrIsFilled := by
  refine ⟨fun s c rest hreset hdue => ⟨fun h => ?passed, fun h => ?forwarded⟩, fun s hreset hdue hfree =>
    ⟨fun q rest hq hnot => ?response, fun q rest hq hset hsent => ?reset,
      fun r n c rest hnone hclass hfifo => ?staged, fun hnone hempty => ?empty⟩, fun cf => ?due,
    fun s hreset hnot => ?notDue⟩
  case due => simp [Framer.positionDue, or_assoc]
  all_goals rw [exec_outboundPosition_of_not_inReset hreset]
  case passed => rw [State.outbound_of_passed hdue h]; rfl
  case forwarded => rw [State.outbound_of_forwarded hdue h]; rfl
  case notDue => rw [State.outbound_of_not_due hnot]
  all_goals rw [State.outbound_of_free hdue hfree]
  case response =>
    rw [State.fillFree_of_response (s := s.dropTransit) hq]
    exact congrArg Host.Outcome.next (if_neg hnot)
  case reset =>
    rw [State.fillFree_of_response (s := s.dropTransit) hq]
    exact congrArg Host.Outcome.next (if_pos ⟨hset, hsent⟩)
  case staged => rw [State.fillFree_of_class (s := s.dropTransit) hnone hclass hfifo]; rfl
  case empty => rw [State.fillFree_of_unstaged (s := s.dropTransit) hnone hempty]; rfl

end Sys2Proof.Machine
end

section
/-! The engine: the choice of a held cell, the start of a message, and the tests of a cell of an open one. -/

namespace Sys2Proof.Machine

/-! ### Updates of one table entry -/

section Tables

variable (s : State)

theorem tmod_tmod {α : Type} {n : Nat} (v : Vector α n) (i : Fin n) (f g : α → α) :
    tmod (tmod v i f) i g = tmod v i fun x => g (f x) := by
  simp only [tmod, tget_tset_self, tset_tset]

theorem State.onChan_onChan (c : Chan) (f g : Channel → Channel) :
    (s.onChan c f).onChan c g = s.onChan c fun ch => g (f ch) :=
  congrArg (fun v => { s with re := { s.re with channels := v } }) (tmod_tmod s.re.channels c f g)

/-- Two updates that agree on the channel's entry are one. -/
theorem State.onChan_congr {c : Chan} {f g : Channel → Channel} (h : f (s.chan c) = g (s.chan c)) :
    s.onChan c f = s.onChan c g :=
  congrArg (fun x => { s with re := { s.re with channels := tset s.re.channels c x } }) h

theorem State.onPool_congr {p : PoolId} {f g : Pool → Pool} (h : f (s.pool p) = g (s.pool p)) :
    s.onPool p f = s.onPool p g :=
  congrArg (fun x => { s with du := tset s.du p x }) h

end Tables

/-! ### The choice of a held cell (R34, R37) -/

section Ready

variable (s : State)

theorem Channel.isCached_iff (ch : Channel) : ch.isCached = true ↔ ∃ e, ch.residence = .cached e := by
  rw [Channel.isCached]
  split <;> simp [*]

theorem Channel.waiting_eq_false_iff (ch : Channel) : ch.waiting = false ↔ ch.op = none := by
  simp [Channel.waiting]

theorem State.ready_iff (c : Chan) : s.ready c = true ↔ (s.chan c).binding = .bound ∧
    (∃ e, (s.chan c).residence = .cached e) ∧ (s.chan c).op = none ∧ (s.pool (s.chan c).pool).state = .active := by
  simp [State.ready, Channel.isCached_iff, Channel.waiting_eq_false_iff, and_assoc]

theorem State.applicable_iff (h : HeldCell) :
    s.applicable h = true ↔ s.ready h.channel = true ∧ (s.chan h.channel).pendingAbort = .none := by
  simp [State.applicable]

theorem State.applyHeld_of_abortDue {s : State} (h : s.abortDue = true) : s.applyHeld = s := by
  simp [State.applyHeld, h]

theorem State.applyHeld_of_none {s : State} (h : ∀ x ∈ s.re.hold, s.applicable x = false) : s.applyHeld = s := by
  have hnone : s.re.hold.find? s.applicable = none :=
    List.find?_eq_none.2 fun x hx => by rw [h x hx]; exact Bool.false_ne_true
  rw [State.applyHeld, hnone]
  exact ite_self s

end Ready

/-- Settles O22: the oldest applicable cell is taken off the queue, its channel's entry is touched, and it is applied. -/
theorem oldestApplicableCellIsApplied : Obligations.OldestApplicableCellIsApplied := by
  refine ⟨fun s hreset hwait => ⟨fun hdue => ⟨fun pre h post e v hhold hh hpre hres hentry => ?applied, fun hnone => ?none⟩,
    fun hdue => ?abort⟩, State.ready_iff, State.applicable_iff⟩
  all_goals rw [exec_applyCell_of_not_inReset hreset]
  case applied =>
    rw [State.applyHeld_of_oldest (State.halted_of_ne hwait) (s.abortDue_eq_false_iff.2 hdue) hhold hh hpre,
      State.touch_of_valid (s := s.onRe fun re => { re with hold := pre ++ post }) hres hentry]
    rfl
  case none => rw [State.applyHeld_of_none hnone]
  case abort =>
    obtain ⟨c, habort, hready⟩ := hdue
    have hdue : s.abortDue = true := by
      rw [← Bool.not_eq_false, s.abortDue_eq_false_iff]
      exact fun h => absurd hready (by rw [h c habort]; exact Bool.false_ne_true)
    rw [State.applyHeld_of_abortDue hdue]

/-! ### The start of a message (R40, R41, R52) -/

section Start

variable {s : State} {c : Chan} {cell : Cell}

theorem Cell.starts_iff (cell : Cell) :
    cell.starts = true ↔ cell.position = .first ∨ (cell.position = .only ∧ cell.fill ≠ 0) := by
  simp [Cell.starts]

/-- A request of a channel to its pool, with the operation that awaits its answer. -/
theorem State.setOp_askPool (s : State) (c : Chan) (r : DuRequest) (op : Option ChanOp) : (s.askPool c r).setOp c op =
    (s.onPool (s.chan c).pool fun p => { p with requests := p.requests ++ [r] }).onChan c fun ch =>
      { ch with op := op } := rfl

theorem State.startCell_of_data (h : cell.kind = .data) : s.startCell c cell = s.startData c cell := by
  rw [State.startCell, if_neg (by rw [h]; exact nofun)]

theorem State.startCell_of_response (h : cell.kind = .mgmtRsp) : s.startCell c cell = s.askReserve c cell := if_pos h

theorem State.applyTo_of_response {x : Context} (hctx : s.context c = some x) (h : cell.kind = .mgmtRsp) :
    s.applyTo c cell = if (s.chan c).msgOpen then s.beginClose c .nolast (.resume cell) else s.startCell c cell := by
  rw [State.applyTo, hctx]
  exact if_pos h

theorem State.applyTo_of_data {x : Context} (hctx : s.context c = some x) (h : cell.kind = .data) : s.applyTo c cell =
    if x.state = .assembling then s.applyOpen c cell x else s.applyClosed c cell := by
  rw [State.applyTo, hctx]
  exact if_neg (by rw [h]; exact nofun)

theorem Channel.not_uses_iff (ch : Channel) : ¬ ch.InUse ↔ ch.uses = false := by
  rw [← Channel.uses_iff, Bool.not_eq_true]

/-- What a channel that is FAULTED or UNBOUND by then does with the answer to an operation: its cell goes into
nochannel (R61). -/
theorem State.undo_of_cell {op : ChanOp} (hop : (s.chan c).op = some op) (hcell : op.cell?.isSome = true) :
    s.undo c = State.onChan { s with counters := { s.counters with nochannel := s.counters.nochannel + 1 } } c fun ch =>
      { ch with op := none } := by
  rw [State.undo, hop, opHasCell, if_pos hcell]
  rfl

section Reserve

variable (hop : (s.chan c).op = some (.reserve cell))
include hop

theorem State.reserveGranted_of_inUse (h : (s.chan c).InUse) : s.reserveGranted c =
    (s.onPool (s.chan c).pool fun p => { p with requests := p.requests ++ [.take c] }).onChan c fun ch =>
      { ch with op := some (.take cell true), msgOpen := true, deadline := s.ma.nodeTime + ch.limit.setWidth 32 } := by
  rw [State.reserveGranted, hop]
  dsimp only
  rw [if_pos ((Channel.uses_iff _).2 h), State.setOp_askPool, State.onChan_chan_self]
  exact State.onChan_onChan (s.onPool (s.chan c).pool fun p => { p with requests := p.requests ++ [.take c] }) c
    (fun ch => { ch with msgOpen := true, deadline := s.ma.nodeTime + ch.limit.setWidth 32 })
    fun ch => { ch with op := some (.take cell true) }

theorem State.reserveGranted_of_not_inUse (h : ¬ (s.chan c).InUse) : s.reserveGranted c = (s.release c).undo c := by
  rw [State.reserveGranted, hop]
  dsimp only
  rw [(Channel.not_uses_iff _).1 h, if_neg Bool.false_ne_true]

theorem State.reserveRefused_of_inUse (h : (s.chan c).InUse) :
    s.reserveRefused c = (s.raise .nocompl c.val (s.chan c).pool.val 0).startRefused c cell := by
  rw [State.reserveRefused, hop]
  dsimp only
  rw [if_pos ((Channel.uses_iff _).2 h)]

theorem State.reserveRefused_of_not_inUse (h : ¬ (s.chan c).InUse) : s.reserveRefused c = s.undo c := by
  rw [State.reserveRefused, hop]
  dsimp only
  rw [(Channel.not_uses_iff _).1 h, if_neg Bool.false_ne_true]

end Reserve

section Take

variable {first : Bool} (hop : (s.chan c).op = some (.take cell first))
include hop

theorem State.takeGiven_of_inUse (h : (s.chan c).InUse) (cookie addr : Word) : s.takeGiven c cookie addr =
    if first then
      let t := s.modContext c fun x => x.begun cell { cookie, used := 0, addr }
      if cell.fill = 0 then t.beginClose c .ok (.cell cell) else t.writeCell c cell
    else s.writeFurther c cell { cookie, used := 0, addr } := by
  rw [State.takeGiven, hop]
  dsimp only
  rw [if_pos ((Channel.uses_iff _).2 h)]

theorem State.takeGiven_of_not_inUse (h : ¬ (s.chan c).InUse) (cookie addr : Word) :
    s.takeGiven c cookie addr = s.undo c := by
  rw [State.takeGiven, hop]
  dsimp only
  rw [(Channel.not_uses_iff _).1 h, if_neg Bool.false_ne_true]

theorem State.takeNone_of_inUse (h : (s.chan c).InUse) : s.takeNone c =
    if first then
      (((s.release c).onChan c fun ch => { ch with msgOpen := false }).raise .nobufStart c.val (s.chan c).pool.val
        0).startRefused c cell
    else s.beginClose c .nobuf (.cell cell) := by
  rw [State.takeNone, hop]
  dsimp only
  rw [if_pos ((Channel.uses_iff _).2 h)]

theorem State.takeNone_of_not_inUse (h : ¬ (s.chan c).InUse) : s.takeNone c = s.undo c := by
  rw [State.takeNone, hop]
  dsimp only
  rw [(Channel.not_uses_iff _).1 h, if_neg Bool.false_ne_true]

end Take

theorem State.startRefused_of_data (h : cell.kind = .data) : s.startRefused c cell =
    (s.modContext c fun x => { x with state := .discarding }).onChan c fun ch => { ch with op := none } := by
  rw [State.startRefused, if_neg (by rw [h]; exact nofun)]
  rfl

theorem State.startRefused_of_response (h : cell.kind = .mgmtRsp) :
    s.startRefused c cell = s.onChan c fun ch => { ch with op := none } := by
  rw [State.startRefused, if_pos h]
  rfl

/-- A reservation of an ACTIVE pool that has one is given back (R101). -/
theorem State.release_of_active (hactive : (s.pool (s.chan c).pool).state = .active)
    (hreserved : (s.pool (s.chan c).pool).reserved ≠ 0) :
    s.release c = s.onPool (s.chan c).pool fun p => { p with reserved := p.reserved - 1 } :=
  s.onPool_congr (if_neg fun h => h.elim (by rw [hactive]; exact nofun) hreserved)

theorem Context.begun_of_data (h : cell.kind = .data) (x : Context) (b : Buffer) : x.begun cell b =
    { x with buffers := [b], bytesSoFar := 0, offset := 0, crc := 0xFFFFFFFF, state := .assembling
             expectedSeq := cell.seq + 1 } := by
  rw [Context.begun, if_neg (by rw [h]; exact nofun)]
  rfl

theorem Context.begun_of_response (h : cell.kind = .mgmtRsp) (x : Context) (b : Buffer) : x.begun cell b =
    { x with buffers := [b], bytesSoFar := 0, offset := 0, crc := 0xFFFFFFFF, state := .assembling } := by
  rw [Context.begun, if_pos h]
  rfl

end Start

/-- Settles O24: the start of a DATA cell, its refusals, a response cell, and a channel that is FAULTED by then. -/
theorem startOfAMessageOpensItOrDiscardsIt : Obligations.StartOfAMessageOpensItOrDiscardsIt := by
  refine ⟨⟨fun s c cell x hctx hclosed hdata hstart => ?starts, fun s c cell hdata => ⟨fun hlong => ?long, fun hfits => ?fits⟩,
      fun s c cell hop huse => State.reserveGranted_of_inUse hop huse,
      fun s c cell cookie addr hop huse hdata hfill => ?begins⟩,
    ⟨fun s c cell hop huse hdata => ?refused, fun s c cell hop huse hdata hactive hreserved => ?noBuffer⟩,
    ⟨fun s c cell x hctx hrsp => State.applyTo_of_response hctx hrsp, fun s c cell hrsp => State.startCell_of_response hrsp,
      fun s c cell cookie addr hop huse hrsp => ⟨fun hfill => ?rspBegins, fun hfill => ?rspEmpty⟩,
      fun s c cell hop huse hrsp => ?rspRefused, fun s c cell hop huse hrsp hactive hreserved => ?rspNoBuffer⟩,
    fun s c cell first huse => ⟨fun hop => ⟨?goneGranted, ?goneRefused⟩, fun hop => ⟨fun cookie addr => ?goneGiven, ?goneNone⟩⟩⟩
  case starts =>
    rw [State.applyTo_of_data hctx hdata, if_neg hclosed, State.applyClosed, if_pos (cell.starts_iff.2 hstart),
      State.startCell_of_data hdata]
  case long => rw [State.startCell_of_data hdata]; exact if_pos hlong
  case fits => rw [State.startCell_of_data hdata]; exact if_neg (Nat.not_lt.2 hfits)
  case begins =>
    rw [State.takeGiven_of_inUse hop huse, if_pos rfl]
    dsimp only
    simp only [if_neg hfill, Context.begun_of_data hdata]
  case refused => rw [State.reserveRefused_of_inUse hop huse, State.startRefused_of_data hdata]
  case noBuffer =>
    rw [State.takeNone_of_inUse hop huse, if_pos rfl, State.startRefused_of_data hdata,
      State.release_of_active hactive hreserved]
  case rspBegins =>
    rw [State.takeGiven_of_inUse hop huse, if_pos rfl]
    dsimp only
    simp only [if_neg hfill, Context.begun_of_response hrsp]
  case rspEmpty =>
    rw [State.takeGiven_of_inUse hop huse, if_pos rfl]
    dsimp only
    simp only [if_pos hfill, Context.begun_of_response hrsp]
  case rspRefused => rw [State.reserveRefused_of_inUse hop huse, State.startRefused_of_response hrsp]
  case rspNoBuffer =>
    rw [State.takeNone_of_inUse hop huse, if_pos rfl, State.startRefused_of_response hrsp,
      State.release_of_active hactive hreserved]
  case goneGranted =>
    rw [State.reserveGranted_of_not_inUse hop huse]
    exact State.undo_of_cell (s := s.release c) hop rfl
  case goneRefused => rw [State.reserveRefused_of_not_inUse hop huse, State.undo_of_cell hop rfl]
  case goneGiven => rw [State.takeGiven_of_not_inUse hop huse, State.undo_of_cell hop rfl]
  case goneNone => rw [State.takeNone_of_not_inUse hop huse, State.undo_of_cell hop rfl]

/-! ### A cell of an open message (R43 to R46) -/

section Open

variable {s : State} {c : Chan} {cell : Cell} {x : Context}

theorem State.applyTo_of_open (hctx : s.context c = some x) (hopen : x.state = .assembling) (hdata : cell.kind = .data) :
    s.applyTo c cell = s.applyOpen c cell x := by
  rw [State.applyTo_of_data hctx hdata, if_pos hopen]

theorem State.applyOpen_of_start (h : cell.starts = true) :
    s.applyOpen c cell x = s.beginClose c .nolast (.resume cell) := if_pos h

theorem State.applyOpen_of_more (h : cell.position = .middle ∨ cell.position = .last) :
    s.applyOpen c cell x = s.continueCell c cell x := by
  have hstarts : cell.starts = false := Cell.starts_eq_false_of_stray (h.imp_right .inl)
  have honly : cell.position ≠ .only := by obtain h | h := h <;> rw [h] <;> exact nofun
  rw [State.applyOpen, hstarts, if_neg Bool.false_ne_true, if_neg honly]

end Open

/-- Settles O25: the tests of R43 to R46 in their order. -/
theorem cellOfAnOpenMessageIsTestedInOrder : Obligations.CellOfAnOpenMessageIsTestedInOrder := by
  refine ⟨fun s c cell x hctx hopen hdata => ?tested, fun s c cell hop huse => ?nobuf⟩
  case nobuf => rw [State.takeNone_of_inUse hop huse, if_neg Bool.false_ne_true]
  case tested =>
    intro start more abort long full
    rw [State.applyTo_of_open hctx hopen hdata]
    refine ⟨fun h => State.applyOpen_of_start (cell.starts_iff.2 h), fun honly hfill => ?abortOnly, fun h hseq => ?seq,
      fun h hseq habort => ?abort, fun h hseq habort hlong => ?toolong, fun h hseq habort hlong hfull hroom => ?further,
      fun h hseq habort hlong hfull => ?writes⟩
    case abortOnly =>
      rw [State.applyOpen, Cell.starts_eq_false_of_stray (.inr (.inr ⟨honly, hfill⟩)), if_neg Bool.false_ne_true,
        if_pos honly]
    all_goals rw [State.applyOpen_of_more h, State.continueCell]
    case seq => exact if_pos hseq
    all_goals refine (if_neg (not_not.2 hseq)).trans ?_
    case abort => exact if_pos habort
    all_goals refine (if_neg habort).trans ?_
    case toolong =>
      obtain hl | ⟨hfull, height⟩ := hlong
      · exact if_pos hl
      · by_cases hl : long
        · exact if_pos hl
        · exact (if_neg hl).trans ((if_pos hfull).trans (if_pos height))
    case further => exact (if_neg hlong).trans ((if_pos hfull).trans (if_neg hroom))
    case writes => exact (if_neg hlong).trans (if_neg hfull)

end Sys2Proof.Machine
end

section
/-! The engine: the write of a cell, the close of a message, the pending abort, the deadline and the work of an unbind. -/

namespace Sys2Proof.Machine

/-! ### The write of a cell (R46 to R48) -/

section Write

theorem growLast_append (n : Nat) (bs : List Buffer) (b : Buffer) :
    growLast n (bs ++ [b]) = bs ++ [{ b with used := b.used + BitVec.ofNat 16 n }] := by
  simp [growLast]

/-- What a write of these bytes makes of a context. -/
theorem Context.advanceSeq_written (x : Context) (cell : Cell) (bytes : List Byte) (offset : Nat)
    (grow : List Buffer → List Buffer) : (x.written bytes offset grow).advanceSeq cell =
      { x with
        buffers := grow x.buffers
        bytesSoFar := x.bytesSoFar + BitVec.ofNat 32 bytes.length
        offset := BitVec.ofNat 16 offset
        crc := crc32 x.crc bytes
        cellsAccepted := x.cellsAccepted + 1
        expectedSeq := if cell.kind = .data ∧ (cell.position = .middle ∨ cell.position = .last) then x.expectedSeq + 1
          else x.expectedSeq } := by
  rw [Context.advanceSeq]
  split <;> rfl

theorem Context.advanceSeq_written_ne (x : Context) (cell : Cell) (bytes : List Byte) (offset : Nat)
    (grow : List Buffer → List Buffer) : (x.written bytes offset grow).advanceSeq cell ≠ x := by
  intro h
  rw [Context.advanceSeq_written] at h
  have hcount : x.cellsAccepted + 1 = x.cellsAccepted := congrArg Context.cellsAccepted h
  bv_omega

theorem Context.tailAddr_of_buffers {x : Context} {bs : List Buffer} {b : Buffer} (h : x.buffers = bs ++ [b]) :
    x.tailAddr = b.addr + BitVec.ofNat 32 x.offset.toNat := by
  rw [Context.tailAddr, h, List.getLast?_concat]
  rfl

variable {s : State} {c : Chan} {e : EntryId} {v : ValidEntry} {cell : Cell}

theorem State.writeCell_of_valid (hres : (s.chan c).residence = .cached e) (hentry : s.entry e = .valid v)
    (hown : v.channel = c) : s.writeCell c cell =
      (((s.setEntry e (.valid { v with
        ctx := (v.ctx.written cell.valid (v.ctx.offset.toNat + cell.valid.length) (growLast cell.valid.length)).advanceSeq cell
        dirty := true, changed := true })).requestWrite .dlv v.ctx.tailAddr cell.valid (.payload c false)).setOp c
        (some (.write cell none (some .ok)))) := by
  have hmod : (s.modContext c fun x => (x.written cell.valid (x.offset.toNat + cell.valid.length)
      (growLast cell.valid.length)).advanceSeq cell) = _ :=
    State.modContext_of_ne hres hentry hown (Context.advanceSeq_written_ne _ _ _ _ _)
  rw [State.writeCell, State.context_of_valid hres hentry hown]
  dsimp only
  rw [hmod]

/-- The write of a cell that needed a further buffer: as one request if the last buffer was exactly full, and as two
otherwise (R47, R148). -/
theorem State.writeFurther_of_valid (hres : (s.chan c).residence = .cached e) (hentry : s.entry e = .valid v)
    (hown : v.channel = c) (b : Buffer) : s.writeFurther c cell b =
      let n := (s.pool (s.chan c).pool).bufSize - v.ctx.offset.toNat
      let t := s.setEntry e (.valid { v with
        ctx := (v.ctx.written cell.valid (cell.valid.drop n).length fun bs =>
          growLast n bs ++ [{ b with used := BitVec.ofNat 16 (cell.valid.drop n).length }]).advanceSeq cell
        dirty := true, changed := true })
      if n = 0 then
        (t.requestWrite .dlv b.addr (cell.valid.drop n) (.payload c false)).setOp c
          (some (.write cell none (some .ok)))
      else
        ((t.requestWrite .dlv v.ctx.tailAddr (cell.valid.take n) (.payload c false)).requestWrite .dlv b.addr
          (cell.valid.drop n) (.payload c true)).setOp c (some (.write cell none none)) := by
  have hmod : ∀ n : Nat, (s.modContext c fun x => (x.written cell.valid (cell.valid.drop n).length fun bs =>
      growLast n bs ++ [{ b with used := BitVec.ofNat 16 (cell.valid.drop n).length }]).advanceSeq cell) = _ :=
    fun n => State.modContext_of_ne hres hentry hown (Context.advanceSeq_written_ne _ _ _ _ _)
  rw [State.writeFurther, State.context_of_valid hres hentry hown]
  dsimp only
  rw [hmod]

end Write

/-! ### The answers to a write (R48, R49, R148) -/

section Answers

variable {s : State} {c : Chan} {cell : Cell}

/-- The first half of a split write that is answered waits for the other (R148). -/
theorem State.payloadAnswered_of_none_answered (hop : (s.chan c).op = some (.write cell none none)) (second : Bool)
    (a : Answer) : s.payloadAnswered c second a = s.onChan c fun ch =>
      { ch with op := some (if second then .write cell none (some a) else .write cell (some a) none) } := by
  rw [State.payloadAnswered, hop]
  cases second <;> rfl

theorem combined_comm_ok (a b : Answer) : combined a b = .ok ↔ a = .ok ∧ b = .ok := by
  rw [combined]
  split <;> simp [*]

/-- The answer that completes a write, the other half's answer or its absence standing in the operation (R148). -/
theorem State.payloadAnswered_of_other {second : Bool} {other : Answer}
    (hop : (s.chan c).op = some (if second then .write cell (some other) none else .write cell none (some other)))
    (a : Answer) :
    s.payloadAnswered c second a = s.writeAnswered c cell (if second then combined other a else combined a other) := by
  cases second <;>
  · rw [State.payloadAnswered, hop]
    rfl

theorem State.writeAnswered_of_not_inUse (h : ¬ (s.chan c).InUse) (a : Answer) :
    s.writeAnswered c cell a = s.undo c := by
  rw [State.writeAnswered, (Channel.not_uses_iff _).1 h, if_neg Bool.false_ne_true]

theorem State.writeAnswered_of_inUse (h : (s.chan c).InUse) (hreset : (s.chan c).poolReset = false) (a : Answer) :
    s.writeAnswered c cell a =
      if a = .ok then
        match s.context c with
        | some x =>
          if cell.kind = .mgmtRsp then s.beginClose c .ok (.cell cell)
          else if cell.ends then s.beginClose c (finishStatus x) (.cell cell)
          else s.setOp c none
        | none => s
      else s.beginClose c .memerr (.cell cell) := by
  rw [State.writeAnswered, if_pos ((Channel.uses_iff _).2 h), hreset, if_neg Bool.false_ne_true] <;> rfl

/-- A write outstanding when the pool faulted is ignored, and the message state is then dropped (R59). -/
theorem State.writeAnswered_of_poolReset (h : (s.chan c).InUse) (hreset : (s.chan c).poolReset = true) (a : Answer) :
    s.writeAnswered c cell a = (s.setOp c none).dropIfDue c := by
  rw [State.writeAnswered, if_pos ((Channel.uses_iff _).2 h), if_pos hreset]

/-- The message state of a cached channel with nothing outstanding is dropped at once (R59, R79). -/
theorem State.dropIfDue_of_valid {e : EntryId} {v : ValidEntry} (hres : (s.chan c).residence = .cached e)
    (hentry : s.entry e = .valid v) (hop : (s.chan c).op = none) (hreset : (s.chan c).poolReset = true) :
    s.dropIfDue c = (s.onChan c fun ch => { ch with poolReset := false }).setEntry e
      (.valid { v with ctx := v.ctx.dropMessage, dirty := true, changed := true }) := by
  have hcached : (s.chan c).isCached = true := (Channel.isCached_iff _).2 ⟨e, hres⟩
  have hwaiting : (s.chan c).waiting = false := (Channel.waiting_eq_false_iff _).2 hop
  rw [State.dropIfDue, hreset, hcached, hwaiting]
  refine (if_pos rfl).trans ?_
  rw [State.dropMessage]
  simp only [State.onChan_chan_self, State.onChan_entry, hres, hentry]

theorem Cell.ends_iff (cell : Cell) : cell.ends = true ↔ cell.position = .last ∨ cell.position = .only := by
  simp [Cell.ends]

theorem Cell.not_ends_iff (cell : Cell) : ¬ (cell.position = .last ∨ cell.position = .only) ↔ cell.ends = false := by
  rw [← cell.ends_iff, Bool.not_eq_true]

end Answers

/-- Settles O26: the cell's bytes go out as one request or two, and a first half that is answered waits. -/
theorem cellIsWrittenInTheLastBuffer : Obligations.CellIsWrittenInTheLastBuffer := by
  refine ⟨fun s c cell e v bs b hres hentry hown hbufs hkind hbytes => ?one,
    fun s c cell e v bs b cookie addr hres hentry hown hbufs hdata hmore hop huse hn => ?further,
    fun s c cell a hop => ⟨State.payloadAnswered_of_none_answered hop false a, State.payloadAnswered_of_none_answered hop true a⟩⟩
  case one =>
    rw [State.writeCell_of_valid hres hentry hown, Context.advanceSeq_written, hbufs, growLast_append,
      Context.tailAddr_of_buffers hbufs]
    rfl
  case further =>
    rw [State.takeGiven_of_inUse hop huse, if_neg Bool.false_ne_true, State.writeFurther_of_valid hres hentry hown]
    simp only [Context.advanceSeq_written, hbufs, growLast_append, if_pos (And.intro hdata hmore),
      Context.tailAddr_of_buffers hbufs, List.length_drop, List.append_assoc]
    refine ⟨fun hzero => ?_, fun hpos => ?_⟩
    · rw [if_pos hzero, hzero, List.drop_zero]
      rfl
    · rw [if_neg hpos]
      rfl

/-- Settles O27: the answer of the whole write, of a channel in use and of one that is FAULTED by then. -/
theorem answeredWriteGoesOnOrFinishes : Obligations.AnsweredWriteGoesOnOrFinishes := by
  refine ⟨fun s c cell x second other hop huse hctx => ?used, fun s c cell second other a hop huse => ?gone⟩
  case gone =>
    rw [State.payloadAnswered_of_other hop, State.writeAnswered_of_not_inUse huse, State.undo_of_cell hop]
    cases second <;> rfl
  case used =>
    have hwhole : ∀ a, (if second then combined other a else combined a other) = .ok ↔ a = .ok ∧ other = .ok := by
      intro a
      cases second <;> simp [combined_comm_ok, and_comm]
    have hfinish (hreset : (s.chan c).poolReset = false) (hother : other = .ok) : s.payloadAnswered c second .ok =
        if cell.kind = .mgmtRsp then s.beginClose c .ok (.cell cell)
        else if cell.ends then s.beginClose c (finishStatus x) (.cell cell)
        else s.setOp c none := by
      rw [State.payloadAnswered_of_other hop, (hwhole _).2 ⟨rfl, hother⟩,
        State.writeAnswered_of_inUse huse hreset, if_pos rfl, hctx]
    intro last
    refine ⟨fun hreset hother hdata => ?data, fun hreset hother hrsp => ?response, fun a hreset hbad => ?failed,
      fun a e v hreset hres hentry => ?dropped⟩
    case data =>
      rw [hfinish hreset hother, if_neg (by rw [hdata]; exact nofun)]
      refine ⟨fun hnot => ?_, fun hlast hrunt => ?_, fun hlast hlen hcrc => ?_, fun hlast hlen hcrc => ?_⟩
      · rw [(cell.not_ends_iff).1 hnot, if_neg Bool.false_ne_true]
        rfl
      · rw [if_pos (cell.ends_iff.2 hlast), finishStatus, if_pos hrunt]
      · rw [if_pos (cell.ends_iff.2 hlast), finishStatus, if_neg (Nat.not_lt.2 hlen), if_pos (c := x.crc ≠ crcResidue) hcrc]
      · rw [if_pos (cell.ends_iff.2 hlast), finishStatus, if_neg (Nat.not_lt.2 hlen),
          if_neg (c := x.crc ≠ crcResidue) (not_not.2 hcrc)]
    case response => rw [hfinish hreset hother, if_pos hrsp]
    case failed =>
      rw [State.payloadAnswered_of_other hop, State.writeAnswered_of_inUse huse hreset,
        if_neg fun h => hbad.elim (· ((hwhole a).1 h).1) (· ((hwhole a).1 h).2)]
    case dropped =>
      rw [State.payloadAnswered_of_other hop, State.writeAnswered_of_poolReset huse hreset,
        State.dropIfDue_of_valid (s := s.setOp c none) (e := e) (v := v) (by simpa [State.setOp] using hres) hentry
          (by simp [State.setOp]) (by simpa [State.setOp] using hreset)]
      exact congrArg (State.setEntry · e _) (s.onChan_onChan c _ _)

end Sys2Proof.Machine
end

section
/-! The engine: the close of a message, the pending abort, the deadline and the work of an unbind. -/

namespace Sys2Proof.Machine

/-! ### The close of a message (R50) -/

section Close

variable {s : State} {c : Chan} {status : RxStatus} {cause : CloseCause}

theorem State.beginClose_of_context {x : Context} (h : s.context c = some x) : s.beginClose c status cause =
    (s.askPool c (.complete c (completionRecord status c x.buffers (closeLength x status cause) (closeCells x cause)
      s.ma.nodeTime))).setOp c (some (.close status cause)) := by
  rw [State.beginClose, h]

/-- A close that no response cell causes carries the length and the count of the stream (R50). -/
theorem closeLength_and_cells_of_stream (x : Context) (status : RxStatus)
    (h : ∀ cell, cause = .cell cell → cell.kind ≠ .mgmtRsp) :
    closeLength x status cause = (if status = .ok then x.bytesSoFar.toNat - 4 else x.bytesSoFar.toNat) ∧
      closeCells x cause = (x.bytesSoFar.toNat + 39) / 40 := by
  cases cause with
  | cell cell => exact ⟨if_neg (h cell rfl), if_neg fun hrsp => h cell rfl hrsp.1⟩
  | _ => exact ⟨rfl, rfl⟩

/-- A close of a response cell carries its fill, and one cell at least (R52). -/
theorem closeLength_and_cells_of_response (x : Context) (status : RxStatus) {cell : Cell} (h : cell.kind = .mgmtRsp) :
    closeLength x status (.cell cell) = cell.fill.toNat ∧
      closeCells x (.cell cell) = if cell.fill = 0 then 1 else (x.bytesSoFar.toNat + 39) / 40 :=
  ⟨if_pos h, if_congr (and_iff_right h) rfl rfl⟩

section Finished

variable (hop : (s.chan c).op = some (.close status cause))
include hop

theorem State.closeFinished_of_inUse (h : (s.chan c).InUse) : s.closeFinished c =
    let t := (s.onChan c fun ch => { ch with msgOpen := false, op := none }).modContext c fun x => x.closed status
    match cause with
    | .cell _ => t
    | .resume cell => t.startCell c cell
    | .abort => t.onChan c fun ch => { ch with pendingAbort := .none }
    | .owner => t := by
  simp only [State.closeFinished, hop, (Channel.uses_iff _).2 h, if_true]
  cases cause <;> rfl

theorem State.closeFinished_of_not_inUse (h : ¬ (s.chan c).InUse) : s.closeFinished c = s.undo c := by
  simp only [State.closeFinished, hop, (Channel.not_uses_iff _).1 h, Bool.false_eq_true, if_false]

end Finished

end Close

/-- Settles O29: the record of a close, and what its answer makes of the channel. -/
theorem closeWritesACompletionAndEmptiesTheContext : Obligations.CloseWritesACompletionAndEmptiesTheContext := by
  refine ⟨fun s c x status cause hctx => ?begins, fun s c status cause hop huse => ?finished,
    fun s c status cause hop huse => ?gone⟩
  case begins =>
    intro record asked cells
    have hasked : ∀ length cells, closeLength x status cause = length → closeCells x cause = cells →
        s.beginClose c status cause = asked length cells := by
      rintro _ _ rfl rfl
      exact State.beginClose_of_context hctx
    refine ⟨fun h => ?_, fun cell h hrsp => ?_⟩
    · obtain ⟨hlength, hcells⟩ := closeLength_and_cells_of_stream x status h
      exact hasked _ _ hlength hcells
    · subst h
      obtain ⟨hlength, hcells⟩ := closeLength_and_cells_of_response x status hrsp
      exact hasked _ _ hlength hcells
  case finished =>
    rw [State.closeFinished_of_inUse hop huse]
    intro t
    refine ⟨fun h => ?_, fun h => ?_, fun cell h => ?_⟩
    · obtain ⟨cell, rfl⟩ | rfl := h <;> rfl
    · subst h
      rfl
    · subst h
      rfl
  case gone =>
    rw [State.closeFinished_of_not_inUse hop huse, State.undo, hop]
    cases cause <;> rfl

/-! ### The pending abort and the deadline (R38, R53) -/

section Due

variable {s : State} {c : Chan}

theorem State.expired_iff (s : State) (c : Chan) : s.expired c = true ↔ (s.chan c).msgOpen = true ∧
    (s.chan c).limit ≠ 0 ∧ (s.ma.nodeTime - (s.chan c).deadline).msb = false := by
  simp [State.expired, reached, and_assoc]

theorem State.applyAbort_of_ready (hwait : s.ma.state ≠ .resetWait) (hready : s.ready c = true) : s.applyAbort c =
    match (s.chan c).pendingAbort with
    | .none => s
    | .holdfull =>
      if ((s.touch c).chan c).msgOpen then (s.touch c).beginClose c .holdfull .abort
      else (s.touch c).onChan c fun ch => { ch with pendingAbort := .none }
    | .timeout =>
      if (s.touch c).expired c then (s.touch c).beginClose c .timeout .abort
      else (s.touch c).onChan c fun ch => { ch with pendingAbort := .none } := by
  rw [State.applyAbort, State.halted_of_ne hwait, hready]
  rfl

/-- The scanner looks at a channel once in a tick, and acts if it is BOUND and expired. -/
theorem State.scanChannel_of_open (hwait : s.ma.state ≠ .resetWait) (hrun : s.ma.nodeState = .running)
    (hopen : s.re.scanOpen = true) (hnew : c ∉ s.re.scanned) : s.scanChannel c =
      let t := s.onRe fun re => { re with scanned := c :: re.scanned }
      if (s.chan c).binding = .bound ∧ s.expired c = true then t.deadlineFound c else t := by
  rw [State.scanChannel, State.halted_of_ne hwait, hopen, hrun, if_neg (by simpa using hnew)]
  rfl

theorem State.deadlineFound_of_ready (h : s.ready c = true) (habort : (s.chan c).pendingAbort = .none) :
    s.deadlineFound c = s.beginClose c .timeout .owner := by
  rw [State.deadlineFound, if_pos h]
  exact if_pos habort

theorem State.deadlineFound_of_not_ready (h : s.ready c = false) (habort : (s.chan c).pendingAbort = .none) :
    s.deadlineFound c =
      let t := s.onChan c fun ch => { ch with pendingAbort := .timeout }
      if (s.chan c).residence = .stored then t.fetchRequest c else t := by
  rw [State.deadlineFound, h, if_neg Bool.false_ne_true]
  dsimp only
  rw [if_pos habort]

theorem State.not_ready_of_stored (h : (s.chan c).residence = .stored) : s.ready c = false := by
  rw [← Bool.not_eq_true, s.ready_iff]
  rintro ⟨-, ⟨e, he⟩, -⟩
  rw [h] at he
  cases he

/-- With an abort due already, an expired channel is fetched for if it is STORED, and left alone otherwise. -/
theorem State.deadlineFound_of_abort (habort : (s.chan c).pendingAbort ≠ .none) :
    s.deadlineFound c = if (s.chan c).residence = .stored then s.fetchRequest c else s := by
  rw [State.deadlineFound]
  dsimp only
  rw [if_neg habort, if_neg habort]
  split
  case isTrue h => rw [if_neg fun hres => by rw [State.not_ready_of_stored hres] at h; cases h]
  case isFalse => rfl

end Due

/-- Settles O30: the abort of a ready channel, by its kind. -/
theorem pendingAbortIsApplied : Obligations.PendingAbortIsApplied := by
  intro s c e v hreset hwait hready hres hentry t cleared due
  have hexec : exec (.applyPendingAbort c) s = .next ((s.applyAbort c).settle s) := State.next_of_not_inReset hreset
  have htouch : s.touch c = t := State.touch_of_valid hres hentry
  have hdue : t.expired c = true ↔ due := s.expired_iff c
  rw [hexec, State.applyAbort_of_ready hwait hready, htouch]
  refine ⟨fun h => ?_, fun h hexp => ?_, fun h hexp => ?_⟩
  · rw [h]
    rfl
  · rw [h]
    dsimp only
    rw [if_pos (hdue.2 hexp)]
  · rw [h]
    dsimp only
    rw [if_neg (mt hdue.1 hexp)]

/-- Settles O31: the scan of an expired channel, ready or not, with an abort due already or not. -/
theorem expiredMessageTimesOut : Obligations.ExpiredMessageTimesOut := by
  intro s c hreset hwait hrun hopen hnew t due
  have hexec : exec (.deadlineReached c) s = .next ((s.scanChannel c).settle s) := State.next_of_not_inReset hreset
  have hdue : due ↔ (s.chan c).binding = .bound ∧ s.expired c = true := and_congr_right fun _ => (s.expired_iff c).symm
  have hfound (h : due) : s.scanChannel c = t.deadlineFound c := by
    rw [State.scanChannel_of_open hwait hrun hopen hnew]
    exact if_pos (hdue.1 h)
  have hready : t.ready c = s.ready c := rfl
  rw [hexec]
  refine ⟨fun h => ?_, fun h hr habort => ?_, fun h hr habort hres => ?_, fun h hr habort hres => ?_,
    fun h habort hres => ?_, fun h habort hres => ?_⟩
  · rw [State.scanChannel_of_open hwait hrun hopen hnew]
    dsimp only
    rw [if_neg (mt hdue.2 h)]
    rfl
  all_goals rw [hfound h]
  · rw [State.deadlineFound_of_ready (s := t) hr habort]
  · rw [State.deadlineFound_of_not_ready (s := t) hr habort]
    exact congrArg (fun u => Host.Outcome.next (State.settle u s)) (if_neg hres)
  · rw [State.deadlineFound_of_not_ready (s := t) hr habort]
    exact congrArg (fun u => Host.Outcome.next (State.settle u s)) (if_pos hres)
  · rw [State.deadlineFound_of_abort (s := t) habort]
    exact congrArg (fun u => Host.Outcome.next (State.settle u s)) (if_neg hres)
  · rw [State.deadlineFound_of_abort (s := t) habort]
    exact congrArg (fun u => Host.Outcome.next (State.settle u s)) (if_pos hres)

/-! ### The work of an unbind (R56, R57, R80) -/

section Unbind

variable {s : State} {c : Chan}

theorem State.owedWork_of_closeOwed (hop : (s.chan c).op = none) (h : s.closeOwed c = true) : s.owedWork c =
    match (s.chan c).residence with
    | .cached _ =>
      if (s.pool (s.chan c).pool).state = .active then
        (s.touch c).beginClose c (if (s.chan c).binding = .unbinding then .unbound else .stopped) .owner
      else s
    | .stored => s.fetchRequest c
    | .fetching => s
    | .writeback => s := by
  rw [State.owedWork, (Channel.waiting_eq_false_iff _).2 hop, h]
  rfl

theorem State.owedWork_of_unbinding (hop : (s.chan c).op = none) (h : s.closeOwed c = false)
    (hbinding : (s.chan c).binding = .unbinding) : s.owedWork c =
      match (s.chan c).residence with
      | .cached e => s.freeEntry e
      | .stored => s
      | .fetching => s
      | .writeback => s := by
  rw [State.owedWork, (Channel.waiting_eq_false_iff _).2 hop, h, hbinding]
  rfl

theorem State.closeOwed_of_unbinding (h : (s.chan c).binding = .unbinding) : s.closeOwed c = (s.chan c).msgOpen := by
  simp [State.closeOwed, h]

theorem State.freeEntry_of_clean {e : EntryId} {v : ValidEntry} (h : s.entry e = .valid v) (hclean : v.dirty = false) :
    s.freeEntry e = s.evictClean e v.channel := by
  rw [State.freeEntry, h]
  dsimp only
  rw [hclean, if_neg Bool.false_ne_true]

theorem State.freeEntry_of_dirty {e : EntryId} {v : ValidEntry} (h : s.entry e = .valid v) (hdirty : v.dirty = true) :
    s.freeEntry e = s.startWriteBack e v.channel v.ctx none := by
  rw [State.freeEntry, h]
  dsimp only
  rw [if_pos hdirty]

theorem State.unbindReady_iff (s : State) (c : Chan) : s.unbindReady c = true ↔ (s.chan c).binding = .unbinding ∧
    (s.chan c).msgOpen = false ∧ (s.chan c).op = none ∧ (s.chan c).residence = .stored := by
  simp [State.unbindReady, Channel.waiting_eq_false_iff, and_assoc]

theorem exec_channelUnbound_of_not_inReset (hreset : s.inReset = false) (hwait : s.ma.state ≠ .resetWait) (c : Chan) :
    exec (.channelUnbound c) s = .next (State.settle
      (if s.unbindReady c then (s.becomeUnbound c).finishLong codeUnbindChannel .ok [] else s) s) := by
  refine (State.next_of_not_inReset hreset).trans ?_
  dsimp only
  rw [State.halted_of_ne hwait]
  cases s.unbindReady c <;> rfl

end Unbind

/-- Settles O32: the end of an unbind by the residence, and its work by the message and the entry. -/
theorem finishedUnbindMakesTheChannelUnbound : Obligations.FinishedUnbindMakesTheChannelUnbound := by
  refine ⟨fun s c hreset hwait hbinding hopen hop => ?ends, fun s c hbinding hop => ⟨fun hopen => ?closes, fun hopen => ?frees⟩⟩
  case ends =>
    intro unbound
    rw [exec_channelUnbound_of_not_inReset hreset hwait]
    have hready (hres : (s.chan c).residence = .stored) := (s.unbindReady_iff c).2 ⟨hbinding, hopen, hop, hres⟩
    refine ⟨fun cmd hres hstate hcode => ?_, fun hres hnone => ?_, fun hres => ?_⟩
    · rw [if_pos (hready hres), State.finishLong_of_working (code := codeUnbindChannel) (s.becomeUnbound c) hstate hcode]
      rfl
    · rw [if_pos (hready hres), State.finishLong_of_none (code := codeUnbindChannel) (s.becomeUnbound c) hnone]
      rfl
    · have hnot : ¬ s.unbindReady c = true := fun h => by
        obtain ⟨-, -, -, hstored⟩ := (s.unbindReady_iff c).1 h
        exact hres hstored
      rw [if_neg hnot]
  case closes =>
    have howed : s.closeOwed c = true := (State.closeOwed_of_unbinding hbinding).trans hopen
    rw [State.owedWork_of_closeOwed hop howed]
    refine ⟨fun hres => by rw [hres], fun e v hres hentry => ?_⟩
    rw [hres, State.touch_of_valid hres hentry]
    refine ⟨fun hactive => ?_, fun hactive => if_neg hactive⟩
    rw [if_pos hbinding]
    exact if_pos hactive
  case frees =>
    intro e v hres hentry hown left
    have howed : s.closeOwed c = false := (State.closeOwed_of_unbinding hbinding).trans hopen
    rw [State.owedWork_of_unbinding hop howed hbinding, hres]
    refine ⟨fun hclean => ?_, fun hdirty => ?_⟩
    · exact (State.freeEntry_of_clean hentry hclean).trans (by rw [hown]; rfl)
    · exact (State.freeEntry_of_dirty hentry hdirty).trans (by rw [hown]; rfl)

end Sys2Proof.Machine
end

section
/-! The Delivery Unit: reserves, takes, completion writes and pool faults. -/

namespace Sys2Proof.Machine

/-! ### The head of a pool's requests (R91) -/

theorem State.onPool_onPool (s : State) (p : PoolId) (f g : Pool → Pool) :
    (s.onPool p f).onPool p g = s.onPool p fun x => g (f x) :=
  congrArg (fun v => { s with du := v }) (tmod_tmod s.du p f g)

section Head

variable {s : State} {p : PoolId} {c : Chan} {rest : List DuRequest}

theorem State.headRequest_of_cons {r : DuRequest} (hwait : s.ma.state ≠ .resetWait) (hnone : (s.pool p).access = none)
    (h : (s.pool p).requests = r :: rest) : s.headRequest p = some r := by
  rw [State.headRequest, State.halted_of_ne hwait, hnone, h]
  rfl

theorem State.popRequest_of_cons {r : DuRequest} (h : (s.pool p).requests = r :: rest) :
    s.popRequest p = s.onPool p fun x => { x with requests := rest } :=
  s.onPool_congr (congrArg (fun l => { s.pool p with requests := l }) (by rw [h, List.tail_cons]))

variable (hreset : s.inReset = false) (hwait : s.ma.state ≠ .resetWait) (hnone : (s.pool p).access = none)
include hreset hwait hnone

theorem exec_reserve_of_head (h : (s.pool p).requests = .reserve c :: rest) : exec (.reserve p) s =
    .next (((s.onPool p fun x => { x with requests := rest }).takeReserve p c).settle s) := by
  refine (State.next_of_not_inReset hreset).trans ?_
  dsimp only
  rw [State.headRequest_of_cons hwait hnone h, State.popRequest_of_cons h]

theorem exec_take_of_head (h : (s.pool p).requests = .take c :: rest) : exec (.take p) s =
    .next (((s.onPool p fun x => { x with requests := rest }).takeTake p c).settle s) := by
  refine (State.next_of_not_inReset hreset).trans ?_
  dsimp only
  rw [State.headRequest_of_cons hwait hnone h, State.popRequest_of_cons h]

theorem exec_completionWrite_of_head {record : List Byte} (h : (s.pool p).requests = .complete c record :: rest) :
    exec (.completionWrite p) s =
      .next (((s.onPool p fun x => { x with requests := rest }).takeComplete p c record).settle s) := by
  refine (State.next_of_not_inReset hreset).trans ?_
  dsimp only
  rw [State.headRequest_of_cons hwait hnone h, State.popRequest_of_cons h]

end Head

/-! ### The requests (R93, R100, R102, R106) -/

section Requests

variable {s : State} {p : PoolId} {c : Chan}

theorem State.takeReserve_of_active (h : (s.pool p).state = .active) : s.takeReserve p c =
    if (s.pool p).reserved < (s.pool p).knownFree then s.grantReserve p 0 c
    else if (s.pool p).knownFree = (s.pool p).complSize then s.reserveRefused c
    else (s.setAccess p (some (.ownerRead c))).requestRead .dlv
      (addrAt (s.pool p).complBase (64 * ringPos (s.pool p).complSize (s.pool p).writePos (s.pool p).knownFree)) 1
      (.pool p) :=
  if_neg (not_not.2 h)

theorem State.takeReserve_of_not_active (h : (s.pool p).state ≠ .active) :
    s.takeReserve p c = s.poolFaultAnswered c := if_pos h

theorem State.takeTake_of_active (h : (s.pool p).state = .active) : s.takeTake p c = s.readFree p c 0 :=
  if_neg (not_not.2 h)

theorem State.takeTake_of_not_active (h : (s.pool p).state ≠ .active) : s.takeTake p c = s.poolFaultAnswered c := if_pos h

theorem State.takeComplete_of_active {record : List Byte} (h : (s.pool p).state = .active) :
    s.takeComplete p c record =
      if (s.chan c).uses then (s.setAccess p (some (.recordWrite c))).requestWrite .dlv
        (addrAt (s.pool p).complBase (64 * (s.pool p).writePos)) record (.pool p)
      else s.undo c :=
  if_neg (not_not.2 h)

theorem State.takeComplete_of_not_active {record : List Byte} (h : (s.pool p).state ≠ .active) :
    s.takeComplete p c record = s.poolFaultAnswered c := if_pos h

end Requests

/-! ### The answers (R93 to R95, R100, R104, R105) -/

section Answers

variable {s : State} {p : PoolId} {c : Chan}

theorem State.give_pool (hwait : s.ma.state ≠ .resetWait) (p : PoolId) (a : Answer) (bytes : List Byte) :
    s.give (.pool p) a bytes = s.poolAnswered p a bytes := by
  unfold State.give
  rw [State.halted_of_ne hwait]
  rfl

theorem State.poolAnswered_ownerRead (h : (s.pool p).access = some (.ownerRead c)) (bytes : List Byte) :
    s.poolAnswered p .ok bytes =
      if byteAt bytes 0 = 1 then (s.setAccess p none).grantReserve p 1 c else (s.setAccess p none).reserveRefused c := by
  rw [State.poolAnswered, h]
  exact if_neg (not_not.2 rfl)

theorem State.poolAnswered_freeRead {n : Nat} (h : (s.pool p).access = some (.freeRead c n)) (bytes : List Byte) :
    s.poolAnswered p .ok bytes = (s.setAccess p none).examineFree p c n bytes := by
  rw [State.poolAnswered, h]
  exact if_neg (not_not.2 rfl)

theorem State.poolAnswered_freeTaken {cookie addr : Word} (h : (s.pool p).access = some (.freeTaken c cookie addr))
    (bytes : List Byte) : s.poolAnswered p .ok bytes = ((s.setAccess p none).advanceFree p).takeGiven c cookie addr := by
  rw [State.poolAnswered, h]
  exact if_neg (not_not.2 rfl)

theorem State.poolAnswered_freeRejected {n d : Nat} (h : (s.pool p).access = some (.freeRejected c n d))
    (bytes : List Byte) : s.poolAnswered p .ok bytes = (s.setAccess p none).rejected p c n d := by
  rw [State.poolAnswered, h]
  exact if_neg (not_not.2 rfl)

theorem State.poolAnswered_recordWrite (h : (s.pool p).access = some (.recordWrite c)) (bytes : List Byte) :
    s.poolAnswered p .ok bytes = (s.setAccess p none).recordWritten p c := by
  rw [State.poolAnswered, h]
  exact if_neg (not_not.2 rfl)

/-- A buffer's address is put to the two tests of R94, in their order. -/
theorem State.examineFree_of_device {n : Nat} {bytes : List Byte} (h : byteAt bytes 0 = 1) :
    s.examineFree p c n bytes =
      if (wordAt bytes 4).toNat % 64 ≠ 0 then s.writeFree p 1 (.freeRejected c (n + 1) 1)
      else if 0x100000000 < (wordAt bytes 4).toNat + (s.pool p).bufSize then s.writeFree p 1 (.freeRejected c (n + 1) 2)
      else s.writeFree p 0 (.freeTaken c (wordAt bytes 8) (wordAt bytes 4)) := by
  rw [State.examineFree, if_neg (not_not.2 h)]
  simp only [aligned, regionFits, beq_eq_false_iff_ne, decide_eq_false_iff_not, Nat.not_le]

/-- An access of a pool that sets the access field after another update of it. -/
theorem State.setAccess_setAccess (s : State) (p : PoolId) (a b : Option DuAccess) :
    (s.setAccess p a).setAccess p b = s.setAccess p b := s.onPool_onPool p _ _

/-- The write of a descriptor that is decided on as its read is answered. -/
theorem State.writeFree_setAccess (s : State) (p : PoolId) (status : Byte) (a : DuAccess) :
    (s.setAccess p none).writeFree p status a = (s.onPool p fun x => { x with access := some a }).requestWrite .dlv
      ((s.pool p).freeBase + BitVec.ofNat 32 (16 * (s.pool p).freePos)) [0, status] (.pool p) := by
  rw [State.writeFree, State.setAccess_setAccess]
  simp only [State.setAccess, State.onPool_pool_self]
  rfl

/-- An event looks at no pool. -/
theorem State.raise_onPool (s : State) (p : PoolId) (f : Pool → Pool) (k : EventKind) (x d : Nat) (w : Word) :
    (s.onPool p f).raise k x d w = (s.raise k x d w).onPool p f := by
  unfold State.raise
  simp only [apply_ite (fun t : State => t.onPool p f)]
  rfl

theorem State.raise_pool (s : State) (p : PoolId) (k : EventKind) (x d : Nat) (w : Word) :
    (s.raise k x d w).pool p = s.pool p := congrArg (fun du => tget du p) (s.raise_du ..)

/-- A rejected descriptor has been written: what the take does at the next one (R94, R95). -/
theorem State.rejected_eq (s : State) (p : PoolId) (c : Chan) (n d : Nat) : s.rejected p c n d =
    let x := s.pool p
    let raised := (s.advanceFree p).raise .freeRejected p.val d (BitVec.ofNat 32 x.freePos)
    if x.freeSize ≤ n then raised.takeNone c
    else (raised.setAccess p (some (.freeRead c n))).requestRead .dlv
      (addrAt x.freeBase (16 * ringPos x.freeSize x.freePos 1)) 12 (.pool p) := by
  unfold State.rejected State.readFree
  simp only [State.raise_pool, State.advanceFree, State.onPool_pool_self]

end Answers

/-- Settles O33: the reserve by the pool's state and counts, and the owner byte that was read for one. -/
theorem reserveCountsCompletionSlots : Obligations.ReserveCountsCompletionSlots := by
  intro s p c rest hreset hwait hnone hreq x t
  rw [exec_reserve_of_head hreset hwait hnone hreq]
  have hx : t.pool p = { x with requests := rest } := s.onPool_pool_self p _
  refine ⟨fun hactive hlt => ?granted, fun hactive hle hfull => ?refused, fun hactive hle hnotFull => ?reads,
    fun hfaulted => ?faulted, fun u bytes hwait haccess howner => ?device, fun u bytes hwait haccess howner => ?host⟩
  case granted =>
    rw [State.takeReserve_of_active (s := t) (by rw [hx]; exact hactive), hx, if_pos hlt]
    rfl
  case refused =>
    rw [State.takeReserve_of_active (s := t) (by rw [hx]; exact hactive), hx, if_neg (Nat.not_lt.2 hle), if_pos hfull]
  case reads =>
    rw [State.takeReserve_of_active (s := t) (by rw [hx]; exact hactive), hx, if_neg (Nat.not_lt.2 hle),
      if_neg hnotFull]
    rfl
  case faulted => rw [State.takeReserve_of_not_active (s := t) (by rw [hx]; exact hfaulted)]
  case device =>
    rw [State.give_pool hwait, State.poolAnswered_ownerRead haccess, if_pos howner]
    exact congrArg (State.reserveGranted · c) (u.onPool_onPool p (fun x => { x with access := none })
      fun x => { x with knownFree := x.knownFree + 1, reserved := x.reserved + 1 })
  case host => rw [State.give_pool hwait, State.poolAnswered_ownerRead haccess, if_neg howner]; rfl

/-- Settles O34: the request, the descriptor's read, the two writes, and what follows each. -/
theorem takeReadsTheFreeDescriptor : Obligations.TakeReadsTheFreeDescriptor := by
  refine ⟨fun s p c rest hreset hwait hnone hreq => ⟨fun hactive => ?reads, fun hfaulted => ?faulted⟩,
    fun s p c n bytes hwait haccess => ?examined, fun s p c cookie addr hwait haccess => ?taken,
    fun s p c n detail hwait haccess => ?rejected⟩
  case reads =>
    have hx := s.onPool_pool_self p fun x => { x with requests := rest }
    rw [exec_take_of_head hreset hwait hnone hreq, State.takeTake_of_active (by rw [hx]; exact hactive), State.readFree,
      hx, State.setAccess, State.onPool_onPool]
    rfl
  case faulted =>
    have hx := s.onPool_pool_self p fun x => { x with requests := rest }
    rw [exec_take_of_head hreset hwait hnone hreq, State.takeTake_of_not_active (by rw [hx]; exact hfaulted)]
  case examined =>
    intro x addr written
    rw [State.give_pool hwait, State.poolAnswered_freeRead haccess]
    have hbuf : ((s.setAccess p none).pool p).bufSize = x.bufSize := by
      rw [State.setAccess, State.onPool_pool_self]
    refine ⟨fun howner => if_pos howner, fun howner halign => ?_, fun howner halign hfits => ?_,
      fun howner halign hfits => ?_⟩
    all_goals rw [State.examineFree_of_device howner]
    · rw [if_pos halign]
      exact State.writeFree_setAccess ..
    · rw [if_neg (not_not.2 halign), hbuf, if_pos hfits]
      exact State.writeFree_setAccess ..
    · rw [if_neg (not_not.2 halign), hbuf, if_neg (Nat.not_lt.2 hfits)]
      exact State.writeFree_setAccess ..
  case taken =>
    rw [State.give_pool hwait, State.poolAnswered_freeTaken haccess]
    exact congrArg (State.takeGiven · c cookie addr) (s.onPool_onPool p (fun x => { x with access := none })
      fun x => { x with freePos := ringPos x.freeSize x.freePos 1 })
  case rejected =>
    intro x next raised
    have hx : (s.setAccess p none).pool p = { x with access := none } := s.onPool_pool_self p _
    have hraised : ((s.setAccess p none).advanceFree p).raise .freeRejected p.val detail (BitVec.ofNat 32 x.freePos) =
        raised none :=
      congrArg (State.raise · _ _ _ _) (s.onPool_onPool p (fun x => { x with access := none })
        fun x => { x with freePos := ringPos x.freeSize x.freePos 1 })
    have hagain : (raised none).setAccess p (some (.freeRead c n)) = raised (some (.freeRead c n)) := by
      rw [State.setAccess, ← State.raise_onPool, State.onPool_onPool]
    rw [State.give_pool hwait, State.poolAnswered_freeRejected haccess, State.rejected_eq, hx]
    dsimp only
    rw [hraised, hagain]
    exact ⟨fun hmore => if_neg (Nat.not_le.2 hmore), fun hend => if_pos hend⟩

/-- LINT is asserted if this is asked for. -/
theorem State.assertLint_if (s : State) (b : Bool) :
    (if b then s.assertLint else s) = { s with ew := { s.ew with lint := s.ew.lint || b } } := by
  cases b with
  | true => rw [Bool.or_true]; rfl
  | false => rw [Bool.or_false]; rfl

/-- A record has been written, of a channel in use or of one that is FAULTED by then (R102, R104). -/
theorem State.recordWritten_setAccess (s : State) (p : PoolId) (c : Chan) : (s.setAccess p none).recordWritten p c =
    State.closeFinished (State.onPool { s with ew := { s.ew with lint := s.ew.lint || (s.pool p).notify } } p fun x =>
      { x with access := none, writePos := (x.writePos + 1) % x.complSize, knownFree := x.knownFree - 1
               reserved := x.reservedAfter (s.chan c).uses }) c := by
  rw [State.recordWritten]
  refine congrArg (State.closeFinished · c) ((State.assertLint_if _ _).trans ?_)
  rw [State.setAccess, State.onPool_onPool, State.onPool_pool_self]
  rfl

/-- Settles O35: the request by the pool's state, and the record that was written. -/
theorem completionIsWrittenAtWritePos : Obligations.CompletionIsWrittenAtWritePos := by
  refine ⟨fun s p c record rest hreset hwait hnone hreq => ?request, fun s p c hwait haccess => ?written⟩
  case request =>
    intro t
    have hx : t.pool p = { s.pool p with requests := rest } := s.onPool_pool_self p _
    rw [exec_completionWrite_of_head hreset hwait hnone hreq]
    refine ⟨fun hactive huse => ?_, fun hfaulted => ?_, fun status cause hactive huse hop => ?_⟩
    · rw [State.takeComplete_of_active (s := t) (by rw [hx]; exact hactive), hx]
      exact congrArg (fun u => Host.Outcome.next (State.settle u s)) (if_pos ((Channel.uses_iff _).2 huse))
    · rw [State.takeComplete_of_not_active (s := t) (by rw [hx]; exact hfaulted)]
    · rw [State.takeComplete_of_active (s := t) (by rw [hx]; exact hactive),
        if_neg (fun h => huse ((Channel.uses_iff (t.chan c)).1 h)), State.undo, show (t.chan c).op = _ from hop]
      cases cause <;> rfl
  case written =>
    rw [State.give_pool hwait, State.poolAnswered_recordWrite haccess, State.recordWritten_setAccess]
    refine ⟨fun huse => ?_, fun huse => ?_⟩
    · rw [(Channel.uses_iff _).2 huse]
      exact congrArg (State.closeFinished · c) (State.onPool_congr _ rfl)
    · rw [(Channel.not_uses_iff _).1 huse]
      exact congrArg (State.closeFinished · c) (State.onPool_congr _ rfl)

end Sys2Proof.Machine
end

section
/-! A pool fault: what it does to the pool, to the channels that use it, and to the requests it answers. -/

namespace Sys2Proof.Machine

/-! ### The drop of the open-message state (R59) -/

/-- The channel's drop is due and can be made at once. -/
def Channel.dropsNow (ch : Channel) : Bool := ch.poolReset && ch.isCached && !ch.waiting

/-- The channel after its drop, if that is made. -/
def Channel.afterDrop (ch : Channel) : Channel := if ch.dropsNow then { ch with poolReset := false } else ch

/-- A VALID entry after the drop of its context's open-message state. -/
def CacheEntry.dropped : CacheEntry → CacheEntry
  | .valid v => .valid { v with ctx := v.ctx.dropMessage, dirty := true, changed := true }
  | x => x

theorem Channel.dropsNow_iff (ch : Channel) : ch.dropsNow = true ↔ ch.poolReset = true ∧
    (∃ e, ch.residence = .cached e) ∧ ch.op = none := by
  simp [Channel.dropsNow, Channel.isCached_iff, Channel.waiting_eq_false_iff, and_assoc]

@[simp] theorem Channel.afterDrop_afterDrop (ch : Channel) : ch.afterDrop.afterDrop = ch.afterDrop := by
  unfold Channel.afterDrop
  cases h : ch.dropsNow with
  | false => simp [h]
  | true => simp [Channel.dropsNow]

theorem CacheEntry.dropped_dropped (x : CacheEntry) : x.dropped.dropped = x.dropped := by cases x <;> rfl

section Drop

variable (s : State) (c : Chan)

theorem State.dropIfDue_of_due (h : (s.chan c).dropsNow = true) : s.dropIfDue c = s.dropMessage c := if_pos h

theorem State.dropIfDue_of_not_due (h : (s.chan c).dropsNow = false) : s.dropIfDue c = s :=
  if_neg (by rw [← Channel.dropsNow, h]; exact Bool.false_ne_true)

/-- A drop changes the channel's entry of the table, and puts the channel's own cache entry at most. -/
theorem State.dropMessage_cases : s.dropMessage c = (s.onChan c fun ch => { ch with poolReset := false }) ∨
    ∃ e x, s.dropMessage c = (s.onChan c fun ch => { ch with poolReset := false }).setEntry e x := by
  unfold State.dropMessage
  dsimp only
  split
  · split
    · exact .inr ⟨_, _, rfl⟩
    all_goals exact .inl rfl
  all_goals exact .inl rfl

/-- What looks at neither the channel table nor the cache entries is the same after a drop. -/
theorem State.dropIfDue_same {α : Sort*} {g : State → α} (hchan : ∀ t f, g (State.onChan t c f) = g t)
    (hentry : ∀ t e x, g (State.setEntry t e x) = g t) : g (s.dropIfDue c) = g s := by
  rw [State.dropIfDue]
  split
  · obtain h | ⟨e, x, h⟩ := s.dropMessage_cases c
    · rw [h, hchan]
    · rw [h, hentry, hchan]
  · rfl

theorem State.dropIfDue_chan (d : Chan) :
    (s.dropIfDue c).chan d = if c = d then (s.chan d).afterDrop else s.chan d := by
  cases h : (s.chan c).dropsNow with
  | false =>
    rw [State.dropIfDue_of_not_due s c h]
    split
    case isTrue hd =>
      subst hd
      simp [Channel.afterDrop, h]
    case isFalse => rfl
  | true =>
    have hchan : (s.dropMessage c).chan d = (s.onChan c fun ch => { ch with poolReset := false }).chan d := by
      obtain h | ⟨e, x, h⟩ := s.dropMessage_cases c <;> rw [h]
      rfl
    rw [State.dropIfDue_of_due s c h, hchan, State.onChan_chan]
    split
    case isTrue hd =>
      subst hd
      simp [Channel.afterDrop, h]
    case isFalse => rfl

theorem State.dropMessage_entry (e : EntryId) : (s.dropMessage c).entry e =
    if (s.chan c).residence = .cached e then (s.entry e).dropped else s.entry e := by
  unfold State.dropMessage
  simp only [State.onChan_chan_self, State.onChan_entry]
  split
  case h_1 d hres =>
    rw [hres]
    by_cases hd : d = e
    · subst hd
      rw [if_pos rfl]
      split
      case h_1 v hv => simp [hv, CacheEntry.dropped]
      all_goals next hv => simp [hv, CacheEntry.dropped]
    · rw [if_neg fun h => hd (Residence.cached.inj h)]
      split
      case h_1 => rw [State.setEntry_entry, if_neg hd]; rfl
      all_goals rfl
  all_goals next hres => rw [hres, if_neg nofun]; rfl

theorem State.dropIfDue_entry (e : EntryId) : (s.dropIfDue c).entry e =
    if (s.chan c).dropsNow = true ∧ (s.chan c).residence = .cached e then (s.entry e).dropped else s.entry e := by
  cases h : (s.chan c).dropsNow with
  | false => rw [State.dropIfDue_of_not_due s c h, if_neg (by simp)]
  | true => rw [State.dropIfDue_of_due s c h, State.dropMessage_entry]; simp

end Drop

section Drops

/-- What every step of a sequence keeps is kept. -/
theorem foldl_same {α β γ : Type*} {f : α → β → α} {g : α → γ} (h : ∀ a b, g (f a b) = g a) (l : List β) (a : α) :
    g (l.foldl f a) = g a := by
  induction l generalizing a with
  | nil => rfl
  | cons b l ih => rw [List.foldl_cons, ih, h]

/-- The drops of some channels, each of which is made if it is due. -/
def State.dropAll (s : State) (l : List Chan) : State := l.foldl State.dropIfDue s

theorem State.dropAll_chan (l : List Chan) (d : Chan) : ∀ s : State,
    (s.dropAll l).chan d = if d ∈ l then (s.chan d).afterDrop else s.chan d := by
  induction l with
  | nil => exact fun s => rfl
  | cons c l ih =>
    intro s
    refine (ih (s.dropIfDue c)).trans ?_
    rw [State.dropIfDue_chan]
    by_cases hc : c = d
    · subst hc
      simp
    · have hd : ¬ d = c := fun h => hc h.symm
      simp [hc, hd]

/-- An entry that has been dropped stays so. -/
theorem State.dropAll_entry_of_dropped {x : CacheEntry} (l : List Chan) (e : EntryId) : ∀ s : State,
    s.entry e = x.dropped → (s.dropAll l).entry e = x.dropped := by
  induction l with
  | nil => exact fun s h => h
  | cons c l ih =>
    refine fun s h => ih (s.dropIfDue c) ?_
    rw [State.dropIfDue_entry, h, x.dropped_dropped, ite_self]

/-- The entry that a channel's drop is due in is dropped, whatever other channels are said to reside in it. -/
theorem State.dropAll_entry_of_mem {c : Chan} {e : EntryId} (l : List Chan) : ∀ s : State, c ∈ l →
    (s.chan c).dropsNow = true → (s.chan c).residence = .cached e → (s.dropAll l).entry e = (s.entry e).dropped := by
  induction l with
  | nil => exact fun s hc => absurd hc List.not_mem_nil
  | cons d l ih =>
    intro s hc hdue hres
    have hfirst := s.dropIfDue_entry d e
    by_cases hd : (s.chan d).dropsNow = true ∧ (s.chan d).residence = .cached e
    · rw [if_pos hd] at hfirst
      exact State.dropAll_entry_of_dropped l e _ hfirst
    · rw [if_neg hd] at hfirst
      have hne : d ≠ c := by
        rintro rfl
        exact hd ⟨hdue, hres⟩
      have hsame : (s.dropIfDue d).chan c = s.chan c := by rw [State.dropIfDue_chan, if_neg hne]
      rw [← hfirst]
      exact ih _ ((List.mem_cons.1 hc).resolve_left (Ne.symm hne)) (by rw [hsame]; exact hdue) (by rw [hsame]; exact hres)

end Drops

/-! ### The channels of a faulted pool (R59) -/

section Fault

variable (s : State) (p : PoolId)

/-- The channels of a faulted pool before any drop: their held cells gone, no open message and no pending abort. -/
def State.poolFaultMarks (s : State) (p : PoolId) : State :=
  ((s.onCounters fun k => { k with poolDiscards := k.poolDiscards + s.heldCount (s.usesPool p) }).dropHeld
    (s.usesPool p)).onRe fun re => { re with channels := re.channels.map fun ch =>
      if ch.uses && ch.pool == p then { ch with msgOpen := false, poolReset := true, pendingAbort := .none } else ch }

theorem State.poolFaultChannels_eq : s.poolFaultChannels p = (s.poolFaultMarks p).dropAll (allOf 256) := rfl

theorem State.poolFaultMarks_chan (c : Chan) : (s.poolFaultMarks p).chan c =
    if s.usesPool p c = true then { s.chan c with msgOpen := false, poolReset := true, pendingAbort := .none }
    else s.chan c := tget_map _ _ _

theorem State.poolFaultChannels_chan (c : Chan) :
    (s.poolFaultChannels p).chan c = ((s.poolFaultMarks p).chan c).afterDrop := by
  rw [State.poolFaultChannels_eq, State.dropAll_chan, if_pos (mem_allOf c)]

/-- What looks at neither the channel table nor the cache entries is left by the drops. -/
theorem State.poolFaultChannels_same {α : Type*} {g : State → α} (hchan : ∀ t c f, g (State.onChan t c f) = g t)
    (hentry : ∀ t e x, g (State.setEntry t e x) = g t) : g (s.poolFaultChannels p) = g (s.poolFaultMarks p) :=
  foldl_same (fun t c => State.dropIfDue_same t c (fun t f => hchan t c f) hentry) _ _

theorem State.poolFaultChannels_hold :
    (s.poolFaultChannels p).re.hold = s.re.hold.filter fun h => !s.usesPool p h.channel := by
  rw [State.poolFaultChannels_same s p (g := fun u => u.re.hold) (fun _ _ _ => rfl) fun _ _ _ => rfl]
  rfl

theorem State.poolFaultChannels_counters : (s.poolFaultChannels p).counters =
    { s.counters with poolDiscards := s.counters.poolDiscards + s.heldCount (s.usesPool p) } := by
  rw [State.poolFaultChannels_same s p (g := State.counters) (fun _ _ _ => rfl) fun _ _ _ => rfl]
  rfl

theorem State.poolFaultChannels_entry {c : Chan} {e : EntryId} (hdue : ((s.poolFaultMarks p).chan c).dropsNow = true)
    (hres : ((s.poolFaultMarks p).chan c).residence = .cached e) :
    (s.poolFaultChannels p).entry e = (s.entry e).dropped := by
  rw [State.poolFaultChannels_eq, State.dropAll_entry_of_mem _ _ (mem_allOf c) hdue hres]
  rfl

end Fault

/-! ### The answer of a request with a pool fault (R51, R59, R61) -/

/-- How many cells an operation carries: one or none. -/
theorem opHasCell_some (op : ChanOp) : (if opHasCell (some op) then 1 else 0 : Word) = match op with
    | .reserve _ => 1
    | .take _ _ => 1
    | .write _ _ _ => 1
    | .close _ (.cell _) => 1
    | .close _ (.resume _) => 1
    | .close _ .abort => 0
    | .close _ .owner => 0 := by
  cases op with
  | close status cause => cases cause <;> rfl
  | _ => rfl

section Answer

variable {s : State} {c : Chan}

theorem State.poolFaultAnswered_of_inUse (h : (s.chan c).InUse) : s.poolFaultAnswered c =
    ((s.onCounters fun k => { k with poolDiscards := k.poolDiscards + if opHasCell (s.chan c).op then 1 else 0 }).setOp
      c none).dropIfDue c := if_pos ((Channel.uses_iff _).2 h)

theorem State.poolFaultAnswered_of_not_inUse (h : ¬ (s.chan c).InUse) : s.poolFaultAnswered c = s.undo c :=
  if_neg fun huse => h ((Channel.uses_iff _).1 huse)

end Answer

/-- Settles O36: the fault by the access that failed, what it makes of the channels, and a request it answers. -/
theorem failedPoolAccessFaultsThePool : Obligations.FailedPoolAccessFaultsThePool := by
  refine ⟨fun s p c a bytes detail hwait ha haccess => ?faults, fun s p => ?channels, fun s c op hop => ?answered⟩
  case faults =>
    have hpool : s.poolAnswered p a bytes = (s.setAccess p none).poolFault p c detail a := by
      rw [State.poolAnswered]
      obtain ⟨n, h, rfl⟩ | ⟨k, addr, h, rfl⟩ | ⟨n, d, h, rfl⟩ | ⟨h, rfl⟩ | ⟨h, rfl⟩ := haccess <;>
      · rw [h]
        exact if_pos ha
    have haux : a.aux = if a = .timeout then 1 else 0 := by cases a <;> rfl
    rw [State.give_pool hwait, hpool, State.poolFault, State.setAccess, State.onPool_onPool, State.onPool_pool_self, haux]
  case channels =>
    intro t hit now
    have ht : t = s.poolFaultChannels p := rfl
    have hhit : ∀ c, s.usesPool p c = hit c := fun c => rfl
    have hmarks : ∀ c, hit c = true → (s.poolFaultMarks p).chan c = { s.chan c with
        msgOpen := false, poolReset := true, pendingAbort := .none } := fun c h => by
      rw [State.poolFaultMarks_chan, hhit, if_pos h]
    have hnow : ∀ c, hit c = true → (((s.poolFaultMarks p).chan c).dropsNow = true ↔ now c) := fun c h => by
      rw [hmarks c h, Channel.dropsNow_iff]
      exact ⟨fun ⟨_, hres, hop⟩ => ⟨hop, hres⟩, fun ⟨hop, hres⟩ => ⟨rfl, hres, hop⟩⟩
    refine ⟨?hold, ?counters, fun c h hnot => ?stays, fun c h hdue => ?drops, fun c e v h hop hres hentry => ?entry,
      fun c h hreset => ?other⟩
    case hold => simp only [ht, s.poolFaultChannels_hold p, hhit]
    case counters => exact s.poolFaultChannels_counters p
    case stays =>
      rw [State.poolFaultChannels_chan, Channel.afterDrop, if_neg (mt (hnow c h).1 hnot), hmarks c h]
    case drops =>
      rw [State.poolFaultChannels_chan, Channel.afterDrop, if_pos ((hnow c h).2 hdue), hmarks c h]
    case entry =>
      have hdropped : t.entry e = (s.entry e).dropped :=
        s.poolFaultChannels_entry p ((hnow c h).2 ⟨hop, e, hres⟩) (by rw [hmarks c h]; exact hres)
      rw [hdropped, hentry]
      rfl
    case other =>
      have hleft : (s.poolFaultMarks p).chan c = s.chan c := by
        rw [State.poolFaultMarks_chan, hhit, if_neg (by rw [h]; exact Bool.false_ne_true)]
      rw [State.poolFaultChannels_chan, hleft, Channel.afterDrop, Channel.dropsNow, hreset]
      rfl
  case answered =>
    intro carried discarded uses
    have hcarried : (if opHasCell (s.chan c).op then 1 else 0 : Word) = carried := by
      rw [hop]
      exact opHasCell_some op
    have hdiscard : (s.onCounters fun k => { k with
        poolDiscards := k.poolDiscards + if opHasCell (s.chan c).op then 1 else 0 }) = discarded := by rw [hcarried]; rfl
    refine ⟨fun huse hleft => ?_, fun e v huse hreset hres hentry => ?_, fun huse => ?_⟩
    · rw [State.poolFaultAnswered_of_inUse huse, hdiscard]
      refine State.dropIfDue_of_not_due _ _ ?_
      rw [State.setOp, State.onChan_chan_self, ← Bool.not_eq_true, Channel.dropsNow_iff]
      rintro ⟨hreset, ⟨e, he⟩, -⟩
      exact hleft.elim (fun hfalse => by rw [show (s.chan c).poolReset = true from hreset] at hfalse; cases hfalse) (· e he)
    · rw [State.poolFaultAnswered_of_inUse huse, hdiscard,
        State.dropIfDue_of_valid (s := discarded.setOp c none) (e := e) (v := v) (by rw [State.setOp, State.onChan_chan_self]; exact hres) hentry
          (by simp [State.setOp]) (by rw [State.setOp, State.onChan_chan_self]; exact hreset)]
      exact congrArg (State.setEntry · e _) (discarded.onChan_onChan c _ _)
    · rw [State.poolFaultAnswered_of_not_inUse huse, State.undo, hcarried]
      rfl

end Sys2Proof.Machine
end

section
/-! The context cache: fetch requests, the Fetch Wait List, fills and write-backs. -/

namespace Sys2Proof.Machine

/-! ### The use of an entry (R68 to R70) -/

section Use

variable {s : State} {e : EntryId} {c : Chan}

theorem State.startFill_of_fresh (h : (s.chan c).fresh = true) : s.startFill e c = s.installFresh e c := if_pos h

theorem State.startFill_of_not_fresh (h : (s.chan c).fresh = false) : s.startFill e c =
    (s.setEntry e (.filling c)).requestRead .ctx (s.xc.storeBase + BitVec.ofNat 32 (128 * c.val)) 112 (.fill e c) :=
  if_neg (by rw [h]; exact Bool.false_ne_true)

theorem State.useEntry_of_free (h : s.entry e = .free) : s.useEntry e c = (s.reside c .fetching).startFill e c := by
  rw [State.useEntry]
  have hsame : (s.reside c .fetching).entry e = .free := h
  rw [hsame]

theorem State.useEntry_of_clean {v : ValidEntry} (h : s.entry e = .valid v) (hclean : v.dirty = false) :
    s.useEntry e c = ((s.reside c .fetching).evictClean e v.channel).startFill e c := by
  have hsame : (s.reside c .fetching).entry e = .valid v := h
  rw [State.useEntry, hsame]
  dsimp only
  rw [hclean, if_neg Bool.false_ne_true]

theorem State.useEntry_of_dirty {v : ValidEntry} (h : s.entry e = .valid v) (hdirty : v.dirty = true) :
    s.useEntry e c = (s.reside c .fetching).startWriteBack e v.channel v.ctx (some c) := by
  have hsame : (s.reside c .fetching).entry e = .valid v := h
  rw [State.useEntry, hsame]
  dsimp only
  rw [if_pos hdirty]

theorem State.evictClean_chan_of_ne {d : Chan} (h : d ≠ c) : (s.evictClean e d).chan c = s.chan c :=
  (State.onChan_chan ..).trans (if_neg h)

end Use

/-! ### Fetch requests and the Fetch Wait List (R66, R72, R73) -/

section Fetch

variable {s : State} {c : Chan}

theorem State.fetchRequest_of_not_inUse (h : ¬ (s.chan c).InUse) : s.fetchRequest c = s :=
  if_neg fun huse => h ((Channel.uses_iff _).1 huse)

theorem State.fetchRequest_of_inUse (h : (s.chan c).InUse) : s.fetchRequest c =
    match (s.chan c).residence with
    | .fetching => s
    | .cached _ => s
    | .writeback => s.noteFetch c
    | .stored =>
      if s.xc.waitList.contains c then s
      else if !s.xc.waitList.isEmpty then s.joinWaitList c
      else
        match s.chooseEntry with
        | some e => s.useEntry e c
        | none => s.joinWaitList c :=
  if_pos ((Channel.uses_iff _).2 h)

/-- A STORED channel that is not on the list joins it, or obtains an entry if it is empty. -/
theorem State.fetchRequest_of_stored (h : (s.chan c).InUse) (hres : (s.chan c).residence = .stored)
    (hnew : c ∉ s.xc.waitList) : s.fetchRequest c =
      if !s.xc.waitList.isEmpty then s.joinWaitList c
      else
        match s.chooseEntry with
        | some e => s.useEntry e c
        | none => s.joinWaitList c := by
  rw [State.fetchRequest_of_inUse h, hres]
  exact if_neg fun hmem => hnew (List.contains_iff_mem.1 hmem)

theorem State.holds_iff (s : State) (c : Chan) : s.holds c = true ↔ ∃ h ∈ s.re.hold, h.channel = c := by
  simp [State.holds, List.any_eq_true]

theorem State.readAwaits_iff (s : State) (c : Chan) : s.readAwaits c = true ↔
    ∃ r, s.xc.ctxRead = some r ∧ r.channel = c ∧ r.stage = .fill := by
  rw [State.readAwaits]
  split
  case h_1 r hr => simp [hr]
  case h_2 hr => simp [hr]

theorem State.needsContext_iff (s : State) (c : Chan) : s.needsContext c = true ↔ (s.chan c).InUse ∧
    ((∃ h ∈ s.re.hold, h.channel = c) ∨ (s.chan c).pendingAbort ≠ .none ∨ (s.chan c).msgOpen = true ∨
      ∃ r, s.xc.ctxRead = some r ∧ r.channel = c ∧ r.stage = .fill) := by
  simp only [State.needsContext, Bool.and_eq_true, Bool.or_eq_true, Channel.uses_iff, s.holds_iff, s.readAwaits_iff,
    bne_iff_ne, or_assoc]

theorem State.serveWaitList_of_nil (h : s.xc.waitList = []) (n : Nat) : s.serveWaitList n = s := by
  cases n with
  | zero => rfl
  | succ n => rw [State.serveWaitList, h]

theorem State.serveWaitList_of_cons {rest : List Chan} (h : s.xc.waitList = c :: rest) (n : Nat) :
    s.serveWaitList (n + 1) =
      match s.chooseEntry with
      | some e =>
        if s.needsContext c then (s.popWaitList.useEntry e c).serveWaitList n else s.popWaitList.serveWaitList n
      | none => s := by
  rw [State.serveWaitList, h] <;> rfl

theorem State.available_iff (s : State) (e : EntryId) :
    s.available e = true ↔ s.entry e = .free ∨ s.eligible e = true := by
  rw [State.available, Bool.or_eq_true, s.isFree_iff]

theorem State.freed_iff (s before : State) : ((allOf 16).any fun e => s.available e && !before.available e) = true ↔
    ∃ e, (s.entry e = .free ∨ s.eligible e = true) ∧ ¬ (before.entry e = .free ∨ before.eligible e = true) := by
  simp only [List.any_eq_true, mem_allOf, true_and, Bool.and_eq_true, Bool.not_eq_true', ← Bool.not_eq_true,
    State.available_iff]

end Fetch

/-- Settles O38: the entry by its state, the request by the residence, the list by its head, and when it is served. -/
theorem chosenEntryIsUsedByItsState : Obligations.ChosenEntryIsUsedByItsState := by
  refine ⟨fun s e c => ?used, fun s c => ?requested, fun s n => ⟨fun h => State.serveWaitList_of_nil h n, fun c rest hlist => ?served⟩,
    fun s before => ?freed⟩
  case used =>
    intro fetching filled evicted
    have hfresh : (fetching.chan c).fresh = (s.chan c).fresh := by
      rw [State.onChan_chan_self]
    have hevicted : ∀ d, fetching.evictClean e d = evicted d := fun d => rfl
    have hleft : ∀ d, d ≠ c → ((evicted d).chan c).fresh = (s.chan c).fresh := fun d hd =>
      (congrArg Channel.fresh (State.evictClean_chan_of_ne (s := fetching) (e := e) hd)).trans hfresh
    refine ⟨fun h hf => ?_, fun h hf => ?_, fun v h hclean hne => ⟨fun hf => ?_, fun hf => ?_⟩, fun v h hdirty hne => ?_⟩
    · rw [State.useEntry_of_free h]
      exact State.startFill_of_not_fresh (s := fetching) (hfresh.trans hf)
    · rw [State.useEntry_of_free h]
      exact State.startFill_of_fresh (s := fetching) (hfresh.trans hf)
    · rw [State.useEntry_of_clean h hclean]
      exact State.startFill_of_not_fresh (s := evicted v.channel) ((hleft _ hne).trans hf)
    · rw [State.useEntry_of_clean h hclean]
      exact State.startFill_of_fresh (s := evicted v.channel) ((hleft _ hne).trans hf)
    · rw [State.useEntry_of_dirty h hdirty]
      rfl
  case requested =>
    intro uses r joined
    refine ⟨fun h => ?nothing, fun huse hr => ?noted, fun huse hr hnew hlist => ?joins, fun huse hr hlist => ?obtains⟩
    case nothing =>
      by_cases huse : uses
      · rw [State.fetchRequest_of_inUse huse]
        obtain hunused | hr | ⟨e, hr⟩ | ⟨hr, hmem⟩ := h
        · exact absurd huse hunused
        · rw [show (s.chan c).residence = _ from hr]
        · rw [show (s.chan c).residence = _ from hr]
        · rw [show (s.chan c).residence = _ from hr]
          exact if_pos (List.contains_iff_mem.2 hmem)
      · exact State.fetchRequest_of_not_inUse huse
    case noted =>
      rw [State.fetchRequest_of_inUse huse, show (s.chan c).residence = _ from hr]
      rfl
    case joins =>
      rw [State.fetchRequest_of_stored huse hr hnew, if_pos (by simpa using hlist)]
      rfl
    case obtains =>
      rw [State.fetchRequest_of_stored huse hr (by rw [hlist]; exact List.not_mem_nil), if_neg (by simp [hlist])]
      exact ⟨fun e he => by rw [he], fun hnone => by rw [hnone]; rfl⟩
  case served =>
    intro popped needs
    have hpop : s.popWaitList = popped := by rw [State.popWaitList, State.onXc, hlist]; rfl
    have hneeds : s.needsContext c = true ↔ needs := s.needsContext_iff c
    rw [State.serveWaitList_of_cons hlist, hpop]
    refine ⟨fun hnone => by rw [hnone], fun e hn he => ?_, fun e hn he => ?_⟩
    · rw [he]
      exact if_neg (mt hneeds.1 hn)
    · rw [he]
      exact if_pos (hneeds.2 hn)
  case freed =>
    exact ⟨fun h => if_pos ((s.freed_iff before).2 h), fun h => if_neg fun hfreed => by
      obtain ⟨e, hnow, hbefore⟩ := (s.freed_iff before).1 hfreed
      exact hbefore (h e hnow)⟩

/-! ### Fills (R69, R76 to R78) -/

section Fill

variable {s : State} {e : EntryId} {c : Chan}

theorem State.give_fill (hwait : s.ma.state ≠ .resetWait) (e : EntryId) (c : Chan) (a : Answer) (bytes : List Byte) :
    s.give (.fill e c) a bytes = s.fillAnswered e c a bytes := by
  unfold State.give
  rw [State.halted_of_ne hwait]
  rfl

theorem State.give_writeBack (hwait : s.ma.state ≠ .resetWait) (e : EntryId) (c : Chan) (a : Answer)
    (bytes : List Byte) : s.give (.writeBack e c) a bytes = s.writeBackAnswered e c a := by
  unfold State.give
  rw [State.halted_of_ne hwait]
  rfl

/-- The image as the check sees it: its open-message state dropped if poolreset is yes (R59). -/
def Image.seen (i : Image) (poolReset : Bool) : Image := if poolReset then i.dropMessage else i

theorem State.fillAnswered_ok (h : s.entry e = .filling c) (bytes : List Byte) : s.fillAnswered e c .ok bytes =
    let image := (Image.ofBytes bytes).seen (s.chan c).poolReset
    let t := s.onChan c fun ch => { ch with poolReset := false }
    match image.failedTest (s.chan c).msgOpen (s.pool (s.chan c).pool).bufSize with
    | some n => (t.setEntry e .free).channelFault c 3 (BitVec.ofNat 32 n)
    | none => t.install e c image.context (s.chan c).poolReset := by
  rw [State.fillAnswered, if_pos h, if_pos rfl]
  rfl

theorem State.fillAnswered_failed (h : s.entry e = .filling c) {a : Answer} (ha : a ≠ .ok) (bytes : List Byte) :
    s.fillAnswered e c a bytes = (s.setEntry e .free).channelFault c 1 a.aux := by
  rw [State.fillAnswered, if_pos h, if_neg ha]

theorem Answer.aux_eq (a : Answer) : a.aux = if a = .timeout then 1 else 0 := by cases a <;> rfl

theorem Image.state_eq (i : Image) :
    i.state = if i.discard = true then .discarding else if i.count ≠ 0 then .assembling else .idle := by
  rw [Image.state]
  split
  · rfl
  · rw [ite_not]

/-- The seven tests of the consistency check, in words of the image (R77). -/
theorem Image.failedTest_eq (i : Image) (msgOpen : Bool) (bufSize : Nat) : i.failedTest msgOpen bufSize =
    if 8 < i.count.toNat then some 1
    else if i.discard = true ∧ i.count ≠ 0 then some 2
    else if i.bytesSoFar ≠ 0 ∧ i.count = 0 then some 3
    else if bufSize < i.offset.toNat then some 4
    else if 15 < i.expectedSeq.toNat then some 5
    else if i.state = .assembling ∧ msgOpen = false then some 6
    else if i.state ≠ .assembling ∧ msgOpen = true then some 7
    else none := by
  simp only [Image.failedTest, Bool.and_eq_true, bne_iff_ne, beq_iff_eq, Bool.not_eq_true']

end Fill

/-! ### The installed context (R67, R69, R70, R86) -/

section Install

variable {s : State} {c : Chan} {x : Context}

theorem State.contextArrived_of_not_awaiting (h : ∀ r, s.xc.ctxRead = some r → r.channel ≠ c ∨ r.stage ≠ .fill) :
    s.contextArrived c x = s := by
  rw [State.contextArrived, State.awaiting]
  split
  case h_2 => rfl
  case h_1 part hpart =>
    split at hpart
    case h_2 => cases hpart
    case h_1 r hr =>
      rw [if_neg fun hboth => (h r hr).elim (· hboth.1) (· hboth.2)] at hpart
      cases hpart

theorem State.contextArrived_of_awaiting {part : Fin 4}
    (h : s.xc.ctxRead = some { channel := c, part, stage := .fill }) : s.contextArrived c x =
      (s.onXc fun xc => { xc with ctxRead := none }).finishLong codeReadContext .ok (imagePart x.image part) := by
  rw [State.contextArrived, State.awaiting, h]
  simp

theorem State.hasWork_iff (s : State) (c : Chan) : s.hasWork c = true ↔
    (s.chan c).pendingAbort ≠ .none ∨ (∃ h ∈ s.re.hold, h.channel = c) ∨ ((s.chan c).msgOpen = true ∧
      ((s.chan c).binding = .unbinding ∨ ((s.chan c).binding = .bound ∧ s.ma.nodeState = .stopping))) := by
  simp only [State.hasWork, State.closeOwed, Bool.or_eq_true, Bool.and_eq_true, bne_iff_ne, beq_iff_eq, s.holds_iff,
    or_assoc]

end Install

/-! ### Write-backs (R71, R82) -/

section WriteBack

variable {s : State} {e : EntryId} {c : Chan} {claimant : Option Chan} {note : Bool}

theorem State.writeBackAnswered_ok (h : s.entry e = .writing c claimant note) : s.writeBackAnswered e c .ok =
    let t := (s.reside c .stored).contextStored c .writeBack
    if t.holds c || note then t.refetchAndPass e c claimant else t.passToClaimant e claimant := by
  rw [State.writeBackAnswered, h]
  exact (if_pos rfl).trans (if_pos rfl)

theorem State.writeBackAnswered_failed (h : s.entry e = .writing c claimant note) {a : Answer} (ha : a ≠ .ok) :
    s.writeBackAnswered e c a =
      ((s.channelFault c 2 a.aux).contextStored c .writeBack).passToClaimant e claimant := by
  rw [State.writeBackAnswered, h]
  exact (if_pos rfl).trans (if_neg ha)

theorem State.contextStored_re (s : State) (c : Chan) (stage : CtxReadStage) : (s.contextStored c stage).re = s.re :=
  State.contextStored_same (g := State.re) s c stage fun _ => rfl

end WriteBack

/-- Settles O39: the answer of a fill, the installed context, a fresh one, the answer of a write-back, and the
READ_CONTEXT that awaited either. -/
theorem filledImageIsCheckedAndInstalled : Obligations.FilledImageIsCheckedAndInstalled := by
  refine ⟨fun s e c a bytes hwait hentry => ?fill, fun s e c x dirty => ?install,
    fun s e c => ⟨rfl, State.startFill_of_fresh, State.startFill_of_not_fresh⟩,
    fun s e c claimant note hwait hentry => ?writeBack,
    fun s c stage => ⟨s.contextStored_of_not_awaiting, fun part h => (s.contextStored_of_awaiting h).trans rfl⟩⟩
  case fill =>
    intro image seen t state test
    have hseen : (Image.ofBytes bytes).seen (s.chan c).poolReset = seen := rfl
    have htest : seen.failedTest (s.chan c).msgOpen (s.pool (s.chan c).pool).bufSize = test := by
      rw [Image.failedTest_eq, Image.state_eq]
    rw [State.give_fill hwait]
    refine ⟨fun ha hpass => ?_, fun n ha hfail => ?_, fun ha => ?_⟩
    · rw [ha, State.fillAnswered_ok hentry, hseen]
      dsimp only
      rw [htest, hpass]
    · rw [ha, State.fillAnswered_ok hentry, hseen]
      dsimp only
      rw [htest, hfail]
    · rw [State.fillAnswered_failed hentry ha, a.aux_eq]
  case install =>
    intro work
    refine ⟨s.hasWork c, s.hasWork_iff c, ?_⟩
    intro t
    have hinstall : s.install e c x dirty = t.contextArrived c x := rfl
    rw [hinstall]
    refine ⟨fun h => State.contextArrived_of_not_awaiting (s := t) h, fun part cmd h hstate hcode => ?_,
      fun part h hnone => ?_⟩
    · rw [State.contextArrived_of_awaiting (s := t) h]
      exact State.finishLong_of_working (code := codeReadContext) (t.onXc fun xc => { xc with ctxRead := none }) hstate hcode _ _
    · rw [State.contextArrived_of_awaiting (s := t) h]
      exact State.finishLong_of_none (code := codeReadContext) (t.onXc fun xc => { xc with ctxRead := none }) hnone _ _
  case writeBack =>
    intro stored asks seen left
    have hre : (seen stored).re = stored.re := State.contextStored_re stored c .writeBack
    have hasks : ((seen stored).holds c || note) = true ↔ asks := by
      have hholds : (seen stored).holds c = s.holds c := by
        rw [State.holds, hre]
        rfl
      rw [hholds, Bool.or_eq_true, s.holds_iff, or_comm]
    have hok : s.writeBackAnswered e c .ok =
        if (seen stored).holds c || note then (seen stored).refetchAndPass e c claimant else left (seen stored) :=
      State.writeBackAnswered_ok hentry
    have hfresh : ∀ d, ((seen stored).chan d).fresh = (s.chan d).fresh := fun d => by
      have hchan : (seen stored).chan d = stored.chan d := by
        rw [State.chan, hre]
        rfl
      rw [hchan, State.onChan_chan]
      split <;> rfl
    refine ⟨fun hnot => ?_, fun hask hfirst => ?_, fun d hask hd hnot => ?_, fun a ha => ?_⟩
    · rw [State.give_writeBack hwait, hok, if_neg (mt hasks.1 hnot)]
    · rw [State.give_writeBack hwait, hok, if_pos (hasks.2 hask)]
      obtain rfl | ⟨d, rfl, hd⟩ := hfirst
      · rfl
      · exact if_pos ((hfresh d).trans hd)
    · subst hd
      rw [State.give_writeBack hwait, hok, if_pos (hasks.2 hask)]
      exact if_neg (by rw [hfresh, hnot]; exact Bool.false_ne_true)
    · rw [State.give_writeBack hwait, State.writeBackAnswered_failed hentry ha, a.aux_eq]
      rfl

end Sys2Proof.Machine
end

section
/-! The Segmentation Unit: polls, the head descriptor, and the lock of its slot. -/

namespace Sys2Proof.Machine

/-! ### The poll of the rings (R113, R114) -/

section Tables

/-- One update of each of some entries. -/
theorem tget_foldl_tmod {α : Type} {n : Nat} (f : α → α) {l : List (Fin n)} (hl : l.Nodup) (i : Fin n) :
    ∀ v : Vector α n, tget (l.foldl (fun v i => tmod v i f) v) i = if i ∈ l then f (tget v i) else tget v i := by
  induction l with
  | nil => exact fun v => rfl
  | cons j l ih =>
    intro v
    obtain ⟨hj, hl⟩ := List.nodup_cons.1 hl
    rw [List.foldl_cons, ih hl, tget_tmod]
    by_cases hij : j = i
    · subst hij
      simp [hj]
    · have hij' : ¬ i = j := fun h => hij h.symm
      simp [hij, hij']

/-- One update of every entry is a map. -/
theorem foldl_tmod_allOf {α : Type} {n : Nat} (f : α → α) (v : Vector α n) :
    (allOf n).foldl (fun v i => tmod v i f) v = v.map f := by
  refine Vector.ext fun i hi => ?_
  have h := tget_foldl_tmod f (List.nodup_finRange n) ⟨i, hi⟩ v
  rw [if_pos (List.mem_finRange _)] at h
  exact h.trans (tget_map v f ⟨i, hi⟩).symm

theorem map_filter_eq_flatMap {α β : Type} (p : α → Bool) (g : α → β) (l : List α) :
    (l.filter p).map g = l.flatMap fun a => if p a then [g a] else [] := by
  induction l with
  | nil => rfl
  | cons a l ih =>
    rw [List.filter_cons, List.flatMap_cons, ← ih]
    cases p a <;> rfl

end Tables

section Poll

variable {s : State}

/-- A ring that a poll reaches has its head read. -/
def TxRing.afterPoll (x : TxRing) : TxRing := if x.polls then { x with access := some .ownerRead } else x

/-- The read of bytes 0 to 5 of the head of ring r. -/
def State.headRead (s : State) (r : RingId) : Request :=
  { requester := .seg, direction := .read, addr := (s.ring r).base + BitVec.ofNat 32 (32 * (s.ring r).head)
    length := 6, data := [], tag := .descriptor r }

/-- What the rings and the line of SEG are after a poll of some rings. -/
def State.pollOf (s : State) (l : List RingId) : State :=
  { s with
    su := { s.su with rings := l.foldl (fun v r => tmod v r TxRing.afterPoll) s.su.rings }
    lmp := { s.lmp with seg := s.lmp.seg ++ l.flatMap fun r => if (s.ring r).polls then [s.headRead r] else [] } }

theorem TxRing.polls_iff (x : TxRing) : x.polls = true ↔ x.state = .idle ∧ x.access = none := by
  simp [TxRing.polls]

theorem State.poll_of_off {r : RingId} (h : s.ma.state = .resetWait ∨ s.ma.nodeState ≠ .running) : s.poll r = s :=
  if_pos (s.halted_or_not_running_iff.2 h)

theorem State.poll_of_running {r : RingId} (hwait : s.ma.state ≠ .resetWait) (hrun : s.ma.nodeState = .running) :
    s.poll r = if (s.ring r).state = .idle ∧ (s.ring r).access = none then
      (s.setTxAccess r (some .ownerRead)).requestRead .seg ((s.ring r).headAddr 0) 6 (.descriptor r)
    else s :=
  if_neg fun h => (s.halted_or_not_running_iff.1 h).elim hwait (· hrun)

theorem tmod_of_fixed {α : Type} {n : Nat} {v : Vector α n} {i : Fin n} {f : α → α} (h : f (tget v i) = tget v i) :
    tmod v i f = v := by
  rw [tmod, h]
  exact Vector.set_getElem_self ..

theorem State.poll_eq_pollOf {r : RingId} (hwait : s.ma.state ≠ .resetWait) (hrun : s.ma.nodeState = .running) :
    s.poll r = s.pollOf [r] := by
  rw [State.poll_of_running hwait hrun]
  simp only [← TxRing.polls_iff]
  cases h : (s.ring r).polls with
  | true =>
    have hpoll : s.onRing r (fun x => { x with access := some .ownerRead }) = s.onRing r TxRing.afterPoll :=
      congrArg (fun x => { s with su := { s.su with rings := tset s.su.rings r x } }) (if_pos h).symm
    rw [if_pos rfl, State.setTxAccess, hpoll]
    simp only [State.pollOf, List.flatMap_cons, h, if_true]
    rfl
  | false =>
    have hring : tmod s.su.rings r TxRing.afterPoll = s.su.rings :=
      tmod_of_fixed (if_neg (by rw [show (tget s.su.rings r).polls = false from h]; exact Bool.false_ne_true))
    rw [if_neg Bool.false_ne_true]
    simp only [State.pollOf, List.foldl_cons, List.foldl_nil, List.flatMap_cons, List.flatMap_nil, hring, h,
      Bool.false_eq_true, if_false, List.append_nil]

/-- The poll of one ring after the others looks at the ring as it was. -/
theorem State.pollOf_cons (s : State) {r : RingId} {l : List RingId} (hr : r ∉ l) :
    s.pollOf (r :: l) = (s.pollOf [r]).pollOf l := by
  have hring : ∀ q ∈ l, (s.pollOf [r]).ring q = s.ring q := fun q hq =>
    tget_tset_ne _ _ fun h => hr (h ▸ hq)
  have hreads : (l.flatMap fun q => if ((s.pollOf [r]).ring q).polls then [(s.pollOf [r]).headRead q] else []) =
      l.flatMap fun q => if (s.ring q).polls then [s.headRead q] else [] :=
    List.flatMap_congr fun q hq => by rw [State.headRead, hring q hq]; rfl
  rw [State.pollOf, State.pollOf, hreads]
  simp only [State.pollOf, List.foldl_cons, List.foldl_nil, List.flatMap_cons, List.flatMap_nil, List.append_nil,
    List.append_assoc]

theorem State.foldl_poll {l : List RingId} (hl : l.Nodup) : ∀ {s : State}, s.ma.state ≠ .resetWait →
    s.ma.nodeState = .running → l.foldl State.poll s = s.pollOf l := by
  induction l with
  | nil =>
    intro s _ _
    simp [State.pollOf]
  | cons r l ih =>
    intro s hwait hrun
    obtain ⟨hr, hl⟩ := List.nodup_cons.1 hl
    rw [List.foldl_cons, State.poll_eq_pollOf hwait hrun, ih hl (s := s.pollOf [r]) hwait hrun, State.pollOf_cons s hr]

theorem State.polled_eq (s : State) : s.polled = s.pollOf (allOf 4) := by
  rw [State.pollOf, foldl_tmod_allOf, ← map_filter_eq_flatMap]
  rfl

/-- A poll of every ring of a RUNNING node (R113). -/
theorem State.pollAll_of_running (hwait : s.ma.state ≠ .resetWait) (hrun : s.ma.nodeState = .running) :
    s.pollAll = s.polled := by
  rw [State.polled_eq, ← State.foldl_poll (l := allOf 4) (List.nodup_finRange 4) hwait hrun]
  rfl

theorem State.pollAll_of_off (h : s.ma.state = .resetWait ∨ s.ma.nodeState ≠ .running) : s.pollAll = s :=
  foldl_of_fixed (fun _ => State.poll_of_off h) _

end Poll

/-- Settles O42: the two commands that poll every ring, and the poll of one. -/
theorem pollReadsTheHeadsOfIdleRings : Obligations.PollReadsTheHeadsOfIdleRings := by
  have hattn : ∀ s : State, s.inReset = false →
      exec .attnEdge s = .next ((s.onEw fun ew => { ew with lint := false }).pollAll) :=
    fun s hreset => State.next_of_not_inReset hreset
  refine ⟨fun s hreset hwait hrun hpoll hcount => ?interval, fun s hreset hwait hrun => ?attn, fun s hreset hoff => ?off,
    fun s hwait hrun => (State.pollAll_of_running hwait hrun).symm, fun s r => ⟨fun hwait hrun hidle hnone => ?idle, ?left⟩⟩
  case interval =>
    refine (State.next_of_not_inReset hreset).trans ?_
    dsimp only
    rw [State.halted_of_ne hwait, State.pollAll_of_running hwait hrun, hrun, hcount, beq_eq_false_iff_ne.2 hpoll]
    rfl
  case attn =>
    rw [hattn s hreset, State.pollAll_of_running (s := s.onEw fun ew => { ew with lint := false }) hwait hrun]
    rfl
  case off => rw [hattn s hreset, State.pollAll_of_off (s := s.onEw fun ew => { ew with lint := false }) hoff]; rfl
  case idle =>
    rw [State.poll_of_running hwait hrun, if_pos ⟨hidle, hnone⟩]
    rfl
  case left =>
    intro h
    by_cases hoff : s.ma.state = .resetWait ∨ s.ma.nodeState ≠ .running
    · exact State.poll_of_off hoff
    · obtain ⟨hwait, hrun⟩ := not_or.1 hoff
      rw [State.poll_of_running hwait (not_not.1 hrun), if_neg]
      rintro ⟨hidle, hnone⟩
      obtain h | h | h | h := h
      · exact hwait h
      · exact hrun h
      · exact h hidle
      · exact h hnone

end Sys2Proof.Machine
end

section
/-! The Segmentation Unit: the head descriptor, the lock of its slot, and the cells of its message. -/

namespace Sys2Proof.Machine

theorem State.onRing_congr (s : State) {r : RingId} {f g : TxRing → TxRing} (h : f (s.ring r) = g (s.ring r)) :
    s.onRing r f = s.onRing r g :=
  congrArg (fun x => { s with su := { s.su with rings := tset s.su.rings r x } }) h

theorem State.onSlot_onSlot (s : State) (k : SlotId) (f g : SendSlot → SendSlot) :
    (s.onSlot k f).onSlot k g = s.onSlot k fun x => g (f x) :=
  congrArg (fun v => { s with su := { s.su with slots := v } }) (tmod_tmod s.su.slots k f g)

theorem State.onSlot_congr (s : State) {k : SlotId} {f g : SendSlot → SendSlot} (h : f (s.slot k) = g (s.slot k)) :
    s.onSlot k f = s.onSlot k g :=
  congrArg (fun x => { s with su := { s.su with slots := tset s.su.slots k x } }) h

/-! ### The head descriptor (R114, R115) -/

section Descriptor

variable {s : State} {r : RingId} {d : TxDesc}

theorem State.give_descriptor (hwait : s.ma.state ≠ .resetWait) (r : RingId) (a : Answer) (bytes : List Byte) :
    s.give (.descriptor r) a bytes = s.descriptorAnswered r a bytes := by
  unfold State.give
  rw [State.halted_of_ne hwait]
  rfl

theorem State.descriptorAnswered_ownerRead (h : (s.ring r).access = some .ownerRead) (bytes : List Byte) :
    s.descriptorAnswered r .ok bytes =
      if byteAt bytes 0 = 1 ∧ s.ma.nodeState = .running then
        (s.onRing r fun x => { x with
          desc := some { slot := byteAt bytes 2, notifyThis := (byteAt bytes 3).getLsbD 0, length := halfAt bytes 4
                         addr := 0 }
          access := some .addrRead }).requestRead .seg ((s.ring r).headAddr 8) 4 (.descriptor r)
      else s.onRing r fun x => { x with access := none } := by
  rw [State.descriptorAnswered, h]
  exact if_neg (not_not.2 rfl)

theorem State.descriptorAnswered_addrRead (h : (s.ring r).access = some .addrRead) (hdesc : (s.ring r).desc = some d)
    (bytes : List Byte) : s.descriptorAnswered r .ok bytes =
      if s.ma.nodeState = .running then (s.setTxAccess r none).validated r { d with addr := wordAt bytes 0 }
      else s.onRing r fun x => { x with access := none, desc := none } := by
  rw [State.descriptorAnswered, h]
  refine (if_neg (not_not.2 rfl)).trans ?_
  rw [hdesc]

theorem State.descriptorAnswered_tickWrite {status : TxStatus} (h : (s.ring r).access = some (.tickWrite status))
    (bytes : List Byte) : s.descriptorAnswered r .ok bytes =
      (s.setTxAccess r (some .ownerWrite)).requestWrite .seg ((s.ring r).headAddr 0) [0, status.code]
        (.descriptor r) := by
  rw [State.descriptorAnswered, h]
  exact if_neg (not_not.2 rfl)

theorem State.descriptorAnswered_ownerWrite (h : (s.ring r).access = some .ownerWrite) (bytes : List Byte) :
    s.descriptorAnswered r .ok bytes = s.writeBackDone r := by
  rw [State.descriptorAnswered, h]
  exact if_neg (not_not.2 rfl)

/-- A failed access faults the ring, with the detail of a read or of a write-back (R125). -/
theorem State.descriptorAnswered_failed {access : TxAccess} (h : (s.ring r).access = some access) {a : Answer}
    (ha : a ≠ .ok) (bytes : List Byte) : s.descriptorAnswered r a bytes =
      s.ringFault r (if access = .ownerRead ∨ access = .addrRead then 1 else 2) a := by
  rw [State.descriptorAnswered, h]
  cases access <;> exact if_pos ha

/-- The length test comes first. -/
theorem State.validate_of_short (h : d.length.toNat = 0 ∨ 16000 < d.length.toNat) : s.validate d = .inl .badlen :=
  if_pos h

theorem State.validate_of_badSlot (h : ¬ (d.length.toNat = 0 ∨ 16000 < d.length.toNat)) (hslot : 64 ≤ d.slot.toNat) :
    s.validate d = .inl .badslot := by
  rw [State.validate, if_neg h, dif_neg (Nat.not_lt.2 hslot)]

/-- The three tests that look at the slot. -/
theorem State.validate_of_slot {k : SlotId} (h : ¬ (d.length.toNat = 0 ∨ 16000 < d.length.toNat))
    (hslot : d.slot.toNat = k.val) : s.validate d =
      if (s.slot k).enabled = false then .inl .slotoff
      else if (s.slot k).kind = .mgmt ∧ 40 < d.length.toNat then .inl .badlen
      else if bodyFits d.addr d.length.toNat = false then .inl .badlen
      else .inr k := by
  have hlt : d.slot.toNat < 64 := hslot ▸ k.isLt
  have hk : (⟨d.slot.toNat, hlt⟩ : SlotId) = k := Fin.ext hslot
  rw [State.validate, if_neg h, dif_pos hlt, hk]

theorem bodyFits_eq_false_iff (addr : Word) (length : Nat) :
    bodyFits addr length = false ↔ 0x100000000 < addr.toNat + length := by
  simp [bodyFits, regionFits]

theorem State.validated_eq (s : State) (r : RingId) (d : TxDesc) :
    (s.setTxAccess r none).validated r d =
      let held := s.onRing r fun x => { x with access := none, desc := some d }
      match s.validate d with
      | .inl status => held.beginWriteBack r status 0
      | .inr k => held.requestLock r k := by
  rw [State.validated, State.setTxAccess, State.onRing_onRing]
  rfl

theorem State.requestLock_of_free {k : SlotId} (h : (s.slot k).holder = none ∧ (s.slot k).lockQueue = []) :
    s.requestLock r k = (s.onSlot k fun x => { x with holder := some r }).startMessage r k := if_pos h

theorem State.requestLock_of_taken {k : SlotId} (h : ¬ ((s.slot k).holder = none ∧ (s.slot k).lockQueue = [])) :
    s.requestLock r k = (s.onSlot k fun x => { x with lockQueue := x.lockQueue ++ [r] }).onRing r fun x =>
      { x with state := .waitSlot } := if_neg h

end Descriptor

/-- Settles O43: the two parts of the descriptor, its tests, and the lock it asks for. -/
theorem headDescriptorIsReadAndTested : Obligations.HeadDescriptorIsReadAndTested := by
  refine ⟨fun s r bytes hwait haccess hnot => ?rests, fun s r bytes hwait hrun haccess hown => ?reads,
    fun s r bytes d hwait haccess hdesc => ?tested, fun s r status cells => rfl,
    fun s r k => ⟨fun hfree => State.requestLock_of_free hfree, fun hfree => State.requestLock_of_taken hfree⟩⟩
  case rests =>
    rw [State.give_descriptor hwait, State.descriptorAnswered_ownerRead haccess,
      if_neg fun h => hnot.elim (· h.1) (· h.2)]
  case reads =>
    rw [State.give_descriptor hwait, State.descriptorAnswered_ownerRead haccess, if_pos ⟨hown, hrun⟩]
    rfl
  case tested =>
    intro length addr held short
    rw [State.give_descriptor hwait, State.descriptorAnswered_addrRead haccess hdesc]
    refine ⟨fun hrun => if_neg hrun, fun hrun => ?_⟩
    let d' : TxDesc := { d with addr := addr }
    rw [if_pos hrun, State.validated_eq]
    dsimp only
    refine ⟨fun h => ?_, fun h hslot => ?_, fun k h hslot => ⟨fun henabled => ?_, fun henabled hlong => ?_,
      fun henabled hmgmt hfits => ?_⟩⟩
    · rw [State.validate_of_short (d := d') h]
    · rw [State.validate_of_badSlot (d := d') h hslot]
    all_goals rw [State.validate_of_slot (d := d') h hslot]
    · rw [if_pos henabled]
    · rw [if_neg (by rw [henabled]; exact Bool.noConfusion)]
      by_cases hmgmt : (s.slot k).kind = .mgmt ∧ 40 < d.length.toNat
      · rw [if_pos hmgmt]
      · rw [if_neg hmgmt, if_pos ((bodyFits_eq_false_iff _ _).2 (hlong.resolve_left hmgmt))]
    · rw [if_neg (by rw [henabled]; exact Bool.noConfusion), if_neg hmgmt,
        if_neg (mt (bodyFits_eq_false_iff _ _).1 (Nat.not_lt.2 hfits))]

/-! ### The cells of a message (R119 to R121) -/

section Cells

variable {s : State} {r : RingId} {m : TxMsg} {d : TxDesc}

theorem State.stageTrailer_of_msg (hmsg : (s.ring r).msg = some m) (hdesc : (s.ring r).desc = some d) :
    s.stageTrailer r =
      if (s.slot m.slot).kind = .data ∧ m.ended = none ∧ m.nextBuild = bodyCells d.length.toNat + 1
          ∧ messageCells .data d.length.toNat = bodyCells d.length.toNat + 1 ∧ (s.ring r).fifo.length < 4 then
        (s.stageData r m.slot .last ((trailer m.crc).drop (40 * bodyCells d.length.toNat - d.length.toNat))).onRing r
          fun x => { x with msg := some { m with nextBuild := m.nextBuild + 1 } }
      else s := by
  rw [State.stageTrailer, hmsg, hdesc]

theorem State.issueReads_succ (hmsg : (s.ring r).msg = some m) (hdesc : (s.ring r).desc = some d) (n : Nat) :
    s.issueReads r (n + 1) =
      if m.ended = none ∧ m.nextRead ≤ bodyCells d.length.toNat
          ∧ (s.ring r).fifo.length + (m.nextRead - m.nextBuild) < 4 then
        ((s.onRing r fun x => { x with msg := some { m with nextRead := m.nextRead + 1 } }).requestRead .seg
          (addrAt d.addr (40 * (m.nextRead - 1))) (min 40 (d.length.toNat - 40 * (m.nextRead - 1)))
          (.body r (s.ring r).gen)).issueReads r n
      else s := by
  rw [State.issueReads, hmsg, hdesc]

theorem State.give_body (hwait : s.ma.state ≠ .resetWait) (r : RingId) (gen : Nat) (a : Answer) (bytes : List Byte) :
    s.give (.body r gen) a bytes = s.bodyAnswered r gen a bytes := by
  unfold State.give
  rw [State.halted_of_ne hwait]
  rfl

theorem State.bodyAnswered_of_gen (hmsg : (s.ring r).msg = some m) (hdesc : (s.ring r).desc = some d) (a : Answer)
    (bytes : List Byte) : s.bodyAnswered r (s.ring r).gen a bytes =
      if a = .ok then ((s.buildCell r m d bytes).stageTrailer r).issueReads r 4 else s.endEarly r .memerr := by
  rw [State.bodyAnswered, if_pos rfl, hmsg, hdesc]

/-- An answer that belongs to an earlier message is ignored (R123). -/
theorem State.give_body_of_earlier {gen : Nat} (h : (s.ring r).gen ≠ gen) (a : Answer) (bytes : List Byte) :
    s.give (.body r gen) a bytes = s := by
  by_cases hwait : s.ma.state = .resetWait
  · exact State.give_of_resetWait hwait _ _ _
  · rw [State.give_body hwait, State.bodyAnswered, if_neg h]

/-- A cell staged on a ring, with the next message state of the ring. -/
theorem State.stageData_onRing (s : State) (r : RingId) (k : SlotId) (position : Position) (bytes : List Byte)
    (msg : Option TxMsg) : (s.stageData r k position bytes).onRing r (fun y => { y with msg := msg }) =
      (s.onSlot k fun x => { x with nextSeq := x.nextSeq + 1 }).onRing r fun y => { y with
        fifo := y.fifo ++ [Cell.build .data position (s.slot k).nextSeq (s.slot k).dest s.ma.nodeId (s.slot k).label
          (s.slot k).hops bytes]
        msg := msg } :=
  State.onRing_onRing (s := s.onSlot k fun x => { x with nextSeq := x.nextSeq + 1 }) r (fun y => { y with
    fifo := y.fifo ++ [Cell.build .data position (s.slot k).nextSeq (s.slot k).dest s.ma.nodeId (s.slot k).label
      (s.slot k).hops bytes] }) fun y => { y with msg := msg }

end Cells

/-- Settles O44: the cell built from a read, the cell of check bytes alone, the reads that are requested, and the answer
that does all three. -/
theorem dataCellIsStagedWithTheSlotsHeader : Obligations.DataCellIsStagedWithTheSlotsHeader := by
  refine ⟨fun s r m d bytes hkind => ?data, fun s r m d bytes hkind => ?mgmt, fun s r m d hmsg hdesc => ?trailer,
    fun s r m d n hmsg hdesc => ?reads, fun s r m d bytes hwait hmsg hdesc => ?answer,
    fun s r gen a bytes h => State.give_body_of_earlier h a bytes⟩
  case data =>
    intro x body n crc valid cell
    rw [State.buildCell]
    dsimp only
    rw [hkind]
    exact s.stageData_onRing r m.slot _ _ _
  case mgmt =>
    intro x cell
    rw [State.buildCell]
    dsimp only
    rw [hkind]
    rfl
  case trailer =>
    intro x length body due rest cell
    rw [State.stageTrailer_of_msg hmsg hdesc]
    refine ⟨fun h => (if_pos h).trans ?_, fun h => if_neg h⟩
    exact s.stageData_onRing r m.slot _ _ _
  case reads =>
    intro length start room
    rw [State.issueReads_succ hmsg hdesc]
    exact ⟨rfl, fun h => if_pos h, fun h => if_neg h⟩
  case answer => rw [State.give_body hwait, State.bodyAnswered_of_gen hmsg hdesc, if_pos rfl]

/-! ### The end of a message (R116, R118, R122 to R125) -/

section Ends

variable {s : State} {r : RingId} {m : TxMsg}

theorem State.departed_of_msg (hmsg : (s.ring r).msg = some m) (cell : Cell) : s.departed r cell =
    let t := s.onRing r fun x => { x with msg := some { m with sent := m.sent + 1 } }
    if cell.ends then t.beginWriteBack r (m.ended.getD .done) (m.sent + 1) else (t.stageTrailer r).issueReads r 4 := by
  rw [State.departed, hmsg]

theorem State.releaseLock_of_holder (hmsg : (s.ring r).msg = some m) (hholder : (s.slot m.slot).holder = some r) :
    s.releaseLock r =
      match (s.slot m.slot).lockQueue with
      | [] => s.onSlot m.slot fun x => { x with holder := none }
      | q :: rest =>
        (s.onSlot m.slot fun x => { x with holder := some q, lockQueue := rest }).startMessage q m.slot := by
  rw [State.releaseLock, hmsg]
  exact if_pos hholder

/-- How many staged cells an early end takes back from the slot's sequence (R123). -/
def State.droppedCells (s : State) (r : RingId) (m : TxMsg) : Nat :=
  if (s.slot m.slot).kind = .data then (s.ring r).fifo.length else 0

/-- A message is ended early: its cells are dropped, and its abort cell or its write-back follows (R123). -/
theorem State.endEarly_of_msg (hmsg : (s.ring r).msg = some m) (status : TxStatus) : s.endEarly r status =
    if m.ended = none ∧ (s.ring r).access = none then
      let t := (s.onSlot m.slot fun x =>
        { x with nextSeq := x.nextSeq - BitVec.ofNat 4 (s.droppedCells r m) }).onRing r fun x =>
        { x with fifo := [], gen := x.gen + 1, msg := some { m with ended := some status } }
      if (s.slot m.slot).kind = .data ∧ 0 < m.sent then t.stageData r m.slot .last []
      else t.beginWriteBack r status m.sent
    else s := by
  rw [State.endEarly, hmsg]
  rfl

theorem State.onSlot_of_fixed {k : SlotId} {f : SendSlot → SendSlot} (h : f (s.slot k) = s.slot k) : s.onSlot k f = s :=
  congrArg (fun v => { s with su := { s.su with slots := v } }) (tmod_of_fixed h)

/-- The lock is given up and the ring rests at the next descriptor, LINT asserted if it is asked for (R116). -/
theorem State.writeBackDone_eq (s : State) (r : RingId) : s.writeBackDone r =
    let free := if (s.ring r).state = .sending then s.releaseLock r else s
    State.poll (State.onRing { free with ew := { free.ew with
        lint := free.ew.lint || ((s.ring r).notify || (s.ring r).notifyThis) } } r fun x =>
      { x with state := .idle, access := none, desc := none, msg := none, fifo := [], head := (x.head + 1) % x.size })
      r := by
  rw [State.writeBackDone]
  refine congrArg (State.poll · r) ((State.assertLint_if _ _).trans ?_)
  rw [State.ringRests, State.onRing_onRing]
  rfl

end Ends

/-- Settles O45: a departure, the two writes of a write-back, the lock, a failed access, and an early end. -/
theorem messageIsWrittenBack : Obligations.MessageIsWrittenBack := by
  refine ⟨fun s r cell m hmsg => ⟨fun hlast => ?last, fun hmore => ?more⟩, fun s r status hwait haccess => ?tick,
    fun s r hwait haccess => ?done, fun s r m hmsg hholder => ⟨fun hqueue => ?unlocked, fun q rest hqueue => ?granted⟩,
    fun s r a bytes access hwait ha haccess => ?failed, fun s r a bytes m d hwait ha hmsg hdesc => ?bodyFailed,
    fun s r m status hmsg => ?ended⟩
  case last =>
    rw [State.departed_of_msg hmsg, if_pos (cell.ends_iff.2 hlast), State.beginWriteBack, State.setTxAccess,
      State.onRing_onRing, State.onRing_ring_self]
    rfl
  case more =>
    have hnot : cell.ends = false :=
      cell.not_ends_iff.1 (by obtain h | h := hmore <;> rw [h] <;> exact fun h => h.elim nofun nofun)
    rw [State.departed_of_msg hmsg, hnot]
    rfl
  case tick => rw [State.give_descriptor hwait, State.descriptorAnswered_tickWrite haccess]; rfl
  case done =>
    rw [State.give_descriptor hwait, State.descriptorAnswered_ownerWrite haccess, State.writeBackDone_eq]
    simp only [Bool.or_assoc]
  case unlocked => rw [State.releaseLock_of_holder hmsg hholder, hqueue]
  case granted => rw [State.releaseLock_of_holder hmsg hholder, hqueue]; rfl
  case failed =>
    rw [State.give_descriptor hwait, State.descriptorAnswered_failed haccess ha, State.ringFault, a.aux_eq]
    rfl
  case bodyFailed => rw [State.give_body hwait, State.bodyAnswered_of_gen hmsg hdesc, if_neg ha]
  case ended =>
    intro data seq abort cut
    rw [State.endEarly_of_msg hmsg]
    refine ⟨fun hended haccess => ?_, fun h => if_neg fun hboth => h.elim (· hboth.1) (· hboth.2)⟩
    rw [if_pos ⟨hended, haccess⟩]
    dsimp only
    let back : State := s.onSlot m.slot fun x => { x with nextSeq := seq }
    have hback : data → (s.onSlot m.slot fun x =>
        { x with nextSeq := x.nextSeq - BitVec.ofNat 4 (s.droppedCells r m) }) = back := fun hdata => by
      rw [State.droppedCells, if_pos hdata]
      exact s.onSlot_congr rfl
    refine ⟨fun hdata hsent => ?cell, fun hdata hsent => ?none, fun hmgmt => ?mgmt⟩
    case cell =>
      have hslot : back.slot m.slot = { s.slot m.slot with nextSeq := seq } := s.onSlot_slot_self m.slot _
      have hstaged : (back.onRing r fun x => { x with
            fifo := [], gen := x.gen + 1, msg := some { m with ended := some status } }).stageData r m.slot .last [] =
          ((back.onSlot m.slot fun x => { x with nextSeq := x.nextSeq + 1 }).onRing r fun x => { x with
            fifo := [], gen := x.gen + 1, msg := some { m with ended := some status } }).onRing r fun x =>
              { x with fifo := x.fifo ++ [abort] } := by
        rw [State.stageData, State.onRing_slot, hslot]
        rfl
      rw [if_pos ⟨hdata, hsent⟩, hback hdata, hstaged, State.onRing_onRing, State.onSlot_onSlot]
      rfl
    case none =>
      rw [if_neg fun h => by omega, hback hdata]
      exact congrArg (State.beginWriteBack _ r status) hsent
    case mgmt =>
      rw [if_neg fun h => hmgmt h.1, State.droppedCells, if_neg hmgmt, State.onSlot_of_fixed (s := s) (k := m.slot)]
      exact congrArg (fun n => { s.slot m.slot with nextSeq := n }) (BitVec.sub_zero _)

end Sys2Proof.Machine
end

section
/-! The agent: a command is screened, authorized and answered, and its response is handed over. -/

namespace Sys2Proof.Machine

/-! ### Screening and authorization (R155 to R157, R160, R162) -/

section Take

variable {s : State} {cmd : Cell} {rest : List Cell}

theorem State.takeCommand_of_ready (hready : s.ma.state = .ready) (hqueue : s.ma.queue = cmd :: rest) :
    s.takeCommand = (s.onMa fun ma => { ma with queue := rest }).screen cmd := by
  rw [State.takeCommand, if_pos hready, hqueue]

theorem State.takeCommand_of_idle (h : s.ma.state ≠ .ready ∨ s.ma.queue = []) : s.takeCommand = s := by
  rw [State.takeCommand]
  obtain hstate | hqueue := h
  · rw [if_neg hstate]
  · rw [hqueue, ite_self]

theorem State.duplicateOf_eq_some_iff (m : StoredResponse) : s.duplicateOf cmd = some m ↔
    cmd.tag ≠ 0 ∧ s.memoryOf cmd.src = some m ∧ m.tag = cmd.tag := by
  rw [State.duplicateOf]
  split
  case isTrue h => simp [h]
  case isFalse h => simp only [Option.filter_eq_some_iff, beq_iff_eq, ne_eq, h, not_false_eq_true, true_and]

theorem State.duplicateOf_eq_none (h : ∀ m, ¬ (cmd.tag ≠ 0 ∧ s.memoryOf cmd.src = some m ∧ m.tag = cmd.tag)) :
    s.duplicateOf cmd = none :=
  Option.eq_none_iff_forall_ne_some.2 fun m hm => h m (s.duplicateOf_eq_some_iff m |>.1 hm)

theorem State.screen_of_nobody (h : cmd.src = 63) :
    s.screen cmd = s.onCounters fun k => { k with mgmtDenied := k.mgmtDenied + 1 } := if_pos h

theorem State.screen_of_broadcast (hsrc : cmd.src ≠ 63) (hdest : cmd.dest = 63) (hcode : cmd.code ≠ codeIdent) :
    s.screen cmd = s.onCounters fun k => { k with broadcastIgnored := k.broadcastIgnored + 1 } :=
  (if_neg hsrc).trans (if_pos ⟨hdest, hcode⟩)

theorem State.screen_of_passed (hsrc : cmd.src ≠ 63) (hdest : cmd.dest ≠ 63 ∨ cmd.code = codeIdent) :
    s.screen cmd = s.authorize cmd :=
  (if_neg hsrc).trans (if_neg fun h => hdest.elim (· h.1) h.2)

theorem State.authorize_of_repeated {m : StoredResponse} (hlisted : s.listed cmd.src = true)
    (h : s.duplicateOf cmd = some m) :
    s.authorize cmd = s.agentTo (.answering { cmd, payload := m.payload, executed := false }) := by
  rw [State.authorize, if_pos hlisted, h]

theorem State.authorize_of_new (hlisted : s.listed cmd.src = true) (h : s.duplicateOf cmd = none) :
    s.authorize cmd = s.executeCommand cmd := by
  rw [State.authorize, if_pos hlisted, h]

theorem State.authorize_of_open (hlisted : s.listed cmd.src ≠ true)
    (h : cmd.code = codeIdent ∨ (cmd.code = codeClaim ∧ s.ma.managers = [])) :
    s.authorize cmd = s.executeCommand cmd := (if_neg hlisted).trans (if_pos h)

theorem State.authorize_of_stranger (hlisted : s.listed cmd.src ≠ true)
    (h : ¬ (cmd.code = codeIdent ∨ (cmd.code = codeClaim ∧ s.ma.managers = []))) :
    s.authorize cmd = (s.onCounters fun k => { k with mgmtDenied := k.mgmtDenied + 1 }).agentTo
      (.answering { cmd, payload := replyPayload cmd .denied [], executed := false }) :=
  (if_neg hlisted).trans (if_neg h)

theorem State.executeCommand_of_known (h : cmd.code ∈ knownCodes) :
    s.executeCommand cmd = s.agentTo (.working cmd false) := if_pos (List.contains_iff_mem.2 h)

theorem State.executeCommand_of_unknown (h : cmd.code ∉ knownCodes) : s.executeCommand cmd = s.answer cmd .badcmd [] :=
  if_neg fun hc => h (List.contains_iff_mem.1 hc)

/-- The sender's name stands in the list. -/
theorem State.listed_iff_exists (n : Node) : s.listed n = true ↔ ∃ m ∈ s.ma.managers, m.node = n := by
  rw [s.listed_iff, List.mem_map]

end Take

/-- Settles O46: the tests are those of R156, R157 and R160 in their order, and every outcome is one of the state with
the head off the queue. -/
theorem commandIsScreenedAndAuthorized : Obligations.CommandIsScreenedAndAuthorized := by
  refine ⟨fun s cmd rest hreset hready hqueue => ?_, fun s h => ?_⟩
  · intro go denied listed repeated open'
    let taken := s.onMa fun ma => { ma with queue := rest }
    have htaken : exec .commandTake s = .next (taken.screen cmd) :=
      (State.next_of_not_inReset hreset).trans (congrArg Host.Outcome.next (State.takeCommand_of_ready hready hqueue))
    have hgo : ∀ a, taken.agentTo a = go a := fun _ => rfl
    have hready' : taken = go .ready := by rw [← hgo, State.agentTo, ← hready]; rfl
    have hlisted : taken.listed cmd.src = true ↔ listed := State.listed_iff_exists cmd.src
    refine ⟨fun hsrc => ?_, fun hsrc hdest hcode => ?_, fun hsrc hdest => ?_⟩
    · rw [htaken, State.screen_of_nobody hsrc, hready']
      rfl
    · rw [htaken, State.screen_of_broadcast hsrc hdest hcode, hready']
      rfl
    · rw [htaken, State.screen_of_passed hsrc hdest]
      refine ⟨fun m hl hm => ?_, fun h => ?_, fun hl ho => ?_⟩
      · rw [State.authorize_of_repeated (hlisted.2 hl) ((State.duplicateOf_eq_some_iff m).2 hm)]
        rfl
      · have hexec : taken.authorize cmd = taken.executeCommand cmd := by
          obtain ⟨hl, hnew⟩ | ⟨hl, hopen⟩ := h
          · exact State.authorize_of_new (hlisted.2 hl) (State.duplicateOf_eq_none hnew)
          · exact State.authorize_of_open (mt hlisted.1 hl) hopen
        rw [hexec]
        refine ⟨fun hknown => ?_, fun hunknown => ?_⟩
        · rw [State.executeCommand_of_known hknown]
          rfl
        · rw [State.executeCommand_of_unknown hunknown]
          rfl
      · rw [State.authorize_of_stranger (mt hlisted.1 hl) ho]
        rfl
  · have hidle := State.takeCommand_of_idle h
    cases hreset : s.inReset
    · exact (State.next_of_not_inReset hreset).trans (congrArg Host.Outcome.next hidle)
    · exact State.live_of_inReset hreset

/-! ### The handover (R134, R161, R164) -/

section HandOver

variable {s : State}

theorem State.raise_agentTo {a : AgentState} (hs : s.ma.state ≠ .resetWait) (ha : a ≠ .resetWait) (k : EventKind)
    (x d : Nat) (w : Word) : (s.agentTo a).raise k x d w = (s.raise k x d w).agentTo a := by
  have hs' : (s.agentTo a).ma.state ≠ .resetWait := ha
  unfold State.raise
  rw [if_neg hs, if_neg hs']
  simp only [apply_ite (fun t : State => t.agentTo a)]
  rfl

theorem State.raiseConfig_of_ok {r : Reply} {n : Nat} (hexec : r.executed = true) (hok : byteAt r.payload 3 = 0)
    (h : configDetail r.cmd = some n) :
    s.raiseConfig r = s.raise .config r.cmd.code.toNat n (r.cmd.src.setWidth 32) := by
  refine (if_pos ⟨hexec, hok⟩).trans ?_
  rw [h]

theorem State.raiseConfig_of_quiet {r : Reply}
    (h : r.executed = false ∨ byteAt r.payload 3 ≠ 0 ∨ configDetail r.cmd = none) : s.raiseConfig r = s := by
  rw [State.raiseConfig]
  split
  case isFalse => rfl
  case isTrue hok =>
    obtain ⟨hexec, hstatus⟩ := hok
    obtain h | h | h := h
    · exact absurd (h.symm.trans hexec) Bool.false_ne_true
    · exact absurd hstatus h
    · rw [h]

theorem storeFor_of_unlisted {ms : List Manager} {n : Node} (h : n ∉ ms.map (·.node)) (m : StoredResponse) :
    storeFor ms n m = ms := by
  rw [storeFor]
  refine (List.map_congr_left fun x hx => ?_).trans (List.map_id _)
  exact if_neg fun hn => h (List.mem_map.2 ⟨x, hx, hn⟩)

theorem Reply.isStored_iff (r : Reply) :
    r.isStored = true ↔ r.executed = true ∧ r.cmd.tag ≠ (0 : Half) ∧ r.cmd.code ≠ (0x03 : Byte) := by
  simp only [Reply.isStored, Bool.and_eq_true, bne_iff_ne, codeRelease, and_assoc]

theorem State.storeResponse_eq (r : Reply) : s.storeResponse r = s.onMa fun ma => { ma with
    managers := if r.isStored = true then storeFor ma.managers r.cmd.src { tag := r.cmd.tag, payload := r.payload }
      else ma.managers } := by
  rw [State.storeResponse]
  by_cases hstored : r.isStored = true
  · simp only [hstored, if_true, true_and]
    split
    case isTrue => rfl
    case isFalse h =>
      rw [s.listed_iff] at h
      exact congrArg (fun ms => s.onMa fun ma => { ma with managers := ms }) (storeFor_of_unlisted h _).symm
  · simp only [hstored]
    rfl

/-- The detail table of R176 over the bare codes. -/
theorem configDetail_eq (cmd : Cell) : configDetail cmd =
    if cmd.code = 0x02 ∨ cmd.code = 0x03 then some cmd.src.toNat
    else if cmd.code = 0x04 then some (cmd.arg8 4).toNat
    else if cmd.code ∈ ([0x11, 0x12, 0x13, 0x30, 0x31] : List Byte) then some (cmd.arg8 3).toNat
    else if cmd.code = 0x20 then some (cmd.arg16 3).toNat
    else if cmd.code ∈ ([0x10, 0x14, 0x15] : List Byte) then some 0
    else none := by
  simp only [List.mem_cons, List.not_mem_nil, or_false]
  rfl

/-- The state that the handover leaves, but for a CONFIG event (R134, R161, R164). -/
def State.handedOver (s : State) (r : Reply) : State :=
  ((s.onIa fun ia => { ia with responses := ia.responses ++
    [{ cell := responseCell s.ma.nodeId r.cmd r.payload, reset := r.isReset }] }).storeResponse r).agentTo
      (if r.isReset then .resetSent else .ready)

theorem State.storeResponse_state (r : Reply) : (s.storeResponse r).ma.state = s.ma.state := by
  rw [State.storeResponse_eq]
  rfl

/-- CONFIG is raised in the step of the handover, of whatever the agent's next state is. -/
theorem State.handOver_eq {r : Reply} (hstate : s.ma.state = .answering r) :
    s.handOver r = (s.handedOver r).raiseConfig r := by
  have hnext : (if r.isReset then AgentState.resetSent else .ready) ≠ .resetWait := by
    split <;> exact AgentState.noConfusion
  have hwait := fun t : State => State.storeResponse_state (s := t) r
  unfold State.handOver State.handedOver State.raiseConfig
  split
  case isFalse => rfl
  case isTrue =>
    split
    case h_2 => rfl
    case h_1 detail hdetail =>
      refine (State.raise_agentTo ?_ hnext ..).symm
      rw [hwait]
      exact fun h => AgentState.noConfusion (hstate.symm.trans h)

end HandOver

/-- Settles O47: the handover in one state, then the CONFIG event or none. -/
theorem responseIsHandedOver : Obligations.ResponseIsHandedOver := by
  intro s r hreset hstate
  have hexec : exec .responseHandover s = .next (if s.ia.responses.length < 8 then s.handOver r else s) := by
    refine (State.next_of_not_inReset hreset).trans ?_
    dsimp only
    rw [hstate]
  refine ⟨fun hfull => ?_, fun hroom => ?_⟩
  · rw [hexec, if_neg (Nat.not_lt.2 hfull)]
  · intro cell reset stored t detail
    have ht : s.handedOver r = t := by
      rw [State.handedOver, State.storeResponse_eq]
      simp only [r.isStored_iff]
      rfl
    have hdetail : configDetail r.cmd = detail := configDetail_eq r.cmd
    rw [hexec, if_pos hroom, State.handOver_eq hstate, ht]
    refine ⟨fun n hexecuted hok hn => ?_, fun h => ?_⟩
    · rw [State.raiseConfig_of_ok hexecuted hok (hdetail.trans hn)]
    · rw [State.raiseConfig_of_quiet (hdetail.symm ▸ h)]

end Sys2Proof.Machine
end

section
/-! The commands that read, the manager list and the local map. -/

namespace Sys2Proof.Machine

/-! ### The reading commands (R30, R177, R189, R194) -/

/-- A reported number is the argument byte it came from. -/
theorem Cell.chanArg_byte (cmd : Cell) (k : Nat) : BitVec.ofNat 8 (cmd.chanArg k).val = cmd.arg8 k :=
  BitVec.ofNat_toNat ..

/-- The bits of the flags byte do not overlap. -/
theorem flagBits_eq_sum (a b c d : Bool) :
    flagBit a 0 ||| flagBit b 1 ||| flagBit c 2 ||| flagBit d 3 =
      (if a then (1 : Byte) else 0) + (if b then 2 else 0) + (if c then 4 else 0) + (if d then 8 else 0) := by
  cases a <;> cases b <;> cases c <;> cases d <;> rfl

theorem Counters.group_zero (k : Counters) : k.group 0 = [k.hdrErrors, k.malformed, k.returned, k.hopExpired,
    k.cellsPassed, k.positionsInserted, k.cellsForwarded, k.unknownLabel, k.mgmtRspDiscards] := if_pos rfl

theorem Counters.group_one (k : Counters) : k.group 1 = [k.datapathOff, k.nochannel, k.poolDiscards, k.holdOverflow,
    k.memFailures, k.eventsLost, k.mgmtQueueFull, k.broadcastIgnored, k.mgmtDenied] := if_neg (by decide)

theorem Counters.clearGroup_zero (k : Counters) : k.clearGroup 0 = { k with
    hdrErrors := 0, malformed := 0, returned := 0, hopExpired := 0, cellsPassed := 0, positionsInserted := 0
    cellsForwarded := 0, unknownLabel := 0, mgmtRspDiscards := 0 } := if_pos rfl

theorem Counters.clearGroup_one (k : Counters) : k.clearGroup 1 = { k with
    datapathOff := 0, nochannel := 0, poolDiscards := 0, holdOverflow := 0, memFailures := 0, eventsLost := 0
    mgmtQueueFull := 0, broadcastIgnored := 0, mgmtDenied := 0 } := if_neg (by decide)

section Readings

variable {s : State} {cmd : Cell}

theorem exec_readCounters_of_bad (hin : s.InHand codeReadCounters cmd)
    (h : 1 < (cmd.arg8 3).toNat ∨ 1 < (cmd.arg8 4).toNat) : exec .readCounters s = .next (s.answering cmd 3 []) :=
  (State.live_command_of_inHand hin).trans (congrArg Host.Outcome.next (if_pos h))

theorem exec_readCounters_of_read (hin : s.InHand codeReadCounters cmd) {g : Byte} (hclear : cmd.arg8 3 = 0)
    (hgroup : cmd.arg8 4 = g) (hg : ¬ 1 < g.toNat) :
    exec .readCounters s = .next (s.answering cmd 0 ((s.counters.group g).flatMap be32)) := by
  refine (State.live_command_of_inHand hin).trans (congrArg Host.Outcome.next ?_)
  rw [hclear, hgroup]
  exact if_neg (not_or_intro (by decide) hg)

theorem exec_readCounters_of_clear (hin : s.InHand codeReadCounters cmd) {g : Byte} (hclear : cmd.arg8 3 = 1)
    (hgroup : cmd.arg8 4 = g) (hg : ¬ 1 < g.toNat) :
    exec .readCounters s = .next ((s.onCounters fun k => k.clearGroup g).answering cmd 0
      ((s.counters.group g).flatMap be32)) := by
  refine (State.live_command_of_inHand hin).trans (congrArg Host.Outcome.next ?_)
  rw [hclear, hgroup]
  exact if_neg (not_or_intro (by decide) hg)

end Readings

/-- Settles O48: each command by its result. -/
theorem readingCommandsReport : Obligations.ReadingCommandsReport := by
  refine ⟨fun s cmd hin => ?_, fun s cmd hin => ?_, fun s cmd hin => ?_, fun s cmd hin => ?_⟩
  · exact State.live_command_of_inHand (code := codeIdent) hin
  · refine ⟨fun h => ?_, fun h => ?_⟩
    · exact (State.live_command_of_inHand (code := codeReadCircuit) hin).trans
        (congrArg Host.Outcome.next (if_neg (by omega)))
    · exact (State.live_command_of_inHand (code := codeReadCircuit) hin).trans
        (congrArg Host.Outcome.next (if_pos (by omega)))
  · refine (State.live_command_of_inHand (code := codeReadChannel) hin).trans (congrArg Host.Outcome.next ?_)
    rw [channelResult, flagBits_eq_sum, Cell.chanArg_byte]
    rfl
  · refine ⟨fun hclear hgroup => ?_, fun hclear hgroup => ?_, fun hclear hgroup => ?_, fun hclear hgroup => ?_,
      exec_readCounters_of_bad hin⟩
    · rw [exec_readCounters_of_read hin hclear hgroup (by decide), Counters.group_zero]
    · rw [exec_readCounters_of_read hin hclear hgroup (by decide), Counters.group_one]
    · rw [exec_readCounters_of_clear hin hclear hgroup (by decide), Counters.group_zero]
      simp only [Counters.clearGroup_zero]
      rfl
    · rw [exec_readCounters_of_clear hin hclear hgroup (by decide), Counters.group_one]
      simp only [Counters.clearGroup_one]
      rfl

/-! ### The manager list (R158, R178, R179) -/

/-- Settles O49: the tests of each command in their order. -/
theorem managerListIsEdited : Obligations.ManagerListIsEdited := by
  unfold Obligations.ManagerListIsEdited
  intro add remove ok
  refine ⟨fun s cmd hin => ⟨fun h => ?_, fun h => ?_⟩, fun s cmd hin => ?_, fun s cmd hin => ?_⟩
  · exact (State.live_command_of_inHand (code := codeClaim) hin).trans
      (congrArg Host.Outcome.next (if_neg (mt (s.listed_iff _).1 h)))
  · exact (State.live_command_of_inHand (code := codeClaim) hin).trans
      (congrArg Host.Outcome.next (if_pos ((s.listed_iff _).2 h)))
  · exact State.live_command_of_inHand (code := codeRelease) hin
  · intro op node listed
    have hlisted : s.listed node = true ↔ listed := s.listed_iff node
    refine ⟨fun hop hnode hfree hroom => ?_, fun hop hnode hl => ?_, fun hbad => ?_⟩ <;>
      refine (State.live_command_of_inHand (code := codeManager) hin).trans (congrArg Host.Outcome.next ?_)
    · have hop' : (cmd.arg8 3).toNat = 0 := congrArg BitVec.toNat hop
      refine (if_neg (by omega)).trans ((if_pos hop).trans (if_neg ?_))
      exact not_or_intro (mt hlisted.1 hfree) (by omega)
    · have hop' : (cmd.arg8 3).toNat = 1 := congrArg BitVec.toNat hop
      have hne : ¬ cmd.arg8 3 = 0 := fun h => absurd (h.symm.trans hop) (by decide)
      exact (if_neg (by omega)).trans ((if_neg hne).trans (if_pos (hlisted.2 hl)))
    · by_cases hrange : 1 < op.toNat ∨ 62 < (cmd.arg8 4).toNat
      · exact if_pos hrange
      · refine (if_neg hrange).trans ?_
        obtain h | h | ⟨hop, h⟩ | ⟨hop, h⟩ := hbad
        · exact absurd (.inl h) hrange
        · exact absurd (.inr h) hrange
        · exact (if_pos hop).trans (if_pos (h.imp_left hlisted.2))
        · have hne : ¬ cmd.arg8 3 = 0 := fun h0 => absurd (h0.symm.trans hop) (by decide)
          exact (if_neg hne).trans (if_neg (mt hlisted.1 h))

/-! ### The local map (R180, R181) -/

section LocalMap

variable {s : State} {cmd : Cell}

/-- The tests of SET_LOCAL_MAP over plain numbers. -/
theorem State.localMapRefusal_eq (store ring : Word) (size : Nat) (timeout : Byte) :
    s.localMapRefusal store ring size timeout =
      if (size ≠ 0 ∧ (size < 16 ∨ 4096 < size)) ∨ timeout = 0 then some .badarg
      else if s.ma.nodeState = .running ∨ s.ma.nodeState = .stopping then some .busy
      else if store.toNat % 128 ≠ 0 ∨ (size ≠ 0 ∧ ring.toNat % 16 ≠ 0) then some .badalign
      else if 0x100000000 < store.toNat + 0x8000 ∨ (size ≠ 0 ∧ 0x100000000 < ring.toNat + 16 * size) then some .badarg
      else none := by
  have htop : 0xFFFF8000 < store.toNat ↔ 0x100000000 < store.toNat + 0x8000 := by omega
  simp only [State.localMapRefusal, aligned, regionFits, beq_eq_false_iff_ne, decide_eq_false_iff_not, Nat.not_le, htop]

theorem exec_setLocalMap_of_refused (hin : s.InHand codeSetLocalMap cmd) {st : MgmtStatus}
    (h : s.localMapRefusal (cmd.arg32 3) (cmd.arg32 7) (cmd.arg16 11).toNat (cmd.arg8 13) = some st) :
    exec .setLocalMap s = .next (s.answer cmd st []) := by
  refine (State.live_command_of_inHand hin).trans (congrArg Host.Outcome.next ?_)
  dsimp only
  rw [h]

/-- The settings that an accepted SET_LOCAL_MAP writes (R181). -/
def State.mapped (s : State) (cmd : Cell) : State :=
  ((s.onXc fun xc => { xc with storeBase := cmd.arg32 3 }).onLmp fun p => { p with memTimeout := cmd.arg8 13 }).handRing
    (cmd.arg32 7) (cmd.arg16 11).toNat

theorem exec_setLocalMap_of_accepted (hin : s.InHand codeSetLocalMap cmd)
    (h : s.localMapRefusal (cmd.arg32 3) (cmd.arg32 7) (cmd.arg16 11).toNat (cmd.arg8 13) = none) :
    exec .setLocalMap s = .next ((if s.ma.nodeState = .unconfigured then (s.mapped cmd).nodeTo .stopped
      else s.mapped cmd).answering cmd 0 []) := by
  refine (State.live_command_of_inHand hin).trans (congrArg Host.Outcome.next ?_)
  dsimp only
  rw [h]
  rfl

end LocalMap

/-- Settles O50: the tests of R180 in their order. -/
theorem localMapIsSet : Obligations.LocalMapIsSet := by
  intro s cmd hin store ring size badSize busy skew beyond t
  have htests := State.localMapRefusal_eq (s := s) store ring size (cmd.arg8 13)
  have hmapped : s.mapped cmd = t := by
    have hstale : s.ew.access.staled = match s.ew.access with
      | .none => .none
      | .ownerRead _ => .ownerRead true
      | .recordWrite _ => .recordWrite true := by cases s.ew.access <;> rfl
    rw [State.mapped, State.handRing]
    exact congrArg (fun a => { t with ew := { t.ew with access := a } }) hstale
  refine ⟨fun hsize hbusy hskew hfit => ⟨fun hstate => ?_, fun hstate => ?_⟩, fun hsize => ?_, fun hsize hbusy => ?_,
    fun hsize hbusy hskew => ?_, fun hsize hbusy hskew hbeyond => ?_⟩
  · rw [if_neg hsize, if_neg hbusy, if_neg hskew, if_neg hfit] at htests
    rw [exec_setLocalMap_of_accepted hin htests, hstate, if_neg NodeState.noConfusion, hmapped]
  · rw [if_neg hsize, if_neg hbusy, if_neg hskew, if_neg hfit] at htests
    rw [exec_setLocalMap_of_accepted hin htests, if_pos hstate, hmapped, State.nodeTo]
    exact congrArg (fun n : NodeState => Host.Outcome.next (State.answering (State.raise
      { t with ma := { s.ma with nodeState := .stopped } } .nodeState 0 1 (BitVec.ofNat 32 n.code)) cmd 0 [])) hstate
  · exact exec_setLocalMap_of_refused hin (htests.trans (if_pos hsize))
  · exact exec_setLocalMap_of_refused hin (htests.trans ((if_neg hsize).trans (if_pos hbusy)))
  · exact exec_setLocalMap_of_refused hin (htests.trans ((if_neg hsize).trans ((if_neg hbusy).trans (if_pos hskew))))
  · exact exec_setLocalMap_of_refused hin (htests.trans ((if_neg hsize).trans ((if_neg hbusy).trans
      ((if_neg hskew).trans (if_pos hbeyond)))))

end Sys2Proof.Machine
end

section
/-! Pools, rings, slots, settings and circuits are configured. -/

namespace Sys2Proof.Machine

/-! ### Arguments that number an object -/

theorem Cell.index_of_val {cmd : Cell} {k n : Nat} {i : Fin n} (h : (cmd.arg8 k).toNat = i.val) :
    cmd.index k n = some i := by
  rw [Cell.index, dif_pos (h ▸ i.isLt)]
  exact congrArg some (Fin.ext h)

theorem Cell.index_of_beyond {cmd : Cell} {k n : Nat} (h : n ≤ (cmd.arg8 k).toNat) : cmd.index k n = none :=
  dif_neg (Nat.not_lt.2 h)

/-! ### Pools (R107, R108) -/

section Pools

variable {s : State} {cmd : Cell} {p : PoolId}

theorem State.poolUsed_iff : s.poolUsed p = true ↔
    ∃ c, ((s.chan c).binding = .bound ∨ (s.chan c).binding = .unbinding) ∧ (s.chan c).pool = p := by
  simp only [State.poolUsed, List.any_eq_true, allOf, List.mem_finRange, true_and, State.usesPool, Bool.and_eq_true,
    Channel.uses_iff, beq_iff_eq]

/-- The pool cannot be given another configuration: it is used, or an access of it is in flight (R107). -/
def State.PoolBusy (s : State) (p : PoolId) : Prop :=
  (∃ c, ((s.chan c).binding = .bound ∨ (s.chan c).binding = .unbinding) ∧ (s.chan c).pool = p) ∨
    (s.pool p).access ≠ none

theorem State.poolBusy_iff : s.poolUsed p = true ∨ (s.pool p).access ≠ none ↔ s.PoolBusy p :=
  or_congr_left State.poolUsed_iff

variable {freeBase complBase : Word} {freeSize complSize bufSize : Nat}

theorem State.poolRefusal_of_unconfigured (h : s.ma.nodeState = .unconfigured) :
    s.poolRefusal p freeBase freeSize complBase complSize bufSize = some .notconf := if_pos h

theorem State.poolRefusal_of_one_size (hconf : s.ma.nodeState ≠ .unconfigured)
    (h : (freeSize = 0) ≠ (complSize = 0)) :
    s.poolRefusal p freeBase freeSize complBase complSize bufSize = some .badarg :=
  (if_neg hconf).trans (if_pos h)

theorem State.poolRefusal_of_off (hconf : s.ma.nodeState ≠ .unconfigured) (hfree : freeSize = 0)
    (hcompl : complSize = 0) :
    (s.PoolBusy p → s.poolRefusal p freeBase freeSize complBase complSize bufSize = some .busy) ∧
    (¬ s.PoolBusy p → s.poolRefusal p freeBase freeSize complBase complSize bufSize = none) := by
  have hsame : ¬ (freeSize = 0) ≠ (complSize = 0) := by simp [hfree, hcompl]
  have hif : s.poolRefusal p freeBase freeSize complBase complSize bufSize =
      if s.poolUsed p = true ∨ (s.pool p).access ≠ none then some .busy else none :=
    (if_neg hconf).trans ((if_neg hsame).trans (if_pos hfree))
  exact ⟨fun h => hif.trans (if_pos (State.poolBusy_iff.2 h)),
    fun h => hif.trans (if_neg (mt State.poolBusy_iff.1 h))⟩

/-- The tests of a configuration with sizes: in use, sizes, alignment, range (R107 tests 5 to 8). -/
theorem State.poolRefusal_of_sizes (hconf : s.ma.nodeState ≠ .unconfigured) (hfree : freeSize ≠ 0)
    (hcompl : complSize ≠ 0) [Decidable ((s.pool p).state ≠ .faulted ∧ s.PoolBusy p)] :
    s.poolRefusal p freeBase freeSize complBase complSize bufSize =
      if (s.pool p).state ≠ .faulted ∧ s.PoolBusy p then some .busy
      else if freeSize < 8 ∨ 4096 < freeSize ∨ complSize < 8 ∨ 4096 < complSize ∨ bufSize < 512 ∨ 16384 < bufSize ∨
        bufSize % 64 ≠ 0 then some .badarg
      else if freeBase.toNat % 16 ≠ 0 ∨ complBase.toNat % 64 ≠ 0 then some .badalign
      else if 0x100000000 < freeBase.toNat + 16 * freeSize ∨ 0x100000000 < complBase.toNat + 64 * complSize then
        some .badarg
      else none := by
  have hsame : ¬ (freeSize = 0) ≠ (complSize = 0) := by simp [hfree, hcompl]
  simp only [State.poolRefusal, if_neg hconf, if_neg hsame, if_neg hfree, State.poolBusy_iff, aligned, regionFits,
    beq_eq_false_iff_ne, decide_eq_false_iff_not, Nat.not_le]

/-- Notify is out of range, and the command sets sizes (R107 test 1). -/
def Cell.NotifyBad (cmd : Cell) : Prop :=
  ((cmd.arg16 8).toNat ≠ 0 ∨ (cmd.arg16 14).toNat ≠ 0) ∧ 1 < (cmd.arg8 18).toNat

theorem exec_setPool_of_no_pool (hin : s.InHand codeSetPool cmd) (h : 4 ≤ (cmd.arg8 3).toNat) :
    exec .setPool s = .next (State.settle (s.answering cmd 3 []) s) := by
  refine (State.liveSettled_command_of_inHand hin).trans ?_
  rw [Cell.index_of_beyond h]
  rfl

theorem exec_setPool_of_notify (hin : s.InHand codeSetPool cmd) (hp : (cmd.arg8 3).toNat = p.val)
    (h : cmd.NotifyBad) : exec .setPool s = .next (State.settle (s.answering cmd 3 []) s) := by
  refine (State.liveSettled_command_of_inHand hin).trans ?_
  rw [Cell.index_of_val hp]
  exact congrArg (fun t => Host.Outcome.next (State.settle t s)) (if_pos h)

theorem exec_setPool_of_refused (hin : s.InHand codeSetPool cmd) (hp : (cmd.arg8 3).toNat = p.val)
    (hnotify : ¬ cmd.NotifyBad) {st : MgmtStatus}
    (h : s.poolRefusal p (cmd.arg32 4) (cmd.arg16 8).toNat (cmd.arg32 10) (cmd.arg16 14).toNat (cmd.arg16 16).toNat =
      some st) :
    exec .setPool s = .next (State.settle (s.answer cmd st []) s) := by
  refine (State.liveSettled_command_of_inHand hin).trans ?_
  rw [Cell.index_of_val hp]
  refine congrArg (fun t => Host.Outcome.next (State.settle t s)) ((if_neg hnotify).trans ?_)
  rw [h]

/-- The pool that an accepted SET_POOL leaves: its requests and its access are kept (R108). -/
def Pool.configured (x : Pool) (cmd : Cell) : Pool :=
  if (cmd.arg16 8).toNat = 0 then { requests := x.requests, access := x.access }
  else { freeBase := cmd.arg32 4, freeSize := (cmd.arg16 8).toNat, complBase := cmd.arg32 10,
         complSize := (cmd.arg16 14).toNat, bufSize := (cmd.arg16 16).toNat, notify := cmd.arg8 18 == 1
         state := .active, requests := x.requests, access := x.access }

theorem Pool.configured_of_off (h : (cmd.arg16 8).toNat = 0) (x : Pool) :
    x.configured cmd = { requests := x.requests, access := x.access } := if_pos h

theorem Pool.configured_of_sizes (h : (cmd.arg16 8).toNat ≠ 0) (x : Pool) : x.configured cmd =
    { freeBase := cmd.arg32 4, freeSize := (cmd.arg16 8).toNat, complBase := cmd.arg32 10
      complSize := (cmd.arg16 14).toNat, bufSize := (cmd.arg16 16).toNat, notify := cmd.arg8 18 == 1
      state := .active, requests := x.requests, access := x.access } := if_neg h

theorem exec_setPool_of_accepted (hin : s.InHand codeSetPool cmd) (hp : (cmd.arg8 3).toNat = p.val)
    (hnotify : ¬ cmd.NotifyBad)
    (h : s.poolRefusal p (cmd.arg32 4) (cmd.arg16 8).toNat (cmd.arg32 10) (cmd.arg16 14).toNat (cmd.arg16 16).toNat =
      none) :
    exec .setPool s = .next (State.settle ((s.onPool p fun x => x.configured cmd).answering cmd 0 []) s) := by
  refine (State.liveSettled_command_of_inHand hin).trans ?_
  rw [Cell.index_of_val hp]
  refine congrArg (fun t => Host.Outcome.next (State.settle t s)) ((if_neg hnotify).trans ?_)
  rw [h]
  rfl

end Pools

/-! ### Rings (R128) -/

section Rings

variable {s : State} {cmd : Cell} {r : RingId}

/-- The tests of SET_TXRING over plain numbers. -/
theorem State.ringRefusal_eq (base : Word) (size weight : Nat) (notify : Byte) :
    s.ringRefusal r base size weight notify =
      if 1 < notify.toNat ∨ (size ≠ 0 ∧ (size < 8 ∨ 1024 < size ∨ weight < 1 ∨ 15 < weight)) then some .badarg
      else if (s.ring r).state = .waitSlot ∨ (s.ring r).state = .sending ∨ (s.ring r).access ≠ none then some .busy
      else if size ≠ 0 ∧ base.toNat % 32 ≠ 0 then some .badalign
      else if size ≠ 0 ∧ 0x100000000 < base.toNat + 32 * size then some .badarg
      else none := by
  simp only [State.ringRefusal, aligned, regionFits, beq_eq_false_iff_ne, decide_eq_false_iff_not, Nat.not_le,
    ← and_or_left, or_assoc]

theorem exec_setTxring_of_refused (hin : s.InHand codeSetTxring cmd) (hr : (cmd.arg8 3).toNat = r.val)
    {st : MgmtStatus} (h : s.ringRefusal r (cmd.arg32 4) (cmd.arg16 8).toNat (cmd.arg8 10).toNat (cmd.arg8 11) = some st) :
    exec .setTxring s = .next (s.answer cmd st []) := by
  refine (State.live_command_of_inHand hin).trans (congrArg Host.Outcome.next ?_)
  rw [Cell.index_of_val hr]
  dsimp only
  rw [h]

/-- The ring that an accepted SET_TXRING leaves (R128). -/
def TxRing.configured (x : TxRing) (cmd : Cell) : TxRing :=
  if (cmd.arg16 8).toNat = 0 then { gen := x.gen }
  else { base := cmd.arg32 4, size := (cmd.arg16 8).toNat, weight := (cmd.arg8 10).toNat, notify := cmd.arg8 11 == 1
         state := .idle, gen := x.gen }

theorem TxRing.configured_eq (x : TxRing) (cmd : Cell) : x.configured cmd =
    let size := (cmd.arg16 8).toNat
    { base := if size = 0 then 0 else cmd.arg32 4, size := size
      weight := if size = 0 then 0 else (cmd.arg8 10).toNat, notify := size != 0 && cmd.arg8 11 == 1, head := 0
      state := if size = 0 then .unconfigured else .idle, access := none, desc := none, msg := none, fifo := []
      gen := x.gen } := by
  rw [TxRing.configured]
  by_cases h : (cmd.arg16 8).toNat = 0
  · simp [h]
  · simp [h]

theorem exec_setTxring_of_accepted (hin : s.InHand codeSetTxring cmd) (hr : (cmd.arg8 3).toNat = r.val)
    (h : s.ringRefusal r (cmd.arg32 4) (cmd.arg16 8).toNat (cmd.arg8 10).toNat (cmd.arg8 11) = none) :
    exec .setTxring s = .next ((s.onRing r fun x => x.configured cmd).answering cmd 0 []) := by
  refine (State.live_command_of_inHand hin).trans (congrArg Host.Outcome.next ?_)
  rw [Cell.index_of_val hr]
  dsimp only
  rw [h]
  rfl

end Rings

/-- Settles O51: the tests of R107 and R128 in their order. -/
theorem poolsAndRingsAreConfigured : Obligations.PoolsAndRingsAreConfigured := by
  classical
  refine ⟨fun s cmd p hin hp => ?_, fun s cmd hin h => exec_setPool_of_no_pool hin h, fun s cmd r hin hr => ?_,
    fun s cmd hin h => ?_⟩
  · intro freeSize complSize bufSize notified used busy badSize skew beyond refused
    have haccepted : ¬ notified → s.poolRefusal p (cmd.arg32 4) freeSize (cmd.arg32 10) complSize bufSize = none →
      exec .setPool s = .next (State.settle ((s.onPool p fun x => x.configured cmd).answering cmd 0 []) s) :=
      exec_setPool_of_accepted hin hp
    have hrefused : ∀ st : MgmtStatus, ¬ notified → s.poolRefusal p (cmd.arg32 4) freeSize (cmd.arg32 10) complSize bufSize =
      some st → refused st.code := fun st hn h => exec_setPool_of_refused hin hp hn h
    refine ⟨exec_setPool_of_notify hin hp, fun hn hun => ?_, fun hn hconf => ⟨fun hf hc => ?_, fun hf hc => ?_,
      fun hf hc hbusy => ?_, fun hf hc hfree => ?_, fun hf hc hstate hbusy => ?_, fun hf hc hfree => ?_⟩⟩
    · exact hrefused .notconf hn (State.poolRefusal_of_unconfigured hun)
    · exact hrefused .badarg hn (State.poolRefusal_of_one_size hconf fun h => hc (h.mp hf))
    · exact hrefused .badarg hn (State.poolRefusal_of_one_size hconf fun h => hf (h.mpr hc))
    · exact hrefused .busy hn ((State.poolRefusal_of_off hconf hf hc).1 hbusy)
    · rw [haccepted hn ((State.poolRefusal_of_off hconf hf hc).2 hfree)]
      simp only [Pool.configured_of_off hf]
    · exact hrefused .busy hn ((State.poolRefusal_of_sizes hconf hf hc).trans (if_pos ⟨hstate, hbusy⟩))
    · have hnot : ¬ ((s.pool p).state ≠ .faulted ∧ s.PoolBusy p) := fun h => hfree.elim h.1 fun hb => hb h.2
      have htests := (State.poolRefusal_of_sizes (freeBase := cmd.arg32 4) (complBase := cmd.arg32 10)
        (bufSize := bufSize) hconf hf hc).trans (if_neg hnot)
      refine ⟨fun h => ?_, fun h1 h => ?_, fun h1 h2 h => ?_, fun h1 h2 h => ?_⟩
      · exact hrefused .badarg hn (htests.trans (if_pos h))
      · exact hrefused .badalign hn (htests.trans ((if_neg h1).trans (if_pos h)))
      · exact hrefused .badarg hn (htests.trans ((if_neg h1).trans ((if_neg h2).trans (if_pos h))))
      · rw [haccepted hn (htests.trans ((if_neg h1).trans ((if_neg h2).trans (if_neg h))))]
        simp only [Pool.configured_of_sizes hf]
        rfl
  · intro size weight bad busy skew beyond refused
    have hrefused : ∀ st : MgmtStatus, s.ringRefusal r (cmd.arg32 4) size weight (cmd.arg8 11) = some st →
      refused st.code := fun st h => exec_setTxring_of_refused hin hr h
    have htests := State.ringRefusal_eq (s := s) (r := r) (cmd.arg32 4) size weight (cmd.arg8 11)
    refine ⟨fun h => ?_, fun h1 h => ?_, fun h1 h2 h => ?_, fun h1 h2 h3 h => ?_, fun h1 h2 h3 h => ?_⟩
    · exact hrefused .badarg (htests.trans (if_pos h))
    · exact hrefused .busy (htests.trans ((if_neg h1).trans (if_pos h)))
    · exact hrefused .badalign (htests.trans ((if_neg h1).trans ((if_neg h2).trans (if_pos h))))
    · exact hrefused .badarg (htests.trans ((if_neg h1).trans ((if_neg h2).trans
        ((if_neg h3).trans (if_pos h)))))
    · rw [exec_setTxring_of_accepted hin hr (htests.trans ((if_neg h1).trans ((if_neg h2).trans
        ((if_neg h3).trans (if_neg h)))))]
      simp only [TxRing.configured_eq]
      rfl
  · refine (State.live_command_of_inHand (code := codeSetTxring) hin).trans ?_
    rw [Cell.index_of_beyond h]
    rfl

end Sys2Proof.Machine
end

section
/-! Send slots, event enables, node settings and circuits are written. -/

namespace Sys2Proof.Machine

theorem Byte.eq_one_of_flag {b : Byte} (hle : ¬ 1 < b.toNat) (hne : b ≠ 0) : b = 1 := by
  have hne' : b.toNat ≠ 0 := fun h => hne (BitVec.eq_of_toNat_eq h)
  exact BitVec.eq_of_toNat_eq (show b.toNat = 1 by omega)

/-! ### Send slots (R126, R127, R183) -/

section Slots

variable {s : State} {cmd : Cell} {k : SlotId} {x : SendSlot}

/-- An argument of SET_SEND is out of its range (R126, R183). -/
def Cell.SlotBad (cmd : Cell) : Prop :=
  1 < (cmd.arg8 4).toNat ∨ 63 < (cmd.arg8 5).toNat ∨ 2047 < (cmd.arg16 6).toNat ∨ 15 < (cmd.arg8 8).toNat ∨
    1 < (cmd.arg8 9).toNat ∨ 1 < (cmd.arg8 10).toNat ∨ (cmd.arg8 9 = 1 ∧ cmd.arg8 8 = 0) ∨
    (cmd.arg8 5 = 63 ∧ cmd.arg8 4 = 0)

/-- The command leaves the slot's header and its sequence number (R126). -/
def SendSlot.KeptBy (x : SendSlot) (cmd : Cell) : Prop :=
  x.kind = (if cmd.arg8 4 = 1 then SlotKind.mgmt else .data) ∧ x.dest = (cmd.arg8 5).setWidth 6 ∧
    x.label = (cmd.arg16 6).setWidth 11 ∧ x.hops = (cmd.arg8 8).setWidth 4 ∧ cmd.arg8 10 = 0

/-- The tests of SET_SEND on the arguments alone come first. -/
theorem sendRefusal_of_bad (h : cmd.SlotBad) : sendRefusal x cmd = some .badarg := by
  rw [sendRefusal]
  split
  case isTrue => rfl
  case isFalse hranges =>
    refine if_pos ?_
    unfold Cell.SlotBad at h
    tauto

theorem SlotKind.eq_of_mgmt_iff {a : SlotKind} {P : Prop} [Decidable P] :
    a = (if P then .mgmt else .data) ↔ ¬ ((a = .mgmt) ≠ P) := by
  rw [not_not]
  by_cases h : P <;> cases a <;> simp [h]

/-- A header or a sequence number that would change. -/
theorem SendSlot.keptBy_iff (hseq : ¬ 1 < (cmd.arg8 10).toNat) : x.KeptBy cmd ↔
    ¬ ((x.kind = .mgmt) ≠ (cmd.arg8 4 = 1) ∨ x.dest ≠ (cmd.arg8 5).setWidth 6 ∨
      x.label ≠ (cmd.arg16 6).setWidth 11 ∨ x.hops ≠ (cmd.arg8 8).setWidth 4) ∧ cmd.arg8 10 ≠ 1 := by
  have hflag : cmd.arg8 10 = 0 ↔ cmd.arg8 10 ≠ 1 :=
    ⟨fun h => by rw [h]; decide, fun h => Classical.byContradiction fun hne => h (Byte.eq_one_of_flag hseq hne)⟩
  rw [SendSlot.KeptBy, SlotKind.eq_of_mgmt_iff, hflag]
  simp only [not_or, ne_eq, not_not, and_assoc]

theorem sendRefusal_of_good (h : ¬ cmd.SlotBad) [Decidable (x.holder ≠ none ∧ ¬ x.KeptBy cmd)] :
    sendRefusal x cmd = if x.holder ≠ none ∧ ¬ x.KeptBy cmd then some .busy else none := by
  unfold Cell.SlotBad at h
  have hseq : ¬ 1 < (cmd.arg8 10).toNat := by tauto
  rw [sendRefusal]
  refine (if_neg (by tauto)).trans ((if_neg (by tauto)).trans ?_)
  have hkept := SendSlot.keptBy_iff (x := x) hseq
  by_cases hheader : (x.kind = .mgmt) ≠ (cmd.arg8 4 = 1) ∨ x.dest ≠ (cmd.arg8 5).setWidth 6 ∨
      x.label ≠ (cmd.arg16 6).setWidth 11 ∨ x.hops ≠ (cmd.arg8 8).setWidth 4
  · have hnot : ¬ x.KeptBy cmd := fun hk => (hkept.1 hk).1 hheader
    simp only [hheader, hnot, not_false_eq_true, and_true]
    split <;> simp_all
  · have hiff : ¬ x.KeptBy cmd ↔ cmd.arg8 10 = 1 := by rw [hkept]; tauto
    rw [if_neg fun hh => hheader hh.2]
    simp only [hiff]

theorem exec_setSend_of_no_slot (hin : s.InHand codeSetSend cmd) (h : 64 ≤ (cmd.arg8 3).toNat) :
    exec .setSend s = .next (s.answering cmd 3 []) := by
  refine (State.live_command_of_inHand hin).trans (congrArg Host.Outcome.next ?_)
  rw [Cell.index_of_beyond h]
  rfl

theorem exec_setSend_of_refused (hin : s.InHand codeSetSend cmd) (hk : (cmd.arg8 3).toNat = k.val) (st : MgmtStatus)
    (h : sendRefusal (s.slot k) cmd = some st) : exec .setSend s = .next (s.answer cmd st []) := by
  refine (State.live_command_of_inHand hin).trans (congrArg Host.Outcome.next ?_)
  rw [Cell.index_of_val hk]
  dsimp only
  rw [h]

theorem exec_setSend_of_accepted (hin : s.InHand codeSetSend cmd) (hk : (cmd.arg8 3).toNat = k.val)
    (h : sendRefusal (s.slot k) cmd = none) :
    exec .setSend s = .next ((if (s.slot k).enabled && !(cmd.arg8 9 == 1) then
      (s.onSlot k fun x => x.configured cmd).disableSlot k else s.onSlot k fun x => x.configured cmd).answering cmd 0 []) := by
  refine (State.live_command_of_inHand hin).trans (congrArg Host.Outcome.next ?_)
  have hnew : ((s.onSlot k fun x => x.configured cmd).slot k).enabled = (cmd.arg8 9 == 1) :=
    congrArg SendSlot.enabled (tget_tmod_self ..)
  rw [Cell.index_of_val hk]
  dsimp only
  rw [h, ← hnew]
  rfl

/-- The slots stay as they are while the waiting rings of a disabled one are written back. -/
theorem State.slotOffs_slot (l : List RingId) (t : State) (k : SlotId) : (l.foldl State.slotOff t).slot k = t.slot k :=
  foldl_same (f := State.slotOff) (g := fun t : State => t.slot k) (fun _ _ => rfl) l t

theorem State.disableSlot_of_holder (o : Option RingId) (h : (s.slot k).holder = o) : s.disableSlot k =
    let t := (s.slot k).lockQueue.foldl State.slotOff (s.onSlot k fun x => { x with lockQueue := [] })
    match o with
    | some r => t.endEarly r .cut
    | none => t := by
  have hholder : ((s.onSlot k fun x => { x with lockQueue := [] }).slot k).holder = o :=
    (congrArg SendSlot.holder (tget_tmod_self ..)).trans h
  unfold State.disableSlot
  dsimp only
  rw [State.slotOffs_slot, hholder] <;> cases o <;> rfl

end Slots

/-! ### Circuits (R28, R186) -/

theorem CircuitAction.ofCode_code (a : CircuitAction) : CircuitAction.ofCode a.code = some a := by cases a <;> rfl

theorem CircuitAction.ofCode_of_beyond {b : Byte} (h : 4 < b.toNat) : CircuitAction.ofCode b = none := by
  have hne : ∀ n : Byte, n.toNat ≤ 4 → b ≠ n := fun n hn hb => by rw [hb] at h; omega
  rw [CircuitAction.ofCode, if_neg (hne 0 (by decide)), if_neg (hne 1 (by decide)), if_neg (hne 2 (by decide)),
    if_neg (hne 3 (by decide)), if_neg (hne 4 (by decide))]

/-- A 16-bit number below 256 is its low byte. -/
theorem Cell.chanArg_of_val {cmd : Cell} {k : Nat} {c : Chan} (h : (cmd.arg16 k).toNat = c.val) :
    cmd.chanArg (k + 1) = c := by
  refine Fin.ext ?_
  have hlow : (cmd.arg16 k).setWidth 8 = cmd.arg8 (k + 1) := BitVec.setWidth_append_eq_right
  calc (cmd.arg8 (k + 1)).toNat = (cmd.arg16 k).toNat % 2 ^ 8 := by rw [← hlow, BitVec.toNat_setWidth]
    _ = c.val := by rw [h]; exact Nat.mod_eq_of_lt c.isLt

section Settings

variable {s : State} {cmd : Cell}

theorem exec_setNode_of_accepted (hin : s.InHand codeSetNode cmd)
    (h : ¬ (255 < (cmd.arg16 4).toNat ∧ cmd.arg16 4 ≠ 0xFFFF)) :
    exec .setNode s = .next (State.answering { s with
      su := { s.su with txPoll := cmd.arg8 3, countdown := cmd.arg8 3 }
      cc := { s.cc with rspChannel := if cmd.arg16 4 = 0xFFFF then none else some (cmd.chanArg 5) } } cmd 0 []) :=
  (State.live_command_of_inHand hin).trans (congrArg Host.Outcome.next (if_neg h))

/-- The entry that an accepted WRITE_CIRCUIT leaves (R28). -/
def Circuit.written (x : Circuit) (cmd : Cell) (action : CircuitAction) : Circuit where
  action := action
  channel := cmd.chanArg 6
  newDest := (cmd.arg8 7).setWidth 6
  newLabel := (cmd.arg16 8).setWidth 11
  matched := if cmd.arg8 10 = 1 then 0 else x.matched

/-- The state that an accepted WRITE_CIRCUIT leaves (R28). -/
def State.circuitWritten (s : State) (cmd : Cell) (action : CircuitAction) : State :=
  let label : Fin 2048 := ((cmd.arg16 3).setWidth 11).toFin
  s.onCc fun cc => { cc with circuits := tmod cc.circuits label (·.written cmd action) }

theorem exec_writeCircuit_of_action (hin : s.InHand codeWriteCircuit cmd) {action : CircuitAction}
    (h : CircuitAction.ofCode (cmd.arg8 5) = some action) :
    exec .writeCircuit s = .next (
      if 2047 < (cmd.arg16 3).toNat ∨ 62 < (cmd.arg8 7).toNat ∨ 2047 < (cmd.arg16 8).toNat ∨ 1 < (cmd.arg8 10).toNat then
        s.answering cmd 3 []
      else (s.circuitWritten cmd action).answering cmd 0 []) := by
  refine (State.live_command_of_inHand hin).trans (congrArg Host.Outcome.next ?_)
  dsimp only
  rw [h]
  rfl

theorem exec_writeCircuit_of_no_action (hin : s.InHand codeWriteCircuit cmd)
    (h : CircuitAction.ofCode (cmd.arg8 5) = none) : exec .writeCircuit s = .next (s.answering cmd 3 []) := by
  refine (State.live_command_of_inHand hin).trans (congrArg Host.Outcome.next ?_)
  dsimp only
  rw [h]
  rfl

end Settings

/-- Settles O52: the tests of each command in their order, and the work of a slot that is disabled. -/
theorem settingsAreWritten : Obligations.SettingsAreWritten := by
  classical
  refine ⟨fun s cmd k hin hk => ?_, fun s cmd hin h => exec_setSend_of_no_slot hin h, fun s k => ?_,
    fun s cmd hin => State.live_command_of_inHand (code := codeSetEvents) hin, fun s cmd hin => ?_,
    fun s cmd hin => ?_⟩
  · intro bad kind kept t
    have hfree : ¬ bad → ((s.slot k).holder = none ∨ kept) → sendRefusal (s.slot k) cmd = none := fun hbad h =>
      (sendRefusal_of_good hbad).trans (if_neg fun hn => h.elim hn.1 hn.2)
    refine ⟨fun hbad => ?_, fun hbad hheld hkept => ?_, fun hbad h hoff => ?_, fun hbad h hon hoff => ?_⟩
    · exact exec_setSend_of_refused hin hk .badarg (sendRefusal_of_bad hbad)
    · exact exec_setSend_of_refused hin hk .busy ((sendRefusal_of_good hbad).trans (if_pos ⟨hheld, hkept⟩))
    · have hstay : ((s.slot k).enabled && !(cmd.arg8 9 == 1)) = false := by
        obtain h0 | h1 := hoff
        · rw [h0, Bool.false_and]
        · rw [h1]; exact Bool.and_false _
      rw [exec_setSend_of_accepted hin hk (hfree hbad h), hstay]
      rfl
    · have hturn : ((s.slot k).enabled && !(cmd.arg8 9 == 1)) = true := by rw [hon, hoff]; rfl
      rw [exec_setSend_of_accepted hin hk (hfree hbad h), hturn]
      rfl
  · exact ⟨State.disableSlot_of_holder none, fun r => State.disableSlot_of_holder (some r)⟩
  · intro t
    refine ⟨fun c hc => ?_, fun hnone => ?_, fun hbeyond hne => ?_⟩
    · have hlow : ¬ 255 < (cmd.arg16 4).toNat := by have := c.isLt; omega
      have hne : cmd.arg16 4 ≠ 0xFFFF := fun h => hlow (by rw [h]; decide)
      rw [exec_setNode_of_accepted hin fun h => hlow h.1, if_neg hne, Cell.chanArg_of_val hc]
    · rw [exec_setNode_of_accepted hin fun h => h.2 hnone, if_pos hnone]
    · exact (State.live_command_of_inHand (code := codeSetNode) hin).trans
        (congrArg Host.Outcome.next (if_pos ⟨hbeyond, hne⟩))
  · intro bad
    refine ⟨fun action hbad hcode => ?_, fun hbad => ?_⟩
    · rw [exec_writeCircuit_of_action hin (hcode ▸ CircuitAction.ofCode_code action)]
      exact congrArg Host.Outcome.next (if_neg fun h => hbad (by tauto))
    · cases haction : CircuitAction.ofCode (cmd.arg8 5) with
      | none => exact exec_writeCircuit_of_no_action hin haction
      | some action =>
        have hcode : ¬ 4 < (cmd.arg8 5).toNat := fun h =>
          Option.some_ne_none action (haction.symm.trans (CircuitAction.ofCode_of_beyond h))
        rw [exec_writeCircuit_of_action hin haction]
        exact congrArg Host.Outcome.next (if_pos (by tauto))

end Sys2Proof.Machine
end

section
/-! Commands that become long ones, and the binding of channels. -/

namespace Sys2Proof.Machine

/-! ### A command becomes a long one (R163, R165) -/

section Long

variable {s t : State} {cmd q : Cell} {rest : List Cell}

/-- Which queued cells are taken out of turn hangs on the node id and the manager list alone. -/
theorem State.outOfTurn_congr (hid : t.ma.nodeId = s.ma.nodeId) (hmanagers : t.ma.managers = s.ma.managers)
    (q : Cell) : t.OutOfTurn q ↔ s.OutOfTurn q := by
  simp only [State.OutOfTurn, State.memoryOf, hid, hmanagers]

/-- The two states agree on the command queue and on what is taken out of turn. -/
structure State.SameQueue (s t : State) : Prop where
  nodeId : t.ma.nodeId = s.ma.nodeId
  managers : t.ma.managers = s.ma.managers
  queue : t.ma.queue = s.ma.queue

theorem State.SameQueue.of_moves (h : s.Moves t) : s.SameQueue t :=
  ⟨congrArg Settings.nodeId h.settings, h.managers, h.queue⟩

theorem State.SameQueue.trans {u : State} (h : s.SameQueue t) (k : t.SameQueue u) : s.SameQueue u :=
  ⟨k.nodeId.trans h.nodeId, k.managers.trans h.managers, k.queue.trans h.queue⟩

theorem State.SameQueue.noneOutOfTurn (h : s.SameQueue t) (hnone : s.NoneOutOfTurn) : t.NoneOutOfTurn := fun q hq =>
  mt (State.outOfTurn_congr h.nodeId h.managers q).1 (hnone q (h.queue ▸ hq))

theorem State.SameQueue.givesWay (h : s.SameQueue t) (hgives : s.GivesWay q rest) : t.GivesWay q rest := by
  obtain ⟨pre, post, hqueue, hrest, hq, hpre⟩ := hgives
  exact ⟨pre, post, h.queue.trans hqueue, hrest, (State.outOfTurn_congr h.nodeId h.managers q).2 hq,
    fun x hx => mt (State.outOfTurn_congr h.nodeId h.managers x).1 (hpre x hx)⟩

theorem State.goLong_of_none (h : s.SameQueue t) (hnone : s.NoneOutOfTurn) (cmd : Cell) :
    t.goLong cmd = t.agentTo (.working cmd true) :=
  State.examineQueue_of_none (s := t.agentTo (.working cmd true)) (h.noneOutOfTurn hnone)

theorem State.goLong_of_givesWay (h : s.SameQueue t) (hgives : s.GivesWay q rest) (cmd : Cell) :
    t.goLong cmd = State.answering { t with ma := { t.ma with queue := rest } } q 0 [] :=
  State.examineQueue_of_givesWay (s := t.agentTo (.working cmd true)) rfl (h.givesWay hgives)

end Long

/-! ### Binding and unbinding (R55 to R57, R187, R188) -/

section Binding

variable {s : State} {cmd : Cell} {p : PoolId}

/-- The tests of BIND_CHANNEL after the arguments: the channel is free, the pool is ACTIVE (R187). -/
theorem exec_bindChannel_of_args (hin : s.InHand codeBindChannel cmd) (hp : (cmd.arg8 4).toNat = p.val)
    (hbody : ¬ 16000 < (cmd.arg16 5).toNat) :
    exec .bindChannel s = .next (
      if (s.chan (cmd.chanArg 3)).binding ≠ .unbound ∨ (s.chan (cmd.chanArg 3)).waiting = true then s.answering cmd 5 []
      else if (s.pool p).state ≠ .active then s.answering cmd 6 []
      else (s.onChan (cmd.chanArg 3) fun ch => { ch with
        binding := .bound, pool := p, maxBody := cmd.arg16 5, limit := cmd.arg16 7, msgOpen := false, op := none
        pendingAbort := .none, poolReset := false, fresh := true }).answering cmd 0 []) := by
  refine (State.live_command_of_inHand hin).trans (congrArg Host.Outcome.next ?_)
  rw [Cell.index_of_val hp]
  exact if_neg hbody

theorem exec_bindChannel_of_bad (hin : s.InHand codeBindChannel cmd)
    (h : 3 < (cmd.arg8 4).toNat ∨ 16000 < (cmd.arg16 5).toNat) : exec .bindChannel s = .next (s.answering cmd 3 []) := by
  refine (State.live_command_of_inHand hin).trans (congrArg Host.Outcome.next ?_)
  by_cases hp : 3 < (cmd.arg8 4).toNat
  · rw [Cell.index_of_beyond hp]
    rfl
  · rw [Cell.index_of_val (i := ⟨(cmd.arg8 4).toNat, Nat.lt_succ_iff.2 (Nat.not_lt.1 hp)⟩) rfl]
    exact if_pos (h.resolve_left hp)

theorem Channel.waiting_iff (ch : Channel) : ch.waiting = true ↔ ch.op ≠ none := by
  rw [← Bool.not_eq_false, ch.waiting_eq_false_iff]

theorem exec_unbindChannel_of_inHand (hin : s.InHand codeUnbindChannel cmd) : exec .unbindChannel s = .next (State.settle
    (match (s.chan (cmd.chanArg 3)).binding with
    | .unbound => s.answering cmd 6 []
    | .bound => (s.beginUnbind (cmd.chanArg 3)).goLong cmd
    | .unbinding => s.goLong cmd
    | .faulted => (s.becomeUnbound (cmd.chanArg 3)).answering cmd 0 []) s) :=
  (State.liveSettled_command_of_inHand hin).trans (by dsimp only; cases (s.chan (cmd.chanArg 3)).binding <;> rfl)

theorem exec_unbindChannel_of_bound (hin : s.InHand codeUnbindChannel cmd)
    (h : (s.chan (cmd.chanArg 3)).binding = .bound) :
    exec .unbindChannel s = .next (State.settle ((s.beginUnbind (cmd.chanArg 3)).goLong cmd) s) := by
  rw [exec_unbindChannel_of_inHand hin, h]

theorem exec_unbindChannel_of_unbinding (hin : s.InHand codeUnbindChannel cmd)
    (h : (s.chan (cmd.chanArg 3)).binding = .unbinding) :
    exec .unbindChannel s = .next (State.settle (s.goLong cmd) s) := by
  rw [exec_unbindChannel_of_inHand hin, h]

theorem State.beginUnbind_sameQueue (c : Chan) : s.SameQueue (s.beginUnbind c) := ⟨rfl, rfl, rfl⟩

end Binding

/-- Settles O53: BIND_CHANNEL by its tests, UNBIND_CHANNEL by the binding it finds and what the queue holds. -/
theorem channelsAreBoundAndUnbound : Obligations.ChannelsAreBoundAndUnbound := by
  refine ⟨fun s cmd hin => ?_, fun s cmd hin => ?_⟩
  · intro c free bad
    have hbusy : (s.chan c).binding ≠ .unbound ∨ (s.chan c).waiting = true ↔ ¬ free := by
      rw [Channel.waiting_iff, ← not_and_or]
    refine ⟨fun p hp hbad hfree hactive => ?_, exec_bindChannel_of_bad hin, fun hbad hfree => ?_,
      fun p hp hbad hfree hactive => ?_⟩
    · rw [exec_bindChannel_of_args hin hp fun h => hbad (.inr h)]
      exact congrArg Host.Outcome.next ((if_neg fun h => hbusy.1 h hfree).trans (if_neg (not_not.2 hactive)))
    · have hp : (cmd.arg8 4).toNat < 4 := Nat.lt_succ_iff.2 (Nat.not_lt.1 fun h => hbad (.inl h))
      rw [exec_bindChannel_of_args (p := ⟨_, hp⟩) hin rfl fun h => hbad (.inr h)]
      exact congrArg Host.Outcome.next (if_pos (hbusy.2 hfree))
    · rw [exec_bindChannel_of_args hin hp fun h => hbad (.inr h)]
      exact congrArg Host.Outcome.next ((if_neg fun h => hbusy.1 h hfree).trans (if_pos hactive))
  · intro c n begun
    have hsame : s.SameQueue s := ⟨rfl, rfl, rfl⟩
    refine ⟨fun hbound hnone => ?_, fun hunbinding hnone => ?_, fun q rest hgives => ⟨fun hbound => ?_,
      fun hunbinding => ?_⟩, fun hfaulted => ?_, fun hunbound => ?_⟩
    · rw [exec_unbindChannel_of_bound hin hbound, State.goLong_of_none (s.beginUnbind_sameQueue _) hnone]
      rfl
    · rw [exec_unbindChannel_of_unbinding hin hunbinding, State.goLong_of_none hsame hnone]
      rfl
    · rw [exec_unbindChannel_of_bound hin hbound, State.goLong_of_givesWay (s.beginUnbind_sameQueue _) hgives]
      rfl
    · rw [exec_unbindChannel_of_unbinding hin hunbinding, State.goLong_of_givesWay hsame hgives]
    · have hbinding : (s.chan (cmd.chanArg 3)).binding = .faulted := hfaulted
      rw [exec_unbindChannel_of_inHand hin, hbinding]
      rfl
    · have hbinding : (s.chan (cmd.chanArg 3)).binding = .unbound := hunbound
      rw [exec_unbindChannel_of_inHand hin, hbinding]

end Sys2Proof.Machine
end

section
/-! READ_CONTEXT and SYNC_CONTEXTS. -/

namespace Sys2Proof.Machine

/-! ### The queue is examined after the work of a command has begun (R165) -/

section Examined

variable {s t : State} {cmd q : Cell} {rest : List Cell}

theorem State.SameQueue.examineQueue_of_none (h : s.SameQueue t) (hnone : s.NoneOutOfTurn) : t.examineQueue = t :=
  State.examineQueue_of_none (h.noneOutOfTurn hnone)

theorem State.SameQueue.examineQueue_of_givesWay (h : s.SameQueue t) (hgives : s.GivesWay q rest)
    (hstate : t.ma.state = .working cmd true) :
    t.examineQueue = State.answering { t with ma := { t.ma with queue := rest } } q 0 [] :=
  State.examineQueue_of_givesWay hstate (h.givesWay hgives)

theorem State.examineQueue_of_answering {r : Reply} (h : t.ma.state = .answering r) : t.examineQueue = t :=
  State.examineQueue_of_not_long fun _ hlong => AgentState.noConfusion (h.symm.trans hlong)

end Examined

/-! ### READ_CONTEXT (R86, R190) -/

section Read

variable {s : State} {cmd q : Cell} {rest : List Cell} {c : Chan} {part : Fin 4}

theorem exec_readContext_of_served (hin : s.InHand codeReadContext cmd) (hpart : (cmd.arg8 4).toNat = part.val)
    (hconf : s.ma.nodeState ≠ .unconfigured) :
    exec .readContext s = .next (State.settle (s.serveContextRead cmd (cmd.chanArg 3) part) s) := by
  refine (State.liveSettled_command_of_inHand hin).trans ?_
  rw [Cell.index_of_val hpart]
  exact congrArg (fun t => Host.Outcome.next (State.settle t s)) (if_neg hconf)

theorem exec_readContext_of_no_part (hin : s.InHand codeReadContext cmd) (h : 4 ≤ (cmd.arg8 4).toNat) :
    exec .readContext s = .next (State.settle (s.answering cmd 3 []) s) := by
  refine (State.liveSettled_command_of_inHand hin).trans ?_
  rw [Cell.index_of_beyond h]
  rfl

theorem exec_readContext_of_unconfigured (hin : s.InHand codeReadContext cmd) (h : (cmd.arg8 4).toNat < 4)
    (hconf : s.ma.nodeState = .unconfigured) :
    exec .readContext s = .next (State.settle (s.answering cmd 6 []) s) := by
  refine (State.liveSettled_command_of_inHand hin).trans ?_
  rw [Cell.index_of_val (i := ⟨(cmd.arg8 4).toNat, h⟩) rfl]
  exact congrArg (fun t => Host.Outcome.next (State.settle t s)) (if_pos hconf)

theorem State.serveContextRead_of_cached {e : EntryId} {v : ValidEntry} (hres : (s.chan c).residence = .cached e)
    (hentry : s.entry e = .valid v) (hown : v.channel = c) :
    s.serveContextRead cmd c part = s.answer cmd .ok (imagePart v.ctx.image part) := by
  rw [State.serveContextRead, hres]
  dsimp only
  rw [State.context_of_valid hres hentry hown]

theorem State.serveContextRead_of_fetching (hres : (s.chan c).residence = .fetching) :
    s.serveContextRead cmd c part = (s.awaitContext c part .fill).goLong cmd := by
  rw [State.serveContextRead, hres]

theorem State.serveContextRead_of_writeback (hres : (s.chan c).residence = .writeback) :
    s.serveContextRead cmd c part = (s.awaitContext c part .writeBack).goLong cmd := by
  rw [State.serveContextRead, hres]

theorem State.serveContextRead_of_stored (hres : (s.chan c).residence = .stored)
    (h : ¬ ((s.chan c).binding = .bound ∧ (s.chan c).fresh = true)) :
    s.serveContextRead cmd c part = (s.readStore c part).goLong cmd := by
  rw [State.serveContextRead, hres]
  exact if_neg h

theorem State.serveContextRead_of_fresh (hres : (s.chan c).residence = .stored)
    (h : (s.chan c).binding = .bound ∧ (s.chan c).fresh = true) : s.serveContextRead cmd c part =
      (((s.agentTo (.working cmd true)).awaitContext c part .fill).fetchRequest c).examineQueue := by
  rw [State.serveContextRead, hres]
  exact if_pos h

theorem State.awaitContext_sameQueue (stage : CtxReadStage) : s.SameQueue (s.awaitContext c part stage) :=
  ⟨rfl, rfl, rfl⟩

theorem State.readStore_sameQueue : s.SameQueue (s.readStore c part) := ⟨rfl, rfl, rfl⟩

/-- The state in which a READ_CONTEXT awaits a stage of its channel as a long command. -/
def State.waitsLong (s : State) (cmd : Cell) (c : Chan) (part : Fin 4) (stage : CtxReadStage) : State :=
  (s.agentTo (.working cmd true)).awaitContext c part stage

theorem State.fetchRequest_sameQueue : s.SameQueue ((s.waitsLong cmd c part .fill).fetchRequest c) :=
  (⟨rfl, rfl, rfl⟩ : s.SameQueue (s.waitsLong cmd c part .fill)).trans
    (.of_moves (State.moves_fetchRequest (State.Moves.refl _) c))

/-- A fetch that a READ_CONTEXT awaits leaves it a long command or has answered it. -/
theorem State.fetchRequest_waitsLong_state : ((s.waitsLong cmd c part .fill).fetchRequest c).ma.state =
    .working cmd true ∨ ∃ r, ((s.waitsLong cmd c part .fill).fetchRequest c).ma.state = .answering r :=
  (State.moves_fetchRequest (State.Moves.refl (s.waitsLong cmd c part .fill)) c).agent

theorem State.chooseEntry_of_free {e : EntryId} (hfree : s.entry e = .free)
    (hlow : ∀ f, f.val < e.val → s.entry f ≠ .free) : s.chooseEntry = some e := by
  have hfind : (allOf 16).find? s.isFree = some e := find?_allOf_eq_some_iff.2
    ⟨(s.isFree_iff e).2 hfree, fun f hf => Bool.eq_false_iff.2 (mt (s.isFree_iff f).1 (hlow f hf))⟩
  rw [State.chooseEntry, hfind]
  rfl

theorem State.fetchRequest_of_fresh_free {e : EntryId} (huse : (s.chan c).InUse) (hres : (s.chan c).residence = .stored)
    (hfresh : (s.chan c).fresh = true) (hlist : s.xc.waitList = []) (hfree : s.entry e = .free)
    (hlow : ∀ f, f.val < e.val → s.entry f ≠ .free) :
    s.fetchRequest c = (s.reside c .fetching).installFresh e c := by
  have hnew : c ∉ s.xc.waitList := by rw [hlist]; exact List.not_mem_nil
  have hstill : ((s.reside c .fetching).chan c).fresh = true := by
    rw [State.reside, State.onChan_chan, if_pos rfl]
    exact hfresh
  rw [State.fetchRequest_of_stored huse hres hnew, hlist, State.chooseEntry_of_free hfree hlow]
  exact (State.useEntry_of_free hfree).trans (State.startFill_of_fresh hstill)

/-- The fresh context that a READ_CONTEXT awaited is on chip, and the command is answered from it (R70, R86). -/
theorem State.installFresh_of_awaited {e : EntryId} (hread : s.xc.ctxRead = some { channel := c, part, stage := .fill })
    (hstate : s.ma.state = .working cmd true) (hcode : cmd.code = codeReadContext) :
    ∃ w : State, s.installFresh e c = w.answer cmd .ok (imagePart ({} : Context).image part) ∧ w.ma = s.ma ∧
      w.xc.ctxRead = none ∧ (w.chan c).residence = .cached e ∧ (w.chan c).fresh = false ∧ w.context c = some {} := by
  let fresh := s.onChan c fun ch => { ch with fresh := false, poolReset := false }
  let v : ValidEntry := { channel := c, ctx := {}, dirty := true, newlyFilled := fresh.hasWork c }
  let w := ((fresh.setEntry e (.valid v)).onXc fun xc =>
    { xc with recency := xc.recency.filter (· != e) ++ [e] }).reside c (.cached e)
  have hres : (w.chan c).residence = .cached e := congrArg Channel.residence (tget_tmod_self ..)
  have hentry : w.entry e = .valid v := tget_tset_self ..
  have hfresh : (w.chan c).fresh = false :=
    (congrArg Channel.fresh (tget_tmod_self ..)).trans (congrArg Channel.fresh (tget_tmod_self ..))
  refine ⟨w.onXc fun xc => { xc with ctxRead := none }, ?_, rfl, rfl, hres, hfresh,
    State.context_of_valid hres hentry rfl⟩
  exact (State.contextArrived_of_awaiting (s := w) hread).trans
    (State.finishLong_of_working (code := codeReadContext) (w.onXc fun xc => { xc with ctxRead := none }) hstate hcode _ _)

/-- Every part of the image of a fresh context is zero. -/
theorem imagePart_of_fresh (part : Fin 4) :
    imagePart ({} : Context).image part = List.replicate (if part = 3 then 4 else 36) 0 := by
  revert part
  decide

/-- A READ_CONTEXT of a fresh channel that is given a FREE entry is over in its own step (R86). -/
theorem State.serveContextRead_of_fresh_free {e : EntryId} (hbound : (s.chan c).binding = .bound)
    (hfresh : (s.chan c).fresh = true) (hres : (s.chan c).residence = .stored) (hlist : s.xc.waitList = [])
    (hfree : s.entry e = .free) (hlow : ∀ f, f.val < e.val → s.entry f ≠ .free) (hcode : cmd.code = codeReadContext) :
    ∃ w : State, s.serveContextRead cmd c part = w.answer cmd .ok (List.replicate (if part = 3 then 4 else 36) 0) ∧
      w.ma = { s.ma with state := .working cmd true } ∧ w.xc.ctxRead = none ∧ (w.chan c).residence = .cached e ∧
      (w.chan c).fresh = false ∧ w.context c = some {} := by
  have hfetch : (s.waitsLong cmd c part .fill).fetchRequest c =
      ((s.waitsLong cmd c part .fill).reside c .fetching).installFresh e c :=
    State.fetchRequest_of_fresh_free (s := s.waitsLong cmd c part .fill) (.inl hbound) hres hfresh hlist hfree hlow
  obtain ⟨w, hw, hstate⟩ := State.installFresh_of_awaited (e := e) (c := c) (part := part)
    (s := (s.waitsLong cmd c part .fill).reside c .fetching) rfl rfl hcode
  refine ⟨w, ?_, hstate⟩
  rw [State.serveContextRead_of_fresh hres ⟨hbound, hfresh⟩, ← imagePart_of_fresh]
  exact (congrArg State.examineQueue (hfetch.trans hw)).trans (State.examineQueue_of_answering rfl)

theorem State.give_ctxRead (hwait : s.ma.state ≠ .resetWait) (a : Answer) (bytes : List Byte) :
    s.give .ctxRead a bytes = s.ctxReadAnswered a bytes := by
  unfold State.give
  rw [State.halted_of_ne hwait]
  rfl

/-- The answer of the store ends the READ_CONTEXT with one status or the other. -/
theorem State.ctxReadAnswered_eq (a : Answer) (bytes : List Byte) : s.ctxReadAnswered a bytes =
    (s.onXc fun xc => { xc with ctxRead := none }).finishLong codeReadContext (if a = .ok then .ok else .memerr)
      (if a = .ok then bytes else []) := by
  rw [State.ctxReadAnswered]
  split <;> rfl

end Read

/-! ### SYNC_CONTEXTS (R84, R85, R191) -/

section Sync

variable {s : State} {cmd : Cell} {e : EntryId} {c : Chan} {rest : List (EntryId × Chan)} {v : ValidEntry}

theorem State.mem_dirtyEntries : (e, c) ∈ s.dirtyEntries ↔
    ∃ v, s.entry e = .valid v ∧ v.dirty = true ∧ v.channel = c := by
  simp only [State.dirtyEntries, List.mem_filterMap, allOf, List.mem_finRange, true_and]
  constructor
  · rintro ⟨f, hf⟩
    split at hf
    case h_1 v hv =>
      split at hf
      case isTrue hdirty =>
        cases hf
        exact ⟨v, hv, hdirty, rfl⟩
      case isFalse => cases hf
    all_goals cases hf
  · rintro ⟨v, hv, hdirty, rfl⟩
    exact ⟨e, by rw [hv]; exact if_pos hdirty⟩

theorem State.dirtyEntries_pairwise : s.dirtyEntries.Pairwise fun a b => a.1 < b.1 := by
  rw [State.dirtyEntries, List.pairwise_filterMap]
  refine (List.pairwise_lt_finRange 16).imp fun {i j} hij a ha b hb => ?_
  have hentry : ∀ {i : EntryId} {x : EntryId × Chan}, (match s.entry i with
      | .valid v => if v.dirty then some (i, v.channel) else none
      | .free => none
      | .filling _ => none
      | .writing _ _ _ => none) = some x → x.1 = i := by
    intro i x h
    split at h
    case h_1 =>
      split at h <;> cases h
      rfl
    all_goals cases h
  rw [hentry ha, hentry hb]
  exact hij

theorem State.syncNext_of_dirty (h : s.entry e = .valid v) (hown : v.channel = c) (hdirty : v.dirty = true) :
    s.syncNext ((e, c) :: rest) = ((s.onXc fun xc => { xc with syncSet := rest }).setEntry e
      (.valid { v with syncing := true, changed := false })).requestWrite .ctx (imageAddr s.xc.storeBase c) v.ctx.image
        (.syncWrite e c) := by
  rw [State.syncNext, h]
  exact if_pos ⟨hown, hdirty⟩

theorem State.syncNext_of_not_dirty (h : ¬ ∃ v, s.entry e = .valid v ∧ v.channel = c ∧ v.dirty = true) :
    s.syncNext ((e, c) :: rest) = s.syncNext rest := by
  rw [State.syncNext]
  split
  case h_1 v hv => exact if_neg fun hboth => h ⟨v, hv, hboth⟩
  all_goals rfl

theorem State.syncNext_nil_of_working (hstate : s.ma.state = .working cmd true) (hcode : cmd.code = codeSyncContexts) :
    s.syncNext [] = (s.onXc fun xc => { xc with syncSet := [] }).answer cmd .ok [] :=
  State.finishLong_of_working (code := codeSyncContexts) (s.onXc fun xc => { xc with syncSet := [] }) hstate hcode _ _

theorem exec_syncContexts_of_running (hin : s.InHand codeSyncContexts cmd) (hrun : s.ma.nodeState = .running) :
    exec .syncContexts s =
      .next (State.settle ((s.agentTo (.working cmd true)).syncNext s.dirtyEntries).examineQueue s) :=
  (State.liveSettled_command_of_inHand hin).trans
    (congrArg (fun t => Host.Outcome.next (State.settle t s)) (if_neg (not_not.2 hrun)))

theorem State.give_syncWrite (hwait : s.ma.state ≠ .resetWait) (a : Answer) (bytes : List Byte) :
    s.give (.syncWrite e c) a bytes = s.syncAnswered e c a := by
  unfold State.give
  rw [State.halted_of_ne hwait]
  rfl

theorem State.syncAnswered_ok (h : s.entry e = .valid v) (hown : v.channel = c) (hsync : v.syncing = true) :
    s.syncAnswered e c .ok =
      (s.setEntry e (.valid { v with syncing := false, changed := false, dirty := v.changed })).syncNext s.xc.syncSet := by
  rw [State.syncAnswered, h]
  exact if_pos ⟨hown, hsync⟩

theorem State.channelFault_syncSet (s : State) (c : Chan) (detail : Nat) (aux : Word) :
    (s.channelFault c detail aux).xc.syncSet = s.xc.syncSet := by
  rw [State.channelFault_same (g := fun t => t.xc.syncSet) s c detail aux (fun _ _ => rfl) fun _ _ => rfl,
    State.raise_xc, State.losesMessage_xc]

theorem State.syncAnswered_failed (h : s.entry e = .valid v) (hown : v.channel = c) (hsync : v.syncing = true)
    {a : Answer} (ha : a ≠ .ok) : s.syncAnswered e c a =
      (((s.setEntry e .free).leaveRecency e).channelFault c 2 a.aux).syncNext s.xc.syncSet := by
  rw [State.syncAnswered, h]
  refine (if_pos ⟨hown, hsync⟩).trans ?_
  rw [if_neg ha]
  exact congrArg _ (State.channelFault_syncSet ..)

end Sync

/-- Settles O54: READ_CONTEXT by the residence it finds and what the queue holds; SYNC_CONTEXTS and its answers by the
set that is left. -/
theorem contextsAreReadAndSynchronised : Obligations.ContextsAreReadAndSynchronised := by
  refine ⟨fun s cmd part hin hpart hconf => ?readContext, fun s cmd hin h => exec_readContext_of_no_part hin h,
    fun s cmd hin h hconf => exec_readContext_of_unconfigured hin (Nat.lt_succ_iff.2 h) hconf,
    fun s cmd a bytes hstate hcode => ?answered, fun s a bytes hwait hnone => ?abandoned,
    fun s cmd hin hrun => ?sync, fun s => ⟨fun e c => State.mem_dirtyEntries, State.dirtyEntries_pairwise⟩,
    fun s cmd hin hrun => ?idle, fun s e c v hwait hentry hown hsync => ?written, fun s e c rest => ?member, fun s => ?last⟩
  case readContext =>
    intro c start n idle anew waiting
    have hserved : exec .readContext s = .next (State.settle (s.serveContextRead cmd c part) s) :=
      exec_readContext_of_served hin hpart hconf
    have hfetched : (s.waitsLong cmd c part .fill).fetchRequest c = (waiting .fill).fetchRequest c := rfl
    refine ⟨fun e v hres hentry hown => ?_, fun hres hidle hnot => ?_, fun hres hidle hanew => ?_,
      fun e hres hanew hlist hfree hlow => ?_, fun hres hidle => ?_, fun hres hidle => ?_, fun q rest hgives => ?_⟩
    · rw [hserved, State.serveContextRead_of_cached hres hentry hown]
      rfl
    · rw [hserved, State.serveContextRead_of_stored hres hnot, State.goLong_of_none State.readStore_sameQueue hidle]
      rfl
    · rw [hserved, State.serveContextRead_of_fresh hres hanew]
      exact congrArg (fun t => Host.Outcome.next (State.settle t s))
        (State.fetchRequest_sameQueue.examineQueue_of_none hidle)
    · obtain ⟨hbound, hfresh⟩ := hanew
      have ⟨_, _, hcode⟩ := hin
      obtain ⟨w, hw, hma, hread, hcached, hnew, hcontext⟩ := State.serveContextRead_of_fresh_free (part := part)
        hbound hfresh hres hlist hfree hlow hcode
      refine ⟨w.answer cmd .ok (List.replicate n 0), by rw [hserved, hw], ?_, hread, hcached, hnew, hcontext⟩
      let r : Reply := { cmd, payload := replyPayload cmd .ok (List.replicate n 0), executed := true }
      exact congrArg (fun ma : Agent => { ma with state := .answering r }) hma
    · rw [hserved, State.serveContextRead_of_fetching hres, State.goLong_of_none (State.awaitContext_sameQueue _) hidle]
      rfl
    · rw [hserved, State.serveContextRead_of_writeback hres, State.goLong_of_none (State.awaitContext_sameQueue _) hidle]
      rfl
    · intro gave fetched
      refine ⟨fun hres hnot => ?_, fun hres hanew => ?_, fun hres => ?_, fun hres => ?_⟩
      · rw [hserved, State.serveContextRead_of_stored hres hnot,
          State.goLong_of_givesWay State.readStore_sameQueue hgives]
        rfl
      · rw [hserved, State.serveContextRead_of_fresh hres hanew]
        refine congrArg (fun t => Host.Outcome.next (State.settle t s)) ?_
        by_cases hlong : fetched.ma.state = .working cmd true
        · rw [if_pos hlong]
          exact State.fetchRequest_sameQueue.examineQueue_of_givesWay hgives hlong
        · rw [if_neg hlong]
          obtain h | ⟨r, hr⟩ := State.fetchRequest_waitsLong_state (s := s) (cmd := cmd) (c := c) (part := part)
          · exact absurd h hlong
          · exact State.examineQueue_of_answering hr
      · rw [hserved, State.serveContextRead_of_fetching hres,
          State.goLong_of_givesWay (State.awaitContext_sameQueue _) hgives]
        rfl
      · rw [hserved, State.serveContextRead_of_writeback hres,
          State.goLong_of_givesWay (State.awaitContext_sameQueue _) hgives]
        rfl
  case answered =>
    have hwait : s.ma.state ≠ .resetWait := fun h => AgentState.noConfusion (hstate.symm.trans h)
    rw [State.give_ctxRead hwait, State.ctxReadAnswered_eq,
      State.finishLong_of_working (code := codeReadContext) (s.onXc fun xc => { xc with ctxRead := none }) hstate hcode]
    split <;> rfl
  case abandoned =>
    rw [State.give_ctxRead hwait, State.ctxReadAnswered_eq]
    exact State.finishLong_of_none (code := codeReadContext) (s.onXc fun xc => { xc with ctxRead := none }) hnone _ _
  case sync =>
    have ⟨_, _, hcode⟩ := hin
    refine ⟨fun hempty => ?_, fun e c rest v hset hentry => ?_⟩
    · rw [exec_syncContexts_of_running hin hrun, hempty,
        State.syncNext_nil_of_working (s := s.agentTo (.working cmd true)) rfl hcode]
      exact congrArg (fun t => Host.Outcome.next (State.settle t s)) (State.examineQueue_of_answering rfl)
    · intro begun
      obtain ⟨w, hw, hdirty, hown⟩ := State.mem_dirtyEntries.1 (hset ▸ List.mem_cons_self : (e, c) ∈ s.dirtyEntries)
      obtain rfl : v = w := CacheEntry.valid.inj (hentry.symm.trans hw)
      have hnext := State.syncNext_of_dirty (s := s.agentTo (.working cmd true)) (rest := rest) hentry hown hdirty
      have hsame : s.SameQueue (begun { s.ma with state := .working cmd true }) := ⟨rfl, rfl, rfl⟩
      refine ⟨hown, hdirty, fun hnone => ?_, fun q left hgives => ?_⟩
      · rw [exec_syncContexts_of_running hin hrun, hset, hnext]
        exact congrArg (fun t => Host.Outcome.next (State.settle t s)) (hsame.examineQueue_of_none hnone)
      · rw [exec_syncContexts_of_running hin hrun, hset, hnext]
        exact congrArg (fun t => Host.Outcome.next (State.settle t s)) (hsame.examineQueue_of_givesWay hgives rfl)
  case idle =>
    exact (State.liveSettled_command_of_inHand (code := codeSyncContexts) hin).trans
      (congrArg (fun t => Host.Outcome.next (State.settle t s)) (if_pos hrun))
  case written =>
    refine ⟨?_, fun a ha => ?_⟩
    · rw [State.give_syncWrite hwait, State.syncAnswered_ok hentry hown hsync]
      rfl
    · rw [State.give_syncWrite hwait, State.syncAnswered_failed hentry hown hsync ha, Answer.aux_eq]
      rfl
  case member =>
    intro dirty
    exact ⟨State.syncNext_of_not_dirty, fun v hentry hown hdirty => State.syncNext_of_dirty hentry hown hdirty⟩
  case last =>
    exact ⟨fun cmd hstate hcode => State.syncNext_nil_of_working hstate hcode, fun hnone =>
      State.finishLong_of_none (code := codeSyncContexts) (s.onXc fun xc => { xc with syncSet := [] }) hnone _ _⟩

end Sys2Proof.Machine
end

section
/-! The node state commands, the steps of a stop and its drain. -/

namespace Sys2Proof.Machine

/-! ### START and NODE_RESET (R168, R192, R193) -/

section Start

variable {s : State} {cmd : Cell}

theorem exec_start_of_stopped (hin : s.InHand codeStart cmd) (h : s.ma.nodeState = .stopped) :
    exec .start s = .next ((s.nodeTo .running).pollAll.answering cmd 0 []) :=
  (State.live_command_of_inHand hin).trans (congrArg Host.Outcome.next (if_neg (not_not.2 h)))

theorem exec_start_of_not_stopped (hin : s.InHand codeStart cmd) (h : s.ma.nodeState ≠ .stopped) :
    exec .start s = .next (s.answering cmd 5 []) :=
  (State.live_command_of_inHand hin).trans (congrArg Host.Outcome.next (if_pos h))

/-- The change of the node state raises its event with the state left. -/
theorem State.nodeTo_of_state {m : NodeState} (h : s.ma.nodeState = m) (n : NodeState) : s.nodeTo n =
    State.raise { s with ma := { s.ma with nodeState := n } } .nodeState 0 n.code (BitVec.ofNat 32 m.code) := by
  rw [State.nodeTo, h]
  rfl

theorem State.nodeTo_agent (n : NodeState) : (s.nodeTo n).ma = { s.ma with nodeState := n } := by
  rw [State.nodeTo, State.raise_ma]
  rfl

end Start

/-! ### STOP (R58, R129, R167) -/

section Stop

variable {s : State} {cmd : Cell}

/-- What STOP does at once: the node is STOPPING, the rings leave their lock queues, the receive side discards and
fetches. -/
def State.stopped (s : State) : State :=
  ((s.onMa fun ma => { ma with nodeState := .stopping }).leaveLockQueues).stopReceive

theorem exec_stop_of_running (hin : s.InHand codeStop cmd) (h : s.ma.nodeState = .running) :
    exec .stop s = .next (State.settle (s.stopped.goLong cmd) s) :=
  (State.liveSettled_command_of_inHand hin).trans
    (congrArg (fun t => Host.Outcome.next (State.settle t s)) (if_neg (not_not.2 h)))

theorem exec_stop_of_not_running (hin : s.InHand codeStop cmd) (h : s.ma.nodeState ≠ .running) :
    exec .stop s = .next (State.settle (s.answering cmd 5 []) s) :=
  (State.liveSettled_command_of_inHand hin).trans
    (congrArg (fun t => Host.Outcome.next (State.settle t s)) (if_pos h))

theorem State.stopReceive_sameQueue : s.SameQueue s.stopReceive := by
  have hfetches : s.stopHolding.Moves s.stopReceive := by
    refine State.moves_forAll 256 _ (fun c t ht => ?_) (State.Moves.refl _)
    split
    · exact State.moves_fetchRequest ht c
    · exact ht
  exact State.SameQueue.trans (t := s.stopHolding) ⟨rfl, rfl, rfl⟩ (.of_moves hfetches)

theorem State.stopped_sameQueue : s.SameQueue s.stopped :=
  State.SameQueue.trans (t := (s.onMa fun ma => { ma with nodeState := .stopping }).leaveLockQueues) ⟨rfl, rfl, rfl⟩
    State.stopReceive_sameQueue

/-- The receive side as a stop leaves it before the fetches: no held cell, no pending abort, no scan (R58). -/
def State.discarded (s : State) : State :=
  { s with
    re := { s.re with hold := [], channels := s.re.channels.map fun ch => { ch with pendingAbort := .none }
                      scanOpen := false, scanned := [] }
    counters := { s.counters with datapathOff := s.counters.datapathOff + BitVec.ofNat 32 s.re.hold.length } }

theorem State.discarded_chan (c : Chan) : s.discarded.chan c = { s.chan c with pendingAbort := .none } := tget_map ..

theorem State.stopHolding_eq : s.stopHolding = s.discarded.endNewlyFilled := by
  have hcount : s.heldCount (fun _ => true) = BitVec.ofNat 32 s.re.hold.length := by
    rw [State.heldCount, List.countP_true]
  have hnone : s.re.hold.filter (fun _ => !true) = [] := List.filter_false _
  rw [State.stopHolding, hcount]
  exact congrArg (fun l => State.endNewlyFilled { s.discarded with re := { s.discarded.re with hold := l } }) hnone

/-- With no held cell and no pending abort left, the work for a channel is the close it owes (R67). -/
theorem State.discarded_hasWork (c : Chan) : s.discarded.hasWork c = s.closeOwed c := by
  have hheld : s.discarded.holds c = false := rfl
  have howed : s.discarded.closeOwed c = s.closeOwed c := by
    rw [State.closeOwed, State.discarded_chan]
    rfl
  rw [State.hasWork, State.discarded_chan, hheld, howed]
  rfl

/-- An entry of a stop's first moment: newly filled as long as its channel owes a close (R67). -/
def CacheEntry.keptNew (owed : Chan → Bool) : CacheEntry → CacheEntry
  | .valid v => .valid { v with newlyFilled := v.newlyFilled && owed v.channel }
  | .free => .free
  | .filling d => .filling d
  | .writing d claimant note => .writing d claimant note

theorem State.stopHolding_eq_kept : s.stopHolding =
    s.discarded.onXc fun xc => { xc with entries := xc.entries.map (CacheEntry.keptNew s.closeOwed) } := by
  have hentries : s.discarded.endNewlyFilled.xc.entries = s.xc.entries.map (CacheEntry.keptNew s.closeOwed) := by
    refine Vector.map_congr_left fun x _ => ?_
    cases x with
    | valid v =>
      simp only [State.discarded_hasWork]
      rfl
    | free => rfl
    | filling d => rfl
    | writing d claimant note => rfl
  rw [State.stopHolding_eq]
  exact congrArg (fun l => { s.discarded with xc := { s.xc with entries := l } }) hentries

end Stop

/-! ### The work of a stop (R58, R80, R87) -/

section Work

variable {s : State} {c : Chan}

theorem State.closeOwed_iff : s.closeOwed c = true ↔ (s.chan c).msgOpen = true ∧
    ((s.chan c).binding = .unbinding ∨ ((s.chan c).binding = .bound ∧ s.ma.nodeState = .stopping)) := by
  simp only [State.closeOwed, Bool.and_eq_true, Bool.or_eq_true, beq_iff_eq]

theorem State.owedWork_of_waiting (h : (s.chan c).op ≠ none) : s.owedWork c = s := if_pos ((Channel.waiting_iff _).2 h)

/-- A channel on its way to or from the store waits for that. -/
theorem State.owedWork_of_under_way (h : (s.chan c).residence = .fetching ∨ (s.chan c).residence = .writeback) :
    s.owedWork c = s := by
  unfold State.owedWork
  obtain h | h := h
  all_goals
    simp only [h, ite_self]

theorem State.owedWork_of_nothing_owed (h : s.closeOwed c = false) (hbinding : (s.chan c).binding ≠ .unbinding) :
    s.owedWork c = s := by
  unfold State.owedWork
  simp only [h, Bool.false_eq_true, if_false, hbinding, ite_self]

/-- The channel owes the stop a close: it is BOUND with a message open, and the node is STOPPING (R58). -/
def State.StopOwed (s : State) (c : Chan) : Prop :=
  (s.chan c).binding = .bound ∧ s.ma.nodeState = .stopping ∧ (s.chan c).msgOpen = true

theorem State.closeOwed_of_stopOwed (h : s.StopOwed c) : s.closeOwed c = true := by
  obtain ⟨hbound, hstop, hopen⟩ := h
  exact State.closeOwed_iff.2 ⟨hopen, .inr ⟨hbound, hstop⟩⟩

theorem State.closeOwed_of_not_stopOwed (h : ¬ s.StopOwed c) (hbinding : (s.chan c).binding ≠ .unbinding) :
    s.closeOwed c = false := by
  refine Bool.eq_false_iff.2 fun hclose => h ?_
  obtain ⟨hopen, hwhy⟩ := State.closeOwed_iff.1 hclose
  obtain ⟨hbound, hstop⟩ := hwhy.resolve_left hbinding
  exact ⟨hbound, hstop, hopen⟩

/-- The close that a cached channel owes to a stop has the status STOPPED, and waits for its pool (R58). -/
theorem State.owedWork_of_stopOwed {e : EntryId} (h : s.StopOwed c) (hop : (s.chan c).op = none)
    (hres : (s.chan c).residence = .cached e) : s.owedWork c =
      if (s.pool (s.chan c).pool).state = .active then (s.touch c).beginClose c .stopped .owner else s := by
  have hbinding : (s.chan c).binding ≠ .unbinding := by
    obtain ⟨hbound, -⟩ := h
    rw [hbound]
    exact Binding.noConfusion
  rw [State.owedWork_of_closeOwed hop (State.closeOwed_of_stopOwed h), hres]
  dsimp only
  rw [if_neg hbinding]

/-- The channels with no work that can begin now. -/
theorem State.owedWork_of_resting (h : (s.chan c).op ≠ none ∨ (¬ s.StopOwed c ∧ (s.chan c).binding ≠ .unbinding) ∨
    (s.chan c).residence = .fetching ∨ (s.chan c).residence = .writeback ∨
    ((s.chan c).binding = .unbinding ∧ (s.chan c).msgOpen = false ∧ (s.chan c).residence = .stored)) :
    s.owedWork c = s := by
  obtain hop | ⟨hnot, hbinding⟩ | hres | hres | ⟨hbinding, hopen, hres⟩ := h
  · exact State.owedWork_of_waiting hop
  · exact State.owedWork_of_nothing_owed (State.closeOwed_of_not_stopOwed hnot hbinding) hbinding
  · exact State.owedWork_of_under_way (.inl hres)
  · exact State.owedWork_of_under_way (.inr hres)
  · by_cases hop : (s.chan c).op = none
    · have hclose : s.closeOwed c = false := (State.closeOwed_of_unbinding hbinding).trans hopen
      rw [State.owedWork_of_unbinding hop hclose hbinding, hres]
    · exact State.owedWork_of_waiting hop

theorem State.messagesClosed_iff : s.messagesClosed = true ↔
    ∀ c, (s.chan c).msgOpen = false ∧ ((s.chan c).binding = .bound → (s.chan c).op = none) := by
  simp only [State.messagesClosed, List.all_eq_true, allOf, List.mem_finRange, forall_const, Bool.and_eq_true,
    Bool.not_eq_true', Bool.and_eq_false_imp, beq_iff_eq, Channel.waiting_eq_false_iff]

theorem State.freeEntry_of_not_valid {e : EntryId} (h : ∀ v, s.entry e ≠ .valid v) : s.freeEntry e = s := by
  rw [State.freeEntry]
  split
  case h_1 v hv => exact absurd hv (h v)
  all_goals rfl

end Work

/-! ### The drain (R167) -/

section Drain

variable {s : State} {cmd : Cell}

theorem State.receiveDrained_iff : s.receiveDrained = true ↔
    (∀ c, (s.chan c).msgOpen = false) ∧ (∀ e, s.entry e = .free) ∧ s.xc.waitList = [] := by
  simp only [State.receiveDrained, Bool.and_eq_true, List.all_eq_true, allOf, List.mem_finRange, forall_const,
    Bool.not_eq_true', s.isFree_iff, List.isEmpty_iff, and_assoc]

theorem State.transmitDrained_iff : s.transmitDrained = true ↔
    ∀ r, (s.ring r).state ≠ .sending ∧ (s.ring r).access = none := by
  simp only [State.transmitDrained, List.all_eq_true, allOf, List.mem_finRange, forall_const, Bool.and_eq_true,
    bne_iff_ne, Option.isNone_iff_eq_none]

theorem exec_stopDrainComplete_of_long (hreset : s.inReset = false) (hstate : s.ma.state = .working cmd true)
    (hcode : cmd.code = codeStop) : exec .stopDrainComplete s = .next (
      if s.ma.nodeState = .stopping ∧ s.receiveDrained = true ∧ s.transmitDrained = true then
        (s.nodeTo .stopped).answering cmd 0 []
      else s) := by
  refine (State.next_of_not_inReset hreset).trans (congrArg Host.Outcome.next ?_)
  dsimp only
  rw [(s.longInHand_eq_some_iff codeStop cmd).2 ⟨hstate, hcode⟩]
  rfl

theorem exec_stopDrainComplete_of_none (h : ∀ cmd, s.ma.state = .working cmd true → cmd.code ≠ codeStop) :
    exec .stopDrainComplete s = .next s := by
  have hnone : s.longInHand codeStop = none := Option.eq_none_iff_forall_ne_some.2 fun cmd hcmd => by
    obtain ⟨hstate, hcode⟩ := (s.longInHand_eq_some_iff codeStop cmd).1 hcmd
    exact h cmd hstate hcode
  cases hreset : s.inReset
  · refine (State.next_of_not_inReset hreset).trans (congrArg Host.Outcome.next ?_)
    dsimp only
    rw [hnone]
  · exact congrArg Host.Outcome.next (if_pos hreset)

end Drain

/-- Settles O55: the commands by the node state they find, the steps of a stop by what each channel, entry and ring owes. -/
theorem nodeStateCommandsMoveTheNode : Obligations.NodeStateCommandsMoveTheNode := by
  refine ⟨fun s cmd hin => ⟨fun h => ?start, exec_start_of_not_stopped hin⟩, fun s cmd hin => ?stop, fun s => ?receive,
    fun s cmd hreset hstate hcode => ?drain, fun s hnone => exec_stopDrainComplete_of_none hnone,
    fun s cmd hin => State.live_command_of_inHand (code := codeNodeReset) hin, fun s c => ?work, fun s => ?free,
    fun s e => ⟨fun v hv => ?_, State.freeEntry_of_not_valid⟩⟩
  case start =>
    have hma := State.nodeTo_agent (s := s) .running
    have hwait : (s.nodeTo .running).ma.state ≠ .resetWait := by
      obtain ⟨-, hstate, -⟩ := hin
      rw [hma]
      exact fun hr => AgentState.noConfusion (hstate.symm.trans hr)
    have hrun : (s.nodeTo .running).ma.nodeState = .running := by rw [hma]
    rw [exec_start_of_stopped hin h, State.pollAll_of_running hwait hrun, State.nodeTo_of_state h]
    rfl
  case stop =>
    intro begun
    have hbegun : s.stopped = begun := congrArg State.stopReceive rfl
    refine ⟨fun hrun hnone => ?_, fun q rest hrun hgives => ?_, exec_stop_of_not_running hin⟩
    · rw [exec_stop_of_running hin hrun, State.goLong_of_none State.stopped_sameQueue hnone, hbegun]
    · rw [exec_stop_of_running hin hrun, State.goLong_of_givesWay State.stopped_sameQueue hgives, hbegun]
  case receive =>
    intro owed held
    have hheld : s.stopHolding = held := State.stopHolding_eq_kept
    have hreceive : s.stopReceive =
        (List.finRange 256).foldl (fun t c => if (t.chan c).msgOpen then t.fetchRequest c else t) held := by
      rw [← hheld]
      rfl
    refine ⟨hreceive, fun hclosed => hreceive.trans (foldl_of_fixed (fun c => if_neg ?_) _)⟩
    have hopen : (s.discarded.chan c).msgOpen = (s.chan c).msgOpen := by rw [State.discarded_chan]
    have hsame : (held.chan c).msgOpen = (s.discarded.chan c).msgOpen := rfl
    rw [hsame, hopen, hclosed c]
    exact Bool.false_ne_true
  case drain =>
    intro drained
    have hdrained : s.ma.nodeState = .stopping ∧ s.receiveDrained = true ∧ s.transmitDrained = true ↔ drained := by
      rw [State.receiveDrained_iff, State.transmitDrained_iff, and_assoc, and_assoc]
    rw [exec_stopDrainComplete_of_long hreset hstate hcode]
    refine ⟨fun h => ?_, fun h => congrArg Host.Outcome.next (if_neg (mt hdrained.1 h))⟩
    obtain ⟨hstopping, -⟩ := id h
    rw [if_pos (hdrained.2 h), State.nodeTo_of_state hstopping]
    rfl
  case work =>
    intro owes resting
    refine ⟨fun h hop hres => ?_, fun e v h hop hres hentry => ⟨fun hactive => ?_, fun hactive => ?_⟩,
      State.owedWork_of_resting⟩
    · rw [State.owedWork_of_closeOwed hop (State.closeOwed_of_stopOwed h), hres]
    · rw [State.owedWork_of_stopOwed h hop hres, if_pos hactive, State.touch_of_valid hres hentry]
      rfl
    · rw [State.owedWork_of_stopOwed h hop hres, if_neg hactive]
  case free =>
    intro closed
    have hclosed : s.ma.nodeState = .stopping ∧ s.messagesClosed = true ↔ closed := and_congr_right' State.messagesClosed_iff
    exact ⟨fun h => if_pos (hclosed.2 h), fun h => if_neg (mt hclosed.1 h)⟩
  · intro left
    refine ⟨fun hclean => ?_, fun hdirty => ?_⟩
    · rw [State.freeEntry_of_clean hv hclean]
      rfl
    · rw [State.freeEntry_of_dirty hv hdirty]
      rfl

end Sys2Proof.Machine
end
